-- ==== Sys2Proof/Word.lean ====
section
/-! DEFINITION. The words of BZ2EC (00_scope.md rule R8, 20_memory.md rule R46): bytes moved by
the FIFOs, 32-bit values of the register port and of the `C` operand, 64-bit command words. -/

namespace Sys2Proof

/-- One byte of a FIFO or of the block buffer. -/
abbrev Byte := BitVec 8

/-- A 32-bit value: what the register port returns, and the operand field `C`. -/
abbrev Word := BitVec 32

/-- A 64-bit command word (30_encoding.md rule R53). -/
abbrev Command := BitVec 64

end Sys2Proof
end

