-- ==== Sys2Proof/Syntax.lean ====
section
/-! DEFINITION. The command set of BZ2EC (30_encoding.md rules R54 and R56): one constructor per
row of spec/opcode_table.json, each operand at the width its field has. -/

namespace Sys2Proof

/-- A command. Operands are the fields of rule R54; every value of a field is an operand, and the
legality checks (`n`, `bs`, `origPtr`) are the commands' own. -/
inductive Instr where
  /-- `NOP` (R60) -/
  | nop
  /-- `SYS_RESET` (R61) -/
  | sysReset
  /-- `CFG bs` (R62) -/
  | cfg (bs : BitVec 8)
  /-- `SINK_RESET` (R67) -/
  | sinkReset
  /-- `SINK_WRITE n, value` (R68) -/
  | sinkWrite (n : BitVec 8) (value : Word)
  /-- `SINK_FLUSH` (R69) -/
  | sinkFlush
  /-- `SINK_FINISH` (R70) -/
  | sinkFinish
  /-- `SRC_RESET` (R73) -/
  | srcReset
  /-- `SRC_READ n` (R74) -/
  | srcRead (n : BitVec 8)
  /-- `CRC_RESET` (R77) -/
  | crcReset
  /-- `CRC_UPDATE byte` (R78) -/
  | crcUpdate (byte : Byte)
  /-- `CRC_UPDATE_RUN byte, count` (R79) -/
  | crcUpdateRun (byte : Byte) (count : BitVec 16)
  /-- `CRC_COMBINE` (R80) -/
  | crcCombine
  /-- `CRC_FOLD value` (R81) -/
  | crcFold (value : Word)
  /-- `BLK_RESET` (R83) -/
  | blkReset
  /-- `BLK_PUT byte` (R84) -/
  | blkPut (byte : Byte)
  /-- `ENC_MTF` (R88) -/
  | encMtf
  /-- `ENC_TRAIN` (R94) -/
  | encTrain
  /-- `ENC_CODES` (R96) -/
  | encCodes
  /-- `ENC_EMIT` (R99) -/
  | encEmit
  /-- `ENC_STREAM_HDR` (R101) -/
  | encStreamHdr
  /-- `ENC_BLOCK_HDR rand, origPtr` (R102) -/
  | encBlockHdr (rand : BitVec 1) (origPtr : BitVec 24)
  /-- `ENC_TRAILER` (R103) -/
  | encTrailer
  /-- `DEC_RESET` (R104) -/
  | decReset
  /-- `DEC_STREAM_HDR` (R105) -/
  | decStreamHdr
  /-- `DEC_BLOCK_START` (R106) -/
  | decBlockStart
  /-- `DEC_TABLES` (R111) -/
  | decTables
  /-- `DEC_SYMBOLS` (R115) -/
  | decSymbols
  /-- `DEC_IBWT` (R116) -/
  | decIbwt
  /-- `DEC_WALK` (R118) -/
  | decWalk
  /-- `DEC_BLOCK_END` (R119) -/
  | decBlockEnd
  deriving DecidableEq, Repr

end Sys2Proof
end

