-- ==== Sys2Proof/WellFormed.lean ====
section
/-! DEFINITION. Which commands are well formed: those whose immediate operands are in the range
30_encoding.md rule R54 calls legal. An ill-formed command still has an encoding and a meaning
(it faults with `E_OPERAND`); `origPtr` is checked against `LAST` at run time and is no matter of
form. -/

namespace Sys2Proof

/-- Rule R54: "`n = A` ... for `SINK_WRITE` (legal 1..25) and `SRC_READ` (legal 1..32);
`bs = A` for `CFG` (legal 1..9)". -/
def Instr.wellFormed : Instr → Bool
  | .cfg bs => 1 ≤ bs.toNat && bs.toNat ≤ 9
  | .sinkWrite n _ => 1 ≤ n.toNat && n.toNat ≤ 25
  | .srcRead n => 1 ≤ n.toNat && n.toNat ≤ 32
  | .nop => true
  | .sysReset => true
  | .sinkReset => true
  | .sinkFlush => true
  | .sinkFinish => true
  | .srcReset => true
  | .crcReset => true
  | .crcUpdate _ => true
  | .crcUpdateRun _ _ => true
  | .crcCombine => true
  | .crcFold _ => true
  | .blkReset => true
  | .blkPut _ => true
  | .encMtf => true
  | .encTrain => true
  | .encCodes => true
  | .encEmit => true
  | .encStreamHdr => true
  | .encBlockHdr _ _ => true
  | .encTrailer => true
  | .decReset => true
  | .decStreamHdr => true
  | .decBlockStart => true
  | .decTables => true
  | .decSymbols => true
  | .decIbwt => true
  | .decWalk => true
  | .decBlockEnd => true

end Sys2Proof
end

