-- ==== Sys2Proof/Decode.lean ====
section
/-! DEFINITION. The command word (30_encoding.md rules R53 to R57): the decoder, total on every
64-bit word and rejecting by name, and after it the encoder. -/

namespace Sys2Proof

/-- Why a word is no command. -/
inductive DecodeError where
  /-- The opcode is one of the 225 values rule R57 reserves; issuing it raises `E_OPCODE`. -/
  | reservedOpcode
  /-- A bit rule R55 reserves for the opcode is 1; issuing it raises `E_OPERAND`. -/
  | reservedBits
  deriving DecidableEq, Repr

/-- `OP = w[63:56]`. -/
def opField (w : Command) : BitVec 8 := w.extractLsb' 56 8

/-- `A = w[55:48]`. -/
def aField (w : Command) : BitVec 8 := w.extractLsb' 48 8

/-- `B = w[47:32]`. -/
def bField (w : Command) : BitVec 16 := w.extractLsb' 32 16

/-- `C = w[31:0]`. -/
def cField (w : Command) : Word := w.extractLsb' 0 32

/-- The command `i`, if the reserved bits are all 0. -/
def ifReservedZero (zero : Bool) (i : Instr) : Except DecodeError Instr :=
  if zero then .ok i else .error .reservedBits

/-- Whether `C[31:8] = 0`, for the commands whose operand is `byte = C[7:0]`. -/
def byteOnly (c : Word) : Bool := c.extractLsb' 8 24 = 0

/-- The opcode map of rule R56 with the reserved bits of rule R55. -/
def decodeFields (op a : BitVec 8) (b : BitVec 16) (c : Word) : Except DecodeError Instr :=
  match op.toNat with
  | 0x00 => ifReservedZero (a = 0 ∧ b = 0 ∧ c = 0) .nop
  | 0x01 => ifReservedZero (a = 0 ∧ b = 0 ∧ c = 0) .sysReset
  | 0x02 => ifReservedZero (b = 0 ∧ c = 0) (.cfg a)
  | 0x10 => ifReservedZero (a = 0 ∧ b = 0 ∧ c = 0) .sinkReset
  | 0x11 => ifReservedZero (b = 0) (.sinkWrite a c)
  | 0x12 => ifReservedZero (a = 0 ∧ b = 0 ∧ c = 0) .sinkFlush
  | 0x13 => ifReservedZero (a = 0 ∧ b = 0 ∧ c = 0) .sinkFinish
  | 0x18 => ifReservedZero (a = 0 ∧ b = 0 ∧ c = 0) .srcReset
  | 0x19 => ifReservedZero (b = 0 ∧ c = 0) (.srcRead a)
  | 0x20 => ifReservedZero (a = 0 ∧ b = 0 ∧ c = 0) .crcReset
  | 0x21 => ifReservedZero (a = 0 ∧ b = 0 ∧ byteOnly c) (.crcUpdate (c.extractLsb' 0 8))
  | 0x22 => ifReservedZero (a = 0 ∧ byteOnly c) (.crcUpdateRun (c.extractLsb' 0 8) b)
  | 0x23 => ifReservedZero (a = 0 ∧ b = 0 ∧ c = 0) .crcCombine
  | 0x24 => ifReservedZero (a = 0 ∧ b = 0) (.crcFold c)
  | 0x30 => ifReservedZero (a = 0 ∧ b = 0 ∧ c = 0) .blkReset
  | 0x31 => ifReservedZero (a = 0 ∧ b = 0 ∧ byteOnly c) (.blkPut (c.extractLsb' 0 8))
  | 0x32 => ifReservedZero (a = 0 ∧ b = 0 ∧ c = 0) .encMtf
  | 0x33 => ifReservedZero (a = 0 ∧ b = 0 ∧ c = 0) .encTrain
  | 0x34 => ifReservedZero (a = 0 ∧ b = 0 ∧ c = 0) .encCodes
  | 0x35 => ifReservedZero (a = 0 ∧ b = 0 ∧ c = 0) .encEmit
  | 0x38 => ifReservedZero (a = 0 ∧ b = 0 ∧ c = 0) .encStreamHdr
  | 0x39 => ifReservedZero (a.extractLsb' 1 7 = 0 ∧ b = 0 ∧ c.extractLsb' 24 8 = 0)
      (.encBlockHdr (a.extractLsb' 0 1) (c.extractLsb' 0 24))
  | 0x3A => ifReservedZero (a = 0 ∧ b = 0 ∧ c = 0) .encTrailer
  | 0x40 => ifReservedZero (a = 0 ∧ b = 0 ∧ c = 0) .decReset
  | 0x41 => ifReservedZero (a = 0 ∧ b = 0 ∧ c = 0) .decStreamHdr
  | 0x42 => ifReservedZero (a = 0 ∧ b = 0 ∧ c = 0) .decBlockStart
  | 0x43 => ifReservedZero (a = 0 ∧ b = 0 ∧ c = 0) .decTables
  | 0x44 => ifReservedZero (a = 0 ∧ b = 0 ∧ c = 0) .decSymbols
  | 0x45 => ifReservedZero (a = 0 ∧ b = 0 ∧ c = 0) .decIbwt
  | 0x46 => ifReservedZero (a = 0 ∧ b = 0 ∧ c = 0) .decWalk
  | 0x47 => ifReservedZero (a = 0 ∧ b = 0 ∧ c = 0) .decBlockEnd
  | _ => .error .reservedOpcode

/-- Decode a command word. -/
def decode (w : Command) : Except DecodeError Instr :=
  decodeFields (opField w) (aField w) (bField w) (cField w)

/-- The word with the four fields of rule R53. -/
def packWord (op a : BitVec 8) (b : BitVec 16) (c : Word) : Command := op ++ a ++ b ++ c

/-- Encode a command (rule R56); reserved bits are 0. -/
def encode : Instr → Command
  | .nop => packWord 0x00 0 0 0
  | .sysReset => packWord 0x01 0 0 0
  | .cfg bs => packWord 0x02 bs 0 0
  | .sinkReset => packWord 0x10 0 0 0
  | .sinkWrite n value => packWord 0x11 n 0 value
  | .sinkFlush => packWord 0x12 0 0 0
  | .sinkFinish => packWord 0x13 0 0 0
  | .srcReset => packWord 0x18 0 0 0
  | .srcRead n => packWord 0x19 n 0 0
  | .crcReset => packWord 0x20 0 0 0
  | .crcUpdate byte => packWord 0x21 0 0 (byte.setWidth 32)
  | .crcUpdateRun byte count => packWord 0x22 0 count (byte.setWidth 32)
  | .crcCombine => packWord 0x23 0 0 0
  | .crcFold value => packWord 0x24 0 0 value
  | .blkReset => packWord 0x30 0 0 0
  | .blkPut byte => packWord 0x31 0 0 (byte.setWidth 32)
  | .encMtf => packWord 0x32 0 0 0
  | .encTrain => packWord 0x33 0 0 0
  | .encCodes => packWord 0x34 0 0 0
  | .encEmit => packWord 0x35 0 0 0
  | .encStreamHdr => packWord 0x38 0 0 0
  | .encBlockHdr rand origPtr => packWord 0x39 (rand.setWidth 8) 0 (origPtr.setWidth 32)
  | .encTrailer => packWord 0x3A 0 0 0
  | .decReset => packWord 0x40 0 0 0
  | .decStreamHdr => packWord 0x41 0 0 0
  | .decBlockStart => packWord 0x42 0 0 0
  | .decTables => packWord 0x43 0 0 0
  | .decSymbols => packWord 0x44 0 0 0
  | .decIbwt => packWord 0x45 0 0 0
  | .decWalk => packWord 0x46 0 0 0
  | .decBlockEnd => packWord 0x47 0 0 0

/-- The word whose `nbits` low bits are those of `w`, every bit above them 0. The command port is
64 bits wide (20_memory.md rule R44), so no byte order arises. -/
def tableWord (nbits w : Nat) : Command := BitVec.ofNat 64 (w % 2 ^ nbits)

/-- The instruction the decoder reads from a word numbered as spec/opcode_table.json numbers it. -/
def decodeTableWord (nbits w : Nat) : Option Instr :=
  match decode (tableWord nbits w) with
  | .ok i => some i
  | .error _ => none

end Sys2Proof
end

