-- ==== Sys2Proof/Config.lean ====
section
/-! DEFINITION. What is fixed for the block (00_scope.md rules R6 and R7), the OPEN parameter
`RNUMS`, and the free values: every value the spec leaves unspecified is an application of one of
the two body-less constants below, so nothing can be proved about it but what holds for any value. -/

namespace Sys2Proof.Config

/-- The `ID` register (10_state.md rule R17), ASCII "BZ2E". -/
def idValue : Word := 0x425A3245

/-- The default the spec gives the parameter `CRC_POLY` (43_crc.md rule R75). The block's own value
stands in `State.crcPoly` (assumption log 8). -/
def crcPolyDefault : Word := 0x04C11DB7

/-- The seed of `CRC_REG` (43_crc.md rule R76). -/
def crcSeed : Word := 0xFFFFFFFF

/-- The unit of `BLOCKSIZE100K` and `D_BS100K` in bytes (rule R6). -/
def blockUnit : Nat := 100000

/-- `MAX_CODE_LEN` (rule R6). -/
def maxCodeLen : Nat := 20

/-- `G_SIZE`, symbols per selector (rule R6). -/
def groupSize : Nat := 50

/-- `N_ITERS`, training passes, always exactly 4 (rule R7, 90_conflicts.md C4). -/
def nIters : Nat := 4

/-- Row length of the per-table symbol memories `E_LEN`, `E_CODE`, `D_LEN`, `PERM`
(10_state.md rules R35 and R36: `[0..5][0..257]`). -/
def symbolRow : Nat := 258

/-- Row length of `LIMIT` and `BASE` (10_state.md rule R36: `[0..5][0..20]`). -/
def lengthRow : Nat := 21

/-- `LESSER` of rule R91. -/
def lesser : Nat := 0

/-- `GREATER` of rule R91. -/
def greater : Nat := 15

/-- A FREE VALUE: the number drawn in slot `slot` of the `draw`-th draw. It has no body; the
counter `State.freeTick` supplies `draw` (assumption logs 5 and 6). -/
opaque freeNat (draw slot : Nat) : Nat

/-- A FREE VALUE: what element `addr` holds in an internal memory whose contents became
unspecified under the number `seed` and that nothing has written since (assumption log 4). -/
opaque freeCellNat (seed addr : Nat) : Nat

/-- A free value of `w` bits. -/
def freeBits (w draw slot : Nat) : BitVec w := BitVec.ofNat w (freeNat draw slot)

/-- A free memory element of `w` bits. -/
def freeCell (w seed addr : Nat) : BitVec w := BitVec.ofNat w (freeCellNat seed addr)

/-- The OPEN parameter `RNUMS`, uninterpreted (47_bwt_inverse.md rule R117, decision D44;
assumption log 7). -/
opaque rnumsRaw (k : Nat) : Nat

/-- `RNUMS[k]`: any table whose entries lie in 50..999, as rule R117 says. -/
def rnums (k : Nat) : Nat := 50 + rnumsRaw k % 950

end Sys2Proof.Config
end

