-- ==== Sys2Proof/Machine/State.lean ====
section
/-! DEFINITION. The state of BZ2EC as plain data (10_state.md rules R16 to R37, 20_memory.md rules
R38 to R42), the reasons a step can stop, and the state after reset (70_reset_and_hazards.md rules
R134 and R135). -/

namespace Sys2Proof.Machine

/-- The error codes of 60_exceptions.md rule R121, by name. -/
inductive ErrCode where
  | magic
  | blockSize
  | eof
  | table
  | code
  | block
  | blockCrc
  | combinedCrc
  | opcode
  | state
  | operand
  | capacity
  deriving DecidableEq, Repr

/-- The classes of rule R122. -/
inductive ErrClass where
  | malformedStream
  | dataIntegrity
  | usage
  deriving DecidableEq, Repr

/-- `ESTATE` (10_state.md rule R19). The register's values 5..7 never occur. -/
inductive EState where
  | empty
  | loaded
  | mtfDone
  | trained
  | coded
  deriving DecidableEq, Repr

/-- `DSTATE` (10_state.md rule R21). The register's values 9..15 never occur. -/
inductive DState where
  | idle
  | startBlock
  | tables
  | symbols
  | ibwt
  | plainWalk
  | randomizedWalk
  | endOfBlock
  | eof
  deriving DecidableEq, Repr

/-- An internal memory of `w`-bit elements (10_state.md rules R35 and R36): the elements written
since its contents last became unspecified, addresses strictly rising. An element that is not
listed holds the free value `Config.freeCell w seed address` (assumption log 4). -/
structure Mem (w : Nat) where
  seed : Nat
  cells : List (Nat × BitVec w)
  deriving DecidableEq, Repr

/-- The BitSink with its output FIFO OUT (10_state.md rules R23 to R26, 20_memory.md rule R39). -/
structure BitSink where
  /-- `SINK_ACC` -/
  acc : Word
  /-- `SINK_LIVE` -/
  live : BitVec 6
  /-- `SINK_BYTES` -/
  bytes : Word
  /-- `SINK_DONE` -/
  done : Bool
  /-- OUT, oldest byte first -/
  out : List Byte
  deriving DecidableEq, Repr

/-- The BitSource with its input FIFO IN (10_state.md rules R27 to R29, 20_memory.md rule R38). -/
structure BitSource where
  /-- `SRC_ACC`, 40 bits -/
  acc : BitVec 40
  /-- `SRC_LIVE` -/
  live : BitVec 6
  /-- `SRC_BYTES` -/
  bytes : Word
  /-- IN, oldest byte first -/
  fifo : List Byte
  /-- `IN_CLOSED` -/
  closed : Bool
  deriving DecidableEq, Repr

/-- The encoder block registers and memories (10_state.md rules R19, R32 and R35). `E_LEN[t][v]`
and `E_CODE[t][v]` stand at address `258 t + v`. -/
structure Encoder where
  /-- `ESTATE` -/
  estate : EState
  /-- `LAST`, two's complement -/
  last : Word
  /-- `NINUSE` -/
  nInUse : BitVec 9
  /-- `NMTF` -/
  nMtf : BitVec 20
  /-- `NGROUPS` -/
  nGroups : BitVec 3
  /-- `NSELECTORS` -/
  nSelectors : BitVec 15
  /-- `IN_USE[0..255]`, bit `u` is `IN_USE[u]` -/
  inUse : BitVec 256
  /-- `BLOCK` -/
  block : Mem 8
  /-- `MTFV` -/
  mtfv : Mem 9
  /-- `MTFFREQ` -/
  mtfFreq : Mem 20
  /-- `SELECTOR` -/
  selector : Mem 3
  /-- `SELMTF` -/
  selMtf : Mem 3
  /-- `E_LEN` -/
  eLen : Mem 5
  /-- `E_CODE` -/
  eCode : Mem 20
  deriving DecidableEq, Repr

/-- The decoder registers and memories (10_state.md rules R21, R33 and R36). `D_LEN[t][v]` and
`PERM[t][v]` stand at address `258 t + v`, `LIMIT[t][l]` and `BASE[t][l]` at `21 t + l`. -/
structure Decoder where
  /-- `DSTATE` -/
  dstate : DState
  /-- `D_BS100K` -/
  bs100k : BitVec 4
  /-- `D_STORED_CRC` -/
  storedCrc : Word
  /-- `D_RAND` -/
  rand : BitVec 1
  /-- `D_ORIGPTR` -/
  origPtr : BitVec 24
  /-- `D_NINUSE` -/
  nInUse : BitVec 9
  /-- `D_NGROUPS` -/
  nGroups : BitVec 3
  /-- `D_NSELECTORS` -/
  nSelectors : BitVec 15
  /-- `D_NBLOCK` -/
  nBlock : BitVec 20
  /-- `D_TPOS` -/
  tPos : BitVec 20
  /-- `D_INUSE` -/
  inUse : Mem 1
  /-- `SEQ_TO_UNSEQ` -/
  seqToUnseq : Mem 8
  /-- `D_SELECTOR` -/
  selector : Mem 3
  /-- `D_LEN` -/
  len : Mem 5
  /-- `LIMIT`, signed -/
  limit : Mem 22
  /-- `BASE`, signed -/
  base : Mem 22
  /-- `PERM` -/
  perm : Mem 9
  /-- `MINLEN` -/
  minLen : Mem 5
  /-- `TT` -/
  tt : Mem 32
  /-- `UNZFTAB` -/
  unzftab : Mem 20
  deriving DecidableEq, Repr

/-- The host's actions, exactly those of 20_memory.md rule R42. -/
inductive HostAction where
  /-- `CMD(w)`: issue a command word -/
  | cmd (w : Command)
  /-- `PUSH_IN(b)` -/
  | pushIn (b : Byte)
  /-- `CLOSE_IN` -/
  | closeIn
  /-- `POP_OUT` -/
  | popOut
  /-- `POP_DOUT` -/
  | popDout
  /-- `READ(a)`, `a` in 0x000..0xFFF -/
  | read (a : BitVec 12)
  /-- assert the reset input -/
  | reset
  deriving DecidableEq, Repr

/-- The whole machine. `crcPoly` is a parameter of the block that no step changes. The last five fields are the model's own: the host as the machine's input
(assumption logs 1 and 10) and the free-value counter (assumption log 19). -/
structure State where
  /-- `ERR.CODE` (R18) -/
  err : BitVec 8
  /-- `CMDCNT` (R16) -/
  cmdCnt : Word
  /-- `RES` (R20) -/
  res : Word
  /-- `BLOCKSIZE100K` (R22) -/
  blockSize : BitVec 4
  /-- BitSink and OUT -/
  sink : BitSink
  /-- BitSource and IN -/
  src : BitSource
  /-- `CRC_REG` (R30) -/
  crc : Word
  /-- `COMBINED` (R31) -/
  combined : Word
  /-- encoder -/
  enc : Encoder
  /-- decoder -/
  dec : Decoder
  /-- DOUT, oldest byte first (R40) -/
  dout : List Byte
  /-- PARAMETER `CRC_POLY` (43_crc.md rule R75): any polynomial; no step changes it
  (assumption log 8) -/
  crcPoly : Word
  /-- the command that holds at the command port (R139), none when the port is free -/
  held : Option Instr
  /-- MODEL'S OWN: the actions the host has still to perform, next one first (R42: a program) -/
  hostQueue : List HostAction
  /-- MODEL'S OWN: what the last `READ` returned to the host -/
  readData : Word
  /-- MODEL'S OWN: what the last `POP_OUT` returned to the host -/
  popOutData : Byte
  /-- MODEL'S OWN: what the last `POP_DOUT` returned to the host -/
  popDoutData : Byte
  /-- MODEL'S OWN: how many draws of free values have been made -/
  freeTick : Nat
  deriving DecidableEq, Repr

/-- What stops the machine with a fault: nothing. Every error of BZ2EC is a next state with `ERR`
set (60_exceptions.md rules R123 and R126: no trap), so this type has no constructor and a step that
answers a fault is ruled out by its type (safe). -/
inductive Fault where
  deriving DecidableEq, Repr

/-- Why a command has no meaning in this model. -/
inductive Refusal where
  /-- Raised only by a refused arm of `exec`: an instruction not reached yet (safe). No arm of this
  model raises it. -/
  | notModelled (mnemonic : String)
  deriving DecidableEq, Repr

/-- What a command's own rule does, before it is counted (40_control.md rule R59). -/
inductive CmdResult where
  /-- it completes in this state -/
  | done (t : State)
  /-- it raises this error and leaves this state (60_exceptions.md rule R128) -/
  | raise (e : ErrCode) (t : State)
  /-- it holds (70_reset_and_hazards.md rule R139) -/
  | hold

/-- What a read of the BitSource answers: a value and the BitSource after it, an error, or a hold. -/
inductive ReadResult (α : Type) where
  | ok (a : α) (r : BitSource)
  | raise (e : ErrCode)
  | hold

/-- A memory whose contents are unspecified; `seed` tells its free values from those of any other
memory and of any other time. -/
def Mem.unspecified (w draw slot : Nat) : Mem w := { seed := 32 * draw + slot, cells := [] }

/-- The BitSink after reset, OUT empty. -/
def BitSink.reset : BitSink := { acc := 0, live := 0, bytes := 0, done := false, out := [] }

/-- The BitSource after reset, IN empty and open. -/
def BitSource.reset : BitSource := { acc := 0, live := 0, bytes := 0, fifo := [], closed := false }

/-- The encoder after reset: rule R134, with every memory but `IN_USE` unspecified (rule R135). -/
def Encoder.resetAt (draw : Nat) : Encoder :=
  { estate := .empty, last := 0xFFFFFFFF, nInUse := 0, nMtf := 0, nGroups := 0, nSelectors := 0
    inUse := 0
    block := .unspecified 8 draw 0
    mtfv := .unspecified 9 draw 1
    mtfFreq := .unspecified 20 draw 2
    selector := .unspecified 3 draw 3
    selMtf := .unspecified 3 draw 4
    eLen := .unspecified 5 draw 5
    eCode := .unspecified 20 draw 6 }

/-- The decoder after reset: rule R134, with every memory unspecified (rule R135). -/
def Decoder.resetAt (draw : Nat) : Decoder :=
  { dstate := .idle, bs100k := 0, storedCrc := 0, rand := 0, origPtr := 0, nInUse := 0, nGroups := 0
    nSelectors := 0, nBlock := 0, tPos := 0
    inUse := .unspecified 1 draw 7
    seqToUnseq := .unspecified 8 draw 8
    selector := .unspecified 3 draw 9
    len := .unspecified 5 draw 10
    limit := .unspecified 22 draw 11
    base := .unspecified 22 draw 12
    perm := .unspecified 9 draw 13
    minLen := .unspecified 5 draw 14
    tt := .unspecified 32 draw 15
    unzftab := .unspecified 20 draw 16 }

/-- The machine right after reset (rules R134 to R136), with the default `CRC_POLY`: it waits for the
host's first command. -/
def State.reset : State :=
  { err := 0, cmdCnt := 0, res := 0, blockSize := 9
    sink := .reset, src := .reset
    crc := Config.crcSeed, combined := 0
    enc := .resetAt 0, dec := .resetAt 0
    dout := [], crcPoly := Config.crcPolyDefault, held := none
    hostQueue := [], readData := 0, popOutData := 0, popDoutData := 0
    freeTick := 1 }

end Sys2Proof.Machine
end

