-- ==== Sys2Proof/Machine/Flags.lean ====
section
/-! DEFINITION. The status values of BZ2EC: error codes and their classes, the interrupt line, the
codes of the state registers, and the read-only registers that are computed from others. BZ2EC has no
condition flags (10_state.md rule R15). -/

namespace Sys2Proof.Machine

/-- The code written to `ERR.CODE` (60_exceptions.md rule R121). -/
def ErrCode.toBits : ErrCode → BitVec 8
  | .magic => 0x01
  | .blockSize => 0x02
  | .eof => 0x03
  | .table => 0x04
  | .code => 0x05
  | .block => 0x06
  | .blockCrc => 0x10
  | .combinedCrc => 0x11
  | .opcode => 0x20
  | .state => 0x21
  | .operand => 0x22
  | .capacity => 0x23

/-- The class of an error (rules R121 and R122). -/
def ErrCode.errClass : ErrCode → ErrClass
  | .magic => .malformedStream
  | .blockSize => .malformedStream
  | .eof => .malformedStream
  | .table => .malformedStream
  | .code => .malformedStream
  | .block => .malformedStream
  | .blockCrc => .dataIntegrity
  | .combinedCrc => .dataIntegrity
  | .opcode => .usage
  | .state => .usage
  | .operand => .usage
  | .capacity => .usage

/-- The register value of `ESTATE` (10_state.md rule R19). -/
def EState.toBits : EState → BitVec 3
  | .empty => 0
  | .loaded => 1
  | .mtfDone => 2
  | .trained => 3
  | .coded => 4

/-- The register value of `DSTATE` (10_state.md rule R21). -/
def DState.toBits : DState → BitVec 4
  | .idle => 0
  | .startBlock => 1
  | .tables => 2
  | .symbols => 3
  | .ibwt => 4
  | .plainWalk => 5
  | .randomizedWalk => 6
  | .endOfBlock => 7
  | .eof => 8

/-- The decoder state number `k mod 9`; with a free `k`, any value the register can hold. -/
def DState.ofFree (k : Nat) : DState :=
  match k % 9 with
  | 0 => .idle
  | 1 => .startBlock
  | 2 => .tables
  | 3 => .symbols
  | 4 => .ibwt
  | 5 => .plainWalk
  | 6 => .randomizedWalk
  | 7 => .endOfBlock
  | _ => .eof

/-- `IRQ`, a level equal to `ERR.CODE ≠ 0` (60_exceptions.md rule R125). -/
def State.irq (s : State) : Bool := s.err ≠ 0

/-- `CRC_VALUE = NOT CRC_REG` (10_state.md rule R30). -/
def State.crcValue (s : State) : Word := ~~~s.crc

/-- One bit as a register value. -/
def boolWord (b : Bool) : Word := if b then 1 else 0

/-- The register read map (20_memory.md rule R41): a register narrower than 32 bits is
zero-extended, every other address returns 0. -/
def State.readRegister (s : State) (a : BitVec 12) : Word :=
  match a.toNat with
  | 0x00 => Config.idValue
  | 0x04 => s.err.setWidth 32
  | 0x08 => s.enc.estate.toBits.setWidth 32
  | 0x0C => s.dec.dstate.toBits.setWidth 32
  | 0x10 => s.cmdCnt
  | 0x14 => s.res
  | 0x18 => s.blockSize.setWidth 32
  | 0x1C => s.sink.acc
  | 0x20 => s.sink.live.setWidth 32
  | 0x24 => s.sink.bytes
  | 0x28 => boolWord s.sink.done
  | 0x2C => s.src.acc.setWidth 32
  | 0x30 => s.src.live.setWidth 32
  | 0x34 => s.src.bytes
  | 0x38 => s.crc
  | 0x3C => s.crcValue
  | 0x40 => s.combined
  | 0x44 => s.enc.last
  | 0x48 => s.enc.nInUse.setWidth 32
  | 0x4C => s.enc.nMtf.setWidth 32
  | 0x50 => s.enc.nGroups.setWidth 32
  | 0x54 => s.enc.nSelectors.setWidth 32
  | 0x58 => s.dec.bs100k.setWidth 32
  | 0x5C => s.dec.storedCrc
  | 0x60 => s.dec.rand.setWidth 32
  | 0x64 => s.dec.origPtr.setWidth 32
  | 0x68 => s.dec.nInUse.setWidth 32
  | 0x6C => s.dec.nGroups.setWidth 32
  | 0x70 => s.dec.nSelectors.setWidth 32
  | 0x74 => s.dec.nBlock.setWidth 32
  | 0x78 => s.dec.tPos.setWidth 32
  | 0x7C => BitVec.ofNat 32 s.src.fifo.length
  | 0x80 => boolWord s.src.closed
  | 0x84 => BitVec.ofNat 32 s.sink.out.length
  | 0x88 => BitVec.ofNat 32 s.dout.length
  | _ => 0

end Sys2Proof.Machine
end

