-- ==== Sys2Proof/Machine/Operands.lean ====
section
/-! DEFINITION. Operand checks and bit fields: the ranges of the immediate operands, the constants of
the wire format, and the lists of bit fields the emitting commands write (30_encoding.md rule R54,
45_huffman_encode.md rule R100). -/

namespace Sys2Proof.Machine

/-- `n` of `SINK_WRITE` is in 1..25 (41_bitsink.md rule R68). -/
def writeCountLegal (n : BitVec 8) : Bool := 1 ≤ n.toNat && n.toNat ≤ 25

/-- `n` of `SRC_READ` is in 1..32 (42_bitsource.md rule R74). -/
def readCountLegal (n : BitVec 8) : Bool := 1 ≤ n.toNat && n.toNat ≤ 32

/-- `bs` of `CFG` is in 1..9 (40_control.md rule R62). -/
def blockSizeLegal (bs : BitVec 8) : Bool := 1 ≤ bs.toNat && bs.toNat ≤ 9

/-- `mask(n)` on 32 bits (00_scope.md rule R8). -/
def mask (n : Nat) : Word := BitVec.ofNat 32 (2 ^ n - 1)

/-- `rotl1_32` (00_scope.md rule R8). -/
def rotl1 (x : Word) : Word := (x <<< 1) ||| (x >>> 31)

/-- One bit field to be written: a width and a value. -/
abbrev BitField := Nat × Word

/-- A byte as an 8-bit field. -/
def byteField (b : Nat) : BitField := (8, BitVec.ofNat 32 b)

/-- The four 8-bit fields of a 32-bit value, most significant byte first (20_memory.md rule R44). -/
def wordFields (v : Word) : List BitField :=
  [(8, (v.extractLsb' 24 8).setWidth 32), (8, (v.extractLsb' 16 8).setWidth 32),
   (8, (v.extractLsb' 8 8).setWidth 32), (8, (v.extractLsb' 0 8).setWidth 32)]

/-- The stream header with digit `0x30 + bs` (rules R100 and R101). -/
def streamHeaderFields (bs : BitVec 4) : List BitField :=
  [byteField 0x42, byteField 0x5A, byteField 0x68, byteField (0x30 + bs.toNat)]

/-- The block magic `0x314159265359` (rules R100 and R102). -/
def blockMagicFields : List BitField :=
  [byteField 0x31, byteField 0x41, byteField 0x59, byteField 0x26, byteField 0x53, byteField 0x59]

/-- The trailer magic `0x177245385090` (rules R100 and R103). -/
def trailerMagicFields : List BitField :=
  [byteField 0x17, byteField 0x72, byteField 0x45, byteField 0x38, byteField 0x50, byteField 0x90]

/-- The block header after the magic: CRC, randomised flag, `origPtr` (rule R102). -/
def blockHeaderFields (crcValue : Word) (rand : BitVec 1) (origPtr : BitVec 24) : List BitField :=
  blockMagicFields ++ wordFields crcValue ++ [(1, rand.setWidth 32), (24, origPtr.setWidth 32)]

end Sys2Proof.Machine
end

