-- ==== Sys2Proof/Machine/Ops.lean ====
section
/-! DEFINITION. The operations every command is built from: internal memories, the common dispatch
with its counting, errors and holds (40_control.md rule R59, 60_exceptions.md rules R123 to R128),
reset, the BitSink and BitSource primitives, and move-to-front lists. -/

namespace Sys2Proof.Machine

/-! ## Internal memories (10_state.md rules R35 and R36) -/

/-- The element listed at address `a`, if there is one. -/
def findCell {w : Nat} : List (Nat × BitVec w) → Nat → Option (BitVec w)
  | [], _ => none
  | (b, v) :: rest, a => if b = a then some v else findCell rest a

/-- `X[a]`: the element written last at `a`, or the free value an unwritten element holds. -/
def Mem.read {w : Nat} (m : Mem w) (a : Nat) : BitVec w :=
  match findCell m.cells a with
  | some v => v
  | none => Config.freeCell w m.seed a

/-- Values paired with consecutive addresses from `a` on. -/
def cellsFrom {w : Nat} : Nat → List (BitVec w) → List (Nat × BitVec w)
  | _, [] => []
  | a, v :: vs => (a, v) :: cellsFrom (a + 1) vs

/-- `X[a..a+n-1] <- vs` for `n` values. -/
def Mem.writeRange {w : Nat} (m : Mem w) (a : Nat) (vs : List (BitVec w)) : Mem w :=
  { m with
    cells := m.cells.filter (fun c => decide (c.1 < a)) ++ cellsFrom a vs
      ++ m.cells.filter (fun c => decide (a + vs.length ≤ c.1)) }

/-- `X[a] <- v`. -/
def Mem.write {w : Nat} (m : Mem w) (a : Nat) (v : BitVec w) : Mem w := m.writeRange a [v]

/-- `X[a..a+n-1]`, in order of address. -/
def Mem.readRange {w : Nat} (m : Mem w) (a n : Nat) : List (BitVec w) :=
  (List.range n).map fun i => m.read (a + i)

/-- `X[a..a+n-1] <- vs`, each number truncated to the element's width. -/
def Mem.writeNats {w : Nat} (m : Mem w) (a : Nat) (vs : List Nat) : Mem w :=
  m.writeRange a (vs.map fun v => BitVec.ofNat w v)

/-- `X[a..a+n-1]` as numbers. -/
def Mem.readNats {w : Nat} (m : Mem w) (a n : Nat) : List Nat := (m.readRange a n).map BitVec.toNat

/-- `X[t][0..]` for each of the rows given, `stride` elements apart. -/
def Mem.writeRows {w : Nat} (stride : Nat) : Nat → List (List (BitVec w)) → Mem w → Mem w
  | _, [], m => m
  | t, row :: rows, m => Mem.writeRows stride (t + 1) rows (m.writeRange (stride * t) row)

/-- `X[0..rows-1][0..n-1]` as numbers. -/
def Mem.readRows {w : Nat} (m : Mem w) (stride rows n : Nat) : List (List Nat) :=
  (List.range rows).map fun t => m.readNats (stride * t) n

/-- The canonical form: addresses strictly rise. -/
abbrev Mem.wf {w : Nat} (m : Mem w) : Prop := (m.cells.map Prod.fst).Pairwise (· < ·)

/-! ## Counting, errors, holds (40_control.md rule R59) -/

/-- One more command word taken from the port: `CMDCNT <- CMDCNT + 1 mod 2^32`
(10_state.md rule R16). -/
def State.countCommand (s : State) : State := { s with cmdCnt := s.cmdCnt + 1 }

/-- TAKING AN ERROR (60_exceptions.md rule R123): the code is recorded and the command counted.
There is no vector, no saved state and no mode change (rule R126). -/
def takeError (e : ErrCode) (s : State) : State :=
  { s with err := e.toBits, cmdCnt := s.cmdCnt + 1 }

/-- A command that holds stays at the command port and has no other effect
(70_reset_and_hazards.md rule R139). -/
def holdCommand (i : Instr) (s : State) : State := { s with held := some i }

/-- The common dispatch of rule R59 around a command's own rule: while `ERR ≠ 0` the command is
ignored and only counted (rule R123); otherwise it completes, raises or holds. -/
def runCommand (i : Instr) (body : State → CmdResult) (s : State) :
    Host.Outcome State Fault Refusal :=
  if s.err = 0 then
    match body s with
    | .done t => .next t.countCommand
    | .raise e t => .next (takeError e t)
    | .hold => .next (holdCommand i s)
  else .next s.countCommand

/-! ## Reset (70_reset_and_hazards.md rule R134) -/

/-- What `SYS_RESET` and the reset input do: the block as after power-on, a held command abandoned,
the internal memories unspecified anew. `CRC_POLY` is a parameter and no state to be reset, and the
host's own fields are not the block's. -/
def State.resetBlock (s : State) : State :=
  { State.reset with
    enc := .resetAt s.freeTick, dec := .resetAt s.freeTick, freeTick := s.freeTick + 1
    crcPoly := s.crcPoly
    hostQueue := s.hostQueue, readData := s.readData
    popOutData := s.popOutData, popDoutData := s.popDoutData }

/-! ## State left by a malformed-stream or data-integrity error (60_exceptions.md rule R128) -/

/-- The BitSource with unspecified registers, any prefix of at most `maxTake` bytes of IN taken. -/
def BitSource.spoil (draw maxTake : Nat) (r : BitSource) : BitSource :=
  { r with
    acc := Config.freeBits 40 draw 0
    live := Config.freeBits 6 draw 1
    bytes := Config.freeBits 32 draw 2
    fifo := r.fifo.drop (Config.freeNat draw 3 % (min maxTake r.fifo.length + 1)) }

/-- After a failed `SRC_READ n` (rule R74). A read of at most 32 bits takes at most 4 bytes. -/
def spoilSrcRead (s : State) : State :=
  { s with
    src := s.src.spoil s.freeTick 4, res := Config.freeBits 32 s.freeTick 4
    freeTick := s.freeTick + 1 }

/-- After a failed `DEC_STREAM_HDR` (rule R105), which reads at most 4 bytes. -/
def spoilStreamHdr (s : State) : State :=
  { s with
    src := s.src.spoil s.freeTick 4
    combined := Config.freeBits 32 s.freeTick 4
    dec := { s.dec with
      bs100k := Config.freeBits 4 s.freeTick 5
      dstate := .ofFree (Config.freeNat s.freeTick 6) }
    freeTick := s.freeTick + 1 }

/-- After a failed `DEC_BLOCK_START` (rule R106), which reads 105 bits, at most 14 bytes. -/
def spoilBlockStart (s : State) : State :=
  { s with
    src := s.src.spoil s.freeTick 14
    crc := Config.freeBits 32 s.freeTick 4
    dec := { s.dec with
      storedCrc := Config.freeBits 32 s.freeTick 5
      rand := Config.freeBits 1 s.freeTick 6
      origPtr := Config.freeBits 24 s.freeTick 7
      dstate := .ofFree (Config.freeNat s.freeTick 8) }
    freeTick := s.freeTick + 1 }

/-- After a failed `DEC_TABLES` (rule R111). -/
def spoilTables (s : State) : State :=
  { s with
    src := s.src.spoil s.freeTick s.src.fifo.length
    dec := { s.dec with
      inUse := .unspecified 1 s.freeTick 7
      seqToUnseq := .unspecified 8 s.freeTick 8
      nInUse := Config.freeBits 9 s.freeTick 4
      nGroups := Config.freeBits 3 s.freeTick 5
      nSelectors := Config.freeBits 15 s.freeTick 6
      selector := .unspecified 3 s.freeTick 9
      len := .unspecified 5 s.freeTick 10
      limit := .unspecified 22 s.freeTick 11
      base := .unspecified 22 s.freeTick 12
      perm := .unspecified 9 s.freeTick 13
      minLen := .unspecified 5 s.freeTick 14
      dstate := .ofFree (Config.freeNat s.freeTick 7) }
    freeTick := s.freeTick + 1 }

/-- After a failed `DEC_SYMBOLS` (rule R115). -/
def spoilSymbols (s : State) : State :=
  { s with
    src := s.src.spoil s.freeTick s.src.fifo.length
    dec := { s.dec with
      tt := .unspecified 32 s.freeTick 15
      unzftab := .unspecified 20 s.freeTick 16
      nBlock := Config.freeBits 20 s.freeTick 4
      dstate := .ofFree (Config.freeNat s.freeTick 5) }
    freeTick := s.freeTick + 1 }

/-- After a failed `DEC_BLOCK_END` (rule R119), which reads no bit. -/
def spoilBlockEnd (s : State) : State :=
  { s with
    combined := Config.freeBits 32 s.freeTick 0
    dec := { s.dec with dstate := .ofFree (Config.freeNat s.freeTick 1) }
    freeTick := s.freeTick + 1 }

/-! ## BitSink (41_bitsink.md rules R63 to R65) -/

/-- `Emit(SINK_ACC[31:24])`, counted in `SINK_BYTES`. -/
def BitSink.emitTop (k : BitSink) : BitSink :=
  { k with out := k.out ++ [k.acc.extractLsb' 24 8], bytes := k.bytes + 1 }

/-- At most `fuel` rounds of the drain loop of rule R63. -/
def BitSink.drainLoop : Nat → BitSink → BitSink
  | 0, k => k
  | fuel + 1, k =>
    if 8 ≤ k.live.toNat then
      drainLoop fuel { k.emitTop with acc := k.acc <<< 8, live := k.live - 8 }
    else k

/-- `Drain()` (rule R63); 8 rounds empty any 6-bit `SINK_LIVE`. -/
def BitSink.drain (k : BitSink) : BitSink := k.drainLoop 8

/-- `W(n, v)` (rule R64). -/
def BitSink.write (n : Nat) (v : Word) (k : BitSink) : BitSink :=
  let d := k.drain
  { d with
    acc := d.acc ||| ((v &&& mask n) <<< (32 - d.live.toNat - n))
    live := BitVec.ofNat 6 (d.live.toNat + n) }

/-- `W` of each field in order. -/
def BitSink.writeAll (fields : List BitField) (k : BitSink) : BitSink :=
  fields.foldl (fun k f => k.write f.1 f.2) k

/-- `Finish()` (rule R65). -/
def BitSink.finish (k : BitSink) : BitSink :=
  let d := k.drain
  let p := if 0 < d.live.toNat then d.emitTop else d
  { p with acc := 0, live := 0, done := true }

/-! ## BitSource (20_memory.md rule R38, 42_bitsource.md rule R71) -/

/-- `Take()` (rule R38). -/
def BitSource.take (r : BitSource) : ReadResult Byte :=
  match r.fifo with
  | b :: rest => .ok b { r with fifo := rest }
  | [] => if r.closed then .raise .eof else .hold

/-- At most `fuel` rounds of the refill loop of rule R71. -/
def BitSource.refillLoop : Nat → Nat → BitSource → ReadResult Unit
  | 0, _, r => .ok () r
  | fuel + 1, n, r =>
    if r.live.toNat < n then
      match r.take with
      | .ok b r' =>
        refillLoop fuel n
          { r' with acc := (r'.acc <<< 8) ||| b.setWidth 40, live := r'.live + 8, bytes := r'.bytes + 1 }
      | .raise e => .raise e
      | .hold => .hold
    else .ok () r

/-- A computation that reads bits. -/
def Reader (α : Type) := BitSource → ReadResult α

/-- Read nothing. -/
def Reader.pure {α : Type} (a : α) : Reader α := fun r => .ok a r

/-- Raise an error after what has been read (60_exceptions.md rule R124 step (6)). -/
def Reader.fail {α : Type} (e : ErrCode) : Reader α := fun _ => .raise e

/-- Read `f`'s bits after `x`'s; an error or a hold of `x` ends the whole. -/
def Reader.bind {α β : Type} (x : Reader α) (f : α → Reader β) : Reader β := fun r =>
  match x r with
  | .ok a r' => f a r'
  | .raise e => .raise e
  | .hold => .hold

/-- `Rd(n)` (rule R71). With at most 32 bits asked for, 4 rounds refill the accumulator. -/
def rd (n : Nat) : Reader Nat := fun r =>
  match r.refillLoop 4 n with
  | .ok () q =>
    let live := q.live.toNat - n
    .ok ((q.acc.toNat >>> live) % 2 ^ n)
      { q with acc := BitVec.ofNat 40 (q.acc.toNat % 2 ^ live), live := BitVec.ofNat 6 live }
  | .raise e => .raise e
  | .hold => .hold

/-- How many bits can still be read without the host pushing a byte. -/
def BitSource.available (r : BitSource) : Nat := r.live.toNat + 8 * r.fifo.length

/-- What a read of a byte answers when IN is empty (rule R38). -/
def Reader.exhausted {α : Type} : Reader α := fun r => if r.closed then .raise .eof else .hold

/-- `n` readings in a row, as a list. -/
def Reader.times {α : Type} : Nat → Reader α → Reader (List α)
  | 0, _ => .pure []
  | n + 1, x => x.bind fun a => (Reader.times n x).bind fun as => .pure (a :: as)

/-- A command that reads bits: on success `k` makes its result from the value read and the BitSource
after it; on an error `spoil` gives the state left; a hold has no effect. -/
def readCommand {α : Type} (x : Reader α) (spoil : State → State)
    (k : α → BitSource → State → CmdResult) (s : State) : CmdResult :=
  match x s.src with
  | .ok a r => k a r s
  | .raise e => .raise e (spoil s)
  | .hold => .hold

/-! ## Move-to-front lists (44_mtf_encode.md rule R88, 45_huffman_encode.md rule R97) -/

/-- `[x] ++ (L without position j)`. -/
def toFront (x j : Nat) (l : List Nat) : List Nat := x :: l.eraseIdx j

/-- Bits as a number, the first bit the most significant (00_scope.md rule R11). -/
def bitsToNat (bits : List Bool) : Nat := bits.foldl (fun acc b => 2 * acc + b.toNat) 0

/-- The `n` low bits of `v`, the most significant first (00_scope.md rule R11). -/
def natToBits (n v : Nat) : List Bool := (List.range n).map fun i => v.testBit (n - 1 - i)

end Sys2Proof.Machine
end

