-- ==== Sys2Proof/Machine/Control.lean ====
section
/-! DEFINITION. The control commands (40_control.md rules R60 to R62). -/

namespace Sys2Proof.Machine

/-- `NOP` (rule R60): no effect but `CMDCNT`. -/
def execNop (s : State) : Host.Outcome State Fault Refusal := runCommand .nop .done s

/-- `SYS_RESET` (rule R61): the one command that runs while `ERR ≠ 0`; `CMDCNT` ends at 0. -/
def execSysReset (s : State) : Host.Outcome State Fault Refusal := .next s.resetBlock

/-- `CFG bs` (rule R62). -/
def execCfg (bs : BitVec 8) (s : State) : Host.Outcome State Fault Refusal :=
  runCommand (.cfg bs) (fun s =>
    if s.enc.estate ≠ .empty then .raise .state s
    else if !blockSizeLegal bs then .raise .operand s
    else .done { s with blockSize := bs.setWidth 4 }) s

end Sys2Proof.Machine
end

