-- ==== Sys2Proof/Machine/Crc.lean ====
section
/-! DEFINITION. The CRC32 accumulator (43_crc.md rules R75 to R81). -/

namespace Sys2Proof.Machine

/-- One of the 8 rounds that make a table entry (rule R75). -/
def crcTableRound (poly c : Word) : Word :=
  if c.getLsbD 31 then (c <<< 1) ^^^ poly else c <<< 1

/-- `n` rounds. -/
def crcTableRounds (poly : Word) : Nat → Word → Word
  | 0, c => c
  | n + 1, c => crcTableRounds poly n (crcTableRound poly c)

/-- `T[i]` (rule R75). -/
def crcTable (poly : Word) (i : Byte) : Word := crcTableRounds poly 8 (i.setWidth 32 <<< 24)

/-- `CrcStep(r, b)` (rule R76) with the polynomial `poly`. -/
def crcStep (poly r : Word) (b : Byte) : Word :=
  (r <<< 8) ^^^ crcTable poly (r.extractLsb' 24 8 ^^^ b)

/-- `count` steps with one byte (rule R79). -/
def crcRun (poly : Word) (b : Byte) : Nat → Word → Word
  | 0, r => r
  | count + 1, r => crcRun poly b count (crcStep poly r b)

/-- The fold of a block CRC into the combined CRC (rules R80 and R81). -/
def foldCombined (combined blockCrc : Word) : Word := rotl1 combined ^^^ blockCrc

/-- `CRC_RESET` (rule R77). -/
def execCrcReset (s : State) : Host.Outcome State Fault Refusal :=
  runCommand .crcReset (fun s => .done { s with crc := Config.crcSeed }) s

/-- `CRC_UPDATE byte` (rule R78). -/
def execCrcUpdate (byte : Byte) (s : State) : Host.Outcome State Fault Refusal :=
  runCommand (.crcUpdate byte) (fun s => .done { s with crc := crcStep s.crcPoly s.crc byte }) s

/-- `CRC_UPDATE_RUN byte, count` (rule R79). -/
def execCrcUpdateRun (byte : Byte) (count : BitVec 16) (s : State) :
    Host.Outcome State Fault Refusal :=
  runCommand (.crcUpdateRun byte count) (fun s =>
    .done { s with crc := crcRun s.crcPoly byte count.toNat s.crc }) s

/-- `CRC_COMBINE` (rule R80). -/
def execCrcCombine (s : State) : Host.Outcome State Fault Refusal :=
  runCommand .crcCombine (fun s =>
    .done { s with combined := foldCombined s.combined s.crcValue }) s

/-- `CRC_FOLD value` (rule R81). -/
def execCrcFold (value : Word) (s : State) : Host.Outcome State Fault Refusal :=
  runCommand (.crcFold value) (fun s =>
    .done { s with combined := foldCombined s.combined value }) s

end Sys2Proof.Machine
end

