-- ==== Sys2Proof/Machine/Mtf.lean ====
section
/-! DEFINITION. Block load and the MTF + RLE2 transform (44_mtf_encode.md rules R83 to R88). -/

namespace Sys2Proof.Machine

/-- The block is empty: `LAST = −1`. -/
def State.noBlock (s : State) : Bool := s.enc.last = 0xFFFFFFFF

/-- Rule R85: with an empty block the command completes with no effect, before its own checks. -/
def unlessNoBlock (f : State → CmdResult) (s : State) : CmdResult :=
  if s.noBlock then .done s else f s

/-- The block reset of rules R83 and R99: `LAST`, `IN_USE` and `ESTATE`, and nothing else
(10_state.md rule R37). -/
def Encoder.resetBlock (e : Encoder) : Encoder :=
  { e with last := 0xFFFFFFFF, inUse := 0, estate := .empty }

/-- `LAST + 1` as a number: how many bytes the block holds. -/
def Encoder.blockLength (e : Encoder) : Nat := (e.last + 1).toNat

/-- `BLK_RESET` (rule R83). -/
def execBlkReset (s : State) : Host.Outcome State Fault Refusal :=
  runCommand .blkReset (fun s => .done { s with enc := s.enc.resetBlock }) s

/-- `BLK_PUT byte` (rule R84). -/
def execBlkPut (byte : Byte) (s : State) : Host.Outcome State Fault Refusal :=
  runCommand (.blkPut byte) (fun s =>
    if s.enc.estate ≠ .empty ∧ s.enc.estate ≠ .loaded then .raise .state s
    else if (Config.blockUnit * s.blockSize.toNat : Int) ≤ s.enc.last.toInt + 1 then
      .raise .capacity s
    else .done { s with
      enc := { s.enc with
        last := s.enc.last + 1
        block := s.enc.block.write s.enc.blockLength byte
        inUse := s.enc.inUse ||| BitVec.ofNat 256 (2 ^ byte.toNat)
        estate := .loaded } }) s

/-- How many byte values below `u` are in use: the sequence number of an in-use `u` (rule R86). -/
def rankOf (inUse : BitVec 256) (u : Nat) : Nat := (List.range u).countP fun v => inUse.getLsbD v

/-- `PutRun(r)` (rule R87), from `z = r − 1`, in at most `fuel` digits. -/
def runDigits : Nat → Nat → List Nat
  | 0, _ => []
  | fuel + 1, z => z % 2 :: (if z < 2 then [] else runDigits fuel ((z - 2) / 2))

/-- `PutRun(r)` (rule R87) for `r ≥ 1`, and nothing for `r = 0`. -/
def putRun (r : Nat) : List Nat := if r = 0 then [] else runDigits r (r - 1)

/-- The loop of rule R88 over the sequence numbers of the block's bytes: `yy` is the recency list,
`zPend` the pending repetitions of its front; the answer is what is `Put`. -/
def mtfSymbols (yy : List Nat) (zPend : Nat) : List Nat → List Nat
  | [] => putRun zPend
  | s :: rest =>
    if yy.head? = some s then mtfSymbols yy (zPend + 1) rest
    else
      let j := yy.idxOf s
      putRun zPend ++ (j + 1) :: mtfSymbols (toFront s j yy) 0 rest

/-- The symbol stream of the block loaded (rule R88): what the loop puts, and `EOB`. -/
def Encoder.symbolStream (e : Encoder) : List Nat :=
  let n := rankOf e.inUse 256
  mtfSymbols (List.range n) 0 ((e.block.readNats 0 e.blockLength).map (rankOf e.inUse)) ++ [n + 1]

/-- `ENC_MTF` (rule R88), a block being loaded. -/
def encMtf (s : State) : CmdResult :=
  if s.enc.estate ≠ .loaded then .raise .state s
  else
    let n := rankOf s.enc.inUse 256
    let symbols := s.enc.symbolStream
    .done { s with
      enc := { s.enc with
        nInUse := BitVec.ofNat 9 n
        nMtf := BitVec.ofNat 20 symbols.length
        mtfv := s.enc.mtfv.writeNats 0 symbols
        mtfFreq := s.enc.mtfFreq.writeNats 0 ((List.range (n + 2)).map fun x => symbols.count x)
        estate := .mtfDone } }

/-- `ENC_MTF` (rules R85 and R88). -/
def execEncMtf (s : State) : Host.Outcome State Fault Refusal :=
  runCommand .encMtf (unlessNoBlock encMtf) s

end Sys2Proof.Machine
end

