-- ==== Sys2Proof/Machine/Huffman.lean ====
section
/-! DEFINITION. The multi-table selector and the canonical code generator (45_huffman_encode.md
rules R90 to R96). A table is the list of its code lengths, symbol 0 first. -/

namespace Sys2Proof.Machine

/-- The number of tables for a symbol stream of `nMtf` symbols (rule R90). -/
def tableCount (nMtf : Nat) : Nat :=
  if nMtf < 200 then 2 else if nMtf < 600 then 3 else if nMtf < 1200 then 4
  else if nMtf < 2400 then 5 else 6

/-- The alphabet size `A = NINUSE + 2` (rule R86). -/
def Encoder.alphabet (e : Encoder) : Nat := e.nInUse.toNat + 2

/-! ## Initial tables (rule R91) -/

/-- The inner loop of rule R91 with `e = ge + 1`: take symbols from `e` on until `aFreq` reaches
`tFreq` or the alphabet ends. Answers `(e, aFreq)`. -/
def seedRange (freq : List Nat) (a tFreq : Nat) : Nat → Nat → Nat → Nat × Nat
  | 0, e, aFreq => (e, aFreq)
  | fuel + 1, e, aFreq =>
    if aFreq < tFreq ∧ e < a then seedRange freq a tFreq fuel (e + 1) (aFreq + freq.getD e 0)
    else (e, aFreq)

/-- The outer loop of rule R91 for the partitions `nPart`, `nPart − 1`, …, 1: the tables
`nPart − 1`, …, 0, in that order. -/
def seedTables (freq : List Nat) (a nG : Nat) : Nat → Nat → Nat → List (List Nat)
  | 0, _, _ => []
  | nPart + 1, remF, gs =>
    let r := seedRange freq a (remF / (nPart + 1)) a gs 0
    let giveBack := gs + 1 < r.1 ∧ nPart + 1 ≠ nG ∧ nPart + 1 ≠ 1 ∧ (nG - (nPart + 1)) % 2 = 1
    let e := if giveBack then r.1 - 1 else r.1
    let aFreq := if giveBack then r.2 - freq.getD (r.1 - 1) 0 else r.2
    let table := (List.range a).map fun v =>
      if gs ≤ v ∧ v < e then Config.lesser else Config.greater
    table :: seedTables freq a nG nPart (remF - aFreq) e

/-! ## Length construction (rule R93) -/

/-- The scratch state of `MakeLengths`: node weights, the heap of nodes (positions 1..`nHeap`) and
each node's parent, `-1` for none yet and `-2` for the sentinel. -/
structure LengthHeap where
  weight : List Nat
  heap : List Nat
  parent : List Int
  nHeap : Nat
  nNodes : Nat
  deriving DecidableEq, Repr

/-- The loop of `UpHeap`; `z` halves each round, so `fuel = z` suffices. -/
def upHeapLoop (weight : List Nat) (tmp : Nat) : Nat → Nat → List Nat → List Nat
  | 0, z, heap => heap.set z tmp
  | fuel + 1, z, heap =>
    if weight.getD tmp 0 < weight.getD (heap.getD (z / 2) 0) 0 then
      upHeapLoop weight tmp fuel (z / 2) (heap.set z (heap.getD (z / 2) 0))
    else heap.set z tmp

/-- `UpHeap(z)` (rule R93). -/
def LengthHeap.upHeap (h : LengthHeap) (z : Nat) : LengthHeap :=
  { h with heap := upHeapLoop h.weight (h.heap.getD z 0) z z h.heap }

/-- The loop of `DownHeap`; `z` at least doubles each round, so `fuel = nHeap` suffices. -/
def downHeapLoop (weight : List Nat) (nHeap tmp : Nat) : Nat → Nat → List Nat → List Nat
  | 0, z, heap => heap.set z tmp
  | fuel + 1, z, heap =>
    if nHeap < 2 * z then heap.set z tmp
    else
      let y :=
        if 2 * z < nHeap ∧
            weight.getD (heap.getD (2 * z + 1) 0) 0 < weight.getD (heap.getD (2 * z) 0) 0 then
          2 * z + 1
        else 2 * z
      if weight.getD tmp 0 < weight.getD (heap.getD y 0) 0 then heap.set z tmp
      else downHeapLoop weight nHeap tmp fuel y (heap.set z (heap.getD y 0))

/-- `DownHeap(z)` (rule R93). -/
def LengthHeap.downHeap (h : LengthHeap) (z : Nat) : LengthHeap :=
  { h with heap := downHeapLoop h.weight h.nHeap (h.heap.getD z 0) h.nHeap z h.heap }

/-- `nHeap <- nHeap + 1 ; heap[nHeap] <- node ; UpHeap(nHeap)`. -/
def LengthHeap.push (h : LengthHeap) (node : Nat) : LengthHeap :=
  { h with nHeap := h.nHeap + 1, heap := h.heap.set (h.nHeap + 1) node }.upHeap (h.nHeap + 1)

/-- `heap[1] <- heap[nHeap] ; nHeap <- nHeap - 1 ; DownHeap(1)`. -/
def LengthHeap.popTop (h : LengthHeap) : LengthHeap :=
  { h with nHeap := h.nHeap - 1, heap := h.heap.set 1 (h.heap.getD h.nHeap 0) }.downHeap 1

/-- The weight of a node over `w1` and `w2`: frequencies add in bits [31:8], the depth in bits [7:0]
is one more than the larger. -/
def mergeWeights (w1 w2 : Nat) : Nat :=
  (w1 / 256 * 256 + w2 / 256 * 256) + (1 + max (w1 % 256) (w2 % 256))

/-- One round of the merging loop of rule R93. -/
def LengthHeap.mergeTwo (h : LengthHeap) : LengthHeap :=
  let n1 := h.heap.getD 1 0
  let h1 := h.popTop
  let n2 := h1.heap.getD 1 0
  let h2 := h1.popTop
  let node := h2.nNodes + 1
  { h2 with
    nNodes := node
    parent := ((h2.parent.set n1 node).set n2 node).set node (-1)
    weight := h2.weight.set node (mergeWeights (h2.weight.getD n1 0) (h2.weight.getD n2 0)) }.push node

/-- The merging loop; each round leaves one node less in the heap. -/
def mergeAll : Nat → LengthHeap → LengthHeap
  | 0, h => h
  | fuel + 1, h => if 1 < h.nHeap then mergeAll fuel h.mergeTwo else h

/-- Put the leaves `i`, `i + 1`, … on the heap. -/
def pushLeaves : Nat → Nat → LengthHeap → LengthHeap
  | 0, _, h => h
  | count + 1, i, h => pushLeaves count (i + 1) (h.push i)

/-- The heap before the leaves are put on it, for leaf weights `leaves` (leaf 1 first). -/
def LengthHeap.start (leaves : List Nat) : LengthHeap :=
  let a := leaves.length
  { weight := 0 :: leaves ++ List.replicate (a + 1) 0
    heap := List.replicate (a + 2) 0
    parent := -2 :: List.replicate (2 * a + 1) (-1)
    nHeap := 0
    nNodes := a }

/-- `while parent[k] >= 0: k <- parent[k] ; j <- j + 1`. -/
def depthOf (parent : List Int) : Nat → Nat → Nat
  | 0, _ => 0
  | fuel + 1, k =>
    let p := parent.getD k (-1)
    if 0 ≤ p then depthOf parent fuel p.toNat + 1 else 0

/-- One construction of the tree: the depth of each leaf. -/
def treeDepths (leaves : List Nat) : List Nat :=
  let a := leaves.length
  let h := mergeAll a (pushLeaves a 1 (.start leaves))
  (List.range a).map fun i => depthOf h.parent (2 * a) (i + 1)

/-- The scaling of a leaf weight when a code is too long. -/
def scaleWeight (w : Nat) : Nat := (1 + w / 256 / 2) * 256

/-- The loop of rule R93 with its length limit. Every 24-bit frequency reaches 1 or 2 within 24
scalings, after which the tree is shallow, so 32 rounds suffice and the first line is never reached
(assumption log 11). -/
def limitLengths (maxLen : Nat) : Nat → List Nat → List Nat
  | 0, leaves => (treeDepths leaves).map (min maxLen)
  | fuel + 1, leaves =>
    if (treeDepths leaves).any (fun d => decide (maxLen < d)) then
      limitLengths maxLen fuel (leaves.map scaleWeight)
    else treeDepths leaves

/-- `MakeLengths(freq, A, maxLen)` (rule R93), `A` the length of `freq`. -/
def makeLengths (maxLen : Nat) (freq : List Nat) : List Nat :=
  limitLengths maxLen 32 (freq.map fun f => (if f = 0 then 1 else f) * 256)

/-! ## Training (rules R92 and R94) -/

/-- The symbol stream in groups of `size` (rule R92); `fuel` bounds the number of groups. -/
def symbolGroups (size : Nat) : Nat → List Nat → List (List Nat)
  | 0, _ => []
  | fuel + 1, syms =>
    if syms = [] then [] else syms.take size :: symbolGroups size fuel (syms.drop size)

/-- The cost of a group under a table: the sum of its symbols' lengths. -/
def groupCost (group table : List Nat) : Nat := (group.map fun x => table.getD x 0).sum

/-- The least of a list, 0 for the empty list. -/
def leastOf (l : List Nat) : Nat := l.foldl min (l.headD 0)

/-- The greatest of a list, 0 for the empty list. -/
def greatestOf (l : List Nat) : Nat := l.foldl max 0

/-- The table of least cost; "ties go to the lower table". -/
def cheapest (tables : List (List Nat)) (group : List Nat) : Nat :=
  let costs := tables.map (groupCost group)
  costs.idxOf (leastOf costs)

/-- `RFREQ[t]`: how often each symbol below `a` occurs in the groups that chose table `t`. -/
def chosenFreq (a t : Nat) (groups : List (List Nat)) (selectors : List Nat) : List Nat :=
  let chosen := ((groups.zip selectors).filter fun p => p.2 = t).map Prod.fst
  (List.range a).map fun v => (chosen.map fun g => g.count v).sum

/-- One training pass (rule R92): the selectors chosen under `tables`, and the retrained tables. -/
def trainingPass (a : Nat) (groups : List (List Nat)) (tables : List (List Nat)) :
    List Nat × List (List Nat) :=
  let selectors := groups.map (cheapest tables)
  (selectors, (List.range tables.length).map fun t =>
    makeLengths Config.maxCodeLen (chosenFreq a t groups selectors))

/-- `n` training passes: the last pass's selectors and tables. -/
def trainingPasses (a : Nat) (groups : List (List Nat)) :
    Nat → List Nat × List (List Nat) → List Nat × List (List Nat)
  | 0, r => r
  | n + 1, r => trainingPasses a groups n (trainingPass a groups r.2)

/-- The selectors and tables `ENC_TRAIN` makes of a symbol stream (rule R94). -/
def train (a : Nat) (freq syms : List Nat) : List Nat × List (List Nat) :=
  let nG := tableCount syms.length
  trainingPasses a (symbolGroups Config.groupSize syms.length syms) Config.nIters
    ([], (seedTables freq a nG nG syms.length 0).reverse)

/-- `ENC_TRAIN` (rule R94), a block being loaded. -/
def encTrain (s : State) : CmdResult :=
  if s.enc.estate ≠ .mtfDone then .raise .state s
  else
    let a := s.enc.alphabet
    let syms := s.enc.mtfv.readNats 0 s.enc.nMtf.toNat
    let r := train a (s.enc.mtfFreq.readNats 0 a) syms
    .done { s with
      enc := { s.enc with
        nGroups := BitVec.ofNat 3 (tableCount s.enc.nMtf.toNat)
        nSelectors := BitVec.ofNat 15 r.1.length
        selector := s.enc.selector.writeNats 0 r.1
        eLen := s.enc.eLen.writeRows Config.symbolRow 0 (r.2.map fun row => row.map (BitVec.ofNat 5))
        estate := .trained } }

/-- `ENC_TRAIN` (rules R85 and R94). -/
def execEncTrain (s : State) : Host.Outcome State Fault Refusal :=
  runCommand .encTrain (unlessNoBlock encTrain) s

/-! ## Canonical codes (rules R95 and R96) -/

/-- The inner loop of rule R95 at length `n`: the symbols of that length, from symbol `i` on, get
consecutive codes from `vec`. Answers the next code and the codes. -/
def assignCodes (n : Nat) : List Nat → Nat → Nat → List Nat → Nat × List Nat
  | [], _, vec, codes => (vec, codes)
  | l :: lens, i, vec, codes =>
    if l = n then assignCodes n lens (i + 1) (vec + 1) (codes.set i vec)
    else assignCodes n lens (i + 1) vec codes

/-- The outer loop of rule R95 over `count` lengths from `n` on. -/
def codeLoop (lens : List Nat) : Nat → Nat → Nat → List Nat → List Nat
  | 0, _, _, codes => codes
  | count + 1, n, vec, codes =>
    let r := assignCodes n lens 0 vec codes
    codeLoop lens count (n + 1) (2 * r.1) r.2

/-- The canonical codes of a table (rule R95). -/
def canonicalCodes (lens : List Nat) : List Nat :=
  codeLoop lens (greatestOf lens + 1 - leastOf lens) (leastOf lens) 0
    (List.replicate lens.length 0)

/-- `ENC_CODES` (rule R96), a block being loaded. -/
def encCodes (s : State) : CmdResult :=
  if s.enc.estate ≠ .trained then .raise .state s
  else
    let tables := s.enc.eLen.readRows Config.symbolRow s.enc.nGroups.toNat s.enc.alphabet
    .done { s with
      enc := { s.enc with
        eCode := s.enc.eCode.writeRows Config.symbolRow 0
          (tables.map fun lens => (canonicalCodes lens).map (BitVec.ofNat 20))
        estate := .coded } }

/-- `ENC_CODES` (rules R85 and R96). -/
def execEncCodes (s : State) : Host.Outcome State Fault Refusal :=
  runCommand .encCodes (unlessNoBlock encCodes) s

end Sys2Proof.Machine
end

