-- ==== Sys2Proof/Machine/Decoder.lean ====
section
/-! DEFINITION. The decoder up to the symbol stream (46_huffman_decode.md rules R104 to R115). -/

namespace Sys2Proof.Machine

/-- A `DEC_*` command that runs in one decoder state only (47_bwt_inverse.md rule R120). -/
def inDState (d : DState) (f : State → CmdResult) (s : State) : CmdResult :=
  if s.dec.dstate ≠ d then .raise .state s else f s

/-- `DEC_RESET` (rule R104). -/
def execDecReset (s : State) : Host.Outcome State Fault Refusal :=
  runCommand .decReset (fun s => .done { s with dec := { s.dec with dstate := .idle } }) s

/-! ## Stream and block headers -/

/-- One header byte, checked right after it is read (rule R105). -/
def expectByte (b : Nat) : Reader Unit :=
  (rd 8).bind fun v => if v = b then .pure () else .fail .magic

/-- The stream header's digit as a block size (rule R105). -/
def readStreamHdr : Reader Nat :=
  (expectByte 0x42).bind fun _ => (expectByte 0x5A).bind fun _ => (expectByte 0x68).bind fun _ =>
    (rd 8).bind fun d => if d < 0x31 ∨ 0x39 < d then .fail .blockSize else .pure (d - 0x30)

/-- `DEC_STREAM_HDR` (rule R105). -/
def execDecStreamHdr (s : State) : Host.Outcome State Fault Refusal :=
  runCommand .decStreamHdr (inDState .idle (readCommand readStreamHdr spoilStreamHdr
    fun bs r s => .done { s with
      src := r, combined := 0
      dec := { s.dec with bs100k := BitVec.ofNat 4 bs, dstate := .startBlock } })) s

/-- What stands at a block start (rule R106). -/
inductive BlockStart where
  /-- a block header: stored CRC, randomised flag, `origPtr` -/
  | block (crc rand origPtr : Nat)
  /-- the trailer, its CRC equal to `COMBINED` -/
  | trailer
  deriving DecidableEq, Repr

/-- The reads and checks of rule R106; all 48 magic bits are read before they are compared. -/
def readBlockStart (combined : Word) : Reader BlockStart :=
  (rd 24).bind fun m1 => (rd 24).bind fun m2 =>
    if m1 = 0x314159 ∧ m2 = 0x265359 then
      (rd 32).bind fun crc => (rd 1).bind fun rand => (rd 24).bind fun origPtr =>
        .pure (.block crc rand origPtr)
    else if m1 = 0x177245 ∧ m2 = 0x385090 then
      (rd 32).bind fun stored =>
        if stored ≠ combined.toNat then .fail .combinedCrc else .pure .trailer
    else .fail .magic

/-- What a block start leaves (rule R106): the block's header registers and a CRC register seeded
anew, or the end of the stream. -/
def startBlock : BlockStart → BitSource → State → CmdResult
  | .block crc rand origPtr, r, s => .done { s with
      src := r, crc := Config.crcSeed
      dec := { s.dec with
        storedCrc := BitVec.ofNat 32 crc, rand := BitVec.ofNat 1 rand
        origPtr := BitVec.ofNat 24 origPtr, dstate := .tables } }
  | .trailer, r, s => .done { s with src := r, dec := { s.dec with dstate := .eof } }

/-- `DEC_BLOCK_START` (rule R106). -/
def execDecBlockStart (s : State) : Host.Outcome State Fault Refusal :=
  runCommand .decBlockStart (inDState .startBlock fun s =>
    readCommand (readBlockStart s.combined) spoilBlockStart startBlock s) s

/-! ## Table reader (rules R107 to R111) -/

/-- The sub-bitmaps of rule R107 for the groups whose bits in `g` are the `k` low ones, the most
significant first: 16 in-use bits per group. -/
def readGroups (g : Nat) : Nat → Reader (List Bool)
  | 0 => .pure []
  | k + 1 =>
    (if g.testBit k then (rd 16).bind fun v => .pure (natToBits 16 v)
      else .pure (List.replicate 16 false)).bind fun bits =>
    (readGroups g k).bind fun rest => .pure (bits ++ rest)

/-- The mapping-table read (rule R107): `D_INUSE[0..255]`. -/
def readMapping : Reader (List Bool) := (rd 16).bind fun g => readGroups g 16

/-- `SEQ_TO_UNSEQ`: the byte values in use, ascending (rule R107). -/
def valuesInUse (inUse : List Bool) : List Nat :=
  (List.range 256).filter fun u => inUse.getD u false

/-- A unary selector value (rule R108); `j ≥ nG` is checked after each 1 bit. -/
def readUnary (nG : Nat) : Nat → Nat → Reader Nat
  | 0, _ => .fail .table
  | fuel + 1, j =>
    (rd 1).bind fun b =>
      if b = 1 then (if nG ≤ j + 1 then .fail .table else readUnary nG fuel (j + 1)) else .pure j

/-- The inverse selector MTF (rule R108). -/
def selectorUnMtf (pos : List Nat) : List Nat → List Nat
  | [] => []
  | j :: rest => pos.getD j 0 :: selectorUnMtf (toFront (pos.getD j 0) j pos) rest

/-- The selector read (rule R108): `nG` and the selectors. -/
def readSelectors : Reader (Nat × List Nat) :=
  (rd 3).bind fun nG =>
    if nG < 2 ∨ 6 < nG then .fail .table
    else (rd 15).bind fun nS =>
      if nS = 0 then .fail .table
      else (Reader.times nS (readUnary nG nG 0)).bind fun js =>
        .pure (nG, selectorUnMtf (List.range nG) js)

/-- One symbol's length from `curr` (rule R109); the range is checked before each bit. Each round
reads a bit, so one round more than there are bits suffices. -/
def lengthLoop : Nat → Nat → Reader Nat
  | 0, _ => .exhausted
  | fuel + 1, curr =>
    if curr < 1 ∨ Config.maxCodeLen < curr then .fail .table
    else (rd 1).bind fun b =>
      if b = 0 then .pure curr
      else (rd 1).bind fun d => lengthLoop fuel (if d = 0 then curr + 1 else curr - 1)

/-- One symbol's length from `curr` (rule R109). -/
def readLength (curr : Nat) : Reader Nat := fun r => lengthLoop (r.available + 1) curr r

/-- The lengths of `n` symbols, each coded against the one before (rule R109). -/
def readDeltas : Nat → Nat → Reader (List Nat)
  | 0, _ => .pure []
  | n + 1, curr =>
    (readLength curr).bind fun l => (readDeltas n l).bind fun rest => .pure (l :: rest)

/-- The code-length read of one table over `a` symbols (rule R109). -/
def readTable (a : Nat) : Reader (List Nat) := (rd 5).bind fun seed => readDeltas a seed

/-- What `DEC_TABLES` reads (rule R111). -/
structure TableSection where
  inUse : List Bool
  nGroups : Nat
  selectors : List Nat
  lens : List (List Nat)
  deriving DecidableEq, Repr

/-- The reads and checks of rule R111, in bitstream order. -/
def readTables : Reader TableSection :=
  readMapping.bind fun inUse =>
    if (valuesInUse inUse).length = 0 then .fail .table
    else readSelectors.bind fun sel =>
      (Reader.times sel.1 (readTable ((valuesInUse inUse).length + 2))).bind fun lens =>
        .pure { inUse := inUse, nGroups := sel.1, selectors := sel.2, lens := lens }

/-- `count[l]` of rule R110. -/
def countLength (lens : List Nat) (l : Nat) : Nat := lens.count l

/-- The symbols of length `l`, ascending, the first symbol being number `i` (rule R110). -/
def symbolsOf (l : Nat) : Nat → List Nat → List Nat
  | _, [] => []
  | i, x :: lens => if x = l then i :: symbolsOf l (i + 1) lens else symbolsOf l (i + 1) lens

/-- `PERM[t]` (rule R110): the symbols by length, then by number. -/
def permOf (lens : List Nat) : List Nat :=
  ((List.range (greatestOf lens + 1)).filter fun l => leastOf lens ≤ l).flatMap fun l =>
    symbolsOf l 0 lens

/-- `LIMIT[t][l]` and `BASE[t][l]` (rule R110) for `n` lengths from `l` on. -/
def limitBaseLoop (lens : List Nat) : Nat → Nat → Int → Int → List (Int × Int)
  | 0, _, _, _ => []
  | n + 1, l, vec, cum =>
    if leastOf lens ≤ l ∧ l ≤ greatestOf lens then
      (vec + countLength lens l - 1, vec - cum) ::
        limitBaseLoop lens n (l + 1) (2 * (vec + countLength lens l)) (cum + countLength lens l)
    else (-1, 0) :: limitBaseLoop lens n (l + 1) vec cum

/-- `(LIMIT[t][l], BASE[t][l])` for `l` in 0..20 (rule R110). -/
def limitBase (lens : List Nat) : List (Int × Int) := limitBaseLoop lens Config.lengthRow 0 0 0

/-- The registers and memories `DEC_TABLES` writes (rules R107 to R111). -/
def Decoder.setTables (d : Decoder) (x : TableSection) : Decoder :=
  let used := valuesInUse x.inUse
  { d with
    inUse := d.inUse.writeRange 0 (x.inUse.map fun b => BitVec.ofBool b)
    nInUse := BitVec.ofNat 9 used.length
    seqToUnseq := d.seqToUnseq.writeNats 0 used
    nGroups := BitVec.ofNat 3 x.nGroups
    nSelectors := BitVec.ofNat 15 x.selectors.length
    selector := d.selector.writeNats 0 x.selectors
    len := d.len.writeRows Config.symbolRow 0 (x.lens.map fun row => row.map (BitVec.ofNat 5))
    minLen := d.minLen.writeNats 0 (x.lens.map leastOf)
    perm := d.perm.writeRows Config.symbolRow 0
      (x.lens.map fun row => (permOf row).map (BitVec.ofNat 9))
    limit := d.limit.writeRows Config.lengthRow 0
      (x.lens.map fun row => (limitBase row).map fun p => BitVec.ofInt 22 p.1)
    base := d.base.writeRows Config.lengthRow 0
      (x.lens.map fun row => (limitBase row).map fun p => BitVec.ofInt 22 p.2)
    dstate := .symbols }

/-- `DEC_TABLES` (rule R111). -/
def execDecTables (s : State) : Host.Outcome State Fault Refusal :=
  runCommand .decTables (inDState .tables (readCommand readTables spoilTables
    fun x r s => .done { s with src := r, dec := s.dec.setTables x })) s

/-! ## Symbol lookup (rules R112 and R113) -/

/-- The probing loop of rule R112; from any 5-bit length, 22 rounds pass length 20. -/
def probeSymbol (d : Decoder) (t : Nat) : Nat → Nat → Nat → Reader Nat
  | 0, _, _ => .fail .code
  | fuel + 1, zn, zvec =>
    if Config.maxCodeLen < zn then .fail .code
    else if (zvec : Int) ≤ (d.limit.read (Config.lengthRow * t + zn)).toInt then
      let idx := (zvec : Int) - (d.base.read (Config.lengthRow * t + zn)).toInt
      if idx < 0 ∨ (d.nInUse.toNat : Int) + 2 ≤ idx then .fail .code
      else .pure (d.perm.read (Config.symbolRow * t + idx.toNat)).toNat
    else (rd 1).bind fun b => probeSymbol d t fuel (zn + 1) (2 * zvec + b)

/-- `DecSym(t)` (rule R112). -/
def decSym (d : Decoder) (t : Nat) : Reader Nat :=
  (rd (d.minLen.read t).toNat).bind fun zvec => probeSymbol d t 22 (d.minLen.read t).toNat zvec

/-- The selector groups under way (rule R113): how many have been started (`groupNo + 1`) and how
many symbols the current one still has (`groupPos`). -/
structure GroupPos where
  started : Nat
  left : Nat
  deriving DecidableEq, Repr

/-- `NextSym()` (rule R113). -/
def nextSym (d : Decoder) (g : GroupPos) : Reader (Nat × GroupPos) :=
  if g.left = 0 then
    if d.nSelectors.toNat ≤ g.started then .fail .block
    else (decSym d (d.selector.read g.started).toNat).bind fun s =>
      .pure (s, { started := g.started + 1, left := Config.groupSize - 1 })
  else
    (decSym d (d.selector.read (g.started - 1)).toNat).bind fun s =>
      .pure (s, { g with left := g.left - 1 })

/-! ## RLE2 and MTF inverse (rules R114 and R115) -/

/-- The expansion under way (rule R114): the recency list, `UNZFTAB`, the bytes decoded (newest
first) with their number, and the RUNA/RUNB run under way as its length so far (`es + 1`) and the
weight `N` of its next digit. -/
structure Expansion where
  yy : List Nat
  counts : List Nat
  bytes : List Byte
  nblock : Nat
  run : Nat
  weight : Nat
  deriving DecidableEq, Repr

/-- The expansion before the first symbol (rule R114). -/
def Expansion.start : Expansion :=
  { yy := List.range 256, counts := List.replicate 256 0, bytes := [], nblock := 0, run := 0
    weight := 1 }

/-- One more digit of a run: RUNA weighs `N`, RUNB `2N`; none when `N ≥ 2^21`. -/
def Expansion.digit (x : Expansion) (s : Nat) : Option Expansion :=
  if 2 ^ 21 ≤ x.weight then none
  else some { x with run := x.run + (s + 1) * x.weight, weight := 2 * x.weight }

/-- `n` copies of byte `uc`; none when the block would pass `nmax` bytes. -/
def Expansion.append (x : Expansion) (nmax uc n : Nat) : Option Expansion :=
  if nmax < x.nblock + n then none
  else some { x with
    counts := x.counts.set uc (x.counts.getD uc 0 + n)
    bytes := List.replicate n (BitVec.ofNat 8 uc) ++ x.bytes
    nblock := x.nblock + n }

/-- The end of a run: its copies of the front byte. No run under way, no copies. -/
def Expansion.closeRun (d : Decoder) (nmax : Nat) (x : Expansion) : Option Expansion :=
  if x.run = 0 then some x
  else
    (x.append nmax (d.seqToUnseq.read (x.yy.headD 0)).toNat x.run).map fun y =>
      { y with run := 0, weight := 1 }

/-- An MTF position `j ≥ 1`: that byte, moved to the front. -/
def Expansion.move (d : Decoder) (nmax j : Nat) (x : Expansion) : Option Expansion :=
  let v := x.yy.getD j 0
  ({ x with yy := toFront v j x.yy }).append nmax (d.seqToUnseq.read v).toNat 1

/-- What one symbol does to the expansion: more symbols follow, the block ends, or `E_BLOCK`. -/
inductive ExpandStep where
  | more (x : Expansion)
  | done (x : Expansion)
  | fail
  deriving DecidableEq, Repr

/-- One symbol `s` of rule R114: the end of the block, a digit of a run, or an MTF position after the
run under way has been closed. -/
def Expansion.symbol (d : Decoder) (nmax : Nat) (x : Expansion) (s : Nat) : ExpandStep :=
  let eob := d.nInUse.toNat + 1
  if x.run = 0 ∧ s = eob then .done x
  else if s ≤ 1 then
    match x.digit s with
    | some y => .more y
    | none => .fail
  else
    match x.closeRun d nmax with
    | none => .fail
    | some y =>
      if s = eob then .done y
      else
        match y.move d nmax (s - 1) with
        | some z => .more z
        | none => .fail

/-- The loop of rule R114, one symbol a round. `NextSym` fails after 50 symbols per selector, so
one round more than that suffices. -/
def expandLoop (d : Decoder) (nmax : Nat) : Nat → GroupPos → Expansion → Reader Expansion
  | 0, _, _ => .fail .block
  | fuel + 1, g, x =>
    (nextSym d g).bind fun sg =>
      match x.symbol d nmax sg.1 with
      | .more y => expandLoop d nmax fuel sg.2 y
      | .done y => .pure y
      | .fail => .fail .block

/-- The symbol stream of a block and the check of `D_ORIGPTR` (rules R114 and R115). -/
def readSymbols (d : Decoder) : Reader Expansion :=
  (expandLoop d (Config.blockUnit * d.bs100k.toNat) (Config.groupSize * d.nSelectors.toNat + 1)
    { started := 0, left := 0 } .start).bind fun x =>
      if x.nblock ≤ d.origPtr.toNat then .fail .block else .pure x

/-- The registers and memories `DEC_SYMBOLS` writes (rule R115). -/
def Decoder.setSymbols (d : Decoder) (x : Expansion) : Decoder :=
  { d with
    tt := d.tt.writeRange 0 (x.bytes.reverse.map fun b => b.setWidth 32)
    unzftab := d.unzftab.writeNats 0 x.counts
    nBlock := BitVec.ofNat 20 x.nblock
    dstate := .ibwt }

/-- `DEC_SYMBOLS` (rule R115). -/
def execDecSymbols (s : State) : Host.Outcome State Fault Refusal :=
  runCommand .decSymbols (inDState .symbols fun s =>
    readCommand (readSymbols s.dec) spoilSymbols
      (fun x r s => .done { s with src := r, dec := s.dec.setSymbols x }) s) s

end Sys2Proof.Machine
end

