-- ==== Sys2Proof/Machine/Sink.lean ====
section
/-! DEFINITION. The BitSink commands (41_bitsink.md rules R67 to R70). -/

namespace Sys2Proof.Machine

/-- `SINK_RESET` (rule R67): pending bits are dropped, `SINK_BYTES` and OUT are kept. -/
def execSinkReset (s : State) : Host.Outcome State Fault Refusal :=
  runCommand .sinkReset (fun s =>
    .done { s with sink := { s.sink with acc := 0, live := 0, done := false } }) s

/-- A command that writes to the BitSink: `E_STATE` once the stream is finished
(10_state.md rule R26). -/
def sinkCommand (f : State → CmdResult) (s : State) : CmdResult :=
  if s.sink.done then .raise .state s else f s

/-- `SINK_WRITE n, value` (rule R68). -/
def execSinkWrite (n : BitVec 8) (value : Word) (s : State) : Host.Outcome State Fault Refusal :=
  runCommand (.sinkWrite n value) (sinkCommand fun s =>
    if !writeCountLegal n then .raise .operand s
    else .done { s with sink := s.sink.write n.toNat value }) s

/-- `SINK_FLUSH` (rule R69). -/
def execSinkFlush (s : State) : Host.Outcome State Fault Refusal :=
  runCommand .sinkFlush (sinkCommand fun s => .done { s with sink := s.sink.drain }) s

/-- `SINK_FINISH` (rule R70). -/
def execSinkFinish (s : State) : Host.Outcome State Fault Refusal :=
  runCommand .sinkFinish (sinkCommand fun s => .done { s with sink := s.sink.finish }) s

end Sys2Proof.Machine
end

