-- ==== Sys2Proof/Machine/Emit.lean ====
section
/-! DEFINITION. The bit-writer and the stream framing (45_huffman_encode.md rules R97 to R103). -/

namespace Sys2Proof.Machine

/-- Selector MTF (rule R97). -/
def selectorMtf (pos : List Nat) : List Nat → List Nat
  | [] => []
  | t :: rest => pos.idxOf t :: selectorMtf (toFront t (pos.idxOf t) pos) rest

/-- `SELMTF[i]` 1 bits and a 0 bit (rules R97 and R99). -/
def unaryField (j : Nat) : BitField := (j + 1, BitVec.ofNat 32 (2 ^ (j + 1) - 2))

/-- The in-use bits of group `i`, byte `16i` first. -/
def groupBits (inUse : BitVec 256) (i : Nat) : List Bool :=
  (List.range 16).map fun j => inUse.getLsbD (16 * i + j)

/-- Whether group `i` has a byte value in use: `U[i]` of rule R99. -/
def groupUsed (inUse : BitVec 256) (i : Nat) : Bool := (groupBits inUse i).any id

/-- Sixteen bits as one field, the first bit the most significant. -/
def bitmapField (bits : List Bool) : BitField := (16, BitVec.ofNat 32 (bitsToNat bits))

/-- The group bitmap and the sub-bitmaps of the groups in use (rule R99). -/
def bitmapFields (inUse : BitVec 256) : List BitField :=
  bitmapField ((List.range 16).map (groupUsed inUse)) ::
    ((List.range 16).filter (groupUsed inUse)).map fun i => bitmapField (groupBits inUse i)

/-- The steps from length `curr` to length `l` and the end of a symbol's length (rule R98). -/
def lengthSteps (curr l : Nat) : List BitField :=
  List.replicate (l - curr) (2, 0b10) ++ List.replicate (curr - l) (2, 0b11) ++ [(1, 0)]

/-- The symbols' lengths, each coded against the one before (rule R98). -/
def lengthDeltas : Nat → List Nat → List BitField
  | _, [] => []
  | curr, l :: lens => lengthSteps curr l ++ lengthDeltas l lens

/-- The code-length coding of one table (rule R98). -/
def tableFields (lens : List Nat) : List BitField :=
  (5, BitVec.ofNat 32 (lens.headD 0)) :: lengthDeltas (lens.headD 0) lens

/-- The symbols of the groups, each group under its selector's table (rule R99). -/
def bodyFields (lens codes : List (List Nat)) : List (List Nat) → List Nat → List BitField
  | g :: groups, t :: selectors =>
    (g.map fun x =>
      ((lens.getD t []).getD x 0, BitVec.ofNat 32 ((codes.getD t []).getD x 0)))
      ++ bodyFields lens codes groups selectors
  | _, _ => []

/-- Everything `ENC_EMIT` writes, in order (rule R99). -/
def Encoder.emitFields (e : Encoder) : List BitField :=
  let selectors := e.selector.readNats 0 e.nSelectors.toNat
  let lens := e.eLen.readRows Config.symbolRow e.nGroups.toNat e.alphabet
  let codes := e.eCode.readRows Config.symbolRow e.nGroups.toNat e.alphabet
  let syms := e.mtfv.readNats 0 e.nMtf.toNat
  bitmapFields e.inUse
    ++ [(3, e.nGroups.setWidth 32), (15, e.nSelectors.setWidth 32)]
    ++ (selectorMtf (List.range e.nGroups.toNat) selectors).map unaryField
    ++ lens.flatMap tableFields
    ++ bodyFields lens codes (symbolGroups Config.groupSize syms.length syms) selectors

/-- `ENC_EMIT` (rule R99), a block being loaded. -/
def encEmit (s : State) : CmdResult :=
  if s.enc.estate ≠ .coded then .raise .state s
  else sinkCommand (fun s =>
    .done { s with
      sink := s.sink.writeAll s.enc.emitFields
      enc := { s.enc with
        selMtf := s.enc.selMtf.writeNats 0
          (selectorMtf (List.range s.enc.nGroups.toNat)
            (s.enc.selector.readNats 0 s.enc.nSelectors.toNat)) }.resetBlock }) s

/-- `ENC_EMIT` (rules R85 and R99). -/
def execEncEmit (s : State) : Host.Outcome State Fault Refusal :=
  runCommand .encEmit (unlessNoBlock encEmit) s

/-- `ENC_STREAM_HDR` (rule R101). -/
def execEncStreamHdr (s : State) : Host.Outcome State Fault Refusal :=
  runCommand .encStreamHdr (sinkCommand fun s =>
    .done { s with sink := s.sink.writeAll (streamHeaderFields s.blockSize), combined := 0 }) s

/-- `ENC_BLOCK_HDR rand, origPtr` (rule R102), a block being loaded. -/
def encBlockHdr (rand : BitVec 1) (origPtr : BitVec 24) (s : State) : CmdResult :=
  sinkCommand (fun s =>
    if s.enc.last.toInt < (origPtr.toNat : Int) then .raise .operand s
    else .done { s with
      sink := s.sink.writeAll (blockHeaderFields s.crcValue rand origPtr) }) s

/-- `ENC_BLOCK_HDR rand, origPtr` (rules R85 and R102). -/
def execEncBlockHdr (rand : BitVec 1) (origPtr : BitVec 24) (s : State) :
    Host.Outcome State Fault Refusal :=
  runCommand (.encBlockHdr rand origPtr) (unlessNoBlock (encBlockHdr rand origPtr)) s

/-- `ENC_TRAILER` (rule R103). -/
def execEncTrailer (s : State) : Host.Outcome State Fault Refusal :=
  runCommand .encTrailer (sinkCommand fun s =>
    .done { s with
      sink := (s.sink.writeAll (trailerMagicFields ++ wordFields s.combined)).finish }) s

end Sys2Proof.Machine
end

