-- ==== Sys2Proof/Machine/Ibwt.lean ====
section
/-! DEFINITION. The inverse Burrows-Wheeler transform, de-randomisation and block end
(47_bwt_inverse.md rules R116 to R120). -/

namespace Sys2Proof.Machine

/-- The sums of the entries before each one: `cftab[0..255]` of rule R116. -/
def cumulate : Nat → List Nat → List Nat
  | _, [] => []
  | acc, x :: xs => acc :: cumulate (acc + x) xs

/-- The link loop of rule R116 for `n` positions from `i` on. -/
def linkLoop : Nat → Nat → List Nat → Mem 32 → Mem 32
  | 0, _, _, tt => tt
  | n + 1, i, cftab, tt =>
    let uc := (tt.read i).toNat % 256
    let p := cftab.getD uc 0
    linkLoop n (i + 1) (cftab.set uc (p + 1))
      (tt.write p (tt.read p ||| (BitVec.ofNat 32 i <<< 8)))

/-- `DEC_IBWT` in state `IBWT` (rule R116). -/
def ibwt (s : State) : CmdResult :=
  let d := s.dec
  let tt := linkLoop d.nBlock.toNat 0 (cumulate 0 (d.unzftab.readNats 0 256)) d.tt
  .done { s with
    dec := { d with
      tt := tt
      tPos := ((tt.read d.origPtr.toNat) >>> 8).setWidth 20
      dstate := if d.rand = 1 then .randomizedWalk else .plainWalk } }

/-- `DEC_IBWT` (rule R116). -/
def execDecIbwt (s : State) : Host.Outcome State Fault Refusal :=
  runCommand .decIbwt (inDState .ibwt ibwt) s

/-- The de-randomisation counters (rule R117). -/
structure RandPos where
  toGo : Nat
  pos : Nat
  deriving DecidableEq, Repr

/-- One step of the counters, and whether bit 0 of this byte is flipped (rule R117). -/
def RandPos.step (rnums : Nat → Nat) (c : RandPos) : Bool × RandPos :=
  let c' : RandPos := if c.toGo = 0 then { toGo := rnums c.pos, pos := (c.pos + 1) % 512 } else c
  (c'.toGo - 1 = 1, { c' with toGo := c'.toGo - 1 })

/-- `n` walk steps of rule R117 with the table `rnums`: the last position and the bytes, in order. -/
def walk (rnums : Nat → Nat) (randomised : Bool) (tt : Mem 32) :
    Nat → BitVec 20 → RandPos → BitVec 20 × List Byte
  | 0, pos, _ => (pos, [])
  | n + 1, pos, c =>
    let w := tt.read pos.toNat
    let f := c.step rnums
    let b : Byte := if randomised && f.1 then w.setWidth 8 ^^^ 1 else w.setWidth 8
    let r := walk rnums randomised tt n ((w >>> 8).setWidth 20) f.2
    (r.1, b :: r.2)

/-- `DEC_WALK` with a table `rnums` (rule R118). -/
def walkBlock (rnums : Nat → Nat) (s : State) : CmdResult :=
  if s.dec.dstate ≠ .plainWalk ∧ s.dec.dstate ≠ .randomizedWalk then .raise .state s
  else
    let r := walk rnums (s.dec.dstate = .randomizedWalk) s.dec.tt s.dec.nBlock.toNat s.dec.tPos
      { toGo := 0, pos := 0 }
    .done { s with
      dout := s.dout ++ r.2
      dec := { s.dec with tPos := r.1, dstate := .endOfBlock } }

/-- `DEC_WALK` (rule R118), with the OPEN table `RNUMS`. -/
def execDecWalk (s : State) : Host.Outcome State Fault Refusal :=
  runCommand .decWalk (walkBlock Config.rnums) s

/-- `DEC_BLOCK_END` (rule R119). -/
def execDecBlockEnd (s : State) : Host.Outcome State Fault Refusal :=
  runCommand .decBlockEnd (inDState .endOfBlock fun s =>
    if s.crcValue ≠ s.dec.storedCrc then .raise .blockCrc (spoilBlockEnd s)
    else .done { s with
      combined := foldCombined s.combined s.dec.storedCrc
      dec := { s.dec with dstate := .startBlock } }) s

end Sys2Proof.Machine
end

