-- ==== Sys2Proof/Machine/Source.lean ====
section
/-! DEFINITION. The BitSource commands (42_bitsource.md rules R73 and R74). -/

namespace Sys2Proof.Machine

/-- `SRC_RESET` (rule R73): pending bits are dropped; `SRC_BYTES`, IN and `IN_CLOSED` are kept. -/
def execSrcReset (s : State) : Host.Outcome State Fault Refusal :=
  runCommand .srcReset (fun s => .done { s with src := { s.src with acc := 0, live := 0 } }) s

/-- `SRC_READ n` (rule R74). -/
def execSrcRead (n : BitVec 8) (s : State) : Host.Outcome State Fault Refusal :=
  runCommand (.srcRead n) (fun s =>
    if !readCountLegal n then .raise .operand s
    else readCommand (rd n.toNat) spoilSrcRead
      (fun v r s => .done { s with res := BitVec.ofNat 32 v, src := r }) s) s

end Sys2Proof.Machine
end

