-- ==== Sys2Proof/Machine/Dispatch.lean ====
section
/-! DEFINITION. One arm per command. -/

namespace Sys2Proof.Machine

def exec (i : Instr) (s : State) : Host.Outcome State Fault Refusal :=
  match i with
  | .nop => Sys2Proof.Machine.execNop s
  | .sysReset => Sys2Proof.Machine.execSysReset s
  | .cfg bs => Sys2Proof.Machine.execCfg bs s
  | .sinkReset => Sys2Proof.Machine.execSinkReset s
  | .sinkWrite n value => Sys2Proof.Machine.execSinkWrite n value s
  | .sinkFlush => Sys2Proof.Machine.execSinkFlush s
  | .sinkFinish => Sys2Proof.Machine.execSinkFinish s
  | .srcReset => Sys2Proof.Machine.execSrcReset s
  | .srcRead n => Sys2Proof.Machine.execSrcRead n s
  | .crcReset => Sys2Proof.Machine.execCrcReset s
  | .crcUpdate byte => Sys2Proof.Machine.execCrcUpdate byte s
  | .crcUpdateRun byte count => Sys2Proof.Machine.execCrcUpdateRun byte count s
  | .crcCombine => Sys2Proof.Machine.execCrcCombine s
  | .crcFold value => Sys2Proof.Machine.execCrcFold value s
  | .blkReset => Sys2Proof.Machine.execBlkReset s
  | .blkPut byte => Sys2Proof.Machine.execBlkPut byte s
  | .encMtf => Sys2Proof.Machine.execEncMtf s
  | .encTrain => Sys2Proof.Machine.execEncTrain s
  | .encCodes => Sys2Proof.Machine.execEncCodes s
  | .encEmit => Sys2Proof.Machine.execEncEmit s
  | .encStreamHdr => Sys2Proof.Machine.execEncStreamHdr s
  | .encBlockHdr rand origPtr => Sys2Proof.Machine.execEncBlockHdr rand origPtr s
  | .encTrailer => Sys2Proof.Machine.execEncTrailer s
  | .decReset => Sys2Proof.Machine.execDecReset s
  | .decStreamHdr => Sys2Proof.Machine.execDecStreamHdr s
  | .decBlockStart => Sys2Proof.Machine.execDecBlockStart s
  | .decTables => Sys2Proof.Machine.execDecTables s
  | .decSymbols => Sys2Proof.Machine.execDecSymbols s
  | .decIbwt => Sys2Proof.Machine.execDecIbwt s
  | .decWalk => Sys2Proof.Machine.execDecWalk s
  | .decBlockEnd => Sys2Proof.Machine.execDecBlockEnd s

end Sys2Proof.Machine
end

