-- ==== Sys2Proof/Machine/Port.lean ====
section
/-! DEFINITION. The host's side: issuing a command word (40_control.md rule R59), the FIFO and
register actions (20_memory.md rules R38 to R42), and the retry of a held command
(70_reset_and_hazards.md rules R139 and R140). -/

namespace Sys2Proof.Machine

/-- A word that is no command (rule R59): ignored and counted while `ERR ≠ 0`, otherwise
`E_OPCODE` for a reserved opcode and `E_OPERAND` for a reserved bit. -/
def rejectWord (e : DecodeError) (s : State) : State :=
  if s.err = 0 then
    match e with
    | .reservedOpcode => takeError .opcode s
    | .reservedBits => takeError .operand s
  else s.countCommand

/-- Issue one command word at a free port (rule R59). While `ERR ≠ 0` every command but the exact
`SYS_RESET` word, the one word that decodes to it, is ignored: `runCommand` and `rejectWord` see
to that. -/
def issue (w : Command) (s : State) : Host.Outcome State Fault Refusal :=
  match decode w with
  | .ok i => exec i s
  | .error e => .next (rejectWord e s)

/-- `PUSH_IN(b)`: dropped once IN is closed (rule R38). -/
def pushIn (b : Byte) (s : State) : State :=
  if s.src.closed then s else { s with src := { s.src with fifo := s.src.fifo ++ [b] } }

/-- `CLOSE_IN` (rule R38). -/
def closeIn (s : State) : State := { s with src := { s.src with closed := true } }

/-- `POP_OUT` (rule R39). With OUT empty nothing is removed and the byte returned is a free value
(assumption log 6). -/
def popOut (s : State) : State :=
  match s.sink.out with
  | b :: rest => { s with sink := { s.sink with out := rest }, popOutData := b }
  | [] => { s with popOutData := Config.freeBits 8 s.freeTick 0, freeTick := s.freeTick + 1 }

/-- `POP_DOUT` (rule R40). With DOUT empty nothing is removed and the byte returned is a free value
(assumption log 6). -/
def popDout (s : State) : State :=
  match s.dout with
  | b :: rest => { s with dout := rest, popDoutData := b }
  | [] => { s with popDoutData := Config.freeBits 8 s.freeTick 0, freeTick := s.freeTick + 1 }

/-- `READ(a)` (rule R41): no side effect on the block. -/
def readPort (a : BitVec 12) (s : State) : State := { s with readData := s.readRegister a }

/-- Run a held command again from its start (rule R139); with none held, nothing. -/
def retryHeld (s : State) : Host.Outcome State Fault Refusal :=
  match s.held with
  | none => .next s
  | some i => exec i { s with held := none }

/-- Perform one host action (rule R42), the queue being what follows it. A FIFO action or a read lets
a held command be retried afterwards; a read returns the value from before (rule R51); the reset
input abandons a held command (rule R134). A `CMD` at a port that a command holds is not accepted
and waits (assumption log 2): `waiting` is the state with it still queued. -/
def performAction (waiting : State) (a : HostAction) (s : State) :
    Host.Outcome State Fault Refusal :=
  match a with
  | .cmd w =>
    match s.held with
    | none => issue w s
    | some _ => .next waiting
  | .pushIn b => retryHeld (pushIn b s)
  | .closeIn => retryHeld (closeIn s)
  | .popOut => retryHeld (popOut s)
  | .popDout => retryHeld (popDout s)
  | .read addr => retryHeld (readPort addr s)
  | .reset => .next s.resetBlock

/-- The next host action, if there is one; without one the block waits (rule R136). -/
def hostStep (s : State) : Host.Outcome State Fault Refusal :=
  match s.hostQueue with
  | [] => .next s
  | a :: rest => performAction s a { s with hostQueue := rest }

/-- The command word `w` as the host's next action, at a free port. -/
def issueNext (w : Command) (s : State) : State :=
  { s with hostQueue := .cmd w :: s.hostQueue, held := none }

end Sys2Proof.Machine
end

