-- ==== Sys2Proof/Safety.lean ====
section
/-! DEFINITION. The terms the claims are stated in: the bit streams a BitSink and a BitSource stand
for, what a state reached by steps satisfies, and what a clean run is. -/

namespace Sys2Proof.Machine

/-! ## Bit streams (00_scope.md rule R11) -/

/-- The bits of bytes, each byte's bit 7 first (20_memory.md rule R44). -/
def bytesToBits (bytes : List Byte) : List Bool := bytes.flatMap fun b => natToBits 8 b.toNat

/-- `SINK_ACC[31 : 32 − SINK_LIVE]`, the oldest bit first (10_state.md rule R23). -/
def BitSink.pending (k : BitSink) : List Bool := (natToBits 32 k.acc.toNat).take k.live.toNat

/-- The bits in OUT followed by the pending bits (41_bitsink.md rule R66). -/
def BitSink.bits (k : BitSink) : List Bool := bytesToBits k.out ++ k.pending

/-- The bits of bit fields, each the low `n` bits of its value, most significant first. -/
def fieldBits (fields : List BitField) : List Bool := fields.flatMap fun f => natToBits f.1 f.2.toNat

/-- The bits still to be read: `SRC_ACC[SRC_LIVE−1 : 0]`, then IN (10_state.md rule R27). -/
def BitSource.bits (r : BitSource) : List Bool :=
  natToBits r.live.toNat r.acc.toNat ++ bytesToBits r.fifo

/-- Zero bits up to the next byte boundary (41_bitsink.md rule R65). -/
def padToByte (bits : List Bool) : List Bool :=
  bits ++ List.replicate ((8 - bits.length % 8) % 8) false

/-! ## What holds of the state after every command -/

/-- 41_bitsink.md rule R66: at most 32 bits live, and the bits below them 0. -/
abbrev BitSink.Tidy (k : BitSink) : Prop :=
  k.live.toNat ≤ 32 ∧ k.acc.toNat % 2 ^ (32 - k.live.toNat) = 0

/-- 10_state.md rules R27 and R28: 0..7 bits pending, the bits above them 0. -/
abbrev BitSource.Tidy (r : BitSource) : Prop :=
  r.live.toNat ≤ 7 ∧ r.acc.toNat < 2 ^ r.live.toNat

/-- Every internal memory of the encoder in canonical form. -/
abbrev Encoder.MemoriesCanonical (e : Encoder) : Prop :=
  e.block.wf ∧ e.mtfv.wf ∧ e.mtfFreq.wf ∧ e.selector.wf ∧ e.selMtf.wf ∧ e.eLen.wf ∧ e.eCode.wf

/-- Every internal memory of the decoder in canonical form. -/
abbrev Decoder.MemoriesCanonical (d : Decoder) : Prop :=
  d.inUse.wf ∧ d.seqToUnseq.wf ∧ d.selector.wf ∧ d.len.wf ∧ d.limit.wf ∧ d.base.wf ∧ d.perm.wf ∧
    d.minLen.wf ∧ d.tt.wf ∧ d.unzftab.wf

/-- Every internal memory in canonical form. -/
abbrev State.MemoriesCanonical (s : State) : Prop :=
  s.enc.MemoriesCanonical ∧ s.dec.MemoriesCanonical

/-- The codes `ERR` may hold (60_exceptions.md rule R121). -/
def definedErrorCodes : List (BitVec 8) :=
  [0x00, 0x01, 0x02, 0x03, 0x04, 0x05, 0x06, 0x10, 0x11, 0x20, 0x21, 0x22, 0x23]

/-- The commands that read bits, the only ones that can hold (70_reset_and_hazards.md rule R139). -/
def Instr.readsBits : Instr → Bool
  | .srcRead _ => true
  | .decStreamHdr => true
  | .decBlockStart => true
  | .decTables => true
  | .decSymbols => true
  | _ => false

/-- The encoder's code lengths where a later command reads them: at most 20
(45_huffman_encode.md rule R93). -/
abbrev Encoder.LengthsLegal (e : Encoder) : Prop :=
  e.estate = .trained ∨ e.estate = .coded →
    ∀ t < e.nGroups.toNat, ∀ v < e.alphabet,
      (e.eLen.read (Config.symbolRow * t + v)).toNat ≤ Config.maxCodeLen

/-- What holds of every state reached from reset. The BitSource clause is for `ERR = 0` only: after a
malformed-stream error its registers are unspecified (60_exceptions.md rule R128). -/
structure State.Inv (s : State) : Prop where
  /-- `ERR` holds a defined code (rules R18 and R121) -/
  errDefined : s.err ∈ definedErrorCodes
  /-- `BLOCKSIZE100K` is in 1..9 (rule R22) -/
  blockSizeLegal : 1 ≤ s.blockSize.toNat ∧ s.blockSize.toNat ≤ 9
  /-- `ESTATE = EMPTY` exactly when `LAST = −1` (rule R19) -/
  emptyIffNoBlock : s.enc.estate = .empty ↔ s.noBlock = true
  /-- the block fits its capacity, `LAST` in −1..899999 (rules R32 and R84) -/
  blockFits : s.enc.blockLength ≤ Config.blockUnit * s.blockSize.toNat
  /-- `NINUSE` is in 0..256 (rule R32) -/
  inUseLegal : s.enc.nInUse.toNat ≤ 256
  /-- trained code lengths are at most 20 (rule R93) -/
  lengthsLegal : s.enc.LengthsLegal
  /-- the BitSink's form (rule R66) -/
  sinkTidy : s.sink.Tidy
  /-- the BitSource's form (rules R27 and R28) -/
  srcTidy : s.err = 0 → s.src.Tidy
  /-- only a command that reads bits is held, and none while `ERR ≠ 0` (rules R123 and R139) -/
  heldReads : ∀ i, s.held = some i → Instr.readsBits i = true ∧ s.err = 0
  /-- internal memories in canonical form -/
  memories : s.MemoriesCanonical

/-- `E_LEN[t][0..A−1]`. -/
def Encoder.lengths (e : Encoder) (t : Nat) : List Nat :=
  e.eLen.readNats (Config.symbolRow * t) e.alphabet

/-- `SELECTOR[0..NSELECTORS−1]`. -/
def Encoder.selectors (e : Encoder) : List Nat := e.selector.readNats 0 e.nSelectors.toNat

/-- `MTFV[0..NMTF−1]`. -/
def Encoder.symbols (e : Encoder) : List Nat := e.mtfv.readNats 0 e.nMtf.toNat

/-- What the encoder's pipeline has left in its memories, stage by stage
(44_mtf_encode.md rules R84 and R88, 45_huffman_encode.md rules R90 to R95). -/
structure Encoder.Legal (e : Encoder) : Prop where
  /-- every byte loaded is in use (rule R84) -/
  bytesInUse : ∀ i < e.blockLength, e.inUse.getLsbD (e.block.read i).toNat = true
  /-- from `MTF_DONE` on, the symbol stream is that of the block (rule R88) -/
  stream : e.estate = .mtfDone ∨ e.estate = .trained ∨ e.estate = .coded →
    e.nInUse.toNat = rankOf e.inUse 256 ∧ e.nMtf.toNat = e.symbolStream.length ∧
      e.symbols = e.symbolStream ∧
      e.mtfFreq.readNats 0 e.alphabet = (List.range e.alphabet).map fun x => e.symbolStream.count x
  /-- from `TRAINED` on, a selector for each group, each naming a table (rules R90 and R92) -/
  tables : e.estate = .trained ∨ e.estate = .coded →
    e.nGroups.toNat = tableCount e.nMtf.toNat ∧ e.nSelectors.toNat = (e.nMtf.toNat + 49) / 50 ∧
      ∀ t ∈ e.selectors, t < e.nGroups.toNat
  /-- from `CODED` on, the codes are the canonical ones (rule R95) -/
  codes : e.estate = .coded → ∀ t < e.nGroups.toNat, ∀ v < e.alphabet,
    e.eCode.read (Config.symbolRow * t + v) =
      BitVec.ofNat 20 ((canonicalCodes (e.lengths t)).getD v 0)

/-- How many of the positions below `n` satisfy `p`. -/
def countBelow (n : Nat) (p : Nat → Bool) : Nat := (List.range n).countP p

/-- The byte of `TT[i]`. -/
def Decoder.ttByte (d : Decoder) (i : Nat) : Byte := (d.tt.read i).setWidth 8

/-- The link of `TT[i]`. -/
def Decoder.ttLink (d : Decoder) (i : Nat) : Nat := (d.tt.read i).toNat / 256

/-- What the decoder's stages have left in its registers and memories while no error is recorded
(46_huffman_decode.md rules R105 to R115, 47_bwt_inverse.md rules R116 and R120). -/
structure Decoder.Legal (d : Decoder) : Prop where
  /-- once a stream header has been read, its digit is in 1..9 (rule R105) -/
  blockSize : d.dstate ≠ .idle → 1 ≤ d.bs100k.toNat ∧ d.bs100k.toNat ≤ 9
  /-- in `SYMBOLS`, the counts and selectors are in the ranges rules R107 and R108 check -/
  tables : d.dstate = .symbols →
    1 ≤ d.nInUse.toNat ∧ d.nInUse.toNat ≤ 256 ∧ 2 ≤ d.nGroups.toNat ∧ d.nGroups.toNat ≤ 6 ∧
      1 ≤ d.nSelectors.toNat ∧
      (∀ g < d.nSelectors.toNat, (d.selector.read g).toNat < d.nGroups.toNat) ∧
      ∀ t < d.nGroups.toNat, ∀ v < d.nInUse.toNat + 2,
        1 ≤ (d.len.read (Config.symbolRow * t + v)).toNat ∧
          (d.len.read (Config.symbolRow * t + v)).toNat ≤ Config.maxCodeLen
  /-- in `IBWT`, a block of 1..900000 bytes without links, its byte counts, and `D_ORIGPTR` in it
  (rules R114 and R115) -/
  block : d.dstate = .ibwt →
    d.nBlock.toNat ≤ 900000 ∧ d.origPtr.toNat < d.nBlock.toNat ∧
      (∀ i < d.nBlock.toNat, d.ttLink i = 0) ∧
      ∀ b < 256, (d.unzftab.read b).toNat =
        countBelow d.nBlock.toNat fun i => decide ((d.ttByte i).toNat = b)
  /-- while walking, the position and every link stay in the block (rule R116), and the state says
  whether the block is randomised (rule R120) -/
  links : d.dstate = .plainWalk ∨ d.dstate = .randomizedWalk →
    d.tPos.toNat < d.nBlock.toNat ∧ (∀ i < d.nBlock.toNat, d.ttLink i < d.nBlock.toNat) ∧
      (d.dstate = .randomizedWalk ↔ d.rand = 1)

/-- The decoder is as its stages left it, unless an error has made it unspecified
(60_exceptions.md rule R128). -/
abbrev State.DecoderLegal (s : State) : Prop := s.err = 0 → s.dec.Legal

/-- A clean state: no error recorded, so no value that a fault leaves unspecified is in it
(60_exceptions.md rules R125 and R128). -/
abbrev State.Clean (s : State) : Prop := s.err = 0

/-- The end of a run (20_memory.md rule R43): every action performed and no command held. -/
abbrev State.Ended (s : State) : Prop := s.hostQueue = [] ∧ s.held = none

/-- A safe run: every step of it answers a next state, and that state is clean. -/
def SafeRun : Nat → State → Prop
  | 0, s => s.Clean
  | n + 1, s => s.Clean ∧ ∃ t, step s = .next t ∧ SafeRun n t

/-- The block as rule R134 leaves it: every register and FIFO, no command held, and no element listed
in any internal memory (rule R135). -/
structure State.AtReset (s : State) : Prop where
  control : s.err = 0 ∧ s.cmdCnt = 0 ∧ s.res = 0 ∧ s.blockSize = 9
  sink : s.sink = { acc := 0, live := 0, bytes := 0, done := false, out := [] }
  source : s.src = { acc := 0, live := 0, bytes := 0, fifo := [], closed := false }
  crc : s.crc = 0xFFFFFFFF ∧ s.combined = 0
  encoder : s.enc.estate = .empty ∧ s.enc.last = 0xFFFFFFFF ∧ s.enc.inUse = 0 ∧ s.enc.nInUse = 0 ∧
    s.enc.nMtf = 0 ∧ s.enc.nGroups = 0 ∧ s.enc.nSelectors = 0
  decoder : s.dec.dstate = .idle ∧ s.dec.bs100k = 0 ∧ s.dec.storedCrc = 0 ∧ s.dec.rand = 0 ∧
    s.dec.origPtr = 0 ∧ s.dec.nInUse = 0 ∧ s.dec.nGroups = 0 ∧ s.dec.nSelectors = 0 ∧
    s.dec.nBlock = 0 ∧ s.dec.tPos = 0
  ports : s.dout = [] ∧ s.held = none
  encoderMemories : s.enc.block.cells = [] ∧ s.enc.mtfv.cells = [] ∧ s.enc.mtfFreq.cells = [] ∧
    s.enc.selector.cells = [] ∧ s.enc.selMtf.cells = [] ∧ s.enc.eLen.cells = [] ∧
    s.enc.eCode.cells = []
  decoderMemories : s.dec.inUse.cells = [] ∧ s.dec.seqToUnseq.cells = [] ∧
    s.dec.selector.cells = [] ∧ s.dec.len.cells = [] ∧ s.dec.limit.cells = [] ∧
    s.dec.base.cells = [] ∧ s.dec.perm.cells = [] ∧ s.dec.minLen.cells = [] ∧ s.dec.tt.cells = [] ∧
    s.dec.unzftab.cells = []

/-! ## Command words -/

/-- The opcodes of rule R56, each with the bits rule R55 reserves for it. -/
def opcodeRows : List (BitVec 8 × Command) :=
  [(0x00, 0x00FFFFFFFFFFFFFF), (0x01, 0x00FFFFFFFFFFFFFF), (0x02, 0x0000FFFFFFFFFFFF),
   (0x10, 0x00FFFFFFFFFFFFFF), (0x11, 0x0000FFFF00000000), (0x12, 0x00FFFFFFFFFFFFFF),
   (0x13, 0x00FFFFFFFFFFFFFF), (0x18, 0x00FFFFFFFFFFFFFF), (0x19, 0x0000FFFFFFFFFFFF)]
  ++ [(0x20, 0x00FFFFFFFFFFFFFF), (0x21, 0x00FFFFFFFFFFFF00), (0x22, 0x00FF0000FFFFFF00),
   (0x23, 0x00FFFFFFFFFFFFFF), (0x24, 0x00FFFFFF00000000), (0x30, 0x00FFFFFFFFFFFFFF),
   (0x31, 0x00FFFFFFFFFFFF00), (0x32, 0x00FFFFFFFFFFFFFF), (0x33, 0x00FFFFFFFFFFFFFF)]
  ++ [(0x34, 0x00FFFFFFFFFFFFFF), (0x35, 0x00FFFFFFFFFFFFFF), (0x38, 0x00FFFFFFFFFFFFFF),
   (0x39, 0x00FEFFFFFF000000), (0x3A, 0x00FFFFFFFFFFFFFF), (0x40, 0x00FFFFFFFFFFFFFF),
   (0x41, 0x00FFFFFFFFFFFFFF), (0x42, 0x00FFFFFFFFFFFFFF), (0x43, 0x00FFFFFFFFFFFFFF)]
  ++ [(0x44, 0x00FFFFFFFFFFFFFF), (0x45, 0x00FFFFFFFFFFFFFF), (0x46, 0x00FFFFFFFFFFFFFF),
   (0x47, 0x00FFFFFFFFFFFFFF)]

/-! ## Terms for the bit streams -/

/-- BitSink `q` is BitSink `k` after bit fields were written to it whose bits together are `bits`,
the last field `lastWidth` bits wide (0 when nothing is written and the BitSink only drained)
(41_bitsink.md rules R63, R64 and R66). -/
structure BitSink.Appended (k q : BitSink) (bits : List Bool) (lastWidth : Nat) : Prop where
  tidy : q.Tidy
  /-- the bits in OUT and pending are the old ones, then the new ones -/
  stream : q.bits = k.bits ++ bits
  /-- bytes are only appended to OUT -/
  outKept : k.out <+: q.out
  /-- `SINK_BYTES` counts them -/
  counted : q.bytes = k.bytes + BitVec.ofNat 32 (q.out.length - k.out.length)
  doneKept : q.done = k.done
  /-- every complete byte before the last field has been emitted, none after it -/
  live : q.live.toNat = (k.live.toNat + (bits.length - lastWidth)) % 8 + lastWidth

/-- How many bytes a read of `n` bits takes from IN (42_bitsource.md rules R71 and R72). -/
def BitSource.bytesFor (r : BitSource) (n : Nat) : Nat := (n - r.live.toNat + 7) / 8

/-- BitSource `q` is BitSource `r` after its first `n` bits were read (rules R71 and R72). -/
structure BitSource.Consumed (r q : BitSource) (n : Nat) : Prop where
  tidy : q.Tidy
  enough : n ≤ r.bits.length
  stream : q.bits = r.bits.drop n
  taken : q.fifo = r.fifo.drop (r.bytesFor n)
  counted : q.bytes = r.bytes + BitVec.ofNat 32 (r.bytesFor n)
  closedKept : q.closed = r.closed

/-- Reads of the widths given, one after the other. -/
def readWidths : List Nat → Reader (List Nat)
  | [] => .pure []
  | n :: ns => (rd n).bind fun v => (readWidths ns).bind fun vs => .pure (v :: vs)

/-! ## Terms for the code tables -/

/-- Kraft's inequality for code lengths up to 20: the lengths are those of some prefix code. -/
abbrev Kraft (lens : List Nat) : Prop := (lens.map fun l => 2 ^ (20 - l)).sum ≤ 2 ^ 20

/-- The first canonical code of length `l`: each shorter code takes `2^(l − k)` codes of that length
(46_huffman_decode.md rule R110). -/
def firstCode (lens : List Nat) (l : Nat) : Nat :=
  ((List.range l).map fun k => lens.count k * 2 ^ (l - k)).sum

/-- A selector value as rule R108 reads it: `j` 1 bits and a 0 bit. -/
def unaryBits (j : Nat) : List Bool := List.replicate j true ++ [false]

/-- Steps of a length as rule R109 reads them: `10` for a step up (`true`), `11` for a step down. -/
def stepBits (steps : List Bool) : List Bool := steps.flatMap fun up => [true, !up]

/-- One symbol's length as rule R109 reads it: its steps from the length before, and a 0 bit. -/
def lengthCodeBits (steps : List Bool) : List Bool := stepBits steps ++ [false]

/-- The length reached from `seed` by these steps, in or out of range (rule R109). -/
def steppedLength (seed : Nat) (steps : List Bool) : Int :=
  (seed : Int) + steps.count true - steps.count false

/-- The bits of a symbol stream, symbol `i` under the canonical code of the table that selector
`i / 50` names (45_huffman_encode.md rules R95 and R99). -/
def bodyBits (lens : List (List Nat)) (selectors syms : List Nat) : List Bool :=
  (List.range syms.length).flatMap fun i =>
    let row := lens.getD (selectors.getD (i / 50) 0) []
    natToBits (row.getD (syms.getD i 0) 0) ((canonicalCodes row).getD (syms.getD i 0) 0)

/-- What `DEC_TABLES` accepts (46_huffman_decode.md rules R107 to R109). -/
structure TableSection.Legal (x : TableSection) : Prop where
  bitmap : x.inUse.length = 256
  used : valuesInUse x.inUse ≠ []
  groups : 2 ≤ x.nGroups ∧ x.nGroups ≤ 6 ∧ x.lens.length = x.nGroups
  count : 1 ≤ x.selectors.length ∧ x.selectors.length ≤ 32767
  selectors : ∀ t ∈ x.selectors, t < x.nGroups
  lengths : ∀ row ∈ x.lens, row.length = (valuesInUse x.inUse).length + 2 ∧
    ∀ l ∈ row, 1 ≤ l ∧ l ≤ 20

/-- The in-use bits of a table section as `IN_USE`. -/
def TableSection.inUseBits (x : TableSection) : BitVec 256 :=
  BitVec.ofNat 256 (bitsToNat x.inUse.reverse)

/-! ## Terms for the Burrows-Wheeler transform (00_scope.md rule R13) -/

/-- The rotation of a block that starts at position `i`. -/
def rotation (block : List Byte) (i : Nat) : List Nat :=
  (block.drop i ++ block.take i).map BitVec.toNat

/-- `order` lists the starting positions of a block's rotations, sorted. -/
structure SortedRotations (block : List Byte) (order : List Nat) : Prop where
  all : order.Perm (List.range block.length)
  sorted : order.Pairwise fun i j => rotation block i ≤ rotation block j

/-- The last column of the sorted rotations. -/
def lastColumn (block : List Byte) (order : List Nat) : List Byte :=
  order.map fun i => block.getD ((i + block.length - 1) % block.length) 0

/-- The walk's position after `k` steps from `p` (47_bwt_inverse.md rule R117). -/
def Decoder.walkPos (d : Decoder) (p : Nat) : Nat → Nat
  | 0 => p
  | k + 1 => d.walkPos (d.ttLink p) k

/-- The byte number `k` (0-based) of a block is one whose bit 0 de-randomisation flips: its 1-based
position is the end of some stretch, less 1 (rule R117). -/
def Flipped (rnums : Nat → Nat) (k : Nat) : Prop :=
  ∃ m, k + 2 = ((List.range (m + 1)).map fun j => rnums (j % 512)).sum

/-! ## Terms for the decoder -/

/-- The expansion of rule R114 over a given symbol list. -/
def expandSymbols (d : Decoder) (nmax : Nat) : Expansion → List Nat → ExpandStep
  | x, [] => .more x
  | x, s :: rest =>
    match x.symbol d nmax s with
    | .more y => expandSymbols d nmax y rest
    | .done y => .done y
    | .fail => .fail

/-- The bit fields of a table section as the encoder writes it (45_huffman_encode.md rules R97 to
R99). -/
def tableSectionFields (inUse : BitVec 256) (nG : Nat) (selectors : List Nat)
    (lens : List (List Nat)) : List BitField :=
  bitmapFields inUse
    ++ [(3, BitVec.ofNat 32 nG), (15, BitVec.ofNat 32 selectors.length)]
    ++ (selectorMtf (List.range nG) selectors).map unaryField
    ++ lens.flatMap tableFields

/-- The decoder state moves of 47_bwt_inverse.md rule R120 for commands that complete. -/
def decoderMove (i : Instr) (p q : DState) (rand : BitVec 1) : Bool :=
  match i with
  | .decReset => q = .idle
  | .decStreamHdr => p = .idle ∧ q = .startBlock
  | .decBlockStart => p = .startBlock ∧ (q = .tables ∨ q = .eof)
  | .decTables => p = .tables ∧ q = .symbols
  | .decSymbols => p = .symbols ∧ q = .ibwt
  | .decIbwt => p = .ibwt ∧ q = (if rand = 1 then .randomizedWalk else .plainWalk)
  | .decWalk => (p = .plainWalk ∨ p = .randomizedWalk) ∧ q = .endOfBlock
  | .decBlockEnd => p = .endOfBlock ∧ q = .startBlock
  | .sysReset => q = .idle
  | _ => p = q

end Sys2Proof.Machine
end

