-- ==== Sys2Proof/Certificates/Slice0/Obligations.lean ====
section
/-! DEFINITION. The statements for the provers. Each says which rules of spec/ it formalises. In a
state written with the record update syntax, every field that is not named is unchanged: that is the
frame. `s.err = 0` says that the block is not poisoned (60_exceptions.md rule R123). -/

open Sys2Proof Sys2Proof.Machine

/-! ## Encoding and dispatch -/

/-- 30_encoding.md rules R53 to R56: no operand bit is dropped, and every word has one meaning. -/
def Obligations.DecodeAndEncodeAgree : Prop :=
  (∀ i : Instr, decode (encode i) = .ok i) ∧
  ∀ (w : Command) (i : Instr), decode w = .ok i → encode i = w

/-- Rules R55 to R57: a word is a command exactly when its opcode is in the map and the bits reserved
for that opcode are 0. -/
def Obligations.DecodeFollowsOpcodeMap : Prop :=
  ∀ w : Command,
    (decode w = .error .reservedOpcode ↔ ∀ row ∈ opcodeRows, w.extractLsb' 56 8 ≠ row.1) ∧
    (decode w = .error .reservedBits ↔
      ∃ row ∈ opcodeRows, w.extractLsb' 56 8 = row.1 ∧ w &&& row.2 ≠ 0) ∧
    ((∃ i, decode w = .ok i) ↔ ∃ row ∈ opcodeRows, w.extractLsb' 56 8 = row.1 ∧ w &&& row.2 = 0)

/-- Words written out from rules R53, R54 and R56. -/
def Obligations.SampleWordsDecode : Prop :=
  decode 0x0100000000000000 = .ok .sysReset ∧
  decode 0x0201000000000000 = .ok (.cfg 1) ∧
  decode 0x1119000001FFFFFF = .ok (.sinkWrite 25 0x1FFFFFF) ∧
  decode 0x2200000500000041 = .ok (.crcUpdateRun 0x41 5) ∧
  decode 0x3901000000000003 = .ok (.encBlockHdr 1 3) ∧
  decode 0x4400000000000000 = .ok .decSymbols ∧
  decode 0x4800000000000000 = .error .reservedOpcode ∧
  decode 0x3902000000000000 = .error .reservedBits

/-- 40_control.md rule R59: a step whose host action is a command word runs the command it decodes
to, when the port is free. -/
def Obligations.StepRunsDecodedCommand : Prop :=
  ∀ (s : State) (w : Command) (rest : List HostAction) (i : Instr),
    s.held = none → s.hostQueue = .cmd w :: rest → decode w = .ok i →
    step s = exec i { s with hostQueue := rest }

/-- Rules R55 and R57, and R59 on the order of the checks: a word that is no command raises
`E_OPCODE` or `E_OPERAND` and changes nothing else. -/
def Obligations.ReservedWordsFault : Prop :=
  ∀ (s : State) (w : Command) (rest : List HostAction),
    s.held = none → s.hostQueue = .cmd w :: rest → s.err = 0 →
    ((∀ row ∈ opcodeRows, w.extractLsb' 56 8 ≠ row.1) →
      step s = .next { s with hostQueue := rest, err := 0x20, cmdCnt := s.cmdCnt + 1 }) ∧
    ((∃ row ∈ opcodeRows, w.extractLsb' 56 8 = row.1 ∧ w &&& row.2 ≠ 0) →
      step s = .next { s with hostQueue := rest, err := 0x22, cmdCnt := s.cmdCnt + 1 })

/-! ## Ports, holds and reset -/

/-- 20_memory.md rules R38 to R40: the FIFO actions of the host at a free command port. What a pop of
an empty FIFO returns is the model's choice, a free value (assumption log 6). -/
def Obligations.HostActionsMoveBytes : Prop :=
  ∀ (s : State) (rest : List HostAction), s.held = none →
    (∀ b, s.hostQueue = .pushIn b :: rest → s.src.closed = false →
      step s = .next { s with
        hostQueue := rest, src := { s.src with fifo := s.src.fifo ++ [b] } }) ∧
    (∀ b, s.hostQueue = .pushIn b :: rest → s.src.closed = true →
      step s = .next { s with hostQueue := rest }) ∧
    (s.hostQueue = .closeIn :: rest →
      step s = .next { s with hostQueue := rest, src := { s.src with closed := true } }) ∧
    (∀ b out, s.hostQueue = .popOut :: rest → s.sink.out = b :: out →
      step s = .next { s with
        hostQueue := rest, sink := { s.sink with out := out }, popOutData := b }) ∧
    (∀ b out, s.hostQueue = .popDout :: rest → s.dout = b :: out →
      step s = .next { s with hostQueue := rest, dout := out, popDoutData := b }) ∧
    (s.hostQueue = .popOut :: rest → s.sink.out = [] → ∃ v n,
      step s = .next { s with hostQueue := rest, popOutData := v, freeTick := n }) ∧
    (s.hostQueue = .popDout :: rest → s.dout = [] → ∃ v n,
      step s = .next { s with hostQueue := rest, popDoutData := v, freeTick := n })

/-- 20_memory.md rule R41: the register read map; every other address reads 0, and a read changes
nothing but what it returns. -/
def Obligations.ReadReturnsTheRegisterMap : Prop :=
  ∀ (s : State) (a : BitVec 12) (rest : List HostAction),
    s.held = none → s.hostQueue = .read a :: rest →
    ∃ v, step s = .next { s with hostQueue := rest, readData := v } ∧
      (a = 0x00 → v = 0x425A3245) ∧
      (a = 0x04 → v = s.err.setWidth 32) ∧
      (a = 0x08 → v = s.enc.estate.toBits.setWidth 32) ∧
      (a = 0x0C → v = s.dec.dstate.toBits.setWidth 32) ∧
      (a = 0x10 → v = s.cmdCnt) ∧
      (a = 0x14 → v = s.res) ∧
      (a = 0x18 → v = s.blockSize.setWidth 32) ∧
      (a = 0x1C → v = s.sink.acc) ∧
      (a = 0x20 → v = s.sink.live.setWidth 32) ∧
      (a = 0x24 → v = s.sink.bytes) ∧
      (a = 0x28 → v = if s.sink.done then 1 else 0) ∧
      (a = 0x2C → v = s.src.acc.extractLsb' 0 32) ∧
      (a = 0x30 → v = s.src.live.setWidth 32) ∧
      (a = 0x34 → v = s.src.bytes) ∧
      (a = 0x38 → v = s.crc) ∧
      (a = 0x3C → v = ~~~s.crc) ∧
      (a = 0x40 → v = s.combined) ∧
      (a = 0x44 → v = s.enc.last) ∧
      (a = 0x48 → v = s.enc.nInUse.setWidth 32) ∧
      (a = 0x4C → v = s.enc.nMtf.setWidth 32) ∧
      (a = 0x50 → v = s.enc.nGroups.setWidth 32) ∧
      (a = 0x54 → v = s.enc.nSelectors.setWidth 32) ∧
      (a = 0x58 → v = s.dec.bs100k.setWidth 32) ∧
      (a = 0x5C → v = s.dec.storedCrc) ∧
      (a = 0x60 → v = s.dec.rand.setWidth 32) ∧
      (a = 0x64 → v = s.dec.origPtr.setWidth 32) ∧
      (a = 0x68 → v = s.dec.nInUse.setWidth 32) ∧
      (a = 0x6C → v = s.dec.nGroups.setWidth 32) ∧
      (a = 0x70 → v = s.dec.nSelectors.setWidth 32) ∧
      (a = 0x74 → v = s.dec.nBlock.setWidth 32) ∧
      (a = 0x78 → v = s.dec.tPos.setWidth 32) ∧
      (a = 0x7C → v = BitVec.ofNat 32 s.src.fifo.length) ∧
      (a = 0x80 → v = if s.src.closed then 1 else 0) ∧
      (a = 0x84 → v = BitVec.ofNat 32 s.sink.out.length) ∧
      (a = 0x88 → v = BitVec.ofNat 32 s.dout.length) ∧
      (a.toNat % 4 ≠ 0 ∨ 0x88 < a.toNat → v = 0)

/-- 70_reset_and_hazards.md rules R139 (b) and (c) and R140, 20_memory.md rule R51: while a command
holds, a new command word waits, the reset input abandons the held command (rule R134), and after any
other host action the held command is run again from its start. The model's own in this: the waiting
word stays at the head of the queue (assumption log 2), the retry falls in the same step as the action
(assumption log 3), and a pop of an empty FIFO returns a free value (assumption log 6). -/
def Obligations.HeldCommandRetried : Prop :=
  ∀ (s : State) (i : Instr) (rest : List HostAction), s.held = some i →
    (∀ w, s.hostQueue = .cmd w :: rest → step s = .next s) ∧
    (∀ b, s.hostQueue = .pushIn b :: rest → s.src.closed = false →
      step s = exec i { s with
        hostQueue := rest, held := none, src := { s.src with fifo := s.src.fifo ++ [b] } }) ∧
    (∀ b, s.hostQueue = .pushIn b :: rest → s.src.closed = true →
      step s = exec i { s with hostQueue := rest, held := none }) ∧
    (s.hostQueue = .closeIn :: rest →
      step s = exec i { s with
        hostQueue := rest, held := none, src := { s.src with closed := true } }) ∧
    (∀ b out, s.hostQueue = .popOut :: rest → s.sink.out = b :: out →
      step s = exec i { s with
        hostQueue := rest, held := none, sink := { s.sink with out := out }, popOutData := b }) ∧
    (∀ b out, s.hostQueue = .popDout :: rest → s.dout = b :: out →
      step s = exec i { s with hostQueue := rest, held := none, dout := out, popDoutData := b }) ∧
    (s.hostQueue = .popOut :: rest → s.sink.out = [] → ∃ v n,
      step s = exec i { s with
        hostQueue := rest, held := none, popOutData := v, freeTick := n }) ∧
    (s.hostQueue = .popDout :: rest → s.dout = [] → ∃ v n,
      step s = exec i { s with
        hostQueue := rest, held := none, popDoutData := v, freeTick := n }) ∧
    (∀ a, s.hostQueue = .read a :: rest →
      step s = exec i { s with
        hostQueue := rest, held := none, readData := s.readRegister a }) ∧
    (s.hostQueue = .reset :: rest → ∃ t, step s = .next t ∧ t.AtReset ∧ t.hostQueue = rest)

/-- Rule R139 (a): a command that holds changes nothing but the port, and only a command that reads
bits holds, with IN open and no error recorded. -/
def Obligations.HoldHasNoEffect : Prop :=
  ∀ (i : Instr) (s t : State), s.held = none → exec i s = .next t → t.held ≠ none →
    t = { s with held := some i } ∧ Instr.readsBits i = true ∧ s.err = 0 ∧ s.src.closed = false

/-- 42_bitsource.md rules R71 and R72 (bytes are taken only when needed): a command that completes
does the same with more bytes behind those it needed, and leaves those bytes in IN. And 20_memory.md
rule R38 with rule R139: a command that completes with more bytes in IN completes without them, or
holds with IN open and raises `E_EOF` with IN closed. -/
def Obligations.ReadsAreLazy : Prop :=
  ∀ (i : Instr) (s t : State) (extra : List Byte),
    Instr.readsBits i = true → s.err = 0 → s.held = none → t.err = 0 → t.held = none →
    (exec i s = .next t →
      exec i { s with src := { s.src with fifo := s.src.fifo ++ extra } } =
        .next { t with src := { t.src with fifo := t.src.fifo ++ extra } }) ∧
    (exec i { s with src := { s.src with fifo := s.src.fifo ++ extra } } = .next t →
      (∃ u, exec i s = .next u ∧ u.err = 0 ∧ u.held = none) ∨
      (s.src.closed = false ∧ exec i s = .next { s with held := some i }) ∨
      (s.src.closed = true ∧ ∃ u, exec i s = .next u ∧ u.err = 0x03))

/-- 60_exceptions.md rule R123: while `ERR ≠ 0` every word but the exact `SYS_RESET` word is ignored
and counted, whatever it is; in particular it does not hold. -/
def Obligations.PoisonedBlockIgnoresCommands : Prop :=
  ∀ (s : State) (w : Command) (rest : List HostAction),
    s.held = none → s.hostQueue = .cmd w :: rest → s.err ≠ 0 → w ≠ 0x0100000000000000 →
    step s = .next { s with hostQueue := rest, cmdCnt := s.cmdCnt + 1 }

/-- Rule R125: `IRQ` is the level `ERR.CODE ≠ 0`, and once raised it stays up, with the code
unchanged, until `SYS_RESET` or the reset input. -/
def Obligations.IrqStaysUntilReset : Prop :=
  ∀ s t : State, (s.irq = true ↔ s.err ≠ 0) ∧
    (s.Inv → step s = .next t → s.irq = true →
      (t.irq = true ∧ t.err = s.err) ∨
      (t.irq = false ∧ (s.hostQueue.head? = some .reset ∨
        s.hostQueue.head? = some (.cmd 0x0100000000000000))))

/-- 70_reset_and_hazards.md rules R134 and R135 and 40_control.md rule R61: `SYS_RESET`, in every
state, and the reset input, also while a command holds, leave the block as at power-on. That the
host's own fields `hostQueue`, `readData`, `popOutData` and `popDoutData` stay is the model's choice
(assumption log 10), as is that the parameter `crcPoly` stands in the state and stays
(assumption log 8). -/
def Obligations.ResetRestoresEveryRegister : Prop :=
  ∀ s : State, ∃ t, exec .sysReset s = .next t ∧ t.AtReset ∧
    t.readRegister 0x00 = 0x425A3245 ∧ t.irq = false ∧ t.crcValue = 0 ∧
    t.crcPoly = s.crcPoly ∧ t.hostQueue = s.hostQueue ∧ t.readData = s.readData ∧ t.popOutData = s.popOutData ∧
    t.popDoutData = s.popDoutData ∧
    ∀ rest, s.hostQueue = .reset :: rest → step s = .next { t with hostQueue := rest }

/-- Rules R134 and R136: the state the machine starts in is that of a reset, waits for the host's
first command, and meets every invariant stated below. -/
def Obligations.StartsAtReset : Prop :=
  State.reset.AtReset ∧ State.reset.Inv ∧ State.reset.enc.Legal ∧ State.reset.DecoderLegal ∧
  step State.reset = .next State.reset

/-! ## Control commands -/

/-- 40_control.md rules R60 and R62, the checks in their order. -/
def Obligations.NopCountsAndCfgSetsBlockSize : Prop :=
  ∀ (s : State) (bs : BitVec 8), s.err = 0 →
    exec .nop s = .next { s with cmdCnt := s.cmdCnt + 1 } ∧
    (s.enc.estate = .empty → 1 ≤ bs.toNat → bs.toNat ≤ 9 →
      ∃ v : BitVec 4, v.toNat = bs.toNat ∧
        exec (.cfg bs) s = .next { s with blockSize := v, cmdCnt := s.cmdCnt + 1 }) ∧
    (s.enc.estate = .empty → bs.toNat = 0 ∨ 9 < bs.toNat →
      exec (.cfg bs) s = .next { s with err := 0x22, cmdCnt := s.cmdCnt + 1 }) ∧
    (s.enc.estate ≠ .empty →
      exec (.cfg bs) s = .next { s with err := 0x21, cmdCnt := s.cmdCnt + 1 })

/-! ## BitSink -/

/-- 41_bitsink.md rules R64 and R68: `SINK_WRITE n, value` appends the low `n` bits of `value`, most
significant first, after emitting the bytes complete before it; it checks `n`. -/
def Obligations.SinkWriteAppendsBits : Prop :=
  ∀ (s : State) (n : BitVec 8) (value : Word),
    s.err = 0 → s.sink.Tidy → s.sink.done = false →
    (1 ≤ n.toNat → n.toNat ≤ 25 → ∃ k,
      exec (.sinkWrite n value) s = .next { s with sink := k, cmdCnt := s.cmdCnt + 1 } ∧
      s.sink.Appended k (natToBits n.toNat value.toNat) n.toNat) ∧
    (n.toNat = 0 ∨ 25 < n.toNat →
      exec (.sinkWrite n value) s = .next { s with err := 0x22, cmdCnt := s.cmdCnt + 1 })

/-- 41_bitsink.md rule R63 with rule R69: the drain step emits every complete byte, oldest first, and
leaves 0..7 bits pending. -/
def Obligations.SinkFlushEmitsWholeBytes : Prop :=
  ∀ s : State, s.err = 0 → s.sink.Tidy → s.sink.done = false →
    ∃ k emitted, exec .sinkFlush s = .next { s with sink := k, cmdCnt := s.cmdCnt + 1 } ∧
      s.sink.Appended k [] 0 ∧ k.live.toNat ≤ 7 ∧ k.live.toNat = s.sink.live.toNat % 8 ∧
      k.out = s.sink.out ++ emitted ∧ emitted.length = s.sink.live.toNat / 8 ∧
      bytesToBits emitted = s.sink.pending.take (8 * emitted.length) ∧
      k.pending = s.sink.pending.drop (8 * emitted.length)

/-- 41_bitsink.md rule R65 with rule R70: the finish step emits the pending bits, zero-padded to a
byte boundary, and closes the stream. -/
def Obligations.SinkFinishPadsToByte : Prop :=
  ∀ s : State, s.err = 0 → s.sink.Tidy → s.sink.done = false →
    ∃ k, exec .sinkFinish s = .next { s with sink := k, cmdCnt := s.cmdCnt + 1 } ∧
      bytesToBits k.out = padToByte s.sink.bits ∧ s.sink.out <+: k.out ∧
      k.bytes = s.sink.bytes + BitVec.ofNat 32 ((s.sink.live.toNat + 7) / 8) ∧
      k.acc = 0 ∧ k.live = 0 ∧ k.done = true

/-- 41_bitsink.md rule R66: every command leaves the bits of `SINK_ACC` below the pending ones 0, and
from a fresh BitSink on, the bytes emitted followed by the pending bits are the bits written, in
order, however they are split into writes. -/
def Obligations.SinkStreamIsConcatenation : Prop :=
  (∀ (i : Instr) (s t : State), s.Inv → exec i s = .next t → t.sink.Tidy) ∧
  (∀ (k : BitSink) (fields : List BitField), k.acc = 0 → k.live = 0 →
    (∀ f ∈ fields, 1 ≤ f.1 ∧ f.1 ≤ 25) →
    (k.writeAll fields).Tidy ∧
      ∃ emitted, (k.writeAll fields).out = k.out ++ emitted ∧
        bytesToBits emitted ++ (k.writeAll fields).pending = fieldBits fields) ∧
  ∀ (k : BitSink) (f g : List BitField), k.Tidy →
    (∀ x ∈ f ++ g, 1 ≤ x.1 ∧ x.1 ≤ 25) → fieldBits f = fieldBits g →
    (k.writeAll f).bits = (k.writeAll g).bits ∧
      (k.writeAll f).finish.out = (k.writeAll g).finish.out

/-- 41_bitsink.md rule R67 and 42_bitsource.md rule R73: the two stream resets drop the pending bits
and keep the byte counters and the FIFOs. -/
def Obligations.StreamResetsDropPendingBits : Prop :=
  ∀ s : State, s.err = 0 →
    exec .sinkReset s = .next { s with
      sink := { s.sink with acc := 0, live := 0, done := false }, cmdCnt := s.cmdCnt + 1 } ∧
    exec .srcReset s = .next { s with
      src := { s.src with acc := 0, live := 0 }, cmdCnt := s.cmdCnt + 1 } ∧
    { s.src with acc := 0, live := 0 }.bits = bytesToBits s.src.fifo

/-! ## BitSource -/

/-- 42_bitsource.md rules R71 and R74: `SRC_READ n` returns the next `n` bits, most significant first,
taking bytes from IN only when needed; short of input it raises `E_EOF` with IN closed and holds with
IN open; it checks `n`. After `E_EOF` what it writes is unspecified and IN keeps some tail:
60_exceptions.md rule R128 (b), which the model takes over R74's "the bytes taken before the failure
remain taken"; the model's choice, assumption log 18. -/
def Obligations.SrcReadReturnsNextBits : Prop :=
  ∀ (s : State) (n : BitVec 8), s.err = 0 → s.src.Tidy →
    (1 ≤ n.toNat → n.toNat ≤ 32 → n.toNat ≤ s.src.bits.length → ∃ (v : Word) (q : BitSource),
      exec (.srcRead n) s = .next { s with res := v, src := q, cmdCnt := s.cmdCnt + 1 } ∧
      v.toNat < 2 ^ n.toNat ∧ natToBits n.toNat v.toNat = s.src.bits.take n.toNat ∧
      s.src.Consumed q n.toNat) ∧
    (1 ≤ n.toNat → n.toNat ≤ 32 → s.src.bits.length < n.toNat → s.src.closed = true →
      ∃ (v : Word) (q : BitSource) (m k : Nat),
        exec (.srcRead n) s = .next { s with
          err := 0x03, res := v, src := q, freeTick := k, cmdCnt := s.cmdCnt + 1 } ∧
        q.fifo = s.src.fifo.drop m ∧ q.closed = true) ∧
    (1 ≤ n.toNat → n.toNat ≤ 32 → s.src.bits.length < n.toNat → s.src.closed = false →
      exec (.srcRead n) s = .next { s with held := some (.srcRead n) }) ∧
    (n.toNat = 0 ∨ 32 < n.toNat →
      exec (.srcRead n) s = .next { s with err := 0x22, cmdCnt := s.cmdCnt + 1 })

/-- 42_bitsource.md rule R72: after reads of `k` bits in all from a fresh BitSource, `⌈k / 8⌉` bytes
have been taken, `SRC_LIVE = 8m − k`, `SRC_ACC` holds the last bits of those bytes, and the bits
returned are the first `k`: the BitSource after the reads depends only on `k`. -/
def Obligations.SrcReadsSplitFreely : Prop :=
  ∀ (r : BitSource) (ns : List Nat), r.acc = 0 → r.live = 0 → (∀ n ∈ ns, 1 ≤ n ∧ n ≤ 32) →
    ns.sum ≤ 8 * r.fifo.length →
    ∃ vs q, readWidths ns r = .ok vs q ∧
      ((ns.zip vs).flatMap fun p => natToBits p.1 p.2) = (bytesToBits r.fifo).take ns.sum ∧
      q.fifo = r.fifo.drop ((ns.sum + 7) / 8) ∧
      q.bytes = r.bytes + BitVec.ofNat 32 ((ns.sum + 7) / 8) ∧
      q.live.toNat = 8 * ((ns.sum + 7) / 8) - ns.sum ∧
      natToBits q.live.toNat q.acc.toNat =
        (bytesToBits (r.fifo.take ((ns.sum + 7) / 8))).drop ns.sum ∧
      q.acc.toNat < 2 ^ q.live.toNat ∧ q.closed = r.closed ∧
      ∀ ms : List Nat, (∀ n ∈ ms, 1 ≤ n ∧ n ≤ 32) → ms.sum = ns.sum →
        ∃ ws, readWidths ms r = .ok ws q

/-! ## CRC -/

/-- 43_crc.md rules R75, R76 and R78: a byte's table step is eight steps of the bit-serial CRC with the
block's polynomial `CRC_POLY`, whatever it is, most significant bit first; with the default polynomial
the table entries rule R75 lists and the check value of "123456789" of rule R76. `CRC_POLY` is a
parameter: no step changes it (that it stands in a field of the state is the model's way to take it,
assumption log 8). -/
def Obligations.CrcUpdateIsBitSerial : Prop :=
  State.reset.crcPoly = 0x04C11DB7 ∧
  (crcTable 0x04C11DB7 0 = 0 ∧ crcTable 0x04C11DB7 1 = 0x04C11DB7 ∧
    crcTable 0x04C11DB7 2 = 0x09823B6E ∧ crcTable 0x04C11DB7 0x80 = 0x690CE0EE ∧
    crcTable 0x04C11DB7 0xFF = 0xB1F740B4 ∧
    ~~~([0x31, 0x32, 0x33, 0x34, 0x35, 0x36, 0x37, 0x38, 0x39].foldl (crcStep 0x04C11DB7)
      0xFFFFFFFF) = 0xFC891918) ∧
  (∀ s t : State, step s = .next t → t.crcPoly = s.crcPoly) ∧
  ∀ (s : State) (byte : Byte), s.err = 0 →
    exec (.crcUpdate byte) s = .next { s with
      crc := (List.range 8).foldl
        (fun r _ => if r.getLsbD 31 then (r <<< 1) ^^^ s.crcPoly else r <<< 1)
        (s.crc ^^^ (byte.setWidth 32 <<< 24))
      cmdCnt := s.cmdCnt + 1 }

/-- 43_crc.md rules R77, R79, R80 and R81: the seed; a run leaves the register that `count` commands
`CRC_UPDATE byte` would, and counts as one command; and the two folds. -/
def Obligations.CrcSeedRunsAndFolds : Prop :=
  ∀ (s : State) (byte : Byte) (value : Word), s.err = 0 →
    exec .crcReset s = .next { s with crc := 0xFFFFFFFF, cmdCnt := s.cmdCnt + 1 } ∧
    exec .crcCombine s = .next { s with
      combined := s.combined.rotateLeft 1 ^^^ ~~~s.crc, cmdCnt := s.cmdCnt + 1 } ∧
    exec (.crcFold value) s = .next { s with
      combined := s.combined.rotateLeft 1 ^^^ value, cmdCnt := s.cmdCnt + 1 } ∧
    exec (.crcUpdateRun byte 0) s = .next { s with cmdCnt := s.cmdCnt + 1 } ∧
    ∀ count : BitVec 16, count.toNat < 65535 →
      ∃ t u v, exec (.crcUpdateRun byte count) s = .next t ∧ exec (.crcUpdate byte) t = .next u ∧
        exec (.crcUpdateRun byte (count + 1)) s = .next v ∧ v.crc = u.crc ∧
        v = { s with crc := v.crc, cmdCnt := s.cmdCnt + 1 }

/-! ## Block load and MTF -/

/-- 44_mtf_encode.md rules R83 and R84: `BLK_RESET` in every state; `BLK_PUT byte` appends a byte to the
block and marks it in use, and makes its checks in their order. -/
def Obligations.BlockLoadAppendsBytes : Prop :=
  ∀ (s : State) (byte : Byte), s.err = 0 →
    exec .blkReset s = .next { s with
      enc := { s.enc with last := 0xFFFFFFFF, inUse := 0, estate := .empty }
      cmdCnt := s.cmdCnt + 1 } ∧
    (s.Inv → s.enc.estate = .empty ∨ s.enc.estate = .loaded →
      s.enc.blockLength < 100000 * s.blockSize.toNat → ∃ (block : Mem 8) (inUse : BitVec 256),
      exec (.blkPut byte) s = .next { s with
        enc := { s.enc with last := s.enc.last + 1, block := block, inUse := inUse, estate := .loaded }
        cmdCnt := s.cmdCnt + 1 } ∧
      (s.enc.last + 1).toNat = s.enc.blockLength ∧
      block.read s.enc.blockLength = byte ∧
      (∀ a, a ≠ s.enc.blockLength → block.read a = s.enc.block.read a) ∧
      ∀ u < 256, inUse.getLsbD u = (decide (u = byte.toNat) || s.enc.inUse.getLsbD u)) ∧
    (s.Inv → s.enc.estate = .empty ∨ s.enc.estate = .loaded →
      100000 * s.blockSize.toNat ≤ s.enc.blockLength →
      exec (.blkPut byte) s = .next { s with err := 0x23, cmdCnt := s.cmdCnt + 1 }) ∧
    (s.enc.estate ≠ .empty → s.enc.estate ≠ .loaded →
      exec (.blkPut byte) s = .next { s with err := 0x21, cmdCnt := s.cmdCnt + 1 })

/-- 44_mtf_encode.md rule R85: with an empty block the five commands complete with no effect, whatever
`ESTATE`, `SINK_DONE` and `origPtr` are. -/
def Obligations.EmptyBlockMakesEncoderIdle : Prop :=
  ∀ (s : State) (i : Instr), s.err = 0 → s.enc.last = 0xFFFFFFFF →
    (i = .encMtf ∨ i = .encTrain ∨ i = .encCodes ∨ i = .encEmit ∨
      ∃ rand origPtr, i = .encBlockHdr rand origPtr) →
    exec i s = .next { s with cmdCnt := s.cmdCnt + 1 }

/-- 44_mtf_encode.md rules R86 and R88: `ENC_MTF` on a loaded block counts the bytes in use, writes a
symbol stream over the alphabet `0..NINUSE+1` that ends with its only `EOB`, no longer than the block
and its `EOB`, and counts its symbols; nothing else changes. Rule R89's statement below says what the
symbols mean. -/
def Obligations.EncMtfWritesSymbolStream : Prop :=
  ∀ s : State, s.err = 0 → s.Inv → s.enc.Legal → s.enc.estate = .loaded →
    ∃ (n : BitVec 9) (m : BitVec 20) (mtfv : Mem 9) (freq : Mem 20),
      exec .encMtf s = .next { s with
        enc := { s.enc with
          nInUse := n, nMtf := m, mtfv := mtfv, mtfFreq := freq, estate := .mtfDone }
        cmdCnt := s.cmdCnt + 1 } ∧
      n.toNat = countBelow 256 (fun u => s.enc.inUse.getLsbD u) ∧ 1 ≤ n.toNat ∧
      1 ≤ m.toNat ∧ m.toNat ≤ s.enc.blockLength + 1 ∧
      (mtfv.read (m.toNat - 1)).toNat = n.toNat + 1 ∧
      (∀ i < m.toNat - 1, (mtfv.read i).toNat ≤ n.toNat) ∧
      (∀ x ≤ n.toNat + 1, (freq.read x).toNat =
        countBelow m.toNat fun i => decide ((mtfv.read i).toNat = x)) ∧
      (∀ a, m.toNat ≤ a → mtfv.read a = s.enc.mtfv.read a) ∧
      ∀ a, n.toNat + 1 < a → freq.read a = s.enc.mtfFreq.read a

/-- 44_mtf_encode.md rule R87: a run of `r ≥ 1` is written in digits RUNA (0) and RUNB (1), least
significant first, whose weights 1 and 2 give `r` in bijective base 2. With it two things that follow
from the rule: each digit string is the code of one run only, and the codes of the runs 1 to 8, which
the rule marks as derived. -/
def Obligations.RunCodeIsBijectiveBaseTwo : Prop :=
  (∀ r, 1 ≤ r → putRun r ≠ [] ∧ (∀ d ∈ putRun r, d ≤ 1) ∧
    (putRun r).foldr (fun d acc => (d + 1) + 2 * acc) 0 = r) ∧
  (∀ ds : List Nat, ds ≠ [] → (∀ d ∈ ds, d ≤ 1) →
    putRun (ds.foldr (fun d acc => (d + 1) + 2 * acc) 0) = ds) ∧
  (List.range 8).map (fun k => putRun (k + 1)) =
    [[0], [1], [0, 0], [1, 0], [0, 1], [1, 1], [0, 0, 0], [1, 0, 0]]

/-- 44_mtf_encode.md rule R89: the decoder's expansion of the symbol stream `ENC_MTF` writes, with the
same bytes in use and room for the block, gives the block back. -/
def Obligations.ExpansionInvertsMtf : Prop :=
  ∀ (s t : State) (d : Decoder) (nmax : Nat),
    s.err = 0 → s.Inv → s.enc.Legal → s.enc.estate = .loaded → exec .encMtf s = .next t →
    d.nInUse = t.enc.nInUse →
    (∀ u < 256, s.enc.inUse.getLsbD u = true →
      (d.seqToUnseq.read (rankOf s.enc.inUse u)).toNat = u) →
    s.enc.blockLength ≤ nmax →
    ∃ x y, expandSymbols d nmax .start (t.enc.symbols.dropLast) = .more x ∧
      expandSymbols d nmax .start t.enc.symbols = .done y ∧
      y.bytes.reverse = s.enc.block.readRange 0 s.enc.blockLength ∧
      y.nblock = s.enc.blockLength ∧
      ∀ b < 256, y.counts.getD b 0 = y.bytes.countP fun c => decide (c.toNat = b)

/-! ## Huffman encoder -/

/-- 45_huffman_encode.md rules R90 to R94: `ENC_TRAIN` after `ENC_MTF` chooses the table count by the
thresholds, one selector naming a table for each 50 symbols, and lengths of 1..20 bits: those of the
fourth of four training passes (R92, R94) over the groups of 50 symbols, the first of them from the
initial tables of R91, table 0 first (`seedTables` lists the last table first); nothing else
changes. -/
def Obligations.EncTrainChoosesTables : Prop :=
  ∀ s : State, s.err = 0 → s.Inv → s.enc.Legal → s.enc.estate = .mtfDone →
    ∃ (g : BitVec 3) (n : BitVec 15) (selector : Mem 3) (eLen : Mem 5),
      exec .encTrain s = .next { s with
        enc := { s.enc with
          nGroups := g, nSelectors := n, selector := selector, eLen := eLen, estate := .trained }
        cmdCnt := s.cmdCnt + 1 } ∧
      (s.enc.nMtf.toNat < 200 → g.toNat = 2) ∧
      (200 ≤ s.enc.nMtf.toNat → s.enc.nMtf.toNat < 600 → g.toNat = 3) ∧
      (600 ≤ s.enc.nMtf.toNat → s.enc.nMtf.toNat < 1200 → g.toNat = 4) ∧
      (1200 ≤ s.enc.nMtf.toNat → s.enc.nMtf.toNat < 2400 → g.toNat = 5) ∧
      (2400 ≤ s.enc.nMtf.toNat → g.toNat = 6) ∧
      n.toNat = (s.enc.nMtf.toNat + 49) / 50 ∧ n.toNat ≤ 18001 ∧
      (∀ i < n.toNat, (selector.read i).toNat < g.toNat) ∧
      (let a := s.enc.alphabet
       let groups := (List.range n.toNat).map fun i => (s.enc.symbols.drop (50 * i)).take 50
       let seeds := (seedTables (s.enc.mtfFreq.readNats 0 a) a g.toNat g.toNat s.enc.nMtf.toNat 0).reverse
       let pass1 := trainingPass a groups seeds
       let pass2 := trainingPass a groups pass1.2
       let pass3 := trainingPass a groups pass2.2
       let pass4 := trainingPass a groups pass3.2
       (∀ i < n.toNat, (selector.read i).toNat = pass4.1.getD i 0) ∧
       ∀ t < g.toNat, ∀ v < a, (eLen.read (258 * t + v)).toNat = (pass4.2.getD t []).getD v 0) ∧
      (∀ a, n.toNat ≤ a → selector.read a = s.enc.selector.read a) ∧
      (∀ t < g.toNat, ∀ v < s.enc.alphabet,
        1 ≤ (eLen.read (258 * t + v)).toNat ∧ (eLen.read (258 * t + v)).toNat ≤ 20) ∧
      ∀ t v, v < 258 → g.toNat ≤ t ∨ s.enc.alphabet ≤ v →
        eLen.read (258 * t + v) = s.enc.eLen.read (258 * t + v)

/-- Rule R91: with frequencies that sum to the symbol count and an `EOB` that occurs, the initial
tables are 2 to 6 tables of lengths 0 and 15 in which each symbol is favoured (length 0) by exactly
one table, and the symbols a table favours are consecutive. -/
def Obligations.SeedTablesShareOutTheAlphabet : Prop :=
  ∀ (freq : List Nat) (nG : Nat), 2 ≤ nG → nG ≤ 6 → 1 ≤ freq.length → 1 ≤ freq.getLastD 0 →
    (seedTables freq freq.length nG nG freq.sum 0).length = nG ∧
    (∀ row ∈ seedTables freq freq.length nG nG freq.sum 0,
      row.length = freq.length ∧ (∀ l ∈ row, l = 0 ∨ l = 15) ∧
      ∀ u v w, u ≤ v → v ≤ w → w < freq.length → row.getD u 15 = 0 → row.getD w 15 = 0 →
        row.getD v 15 = 0) ∧
    ∀ v < freq.length,
      ((seedTables freq freq.length nG nG freq.sum 0).countP fun row => decide (row.getD v 15 = 0)) = 1

/-- Rule R92: a training pass gives each group the first table of least cost and makes each table's new
lengths from the frequencies of the groups that chose it. -/
def Obligations.TrainingPassPicksCheapest : Prop :=
  ∀ (a : Nat) (groups tables : List (List Nat)), tables ≠ [] →
    (trainingPass a groups tables).1.length = groups.length ∧
    (∀ g < groups.length,
      let chosen := (trainingPass a groups tables).1.getD g 0
      let cost := fun t => ((groups.getD g []).map fun x => (tables.getD t []).getD x 0).sum
      chosen < tables.length ∧ (∀ t < tables.length, cost chosen ≤ cost t) ∧
        ∀ t < chosen, cost chosen < cost t) ∧
    (trainingPass a groups tables).2.length = tables.length ∧
    ∀ t < tables.length, (trainingPass a groups tables).2.getD t [] =
      makeLengths 20 ((List.range a).map fun v =>
        ((List.range groups.length).map fun g =>
          if (trainingPass a groups tables).1.getD g 0 = t then (groups.getD g []).count v else 0).sum)

/-- Rule R93: one construction of the tree over at least two leaves, whatever their weights, is a full
binary tree: the leaves' depths satisfy Kraft's equality; and the lengths `MakeLengths` returns for as
many frequencies are 1..20, one for each symbol. For lists longer than the alphabet or of larger
frequencies than the spec's the upper bound rests on the model's own end of the length-limiting loop
(assumption log 11). -/
def Obligations.TreeDepthsAreFullTree : Prop :=
  ∀ leaves : List Nat, 2 ≤ leaves.length →
    (treeDepths leaves).length = leaves.length ∧
    (∀ d ∈ treeDepths leaves, 1 ≤ d ∧ d < leaves.length) ∧
    ((treeDepths leaves).map fun d => 2 ^ (leaves.length - d)).sum = 2 ^ leaves.length ∧
    (makeLengths 20 leaves).length = leaves.length ∧
    ∀ l ∈ makeLengths 20 leaves, 1 ≤ l ∧ l ≤ 20

/-- Rule R93: over 20-bit frequencies and at most 258 symbols, the lengths `MakeLengths` returns satisfy
Kraft's equality: they are those of a full binary tree. -/
def Obligations.MakeLengthsIsFullTree : Prop :=
  ∀ freq : List Nat, 2 ≤ freq.length → freq.length ≤ 258 → (∀ f ∈ freq, f < 2 ^ 20) →
    ((makeLengths 20 freq).map fun l => 2 ^ (20 - l)).sum = 2 ^ 20

/-- Rules R95 and R96: `ENC_CODES` after `ENC_TRAIN` writes the codes of each table: those of one length
are consecutive in symbol order, and the first code of a length is twice the code after the last of
the length before (kept to the 20 bits of `E_CODE`); nothing else changes. -/
def Obligations.EncCodesAssignsCanonicalCodes : Prop :=
  ∀ s : State, s.err = 0 → s.Inv → s.enc.Legal → s.enc.estate = .trained →
    ∃ eCode : Mem 20,
      exec .encCodes s = .next { s with
        enc := { s.enc with eCode := eCode, estate := .coded }, cmdCnt := s.cmdCnt + 1 } ∧
      (∀ t < s.enc.nGroups.toNat, ∀ v < s.enc.alphabet,
        (eCode.read (258 * t + v)).toNat =
          (((List.range ((s.enc.lengths t).getD v 0)).map fun l =>
            (s.enc.lengths t).count l * 2 ^ ((s.enc.lengths t).getD v 0 - l)).sum
          + ((s.enc.lengths t).take v).count ((s.enc.lengths t).getD v 0)) % 2 ^ 20) ∧
      ∀ t v, v < 258 → s.enc.nGroups.toNat ≤ t ∨ s.enc.alphabet ≤ v →
        eCode.read (258 * t + v) = s.enc.eCode.read (258 * t + v)

/-- Rule R95: for lengths that satisfy Kraft's inequality every code fits its length, and no code is
the beginning of another symbol's. -/
def Obligations.CanonicalCodesArePrefixFree : Prop :=
  ∀ lens : List Nat, (∀ l ∈ lens, 1 ≤ l ∧ l ≤ 20) → Kraft lens →
    (canonicalCodes lens).length = lens.length ∧
    (∀ v < lens.length, (canonicalCodes lens).getD v 0 < 2 ^ lens.getD v 0) ∧
    ∀ u < lens.length, ∀ v < lens.length, u ≠ v → lens.getD u 0 ≤ lens.getD v 0 →
      (canonicalCodes lens).getD v 0 >>> (lens.getD v 0 - lens.getD u 0) ≠
        (canonicalCodes lens).getD u 0

/-- Rules R97 to R99: `ENC_EMIT` appends the group bitmap and sub-bitmaps, the table and selector
counts, the selectors and the lengths, then each symbol under the table its group's selector names,
and resets the block; `SELMTF` holds the selectors' MTF values (R97); nothing else changes. -/
def Obligations.EncEmitWritesBlockBody : Prop :=
  ∀ s : State, s.err = 0 → s.Inv → s.enc.Legal → s.enc.estate = .coded → s.sink.done = false →
    ∃ (k : BitSink) (selMtf : Mem 3),
      exec .encEmit s = .next { s with
        sink := k
        enc := { s.enc with
          selMtf := selMtf, last := 0xFFFFFFFF, inUse := 0, estate := .empty }
        cmdCnt := s.cmdCnt + 1 } ∧
      s.sink.Appended k
        (fieldBits (tableSectionFields s.enc.inUse s.enc.nGroups.toNat s.enc.selectors
            ((List.range s.enc.nGroups.toNat).map s.enc.lengths))
          ++ bodyBits ((List.range s.enc.nGroups.toNat).map s.enc.lengths) s.enc.selectors
              s.enc.symbols)
        ((s.enc.lengths (s.enc.selectors.getLastD 0)).getD (s.enc.symbols.getLastD 0) 0) ∧
      (∀ i < s.enc.nSelectors.toNat, (selMtf.read i).toNat =
        (selectorMtf (List.range s.enc.nGroups.toNat) s.enc.selectors).getD i 0) ∧
      ∀ a, s.enc.nSelectors.toNat ≤ a → selMtf.read a = s.enc.selMtf.read a

/-- Rules R97 and R98, the bit patterns: the selector MTF values in unary, a table's first length in 5
bits, then for each symbol `10` for each step up, `11` for each step down, and `0`; and rule R99's
bitmaps, group and byte 0 first. -/
def Obligations.TableSectionBitPatterns : Prop :=
  (∀ j, j ≤ 24 → natToBits (unaryField j).1 (unaryField j).2.toNat = List.replicate j true ++ [false]) ∧
  (∀ curr l, fieldBits (lengthSteps curr l) =
    (List.replicate (l - curr) [true, false]).flatten ++
      (List.replicate (curr - l) [true, true]).flatten ++ [false]) ∧
  (∀ lens : List Nat, (∀ l ∈ lens, 1 ≤ l ∧ l ≤ 20) → lens ≠ [] →
    fieldBits (tableFields lens) = natToBits 5 (lens.headD 0) ++
      ((lens.headD 0 :: lens).zip lens).flatMap fun p => fieldBits (lengthSteps p.1 p.2)) ∧
  ∀ inUse : BitVec 256, fieldBits (bitmapFields inUse) =
    (List.range 16).map (fun i => (List.range 16).any fun j => inUse.getLsbD (16 * i + j)) ++
      ((List.range 16).filter fun i => (List.range 16).any fun j => inUse.getLsbD (16 * i + j)).flatMap
        fun i => (List.range 16).map fun j => inUse.getLsbD (16 * i + j)

/-- Rules R100 to R102: the stream header and the block header on the wire; a block header needs a block
loaded and an `origPtr` in it. -/
def Obligations.EncHeadersFollowWireFormat : Prop :=
  ∀ (s : State) (rand : BitVec 1) (origPtr : BitVec 24),
    s.err = 0 → s.Inv → s.sink.done = false →
    (∃ k, exec .encStreamHdr s = .next { s with
        sink := k, combined := 0, cmdCnt := s.cmdCnt + 1 } ∧
      s.sink.Appended k (natToBits 24 0x425A68 ++ natToBits 8 (0x30 + s.blockSize.toNat)) 8) ∧
    (s.enc.last ≠ 0xFFFFFFFF → origPtr.toNat < s.enc.blockLength →
      ∃ k, exec (.encBlockHdr rand origPtr) s = .next { s with sink := k, cmdCnt := s.cmdCnt + 1 } ∧
        s.sink.Appended k (natToBits 48 0x314159265359 ++ natToBits 32 (~~~s.crc).toNat
          ++ natToBits 1 rand.toNat ++ natToBits 24 origPtr.toNat) 24) ∧
    (s.enc.last ≠ 0xFFFFFFFF → s.enc.blockLength ≤ origPtr.toNat →
      exec (.encBlockHdr rand origPtr) s = .next { s with err := 0x22, cmdCnt := s.cmdCnt + 1 })

/-- Rules R100 and R103: the trailer appends its magic and the combined CRC, pads with 0 bits to a byte
boundary and closes the stream. -/
def Obligations.EncTrailerEndsTheStream : Prop :=
  ∀ s : State, s.err = 0 → s.sink.Tidy → s.sink.done = false →
    ∃ k, exec .encTrailer s = .next { s with sink := k, cmdCnt := s.cmdCnt + 1 } ∧
      bytesToBits k.out =
        padToByte (s.sink.bits ++ natToBits 48 0x177245385090 ++ natToBits 32 s.combined.toNat) ∧
      s.sink.out <+: k.out ∧
      k.bytes = s.sink.bytes + BitVec.ofNat 32 (k.out.length - s.sink.out.length) ∧
      k.acc = 0 ∧ k.live = 0 ∧ k.done = true

/-! ## Decoder -/

/-- 46_huffman_decode.md rule R104 and 47_bwt_inverse.md rule R119: `DEC_RESET` from every state, and
`DEC_BLOCK_END`, which folds the stored CRC when it equals the recomputed one and otherwise raises
`E_BLOCK_CRC`, leaving unspecified only what it writes. -/
def Obligations.DecResetAndBlockEnd : Prop :=
  ∀ s : State, s.err = 0 →
    exec .decReset s = .next { s with
      dec := { s.dec with dstate := .idle }, cmdCnt := s.cmdCnt + 1 } ∧
    (s.dec.dstate = .endOfBlock → ~~~s.crc = s.dec.storedCrc →
      exec .decBlockEnd s = .next { s with
        combined := s.combined.rotateLeft 1 ^^^ s.dec.storedCrc
        dec := { s.dec with dstate := .startBlock }
        cmdCnt := s.cmdCnt + 1 }) ∧
    (s.dec.dstate = .endOfBlock → ~~~s.crc ≠ s.dec.storedCrc → ∃ c d n,
      exec .decBlockEnd s = .next { s with
        err := 0x10, combined := c, dec := { s.dec with dstate := d }, freeTick := n
        cmdCnt := s.cmdCnt + 1 })

/-- Rule R105: a stream header is read as 'B', 'Z', 'h' and a digit 1..9; the first wrong byte raises
`E_MAGIC` as soon as it is read, a wrong digit `E_BLOCKSIZE`. Input that ends before the header does
raises `E_EOF` with IN closed (20_memory.md rule R38) and holds with IN open (70_reset_and_hazards.md
rule R139). -/
def Obligations.DecStreamHdrReadsHeader : Prop :=
  ∀ (s : State) (digit : Nat) (rest : List Bool),
    s.err = 0 → s.dec.dstate = .idle → s.src.Tidy →
    (0x31 ≤ digit → digit ≤ 0x39 →
      s.src.bits = natToBits 24 0x425A68 ++ natToBits 8 digit ++ rest → ∃ (q : BitSource) (b : BitVec 4),
      exec .decStreamHdr s = .next { s with
        src := q, combined := 0, dec := { s.dec with bs100k := b, dstate := .startBlock }
        cmdCnt := s.cmdCnt + 1 } ∧
      s.src.Consumed q 32 ∧ b.toNat = digit - 0x30) ∧
    (digit < 0x31 ∨ 0x39 < digit → digit < 256 →
      s.src.bits = natToBits 24 0x425A68 ++ natToBits 8 digit ++ rest → ∃ t,
      exec .decStreamHdr s = .next t ∧ t.err = 0x02) ∧
    (∀ front b : Nat, front ≤ 2 → b < 256 → b ≠ [0x42, 0x5A, 0x68].getD front 0 →
      s.src.bits = (natToBits 24 0x425A68).take (8 * front) ++ natToBits 8 b ++ rest → ∃ t,
      exec .decStreamHdr s = .next t ∧ t.err = 0x01) ∧
    ∀ k < 32, s.src.bits = (natToBits 24 0x425A68 ++ natToBits 8 digit).take k →
      (s.src.closed = true → ∃ t, exec .decStreamHdr s = .next t ∧ t.err = 0x03) ∧
      (s.src.closed = false → exec .decStreamHdr s = .next { s with held := some .decStreamHdr })

/-- Rule R106: at a block start the block magic brings the block's header fields and a fresh CRC
register, the trailer magic with the right combined CRC the end of the stream, a wrong combined CRC
`E_COMBINED_CRC`, and any other 48 bits `E_MAGIC`. Input that ends before the 48 bits do, or before
the fields behind the magic do, raises `E_EOF` with IN closed (20_memory.md rule R38) and holds with IN
open (70_reset_and_hazards.md rule R139). -/
def Obligations.DecBlockStartReadsHeader : Prop :=
  ∀ (s : State) (crc : Word) (rand : BitVec 1) (origPtr : BitVec 24) (rest : List Bool),
    s.err = 0 → s.dec.dstate = .startBlock → s.src.Tidy →
    (s.src.bits = natToBits 48 0x314159265359 ++ natToBits 32 crc.toNat ++ natToBits 1 rand.toNat
        ++ natToBits 24 origPtr.toNat ++ rest → ∃ q,
      exec .decBlockStart s = .next { s with
        src := q, crc := 0xFFFFFFFF
        dec := { s.dec with
          storedCrc := crc, rand := rand, origPtr := origPtr, dstate := .tables }
        cmdCnt := s.cmdCnt + 1 } ∧
      s.src.Consumed q 105) ∧
    (s.src.bits = natToBits 48 0x177245385090 ++ natToBits 32 s.combined.toNat ++ rest → ∃ q,
      exec .decBlockStart s = .next { s with
        src := q, dec := { s.dec with dstate := .eof }, cmdCnt := s.cmdCnt + 1 } ∧
      s.src.Consumed q 80) ∧
    (s.src.bits = natToBits 48 0x177245385090 ++ natToBits 32 crc.toNat ++ rest →
      crc ≠ s.combined → ∃ t, exec .decBlockStart s = .next t ∧ t.err = 0x11) ∧
    (∀ m : Nat, m < 2 ^ 48 → m ≠ 0x314159265359 → m ≠ 0x177245385090 →
      s.src.bits = natToBits 48 m ++ rest → ∃ t, exec .decBlockStart s = .next t ∧ t.err = 0x01) ∧
    (s.src.bits.length < 48 ∨
        (∃ cut : List Bool, cut.length < 57 ∧ s.src.bits = natToBits 48 0x314159265359 ++ cut) ∨
        (∃ cut : List Bool, cut.length < 32 ∧ s.src.bits = natToBits 48 0x177245385090 ++ cut) →
      (s.src.closed = true → ∃ t, exec .decBlockStart s = .next t ∧ t.err = 0x03) ∧
      (s.src.closed = false → exec .decBlockStart s = .next { s with held := some .decBlockStart }))

/-- Rules R107 to R111 against 45_huffman_encode.md rules R97 to R99: `DEC_TABLES` reads back every table
section the encoder's format can write, taking exactly its bits, and sets the registers and memories
from it. -/
def Obligations.DecTablesReadsBack : Prop :=
  ∀ (s : State) (x : TableSection) (rest : List Bool),
    s.err = 0 → s.dec.dstate = .tables → s.src.Tidy → x.Legal →
    s.src.bits = fieldBits (tableSectionFields x.inUseBits x.nGroups x.selectors x.lens) ++ rest →
    ∃ q d, exec .decTables s = .next { s with src := q, dec := d, cmdCnt := s.cmdCnt + 1 } ∧
      s.src.Consumed q (fieldBits (tableSectionFields x.inUseBits x.nGroups x.selectors x.lens)).length ∧
      d = { s.dec with
        inUse := d.inUse, nInUse := d.nInUse, seqToUnseq := d.seqToUnseq, nGroups := d.nGroups
        nSelectors := d.nSelectors, selector := d.selector, len := d.len, minLen := d.minLen
        perm := d.perm, limit := d.limit, base := d.base, dstate := .symbols } ∧
      d = s.dec.setTables x

/-- Rules R107 to R110: what the decoder's registers and memories hold after a table section `x`. At a
length in use `LIMIT` is the last code of the length and `BASE` its first code less the symbols of
shorter codes, in 22 signed bits; only an over-full set of lengths reaches values that wrap there
(assumption log 13). -/
def Obligations.TablesHoldTheSection : Prop :=
  ∀ (d : Decoder) (x : TableSection), x.Legal →
    (d.setTables x).nInUse.toNat = (valuesInUse x.inUse).length ∧
    (d.setTables x).nGroups.toNat = x.nGroups ∧
    (d.setTables x).nSelectors.toNat = x.selectors.length ∧
    (∀ u < 256, (d.setTables x).inUse.read u = BitVec.ofBool (x.inUse.getD u false)) ∧
    (∀ u < 256, x.inUse.getD u false = true →
      ((d.setTables x).seqToUnseq.read
        (countBelow u fun v => x.inUse.getD v false)).toNat = u) ∧
    (∀ i < x.selectors.length, ((d.setTables x).selector.read i).toNat = x.selectors.getD i 0) ∧
    ∀ t < x.nGroups, ∀ v < (valuesInUse x.inUse).length + 2,
      let row := x.lens.getD t []
      ((d.setTables x).len.read (258 * t + v)).toNat = row.getD v 0 ∧
      (∀ w < row.length, ((d.setTables x).minLen.read t).toNat ≤ row.getD w 0) ∧
      ((d.setTables x).minLen.read t).toNat ∈ row ∧
      ((d.setTables x).perm.read (258 * t +
        (row.countP (fun l => decide (l < row.getD v 0)) + (row.take v).count (row.getD v 0)))).toNat = v ∧
      (∀ l ≤ 20, (∀ w < row.length, l < row.getD w 0) ∨ (∀ w < row.length, row.getD w 0 < l) →
        (d.setTables x).limit.read (21 * t + l) = -1 ∧ (d.setTables x).base.read (21 * t + l) = 0) ∧
      ∀ l, (∃ u ∈ row, u ≤ l) → (∃ u ∈ row, l ≤ u) →
        (d.setTables x).limit.read (21 * t + l) =
          BitVec.ofInt 22 ((firstCode row l : Int) + row.count l - 1) ∧
        (d.setTables x).base.read (21 * t + l) =
          BitVec.ofInt 22 ((firstCode row l : Int) - row.countP fun k => decide (k < l))

/-- Rule R111 with rules R107 to R109: `E_TABLE` for each bad field of a table section, whatever stands
before it and with nothing needed after it: no byte in use (also when every group bit that is set has
a sub-bitmap of zeros), a table count outside 2..6, a selector count of 0, a selector value that
reaches the table count, be it the first selector or a later one, and a length that leaves 1..20, be it
a seed or a step, in any table and at any symbol. -/
def Obligations.DecTablesRejectsBadSections : Prop :=
  ∀ (s : State) (groups : Nat) (subs : List Nat) (rest : List Bool),
    s.err = 0 → s.dec.dstate = .tables → s.src.Tidy →
    subs.length = (natToBits 16 groups).count true →
    let bitmap := natToBits 16 groups ++ subs.flatMap (natToBits 16)
    let used := (subs.flatMap (natToBits 16)).count true
    (used = 0 → s.src.bits = bitmap ++ rest → ∃ t, exec .decTables s = .next t ∧ t.err = 0x04) ∧
    (∀ g < 8, g < 2 ∨ 6 < g → s.src.bits = bitmap ++ natToBits 3 g ++ rest →
      ∃ t, exec .decTables s = .next t ∧ t.err = 0x04) ∧
    (∀ g, 2 ≤ g → g ≤ 6 → s.src.bits = bitmap ++ natToBits 3 g ++ natToBits 15 0 ++ rest →
      ∃ t, exec .decTables s = .next t ∧ t.err = 0x04) ∧
    (∀ (g n : Nat) (before : List Nat), 2 ≤ g → g ≤ 6 → before.length < n → n < 32768 →
      s.src.bits = bitmap ++ natToBits 3 g ++ natToBits 15 n ++ before.flatMap unaryBits
        ++ List.replicate g true ++ rest →
      ∃ t, exec .decTables s = .next t ∧ t.err = 0x04) ∧
    ∀ (g : Nat) (selectors : List Nat) (before : List (Nat × List (List Bool))) (seed : Nat)
        (codes : List (List Bool)) (steps : List Bool),
      2 ≤ g → g ≤ 6 → 1 ≤ selectors.length → selectors.length < 32768 →
      before.length < g → (∀ x ∈ before, x.2.length = used + 2) → seed < 32 →
      codes.length < used + 2 →
      steppedLength seed (codes.flatten ++ steps) < 1 ∨
        20 < steppedLength seed (codes.flatten ++ steps) →
      s.src.bits = bitmap ++ natToBits 3 g ++ natToBits 15 selectors.length
        ++ selectors.flatMap unaryBits
        ++ before.flatMap (fun x => natToBits 5 x.1 ++ x.2.flatMap lengthCodeBits)
        ++ natToBits 5 seed ++ codes.flatMap lengthCodeBits ++ stepBits steps ++ rest →
      ∃ t, exec .decTables s = .next t ∧ t.err = 0x04

/-- Rule R112 against 45_huffman_encode.md rule R95: after a table section whose lengths satisfy Kraft's
inequality, every code decodes to the symbol it was assigned, taking exactly its bits. -/
def Obligations.CanonicalCodeDecodes : Prop :=
  ∀ (d : Decoder) (x : TableSection) (t v : Nat) (r : BitSource) (rest : List Bool),
    x.Legal → t < x.nGroups → Kraft (x.lens.getD t []) → v < (valuesInUse x.inUse).length + 2 →
    r.Tidy →
    r.bits = natToBits ((x.lens.getD t []).getD v 0) ((canonicalCodes (x.lens.getD t [])).getD v 0)
      ++ rest →
    ∃ q, decSym (d.setTables x) t r = .ok v q ∧ r.Consumed q ((x.lens.getD t []).getD v 0)

/-- Rules R112 to R115: after a table section `x` of prefix codes, `DEC_SYMBOLS` reads symbols coded
under the section's tables, each group of 50 under its selector. `syms` are the symbols before the
point in question, which expand without end or error to `y`.
With `EOB` next it leaves the block, its byte counts and its length, or raises `E_BLOCK` if
`D_ORIGPTR` is not in the block (R115).
With bits next that begin with no code of the table it raises `E_CODE` once there are 21 of them;
with at most 20 it needs more (R112).
It raises `E_BLOCK` when every selector's group is used up (R113), at the 22nd digit of a run, and
when a run's copies or one more byte pass the block size (R114). -/
def Obligations.DecSymbolsReadsBody : Prop :=
  ∀ (s : State) (d : Decoder) (x : TableSection) (syms : List Nat) (y : Expansion)
    (rest : List Bool),
    s.err = 0 → s.dec = d.setTables x → s.src.Tidy → x.Legal → (∀ row ∈ x.lens, Kraft row) →
    s.dec.bs100k.toNat ≤ 9 → (∀ v ∈ syms, v < (valuesInUse x.inUse).length + 2) →
    expandSymbols s.dec (100000 * s.dec.bs100k.toNat) .start syms = .more y →
    let eob := (valuesInUse x.inUse).length + 1
    let row := x.lens.getD (x.selectors.getD (syms.length / 50) 0) []
    let noCode := fun w : List Bool => ∀ v < row.length,
      ¬ natToBits (row.getD v 0) ((canonicalCodes row).getD v 0) <+: w
    (∀ z, syms.length < 50 * x.selectors.length →
      expandSymbols s.dec (100000 * s.dec.bs100k.toNat) .start (syms ++ [eob]) = .done z →
      s.src.bits = bodyBits x.lens x.selectors (syms ++ [eob]) ++ rest →
      (s.dec.origPtr.toNat < z.bytes.length →
        ∃ (q : BitSource) (tt : Mem 32) (counts : Mem 20) (n : BitVec 20),
          exec .decSymbols s = .next { s with
            src := q
            dec := { s.dec with tt := tt, unzftab := counts, nBlock := n, dstate := .ibwt }
            cmdCnt := s.cmdCnt + 1 } ∧
          s.src.Consumed q (bodyBits x.lens x.selectors (syms ++ [eob])).length ∧
          n.toNat = z.bytes.length ∧
          (∀ i < n.toNat, tt.read i = (z.bytes.reverse.getD i 0).setWidth 32) ∧
          (∀ a, n.toNat ≤ a → tt.read a = s.dec.tt.read a) ∧
          ∀ b < 256, (counts.read b).toNat = z.bytes.countP fun c => decide (c.toNat = b)) ∧
      (z.bytes.length ≤ s.dec.origPtr.toNat →
        ∃ t, exec .decSymbols s = .next t ∧ t.err = 0x06)) ∧
    (∀ w, syms.length < 50 * x.selectors.length → noCode w →
      (w.length = 21 → s.src.bits = bodyBits x.lens x.selectors syms ++ w ++ rest →
        ∃ t, exec .decSymbols s = .next t ∧ t.err = 0x05) ∧
      (w.length ≤ 20 → s.src.bits = bodyBits x.lens x.selectors syms ++ w →
        (s.src.closed = true → ∃ t, exec .decSymbols s = .next t ∧ t.err = 0x03) ∧
        (s.src.closed = false → exec .decSymbols s = .next { s with held := some .decSymbols }))) ∧
    (syms.length = 50 * x.selectors.length → s.src.bits = bodyBits x.lens x.selectors syms ++ rest →
      ∃ t, exec .decSymbols s = .next t ∧ t.err = 0x06) ∧
    (∀ digits : List Nat, y.run = 0 → digits.length = 22 → (∀ v ∈ digits, v ≤ 1) →
      (syms ++ digits).length ≤ 50 * x.selectors.length →
      s.src.bits = bodyBits x.lens x.selectors (syms ++ digits) ++ rest →
      ∃ t, exec .decSymbols s = .next t ∧ t.err = 0x06) ∧
    ∀ v, 2 ≤ v → v ≤ eob → syms.length < 50 * x.selectors.length →
      100000 * s.dec.bs100k.toNat < y.bytes.length + y.run + (if v = eob then 0 else 1) →
      s.src.bits = bodyBits x.lens x.selectors (syms ++ [v]) ++ rest →
      ∃ t, exec .decSymbols s = .next t ∧ t.err = 0x06

/-- 44_mtf_encode.md rule R89 and 46_huffman_decode.md rules R110 to R115: what `ENC_EMIT` writes for a
block, `DEC_TABLES` and `DEC_SYMBOLS` decode to that block, when the trained tables are prefix codes
(rule R93) and the decoder's header fields fit the block. -/
def Obligations.EmittedBlockDecodes : Prop :=
  ∀ (e s : State) (rest : List Bool),
    e.Inv → e.enc.Legal → e.enc.estate = .coded →
    (∀ t < e.enc.nGroups.toNat, Kraft (e.enc.lengths t) ∧ ∀ l ∈ e.enc.lengths t, 1 ≤ l) →
    s.err = 0 → s.dec.dstate = .tables → s.src.Tidy → s.dec.bs100k.toNat ≤ 9 →
    e.enc.blockLength ≤ 100000 * s.dec.bs100k.toNat → s.dec.origPtr.toNat < e.enc.blockLength →
    s.src.bits = fieldBits e.enc.emitFields ++ rest →
    ∃ t u, exec .decTables s = .next t ∧ exec .decSymbols t = .next u ∧ u.err = 0 ∧
      u.held = s.held ∧ u.dec.dstate = .ibwt ∧ u.dec.nBlock.toNat = e.enc.blockLength ∧
      (∀ i < e.enc.blockLength, u.dec.tt.read i = (e.enc.block.read i).setWidth 32) ∧
      s.src.Consumed u.src (fieldBits e.enc.emitFields).length

/-- 47_bwt_inverse.md rule R116: `DEC_IBWT` links the position of each byte in the sorted block (the
bytes below it and its equals before it) to its position `i` in the last column. -/
def Obligations.DecIbwtLinksSortedPositions : Prop :=
  ∀ s : State, s.err = 0 → s.dec.Legal → s.dec.dstate = .ibwt →
    ∃ (tt : Mem 32) (p : BitVec 20),
      exec .decIbwt s = .next { s with
        dec := { s.dec with
          tt := tt, tPos := p
          dstate := if s.dec.rand = 1 then .randomizedWalk else .plainWalk }
        cmdCnt := s.cmdCnt + 1 } ∧
      (∀ i < s.dec.nBlock.toNat,
        (tt.read (countBelow s.dec.nBlock.toNat (fun j =>
            decide ((s.dec.ttByte j).toNat < (s.dec.ttByte i).toNat)) +
          countBelow i fun j => decide (s.dec.ttByte j = s.dec.ttByte i))).toNat / 256 = i) ∧
      (∀ i < s.dec.nBlock.toNat, (tt.read i).setWidth 8 = s.dec.ttByte i) ∧
      (∀ a, s.dec.nBlock.toNat ≤ a → tt.read a = s.dec.tt.read a) ∧
      p.toNat = (tt.read s.dec.origPtr.toNat).toNat / 256

/-- Rules R117 and R118: `DEC_WALK` emits the block's bytes along the links from `D_TPOS`; in a
randomised block it flips bit 0 of the bytes that rule R117 says, for every table `RNUMS` the spec
allows (the table of the model is a free value, assumption log 7). -/
def Obligations.DecWalkFollowsLinks : Prop :=
  ∀ s : State, s.err = 0 → s.dec.Legal →
    s.dec.dstate = .plainWalk ∨ s.dec.dstate = .randomizedWalk →
    ∃ (p : BitVec 20) (bytes : List Byte),
      exec .decWalk s = .next { s with
        dout := s.dout ++ bytes, dec := { s.dec with tPos := p, dstate := .endOfBlock }
        cmdCnt := s.cmdCnt + 1 } ∧
      bytes.length = s.dec.nBlock.toNat ∧
      p.toNat = s.dec.walkPos s.dec.tPos.toNat s.dec.nBlock.toNat ∧
      ∀ k < s.dec.nBlock.toNat,
        (s.dec.dstate = .randomizedWalk ∧ Flipped Config.rnums k →
          bytes.getD k 0 = s.dec.ttByte (s.dec.walkPos s.dec.tPos.toNat k) ^^^ 1) ∧
        (¬(s.dec.dstate = .randomizedWalk ∧ Flipped Config.rnums k) →
          bytes.getD k 0 = s.dec.ttByte (s.dec.walkPos s.dec.tPos.toNat k))

/-- 00_scope.md rule R13 and 47_bwt_inverse.md rules R116 to R118: loaded with the last column of the
sorted rotations of a block and the row of the unrotated one, `DEC_IBWT` and `DEC_WALK` emit the
block, also when rotations are equal. -/
def Obligations.InverseBwtRestoresBlock : Prop :=
  ∀ (s : State) (block : List Byte) (order : List Nat),
    s.err = 0 → s.dec.dstate = .ibwt → s.dec.rand = 0 → block ≠ [] → block.length ≤ 900000 →
    SortedRotations block order → s.dec.nBlock.toNat = block.length →
    s.dec.origPtr.toNat = order.idxOf 0 →
    (∀ i < block.length, s.dec.tt.read i = ((lastColumn block order).getD i 0).setWidth 32) →
    (∀ b < 256, (s.dec.unzftab.read b).toNat = block.countP fun c => decide (c.toNat = b)) →
    ∃ t u, exec .decIbwt s = .next t ∧ exec .decWalk t = .next u ∧ u.err = 0 ∧
      u.dec.dstate = .endOfBlock ∧ u.dout = s.dout ++ block

/-! ## State machines -/

/-- 47_bwt_inverse.md rule R120, 10_state.md rules R19 and R26: a decoder command outside its `DSTATE`,
an encoder command outside its `ESTATE` with a block loaded, and, while `SINK_DONE` is set, every
command that would write bits (the two that rule R85 makes a no-op on an empty block with a block
loaded) raises `E_STATE` and changes nothing else. -/
def Obligations.CommandsOutOfStateFault : Prop :=
  ∀ (s : State) (i : Instr), s.err = 0 →
    ((i = .decStreamHdr ∧ s.dec.dstate ≠ .idle) ∨
      (i = .decBlockStart ∧ s.dec.dstate ≠ .startBlock) ∨
      (i = .decTables ∧ s.dec.dstate ≠ .tables) ∨
      (i = .decSymbols ∧ s.dec.dstate ≠ .symbols) ∨
      (i = .decIbwt ∧ s.dec.dstate ≠ .ibwt) ∨
      (i = .decWalk ∧ s.dec.dstate ≠ .plainWalk ∧ s.dec.dstate ≠ .randomizedWalk) ∨
      (i = .decBlockEnd ∧ s.dec.dstate ≠ .endOfBlock) ∨
      (s.enc.last ≠ 0xFFFFFFFF ∧
        ((i = .encMtf ∧ s.enc.estate ≠ .loaded) ∨ (i = .encTrain ∧ s.enc.estate ≠ .mtfDone) ∨
          (i = .encCodes ∧ s.enc.estate ≠ .trained) ∨ (i = .encEmit ∧ s.enc.estate ≠ .coded))) ∨
      (s.sink.done = true ∧
        ((∃ n value, i = .sinkWrite n value) ∨ i = .sinkFlush ∨ i = .sinkFinish ∨
          i = .encStreamHdr ∨ i = .encTrailer ∨
          (s.enc.last ≠ 0xFFFFFFFF ∧
            (i = .encEmit ∨ ∃ rand origPtr, i = .encBlockHdr rand origPtr))))) →
    exec i s = .next { s with err := 0x21, cmdCnt := s.cmdCnt + 1 }

/-- 47_bwt_inverse.md rule R120: the moves of `DSTATE` by commands that complete, and no others. -/
def Obligations.DecoderMovesFollowDiagram : Prop :=
  ∀ (s t : State) (i : Instr), s.err = 0 → s.held = none → exec i s = .next t → t.err = 0 →
    t.held = none → decoderMove i s.dec.dstate t.dec.dstate s.dec.rand = true

/-! ## Errors and whole-machine rules -/

/-- 60_exceptions.md rules R126 and R128 (a): a usage error changes nothing but `ERR` and `CMDCNT`; and
rule R128 (b): an error of another class leaves everything but the registers and memories the
command writes, and of IN a tail remains. -/
def Obligations.ErrorsLeaveTheRestAlone : Prop :=
  ∀ (s t : State) (i : Instr), s.err = 0 → exec i s = .next t → t.err ≠ 0 →
    t.cmdCnt = s.cmdCnt + 1 ∧
    (0x20 ≤ t.err.toNat → t = { s with err := t.err, cmdCnt := s.cmdCnt + 1 }) ∧
    (t.err.toNat < 0x20 →
      (Instr.readsBits i = true ∨ i = .decBlockEnd) ∧
      t = { s with
        err := t.err, cmdCnt := s.cmdCnt + 1, freeTick := t.freeTick, src := t.src, dec := t.dec
        res := t.res, crc := t.crc, combined := t.combined } ∧
      t.src.closed = s.src.closed ∧ (∃ m, t.src.fifo = s.src.fifo.drop m) ∧
      ((∃ n, i = .srcRead n) → t.dec = s.dec ∧ t.crc = s.crc ∧ t.combined = s.combined) ∧
      (i = .decStreamHdr → t.res = s.res ∧ t.crc = s.crc ∧
        t.dec = { s.dec with bs100k := t.dec.bs100k, dstate := t.dec.dstate }) ∧
      (i = .decBlockStart → t.res = s.res ∧ t.combined = s.combined ∧
        t.dec = { s.dec with
          storedCrc := t.dec.storedCrc, rand := t.dec.rand, origPtr := t.dec.origPtr
          dstate := t.dec.dstate }) ∧
      (i = .decTables → t.res = s.res ∧ t.crc = s.crc ∧ t.combined = s.combined ∧
        t.dec = { s.dec with
          inUse := t.dec.inUse, seqToUnseq := t.dec.seqToUnseq, nInUse := t.dec.nInUse
          nGroups := t.dec.nGroups, nSelectors := t.dec.nSelectors, selector := t.dec.selector
          len := t.dec.len, minLen := t.dec.minLen, limit := t.dec.limit, base := t.dec.base
          perm := t.dec.perm, dstate := t.dec.dstate }) ∧
      (i = .decSymbols → t.res = s.res ∧ t.crc = s.crc ∧ t.combined = s.combined ∧
        t.dec = { s.dec with
          tt := t.dec.tt, unzftab := t.dec.unzftab, nBlock := t.dec.nBlock
          dstate := t.dec.dstate }) ∧
      (i = .decBlockEnd → t.src = s.src ∧ t.res = s.res ∧ t.crc = s.crc ∧
        t.dec = { s.dec with dstate := t.dec.dstate }))

/-- 10_state.md rule R16 and 60_exceptions.md rule R126: every step answers a next state (there is no
trap), and every command word that completes, faults or is ignored adds 1 to `CMDCNT`, one that
holds adds nothing, and `SYS_RESET` leaves 0. -/
def Obligations.EveryCommandIsCounted : Prop :=
  (∀ s : State, ∃ t, step s = .next t) ∧
  ∀ (s t : State) (i : Instr), s.held = none → exec i s = .next t →
    (i = .sysReset → t.cmdCnt = 0) ∧
    (i ≠ .sysReset → t.held = none → t.cmdCnt = s.cmdCnt + 1) ∧
    (t.held ≠ none → t.cmdCnt = s.cmdCnt)

/-- Every step keeps every internal memory of 10_state.md rules R35 and R36 in its canonical form. The
rules give the memories; the form is the model's own (assumption log 4, DESIGN CHOICE). -/
def Obligations.MemoriesStayCanonical : Prop :=
  ∀ s t : State, s.MemoriesCanonical → step s = .next t → t.MemoriesCanonical

/-- Every step keeps the invariant of Safety.lean: a defined error code (60_exceptions.md rule R121), a
block size in 1..9 (10_state.md rule R22), `ESTATE = EMPTY` exactly when `LAST = −1` (rule R19), a
block within its capacity (rule R32), code lengths up to 20 (45_huffman_encode.md rule R93), the
BitSink's and BitSource's form (rules R66 and R27, R28), and that only a reading command is held. -/
def Obligations.InvKeptByEveryStep : Prop :=
  ∀ s t : State, s.Inv → step s = .next t → t.Inv

/-- Every step keeps what the encoder's stages leave in its memories, whatever the decoder does. -/
def Obligations.EncoderLegalKeptByEveryStep : Prop :=
  ∀ s t : State, s.Inv → s.enc.Legal → step s = .next t → t.enc.Legal

/-- Every step keeps what the decoder's stages leave in its registers and memories, while no error is
recorded: the walk cannot leave the block (47_bwt_inverse.md rule R116). -/
def Obligations.DecoderLegalKeptByEveryStep : Prop :=
  ∀ s t : State, s.Inv → s.DecoderLegal → step s = .next t → t.DecoderLegal
end

