-- ==== Sys2Proof/Laws/Bits.lean ====
section
/-! SUPPORT. Bits as lists: the laws of `natToBits`, most significant bit first. -/

namespace Sys2Proof.Machine

@[simp] theorem natToBits_length (n v : Nat) : (natToBits n v).length = n := by simp [natToBits]

@[simp] theorem natToBits_zero (v : Nat) : natToBits 0 v = [] := rfl

theorem natToBits_getElem (n v i : Nat) (h : i < (natToBits n v).length) :
    (natToBits n v)[i] = v.testBit (n - 1 - i) := by simp [natToBits]

/-- The high bits come first. -/
theorem natToBits_add (a b v : Nat) :
    natToBits (a + b) v = natToBits a (v >>> b) ++ natToBits b v := by
  apply List.ext_getElem
  · simp
  · intro i h₁ h₂
    rw [natToBits_getElem, List.getElem_append]
    split
    · next h =>
      rw [natToBits_getElem, Nat.testBit_shiftRight]
      congr 1
      simp at h; omega
    · next h =>
      rw [natToBits_getElem]
      congr 1
      simp at h; simp; omega

/-- Only the low `n` bits matter. -/
theorem natToBits_congr {n v w : Nat} (h : v % 2 ^ n = w % 2 ^ n) : natToBits n v = natToBits n w := by
  apply List.ext_getElem
  · simp
  · intro i h₁ h₂
    simp only [natToBits_getElem]
    have hi : n - 1 - i < n := by simp at h₁; omega
    have hv := Nat.testBit_mod_two_pow v n (n - 1 - i)
    have hw := Nat.testBit_mod_two_pow w n (n - 1 - i)
    simp only [hi, decide_true, Bool.true_and] at hv hw
    rw [← hv, ← hw, h]

theorem natToBits_mod (n v : Nat) : natToBits n (v % 2 ^ n) = natToBits n v :=
  natToBits_congr (Nat.mod_mod _ _)

/-- A list's first bits are the number's high bits. -/
theorem natToBits_take {n k : Nat} (v : Nat) (h : k ≤ n) :
    (natToBits n v).take k = natToBits k (v >>> (n - k)) := by
  conv_lhs => rw [show n = k + (n - k) by omega, natToBits_add]
  rw [List.take_left' (natToBits_length _ _)]

/-- Two numbers of `n` bits with the same bits are equal. -/
theorem natToBits_inj {n v w : Nat} (h : natToBits n v = natToBits n w) : v % 2 ^ n = w % 2 ^ n := by
  apply Nat.eq_of_testBit_eq
  intro i
  rw [Nat.testBit_mod_two_pow, Nat.testBit_mod_two_pow]
  by_cases hi : i < n
  · have := congrArg (fun l => l[n - 1 - i]?) h
    simp [natToBits, show n - 1 - i < n by omega, show n - 1 - (n - 1 - i) = i by omega] at this
    simp [hi, this]
  · simp [hi]

@[simp] theorem bytesToBits_append (a b : List Byte) :
    bytesToBits (a ++ b) = bytesToBits a ++ bytesToBits b := by simp [bytesToBits]

@[simp] theorem bytesToBits_nil : bytesToBits [] = [] := rfl

@[simp] theorem bytesToBits_cons (b : Byte) (bs : List Byte) :
    bytesToBits (b :: bs) = natToBits 8 b.toNat ++ bytesToBits bs := by simp [bytesToBits]

@[simp] theorem bytesToBits_length (bs : List Byte) : (bytesToBits bs).length = 8 * bs.length := by
  induction bs with
  | nil => rfl
  | cons b bs ih => simp [ih]; omega

@[simp] theorem fieldBits_append (a b : List BitField) :
    fieldBits (a ++ b) = fieldBits a ++ fieldBits b := by simp [fieldBits]

end Sys2Proof.Machine
end

