-- ==== Sys2Proof/Laws/Command.lean ====
section
/-! SUPPORT. What the common dispatch can do: the cases of `runCommand` and of the wrappers around
a command's own rule. -/

namespace Sys2Proof.Machine

/-- While `ERR ≠ 0` a command is ignored and counted (60_exceptions.md rule R123). -/
theorem runCommand_poisoned {i : Instr} {body : State → CmdResult} {s : State} (h : s.err ≠ 0) :
    runCommand i body s = .next s.countCommand := if_neg h

theorem runCommand_done {i : Instr} {body : State → CmdResult} {s t : State} (h : s.err = 0)
    (hb : body s = .done t) : runCommand i body s = .next t.countCommand := by
  simp [runCommand, h, hb]

theorem runCommand_raise {i : Instr} {body : State → CmdResult} {s t : State} {e : ErrCode}
    (h : s.err = 0) (hb : body s = .raise e t) :
    runCommand i body s = .next (takeError e t) := by simp [runCommand, h, hb]

theorem runCommand_hold {i : Instr} {body : State → CmdResult} {s : State} (h : s.err = 0)
    (hb : body s = .hold) : runCommand i body s = .next (holdCommand i s) := by
  simp [runCommand, h, hb]

/-- Everything `runCommand` can answer: ignored, completed, faulted or held. -/
theorem runCommand_cases {i : Instr} {body : State → CmdResult} {s t : State}
    (h : runCommand i body s = .next t) :
    (s.err ≠ 0 ∧ t = s.countCommand) ∨
    (s.err = 0 ∧ ∃ u, body s = .done u ∧ t = u.countCommand) ∨
    (s.err = 0 ∧ ∃ e u, body s = .raise e u ∧ t = takeError e u) ∨
    (s.err = 0 ∧ body s = .hold ∧ t = holdCommand i s) := by
  by_cases he : s.err = 0
  · simp only [runCommand, he, if_true] at h
    cases hb : body s with
    | done u => rw [hb] at h; injection h with h; exact .inr (.inl ⟨he, u, rfl, h.symm⟩)
    | raise e u => rw [hb] at h; injection h with h; exact .inr (.inr (.inl ⟨he, e, u, rfl, h.symm⟩))
    | hold => rw [hb] at h; injection h with h; exact .inr (.inr (.inr ⟨he, rfl, h.symm⟩))
  · simp only [runCommand, he, if_false] at h
    injection h with h
    exact .inl ⟨he, h.symm⟩

/-- `runCommand` never stops the machine. -/
theorem runCommand_next (i : Instr) (body : State → CmdResult) (s : State) :
    ∃ t, runCommand i body s = .next t := by
  by_cases h : s.err = 0
  · cases hb : body s with
    | done u => exact ⟨_, runCommand_done h hb⟩
    | raise e u => exact ⟨_, runCommand_raise h hb⟩
    | hold => exact ⟨_, runCommand_hold h hb⟩
  · exact ⟨_, runCommand_poisoned h⟩

theorem unlessNoBlock_empty {f : State → CmdResult} {s : State} (h : s.noBlock = true) :
    unlessNoBlock f s = .done s := by simp [unlessNoBlock, h]

theorem unlessNoBlock_block {f : State → CmdResult} {s : State} (h : s.noBlock = false) :
    unlessNoBlock f s = f s := by simp [unlessNoBlock, h]

theorem sinkCommand_done {f : State → CmdResult} {s : State} (h : s.sink.done = true) :
    sinkCommand f s = .raise .state s := by simp [sinkCommand, h]

theorem sinkCommand_open {f : State → CmdResult} {s : State} (h : s.sink.done = false) :
    sinkCommand f s = f s := by simp [sinkCommand, h]

theorem inDState_other {d : DState} {f : State → CmdResult} {s : State} (h : s.dec.dstate ≠ d) :
    inDState d f s = .raise .state s := by simp [inDState, h]

theorem inDState_here {d : DState} {f : State → CmdResult} {s : State} (h : s.dec.dstate = d) :
    inDState d f s = f s := by simp [inDState, h]

/-- Everything a command that reads bits can do. -/
theorem readCommand_cases {α : Type} (x : Reader α) (spoil : State → State)
    (k : α → BitSource → State → CmdResult) (s : State) :
    (∃ a r, x s.src = .ok a r ∧ readCommand x spoil k s = k a r s) ∨
    (∃ e, x s.src = .raise e ∧ readCommand x spoil k s = .raise e (spoil s)) ∨
    (x s.src = .hold ∧ readCommand x spoil k s = .hold) := by
  cases h : x s.src with
  | ok a r => exact .inl ⟨a, r, rfl, by simp [readCommand, h]⟩
  | raise e => exact .inr (.inl ⟨e, rfl, by simp [readCommand, h]⟩)
  | hold => exact .inr (.inr ⟨rfl, by simp [readCommand, h]⟩)

/-- A reading that goes on after another one succeeds exactly when both do. -/
theorem Reader.bind_ok {α β : Type} {x : Reader α} {f : α → Reader β} {r q : BitSource} {b : β} :
    x.bind f r = .ok b q ↔ ∃ a p, x r = .ok a p ∧ f a p = .ok b q := by
  simp only [Reader.bind]
  cases h : x r with
  | ok a p => simp
  | raise e => simp
  | hold => simp

/-- A sequence of readings raises when its first part does, or its second after the first. -/
theorem Reader.bind_raise {α β : Type} {x : Reader α} {f : α → Reader β} {r : BitSource}
    {e : ErrCode} :
    x.bind f r = .raise e ↔ x r = .raise e ∨ ∃ a p, x r = .ok a p ∧ f a p = .raise e := by
  simp only [Reader.bind]
  cases h : x r with
  | ok a p => simp
  | raise e' => simp
  | hold => simp

/-- A sequence of readings holds when its first part does, or its second after the first. -/
theorem Reader.bind_hold {α β : Type} {x : Reader α} {f : α → Reader β} {r : BitSource} :
    x.bind f r = .hold ↔ x r = .hold ∨ ∃ a p, x r = .ok a p ∧ f a p = .hold := by
  simp only [Reader.bind]
  cases h : x r with
  | ok a p => simp
  | raise e => simp
  | hold => simp

end Sys2Proof.Machine
end

