-- ==== Sys2Proof/Laws/State.lean ====
section
/-! SUPPORT. The named updates of the state, field by field. -/

namespace Sys2Proof.Machine

variable (s : State) (e : ErrCode) (i : Instr)

@[simp] theorem countCommand_err : s.countCommand.err = s.err := rfl
@[simp] theorem countCommand_cmdCnt : s.countCommand.cmdCnt = s.cmdCnt + 1 := rfl
@[simp] theorem countCommand_res : s.countCommand.res = s.res := rfl
@[simp] theorem countCommand_blockSize : s.countCommand.blockSize = s.blockSize := rfl
@[simp] theorem countCommand_sink : s.countCommand.sink = s.sink := rfl
@[simp] theorem countCommand_src : s.countCommand.src = s.src := rfl
@[simp] theorem countCommand_crc : s.countCommand.crc = s.crc := rfl
@[simp] theorem countCommand_combined : s.countCommand.combined = s.combined := rfl
@[simp] theorem countCommand_enc : s.countCommand.enc = s.enc := rfl
@[simp] theorem countCommand_dec : s.countCommand.dec = s.dec := rfl
@[simp] theorem countCommand_dout : s.countCommand.dout = s.dout := rfl
@[simp] theorem countCommand_crcPoly : s.countCommand.crcPoly = s.crcPoly := rfl
@[simp] theorem countCommand_held : s.countCommand.held = s.held := rfl
@[simp] theorem countCommand_hostQueue : s.countCommand.hostQueue = s.hostQueue := rfl
@[simp] theorem countCommand_readData : s.countCommand.readData = s.readData := rfl
@[simp] theorem countCommand_popOutData : s.countCommand.popOutData = s.popOutData := rfl
@[simp] theorem countCommand_popDoutData : s.countCommand.popDoutData = s.popDoutData := rfl
@[simp] theorem countCommand_freeTick : s.countCommand.freeTick = s.freeTick := rfl

@[simp] theorem takeError_err : (takeError e s).err = e.toBits := rfl
@[simp] theorem takeError_cmdCnt : (takeError e s).cmdCnt = s.cmdCnt + 1 := rfl
@[simp] theorem takeError_res : (takeError e s).res = s.res := rfl
@[simp] theorem takeError_blockSize : (takeError e s).blockSize = s.blockSize := rfl
@[simp] theorem takeError_sink : (takeError e s).sink = s.sink := rfl
@[simp] theorem takeError_src : (takeError e s).src = s.src := rfl
@[simp] theorem takeError_crc : (takeError e s).crc = s.crc := rfl
@[simp] theorem takeError_combined : (takeError e s).combined = s.combined := rfl
@[simp] theorem takeError_enc : (takeError e s).enc = s.enc := rfl
@[simp] theorem takeError_dec : (takeError e s).dec = s.dec := rfl
@[simp] theorem takeError_dout : (takeError e s).dout = s.dout := rfl
@[simp] theorem takeError_crcPoly : (takeError e s).crcPoly = s.crcPoly := rfl
@[simp] theorem takeError_held : (takeError e s).held = s.held := rfl
@[simp] theorem takeError_hostQueue : (takeError e s).hostQueue = s.hostQueue := rfl
@[simp] theorem takeError_readData : (takeError e s).readData = s.readData := rfl
@[simp] theorem takeError_popOutData : (takeError e s).popOutData = s.popOutData := rfl
@[simp] theorem takeError_popDoutData : (takeError e s).popDoutData = s.popDoutData := rfl
@[simp] theorem takeError_freeTick : (takeError e s).freeTick = s.freeTick := rfl

@[simp] theorem holdCommand_err : (holdCommand i s).err = s.err := rfl
@[simp] theorem holdCommand_cmdCnt : (holdCommand i s).cmdCnt = s.cmdCnt := rfl
@[simp] theorem holdCommand_res : (holdCommand i s).res = s.res := rfl
@[simp] theorem holdCommand_blockSize : (holdCommand i s).blockSize = s.blockSize := rfl
@[simp] theorem holdCommand_sink : (holdCommand i s).sink = s.sink := rfl
@[simp] theorem holdCommand_src : (holdCommand i s).src = s.src := rfl
@[simp] theorem holdCommand_crc : (holdCommand i s).crc = s.crc := rfl
@[simp] theorem holdCommand_combined : (holdCommand i s).combined = s.combined := rfl
@[simp] theorem holdCommand_enc : (holdCommand i s).enc = s.enc := rfl
@[simp] theorem holdCommand_dec : (holdCommand i s).dec = s.dec := rfl
@[simp] theorem holdCommand_dout : (holdCommand i s).dout = s.dout := rfl
@[simp] theorem holdCommand_crcPoly : (holdCommand i s).crcPoly = s.crcPoly := rfl
@[simp] theorem holdCommand_held : (holdCommand i s).held = some i := rfl
@[simp] theorem holdCommand_hostQueue : (holdCommand i s).hostQueue = s.hostQueue := rfl
@[simp] theorem holdCommand_readData : (holdCommand i s).readData = s.readData := rfl
@[simp] theorem holdCommand_popOutData : (holdCommand i s).popOutData = s.popOutData := rfl
@[simp] theorem holdCommand_popDoutData : (holdCommand i s).popDoutData = s.popDoutData := rfl
@[simp] theorem holdCommand_freeTick : (holdCommand i s).freeTick = s.freeTick := rfl

@[simp] theorem resetBlock_err : s.resetBlock.err = 0 := rfl
@[simp] theorem resetBlock_cmdCnt : s.resetBlock.cmdCnt = 0 := rfl
@[simp] theorem resetBlock_res : s.resetBlock.res = 0 := rfl
@[simp] theorem resetBlock_blockSize : s.resetBlock.blockSize = 9 := rfl
@[simp] theorem resetBlock_sink : s.resetBlock.sink = .reset := rfl
@[simp] theorem resetBlock_src : s.resetBlock.src = .reset := rfl
@[simp] theorem resetBlock_crc : s.resetBlock.crc = Config.crcSeed := rfl
@[simp] theorem resetBlock_combined : s.resetBlock.combined = 0 := rfl
@[simp] theorem resetBlock_enc : s.resetBlock.enc = .resetAt s.freeTick := rfl
@[simp] theorem resetBlock_dec : s.resetBlock.dec = .resetAt s.freeTick := rfl
@[simp] theorem resetBlock_dout : s.resetBlock.dout = [] := rfl
@[simp] theorem resetBlock_crcPoly : s.resetBlock.crcPoly = s.crcPoly := rfl
@[simp] theorem resetBlock_held : s.resetBlock.held = none := rfl
@[simp] theorem resetBlock_hostQueue : s.resetBlock.hostQueue = s.hostQueue := rfl
@[simp] theorem resetBlock_readData : s.resetBlock.readData = s.readData := rfl
@[simp] theorem resetBlock_popOutData : s.resetBlock.popOutData = s.popOutData := rfl
@[simp] theorem resetBlock_popDoutData : s.resetBlock.popDoutData = s.popDoutData := rfl
@[simp] theorem resetBlock_freeTick : s.resetBlock.freeTick = s.freeTick + 1 := rfl

end Sys2Proof.Machine
end

