-- ==== Sys2Proof/Laws/Exec.lean ====
section
/-! SUPPORT. Everything a command and a step can do: every command but `SYS_RESET` is the common
dispatch around its own rule, and every step is one host action with the command it issues or
retries. -/

namespace Sys2Proof.Machine

/-- Each command's own rule, without the common dispatch; `SYS_RESET` has none. -/
def commandBody : Instr → State → CmdResult
  | .nop => .done
  | .sysReset => fun s => .done s.resetBlock
  | .cfg bs => fun s =>
    if s.enc.estate ≠ .empty then .raise .state s
    else if !blockSizeLegal bs then .raise .operand s
    else .done { s with blockSize := bs.setWidth 4 }
  | .sinkReset => fun s => .done { s with sink := { s.sink with acc := 0, live := 0, done := false } }
  | .sinkWrite n value => sinkCommand fun s =>
    if !writeCountLegal n then .raise .operand s
    else .done { s with sink := s.sink.write n.toNat value }
  | .sinkFlush => sinkCommand fun s => .done { s with sink := s.sink.drain }
  | .sinkFinish => sinkCommand fun s => .done { s with sink := s.sink.finish }
  | .srcReset => fun s => .done { s with src := { s.src with acc := 0, live := 0 } }
  | .srcRead n => fun s =>
    if !readCountLegal n then .raise .operand s
    else readCommand (rd n.toNat) spoilSrcRead
      (fun v r s => .done { s with res := BitVec.ofNat 32 v, src := r }) s
  | .crcReset => fun s => .done { s with crc := Config.crcSeed }
  | .crcUpdate byte => fun s => .done { s with crc := crcStep s.crcPoly s.crc byte }
  | .crcUpdateRun byte count => fun s => .done { s with crc := crcRun s.crcPoly byte count.toNat s.crc }
  | .crcCombine => fun s => .done { s with combined := foldCombined s.combined s.crcValue }
  | .crcFold value => fun s => .done { s with combined := foldCombined s.combined value }
  | .blkReset => fun s => .done { s with enc := s.enc.resetBlock }
  | .blkPut byte => fun s =>
    if s.enc.estate ≠ .empty ∧ s.enc.estate ≠ .loaded then .raise .state s
    else if (Config.blockUnit * s.blockSize.toNat : Int) ≤ s.enc.last.toInt + 1 then
      .raise .capacity s
    else .done { s with
      enc := { s.enc with
        last := s.enc.last + 1
        block := s.enc.block.write s.enc.blockLength byte
        inUse := s.enc.inUse ||| BitVec.ofNat 256 (2 ^ byte.toNat)
        estate := .loaded } }
  | .encMtf => unlessNoBlock encMtf
  | .encTrain => unlessNoBlock encTrain
  | .encCodes => unlessNoBlock encCodes
  | .encEmit => unlessNoBlock encEmit
  | .encStreamHdr => sinkCommand fun s =>
    .done { s with sink := s.sink.writeAll (streamHeaderFields s.blockSize), combined := 0 }
  | .encBlockHdr rand origPtr => unlessNoBlock (encBlockHdr rand origPtr)
  | .encTrailer => sinkCommand fun s =>
    .done { s with
      sink := (s.sink.writeAll (trailerMagicFields ++ wordFields s.combined)).finish }
  | .decReset => fun s => .done { s with dec := { s.dec with dstate := .idle } }
  | .decStreamHdr => inDState .idle (readCommand readStreamHdr spoilStreamHdr
      fun bs r s => .done { s with
        src := r, combined := 0
        dec := { s.dec with bs100k := BitVec.ofNat 4 bs, dstate := .startBlock } })
  | .decBlockStart => inDState .startBlock fun s =>
    readCommand (readBlockStart s.combined) spoilBlockStart startBlock s
  | .decTables => inDState .tables (readCommand readTables spoilTables
      fun x r s => .done { s with src := r, dec := s.dec.setTables x })
  | .decSymbols => inDState .symbols fun s =>
    readCommand (readSymbols s.dec) spoilSymbols
      (fun x r s => .done { s with src := r, dec := s.dec.setSymbols x }) s
  | .decIbwt => inDState .ibwt ibwt
  | .decWalk => walkBlock Config.rnums
  | .decBlockEnd => inDState .endOfBlock fun s =>
    if s.crcValue ≠ s.dec.storedCrc then .raise .blockCrc (spoilBlockEnd s)
    else .done { s with
      combined := foldCombined s.combined s.dec.storedCrc
      dec := { s.dec with dstate := .startBlock } }

/-- `SYS_RESET`. -/
theorem exec_sysReset (s : State) : exec .sysReset s = .next s.resetBlock := rfl

/-- Every other command is the common dispatch around its own rule. -/
theorem exec_eq_runCommand {i : Instr} (h : i ≠ .sysReset) (s : State) :
    exec i s = runCommand i (commandBody i) s := by
  cases i <;> first | rfl | exact absurd rfl h

/-- Everything a command can answer. -/
theorem exec_cases {i : Instr} {s t : State} (h : exec i s = .next t) :
    (i = .sysReset ∧ t = s.resetBlock) ∨
    (i ≠ .sysReset ∧ s.err ≠ 0 ∧ t = s.countCommand) ∨
    (i ≠ .sysReset ∧ s.err = 0 ∧ ∃ u, commandBody i s = .done u ∧ t = u.countCommand) ∨
    (i ≠ .sysReset ∧ s.err = 0 ∧ ∃ e u, commandBody i s = .raise e u ∧ t = takeError e u) ∨
    (i ≠ .sysReset ∧ s.err = 0 ∧ commandBody i s = .hold ∧ t = holdCommand i s) := by
  by_cases hi : i = .sysReset
  · subst hi
    rw [exec_sysReset] at h
    exact .inl ⟨rfl, (Host.Outcome.next.inj h).symm⟩
  · rw [exec_eq_runCommand hi] at h
    rcases runCommand_cases h with ⟨a, b⟩ | ⟨a, b⟩ | ⟨a, b⟩ | ⟨a, b⟩
    · exact .inr (.inl ⟨hi, a, b⟩)
    · exact .inr (.inr (.inl ⟨hi, a, b⟩))
    · exact .inr (.inr (.inr (.inl ⟨hi, a, b⟩)))
    · exact .inr (.inr (.inr (.inr ⟨hi, a, b⟩)))

/-- Every command answers a next state. -/
theorem exec_next (i : Instr) (s : State) : ∃ t, exec i s = .next t := by
  by_cases hi : i = .sysReset
  · exact ⟨_, by rw [hi]; rfl⟩
  · rw [exec_eq_runCommand hi]; exact runCommand_next _ _ _

/-- No command's own rule changes the parameter `CRC_POLY`, whether it completes or raises. -/
theorem commandBody_crcPoly (i : Instr) (s u : State)
    (h : commandBody i s = .done u ∨ ∃ e, commandBody i s = .raise e u) : u.crcPoly = s.crcPoly := by
  cases i <;>
    simp only [commandBody, sinkCommand, unlessNoBlock, inDState, readCommand, encMtf, encTrain,
      encCodes, encEmit, encBlockHdr, ibwt, walkBlock, startBlock, spoilSrcRead, spoilStreamHdr,
      spoilBlockStart, spoilTables, spoilSymbols, spoilBlockEnd] at h <;>
    (repeat' split at h) <;> rcases h with h | ⟨e, h⟩ <;> cases h <;> rfl

/-- Every command keeps the parameter `CRC_POLY`. -/
theorem exec_crcPoly {i : Instr} {s t : State} (h : exec i s = .next t) : t.crcPoly = s.crcPoly := by
  rcases exec_cases h with ⟨_, rfl⟩ | ⟨_, _, rfl⟩ | ⟨_, _, u, hu, rfl⟩ | ⟨_, _, e, u, hu, rfl⟩ |
    ⟨_, _, _, rfl⟩
  · rfl
  · rfl
  · exact commandBody_crcPoly i s u (.inl hu)
  · exact commandBody_crcPoly i s u (.inr ⟨e, hu⟩)
  · rfl

/-- The state after a host action that is neither a command word nor the reset input, before a held
command is run again. -/
def hostEffect : HostAction → State → State
  | .pushIn b => pushIn b
  | .closeIn => closeIn
  | .popOut => popOut
  | .popDout => popDout
  | .read a => readPort a
  | .cmd _ => id
  | .reset => id

/-- Everything a step can do: nothing, with no action left or a command word waiting behind a held
command; run or reject a command word; reset; or another host action, after which a held command
is run again. -/
theorem step_cases {s t : State} (h : step s = .next t) :
    (s.hostQueue = [] ∧ t = s) ∨
    (∃ w rest, s.hostQueue = .cmd w :: rest ∧ s.held ≠ none ∧ t = s) ∨
    (∃ w rest i, s.hostQueue = .cmd w :: rest ∧ s.held = none ∧ decode w = .ok i ∧
      exec i { s with hostQueue := rest } = .next t) ∨
    (∃ w rest e, s.hostQueue = .cmd w :: rest ∧ s.held = none ∧ decode w = .error e ∧
      t = rejectWord e { s with hostQueue := rest }) ∨
    (∃ rest, s.hostQueue = .reset :: rest ∧ t = { s with hostQueue := rest }.resetBlock) ∨
    (∃ a rest, s.hostQueue = a :: rest ∧ (∀ w, a ≠ .cmd w) ∧ a ≠ .reset ∧
      retryHeld (hostEffect a { s with hostQueue := rest }) = .next t) := by
  rcases hq : s.hostQueue with _ | ⟨a, rest⟩
  · simp [step, hostStep, hq] at h; simp [h]
  · rw [step, hostStep, hq] at h
    cases a with
    | cmd w =>
      cases hh : s.held with
      | none =>
        simp only [performAction, hh, issue] at h
        cases hd : decode w with
        | ok i => rw [hd] at h; exact .inr (.inr (.inl ⟨w, rest, i, rfl, rfl, hd, h⟩))
        | error e =>
          rw [hd] at h
          exact .inr (.inr (.inr (.inl ⟨w, rest, e, rfl, rfl, hd, (Host.Outcome.next.inj h).symm⟩)))
      | some i =>
        simp only [performAction, hh] at h
        exact .inr (.inl ⟨w, rest, rfl, by simp, (Host.Outcome.next.inj h).symm⟩)
    | reset =>
      exact .inr (.inr (.inr (.inr (.inl ⟨rest, rfl, (Host.Outcome.next.inj h).symm⟩))))
    | pushIn b => exact .inr (.inr (.inr (.inr (.inr ⟨_, rest, rfl, by simp, by simp, h⟩))))
    | closeIn => exact .inr (.inr (.inr (.inr (.inr ⟨_, rest, rfl, by simp, by simp, h⟩))))
    | popOut => exact .inr (.inr (.inr (.inr (.inr ⟨_, rest, rfl, by simp, by simp, h⟩))))
    | popDout => exact .inr (.inr (.inr (.inr (.inr ⟨_, rest, rfl, by simp, by simp, h⟩))))
    | read b => exact .inr (.inr (.inr (.inr (.inr ⟨_, rest, rfl, by simp, by simp, h⟩))))

/-- A retry is nothing, or the held command. -/
theorem retryHeld_cases {s t : State} (h : retryHeld s = .next t) :
    (s.held = none ∧ t = s) ∨ ∃ i, s.held = some i ∧ exec i { s with held := none } = .next t := by
  cases hh : s.held with
  | none => simp only [retryHeld, hh] at h; exact .inl ⟨rfl, (Host.Outcome.next.inj h).symm⟩
  | some i => simp only [retryHeld, hh] at h; exact .inr ⟨i, rfl, h⟩

end Sys2Proof.Machine
end

