-- ==== Sys2Proof/Laws/Memory.lean ====
section
/-! SUPPORT. Internal memories: every write keeps the canonical form, and what is read after it. -/

namespace Sys2Proof.Machine

theorem findCell_append {w : Nat} (l₁ l₂ : List (Nat × BitVec w)) (a : Nat) :
    findCell (l₁ ++ l₂) a = (findCell l₁ a).or (findCell l₂ a) := by
  induction l₁ with
  | nil => simp [findCell]
  | cons c l ih => obtain ⟨b, v⟩ := c; by_cases h : b = a <;> simp [findCell, h, ih]

theorem findCell_filter {w : Nat} (p : Nat → Bool) (l : List (Nat × BitVec w)) (a : Nat) :
    findCell (l.filter fun c => p c.1) a = if p a then findCell l a else none := by
  induction l with
  | nil => simp [findCell]
  | cons c l ih =>
    obtain ⟨b, v⟩ := c
    by_cases hp : p b <;> by_cases h : b = a <;> simp_all [findCell]

theorem findCell_cellsFrom {w : Nat} (vs : List (BitVec w)) (a b : Nat) :
    findCell (cellsFrom a vs) b = if a ≤ b then vs[b - a]? else none := by
  induction vs generalizing a with
  | nil => simp [cellsFrom, findCell]
  | cons v vs ih =>
    by_cases h : a = b
    · simp [cellsFrom, findCell, h]
    · by_cases hl : a ≤ b
      · have : b - a = (b - (a + 1)) + 1 := by omega
        simp [cellsFrom, findCell, h, ih, hl, this, show a + 1 ≤ b by omega]
      · simp [cellsFrom, findCell, h, ih, hl, show ¬ a + 1 ≤ b by omega]

/-- Reading after a range was written: its values inside, the old contents outside. -/
theorem Mem.read_writeRange {w : Nat} (m : Mem w) (a : Nat) (vs : List (BitVec w)) (b : Nat) :
    (m.writeRange a vs).read b = if a ≤ b then vs[b - a]?.getD (m.read b) else m.read b := by
  have h₁ := findCell_filter (fun x => decide (x < a)) m.cells b
  have h₂ := findCell_filter (fun x => decide (a + vs.length ≤ x)) m.cells b
  simp only [Mem.read, Mem.writeRange, findCell_append, findCell_cellsFrom, h₁, h₂]
  by_cases hab : a ≤ b
  · by_cases hlt : b - a < vs.length
    · simp [hab, hlt, show ¬ b < a by omega]
    · simp [hab, show ¬ b < a by omega, show a + vs.length ≤ b by omega,
        List.getElem?_eq_none (show vs.length ≤ b - a by omega)]
  · simp [hab, show b < a by omega, show ¬ a + vs.length ≤ b by omega]

/-- Outside the range written, every element reads as before. -/
theorem Mem.read_writeRange_outside {w : Nat} (m : Mem w) (a : Nat) (vs : List (BitVec w)) (b : Nat)
    (h : b < a ∨ a + vs.length ≤ b) : (m.writeRange a vs).read b = m.read b := by
  rw [Mem.read_writeRange]
  split
  · rw [List.getElem?_eq_none (by omega)]; rfl
  · rfl

/-- Inside the range written, the values written are read. -/
theorem Mem.read_writeRange_inside {w : Nat} (m : Mem w) (a : Nat) (vs : List (BitVec w)) (i : Nat)
    (h : i < vs.length) : (m.writeRange a vs).read (a + i) = vs[i] := by
  simp [Mem.read_writeRange, h]

@[simp] theorem Mem.read_write {w : Nat} (m : Mem w) (a : Nat) (v : BitVec w) (b : Nat) :
    (m.write a v).read b = if a = b then v else m.read b := by
  rw [Mem.write, Mem.read_writeRange]
  by_cases h : a = b
  · simp [h]
  · by_cases hl : a ≤ b
    · rw [List.getElem?_eq_none (by simp; omega)]; simp [h, hl]
    · simp [h, hl]

/-- What was written to a range is what is read from it. -/
theorem Mem.readRange_writeRange {w : Nat} (m : Mem w) (a : Nat) (vs : List (BitVec w)) :
    (m.writeRange a vs).readRange a vs.length = vs := by
  apply List.ext_getElem
  · simp [Mem.readRange]
  · intro i h₁ h₂
    simp [Mem.readRange, Mem.read_writeRange_inside m a vs i h₂]

@[simp] theorem Mem.readNats_length {w : Nat} (m : Mem w) (a n : Nat) :
    (m.readNats a n).length = n := by simp [Mem.readNats, Mem.readRange]

theorem cellsFrom_fst {w : Nat} (vs : List (BitVec w)) (a : Nat) :
    (cellsFrom a vs).map Prod.fst = List.range' a vs.length := by
  induction vs generalizing a with
  | nil => simp [cellsFrom]
  | cons v vs ih => simp [cellsFrom, ih, List.range'_succ]

theorem Mem.wf_unspecified (w draw slot : Nat) : (Mem.unspecified w draw slot).wf := by
  simp [Mem.wf, Mem.unspecified]

/-- A range write keeps the canonical form. -/
theorem Mem.wf_writeRange {w : Nat} {m : Mem w} (h : m.wf) (a : Nat) (vs : List (BitVec w)) :
    (m.writeRange a vs).wf := by
  have sub (p : Nat × BitVec w → Bool) : ((m.cells.filter p).map Prod.fst).Pairwise (· < ·) :=
    h.sublist (List.filter_sublist.map _)
  simp only [Mem.wf, Mem.writeRange, List.map_append, cellsFrom_fst]
  rw [List.pairwise_append, List.pairwise_append]
  refine ⟨⟨sub _, List.pairwise_lt_range' , ?_⟩, sub _, ?_⟩
  · intro x hx y hy
    simp only [List.mem_map, List.mem_filter, decide_eq_true_eq] at hx
    obtain ⟨c, ⟨_, hc⟩, rfl⟩ := hx
    have := List.mem_range'_1.mp hy
    omega
  · intro x hx y hy
    simp only [List.mem_append, List.mem_map, List.mem_filter, decide_eq_true_eq] at hx hy
    obtain ⟨c, ⟨_, hc⟩, rfl⟩ := hy
    rcases hx with ⟨d, ⟨_, hd⟩, rfl⟩ | hx
    · omega
    · have := List.mem_range'_1.mp hx
      omega

theorem Mem.wf_write {w : Nat} {m : Mem w} (h : m.wf) (a : Nat) (v : BitVec w) :
    (m.write a v).wf := Mem.wf_writeRange h a [v]

theorem Mem.wf_writeNats {w : Nat} {m : Mem w} (h : m.wf) (a : Nat) (vs : List Nat) :
    (m.writeNats a vs).wf := Mem.wf_writeRange h a _

theorem Mem.wf_writeRows {w : Nat} (stride : Nat) (rows : List (List (BitVec w))) :
    ∀ (t : Nat) {m : Mem w}, m.wf → (Mem.writeRows stride t rows m).wf := by
  induction rows with
  | nil => exact fun _ _ h => h
  | cons row rows ih => exact fun t _ h => ih (t + 1) (Mem.wf_writeRange h _ row)

/-- Rows written below an address leave it alone. -/
theorem Mem.read_writeRows_below {w : Nat} (stride : Nat) (rows : List (List (BitVec w))) :
    ∀ (t : Nat) (m : Mem w) (b : Nat), b < stride * t →
      (Mem.writeRows stride t rows m).read b = m.read b := by
  induction rows with
  | nil => intro t m b _; rfl
  | cons row rows ih =>
    intro t m b hb
    have : stride * t ≤ stride * (t + 1) := Nat.mul_le_mul_left _ (by omega)
    rw [Mem.writeRows, ih _ _ _ (by omega), Mem.read_writeRange_outside _ _ _ _ (.inl hb)]

/-- Element `v` of row `i` after rows no longer than the stride were written. -/
theorem Mem.read_writeRows {w : Nat} (stride : Nat) (rows : List (List (BitVec w)))
    (hlen : ∀ row ∈ rows, row.length ≤ stride) :
    ∀ (t : Nat) (m : Mem w) (i v : Nat) (hi : i < rows.length) (hv : v < rows[i].length),
      (Mem.writeRows stride t rows m).read (stride * (t + i) + v) = rows[i][v] := by
  induction rows with
  | nil => intro t m i v hi; simp at hi
  | cons row rows ih =>
    intro t m i v hi hv
    cases i with
    | zero =>
      have hr := hlen row (by simp)
      simp only [List.getElem_cons_zero] at hv
      rw [Mem.writeRows, Mem.read_writeRows_below]
      · simpa using Mem.read_writeRange_inside m (stride * t) row v hv
      · rw [Nat.mul_succ]; simp only [Nat.add_zero]; omega
    | succ i =>
      rw [Mem.writeRows, show t + (i + 1) = (t + 1) + i by omega]
      exact ih (fun r hr => hlen r (by simp [hr])) (t + 1) _ i v (by simpa using hi)
        (by simpa using hv)

end Sys2Proof.Machine
end

