-- ==== Sys2Proof/Laws/PerInstr.lean ====
section
/-! SUPPORT. The per-command family `TableRow`: every command's word matches its row of
spec/opcode_table.json. -/

namespace Sys2Proof.Laws

/-- The `match` and `mask` columns of a command's row in spec/opcode_table.json. -/
def tableRow : Instr → Command × Command
  | .nop => (0x0000000000000000, 0xFFFFFFFFFFFFFFFF)
  | .sysReset => (0x0100000000000000, 0xFFFFFFFFFFFFFFFF)
  | .cfg _ => (0x0200000000000000, 0xFF00FFFFFFFFFFFF)
  | .sinkReset => (0x1000000000000000, 0xFFFFFFFFFFFFFFFF)
  | .sinkWrite _ _ => (0x1100000000000000, 0xFF00FFFF00000000)
  | .sinkFlush => (0x1200000000000000, 0xFFFFFFFFFFFFFFFF)
  | .sinkFinish => (0x1300000000000000, 0xFFFFFFFFFFFFFFFF)
  | .srcReset => (0x1800000000000000, 0xFFFFFFFFFFFFFFFF)
  | .srcRead _ => (0x1900000000000000, 0xFF00FFFFFFFFFFFF)
  | .crcReset => (0x2000000000000000, 0xFFFFFFFFFFFFFFFF)
  | .crcUpdate _ => (0x2100000000000000, 0xFFFFFFFFFFFFFF00)
  | .crcUpdateRun _ _ => (0x2200000000000000, 0xFFFF0000FFFFFF00)
  | .crcCombine => (0x2300000000000000, 0xFFFFFFFFFFFFFFFF)
  | .crcFold _ => (0x2400000000000000, 0xFFFFFFFF00000000)
  | .blkReset => (0x3000000000000000, 0xFFFFFFFFFFFFFFFF)
  | .blkPut _ => (0x3100000000000000, 0xFFFFFFFFFFFFFF00)
  | .encMtf => (0x3200000000000000, 0xFFFFFFFFFFFFFFFF)
  | .encTrain => (0x3300000000000000, 0xFFFFFFFFFFFFFFFF)
  | .encCodes => (0x3400000000000000, 0xFFFFFFFFFFFFFFFF)
  | .encEmit => (0x3500000000000000, 0xFFFFFFFFFFFFFFFF)
  | .encStreamHdr => (0x3800000000000000, 0xFFFFFFFFFFFFFFFF)
  | .encBlockHdr _ _ => (0x3900000000000000, 0xFFFEFFFFFF000000)
  | .encTrailer => (0x3A00000000000000, 0xFFFFFFFFFFFFFFFF)
  | .decReset => (0x4000000000000000, 0xFFFFFFFFFFFFFFFF)
  | .decStreamHdr => (0x4100000000000000, 0xFFFFFFFFFFFFFFFF)
  | .decBlockStart => (0x4200000000000000, 0xFFFFFFFFFFFFFFFF)
  | .decTables => (0x4300000000000000, 0xFFFFFFFFFFFFFFFF)
  | .decSymbols => (0x4400000000000000, 0xFFFFFFFFFFFFFFFF)
  | .decIbwt => (0x4500000000000000, 0xFFFFFFFFFFFFFFFF)
  | .decWalk => (0x4600000000000000, 0xFFFFFFFFFFFFFFFF)
  | .decBlockEnd => (0x4700000000000000, 0xFFFFFFFFFFFFFFFF)

/-- The command's word has the fixed bits of its row. -/
def TableRow.Statement (i : Instr) : Prop := encode i &&& (tableRow i).2 = (tableRow i).1

theorem TableRow.nop : TableRow.Statement .nop := by
  unfold Statement; decide

theorem TableRow.sysReset : TableRow.Statement .sysReset := by
  unfold Statement; decide

theorem TableRow.cfg (bs : BitVec 8) : TableRow.Statement (.cfg bs) := by
  apply BitVec.eq_of_getLsbD_eq
  intro k hk
  unfold encode tableRow packWord
  simp only [BitVec.getLsbD_and, BitVec.getLsbD_append]
  interval_cases k <;> simp

theorem TableRow.sinkReset : TableRow.Statement .sinkReset := by
  unfold Statement; decide

theorem TableRow.sinkWrite (n : BitVec 8) (value : Word) : TableRow.Statement (.sinkWrite n value) := by
  apply BitVec.eq_of_getLsbD_eq
  intro k hk
  unfold encode tableRow packWord
  simp only [BitVec.getLsbD_and, BitVec.getLsbD_append]
  interval_cases k <;> simp

theorem TableRow.sinkFlush : TableRow.Statement .sinkFlush := by
  unfold Statement; decide

theorem TableRow.sinkFinish : TableRow.Statement .sinkFinish := by
  unfold Statement; decide

theorem TableRow.srcReset : TableRow.Statement .srcReset := by
  unfold Statement; decide

theorem TableRow.srcRead (n : BitVec 8) : TableRow.Statement (.srcRead n) := by
  apply BitVec.eq_of_getLsbD_eq
  intro k hk
  unfold encode tableRow packWord
  simp only [BitVec.getLsbD_and, BitVec.getLsbD_append]
  interval_cases k <;> simp

theorem TableRow.crcReset : TableRow.Statement .crcReset := by
  unfold Statement; decide

theorem TableRow.crcUpdate (byte : Byte) : TableRow.Statement (.crcUpdate byte) := by
  apply BitVec.eq_of_getLsbD_eq
  intro k hk
  unfold encode tableRow packWord
  simp only [BitVec.getLsbD_and, BitVec.getLsbD_append]
  interval_cases k <;> simp

theorem TableRow.crcUpdateRun (byte : Byte) (count : BitVec 16) : TableRow.Statement (.crcUpdateRun byte count) := by
  apply BitVec.eq_of_getLsbD_eq
  intro k hk
  unfold encode tableRow packWord
  simp only [BitVec.getLsbD_and, BitVec.getLsbD_append]
  interval_cases k <;> simp

theorem TableRow.crcCombine : TableRow.Statement .crcCombine := by
  unfold Statement; decide

theorem TableRow.crcFold (value : Word) : TableRow.Statement (.crcFold value) := by
  apply BitVec.eq_of_getLsbD_eq
  intro k hk
  unfold encode tableRow packWord
  simp only [BitVec.getLsbD_and, BitVec.getLsbD_append]
  interval_cases k <;> simp

theorem TableRow.blkReset : TableRow.Statement .blkReset := by
  unfold Statement; decide

theorem TableRow.blkPut (byte : Byte) : TableRow.Statement (.blkPut byte) := by
  apply BitVec.eq_of_getLsbD_eq
  intro k hk
  unfold encode tableRow packWord
  simp only [BitVec.getLsbD_and, BitVec.getLsbD_append]
  interval_cases k <;> simp

theorem TableRow.encMtf : TableRow.Statement .encMtf := by
  unfold Statement; decide

theorem TableRow.encTrain : TableRow.Statement .encTrain := by
  unfold Statement; decide

theorem TableRow.encCodes : TableRow.Statement .encCodes := by
  unfold Statement; decide

theorem TableRow.encEmit : TableRow.Statement .encEmit := by
  unfold Statement; decide

theorem TableRow.encStreamHdr : TableRow.Statement .encStreamHdr := by
  unfold Statement; decide

theorem TableRow.encBlockHdr (rand : BitVec 1) (origPtr : BitVec 24) : TableRow.Statement (.encBlockHdr rand origPtr) := by
  apply BitVec.eq_of_getLsbD_eq
  intro k hk
  unfold encode tableRow packWord
  simp only [BitVec.getLsbD_and, BitVec.getLsbD_append]
  interval_cases k <;> simp

theorem TableRow.encTrailer : TableRow.Statement .encTrailer := by
  unfold Statement; decide

theorem TableRow.decReset : TableRow.Statement .decReset := by
  unfold Statement; decide

theorem TableRow.decStreamHdr : TableRow.Statement .decStreamHdr := by
  unfold Statement; decide

theorem TableRow.decBlockStart : TableRow.Statement .decBlockStart := by
  unfold Statement; decide

theorem TableRow.decTables : TableRow.Statement .decTables := by
  unfold Statement; decide

theorem TableRow.decSymbols : TableRow.Statement .decSymbols := by
  unfold Statement; decide

theorem TableRow.decIbwt : TableRow.Statement .decIbwt := by
  unfold Statement; decide

theorem TableRow.decWalk : TableRow.Statement .decWalk := by
  unfold Statement; decide

theorem TableRow.decBlockEnd : TableRow.Statement .decBlockEnd := by
  unfold Statement; decide

end Sys2Proof.Laws
end

