-- ==== Sys2Proof/Laws/Sink.lean ====
section
/-! SUPPORT. The BitSink: what `Drain`, `W` and `Finish` do to the bit string it stands for
(41_bitsink.md rule R66). -/

namespace Sys2Proof.Machine

theorem BitSink.pending_eq {k : BitSink} (h : k.live.toNat ≤ 32) :
    k.pending = natToBits k.live.toNat (k.acc.toNat >>> (32 - k.live.toNat)) :=
  natToBits_take _ h

/-- One round of the drain loop moves eight bits from the accumulator to OUT. -/
theorem BitSink.drainRound {k : BitSink} (h : k.Tidy) (h8 : 8 ≤ k.live.toNat) :
    let q : BitSink := { k.emitTop with acc := k.acc <<< 8, live := k.live - 8 }
    q.Tidy ∧ q.bits = k.bits ∧ q.live.toNat = k.live.toNat - 8 := by
  obtain ⟨hl, hz⟩ := h
  have live : (k.live - 8).toNat = k.live.toNat - 8 := by
    have := k.live.isLt
    rw [BitVec.toNat_sub_of_le (by bv_omega)]; rfl
  have acc : (k.acc <<< 8).toNat = k.acc.toNat % 2 ^ 24 * 2 ^ 8 := by
    rw [BitVec.toNat_shiftLeft, Nat.shiftLeft_eq]
    have := Nat.mul_mod_mul_right (2 ^ 8) k.acc.toNat (2 ^ 24)
    omega
  refine ⟨⟨by simp only [live]; omega, ?_⟩, ?_, live⟩
  · simp only [live, acc]
    rw [show 32 - (k.live.toNat - 8) = (32 - k.live.toNat) + 8 by omega, pow_add,
      Nat.mul_mod_mul_right]
    have : k.acc.toNat % 2 ^ 24 % 2 ^ (32 - k.live.toNat) = 0 := by
      rw [Nat.mod_mod_of_dvd _ (pow_dvd_pow 2 (by omega))]; exact hz
    rw [this, Nat.zero_mul]
  · have top : (k.acc.extractLsb' 24 8).toNat = (k.acc.toNat >>> 24) % 2 ^ 8 := by simp
    simp only [BitSink.bits, BitSink.emitTop, bytesToBits_append, bytesToBits_cons, bytesToBits_nil,
      List.append_nil, List.append_assoc, List.append_cancel_left_eq, top, natToBits_mod]
    simp only [BitSink.pending, live, acc]
    have e₁ := natToBits_add 8 24 k.acc.toNat
    have e₂ := natToBits_add 24 8 (k.acc.toNat % 2 ^ 24 * 2 ^ 8)
    rw [show (8 + 24 : Nat) = 32 from rfl] at e₁
    rw [show (24 + 8 : Nat) = 32 from rfl, Nat.shiftRight_eq_div_pow,
      Nat.mul_div_cancel _ (by norm_num), natToBits_mod] at e₂
    rw [e₁, e₂, List.take_append, List.take_append]
    simp only [natToBits_length]
    have full : (natToBits 8 (k.acc.toNat >>> 24)).take k.live.toNat
        = natToBits 8 (k.acc.toNat >>> 24) :=
      List.take_of_length_le (by rw [natToBits_length]; exact h8)
    rw [show k.live.toNat - 8 - 24 = 0 by omega, full, List.take_zero, List.append_nil]

theorem BitSink.drainLoop_spec : ∀ (fuel : Nat) {k : BitSink}, k.Tidy → k.live.toNat < 8 * fuel + 8 →
    (k.drainLoop fuel).Tidy ∧ (k.drainLoop fuel).bits = k.bits ∧ (k.drainLoop fuel).live.toNat ≤ 7
      ∧ (k.drainLoop fuel).done = k.done
  | 0, k, h, hl => ⟨h, rfl, by simp only [BitSink.drainLoop]; omega, rfl⟩
  | fuel + 1, k, h, hl => by
    rw [BitSink.drainLoop]
    split
    · next h8 =>
      obtain ⟨hq, hb, hlive⟩ := BitSink.drainRound h h8
      obtain ⟨a, b, c, d⟩ := BitSink.drainLoop_spec fuel hq (by rw [hlive]; omega)
      exact ⟨a, b.trans hb, c, d⟩
    · exact ⟨h, rfl, by omega, rfl⟩

/-- `Drain()` keeps the bit string and leaves 0..7 bits pending. -/
theorem BitSink.drain_spec {k : BitSink} (h : k.Tidy) :
    k.drain.Tidy ∧ k.drain.bits = k.bits ∧ k.drain.live.toNat ≤ 7 ∧ k.drain.done = k.done :=
  BitSink.drainLoop_spec 8 h (by have := h.1; omega)

/-- `W(n, v)` appends the low `n` bits of `v`, most significant first. -/
theorem BitSink.write_spec {k : BitSink} (h : k.Tidy) {n : Nat} (hn : n ≤ 25) (v : Word) :
    (k.write n v).Tidy ∧ (k.write n v).bits = k.bits ++ natToBits n v.toNat
      ∧ (k.write n v).done = k.done := by
  obtain ⟨⟨_, hz⟩, hb, hlive, hd⟩ := BitSink.drain_spec h
  generalize hq : k.drain = d at *
  have live : (BitVec.ofNat 6 (d.live.toNat + n)).toNat = d.live.toNat + n := by
    rw [BitVec.toNat_ofNat, Nat.mod_eq_of_lt (by omega)]
  set l := d.live.toNat with hl
  have hmask : (v &&& mask n).toNat = v.toNat % 2 ^ n := by
    have : 2 ^ n ≤ 2 ^ 25 := Nat.pow_le_pow_right (by omega) hn
    rw [BitVec.toNat_and, mask, BitVec.toNat_ofNat, Nat.mod_eq_of_lt (by omega),
      Nat.and_two_pow_sub_one_eq_mod]
  have hlt : v.toNat % 2 ^ n < 2 ^ n := Nat.mod_lt _ (by positivity)
  set x := v.toNat % 2 ^ n with hx
  set s := 32 - l - n with hs
  have hsum : l + n + s = 32 := by omega
  have hpow : 2 ^ (n + s) = 2 ^ n * 2 ^ s := pow_add ..
  have hxs : x * 2 ^ s < 2 ^ (n + s) := by rw [hpow]; exact Nat.mul_lt_mul_of_pos_right hlt (by positivity)
  have hle : 2 ^ (n + s) ≤ 2 ^ 32 := Nat.pow_le_pow_right (by omega) (by omega)
  have hshift : ((v &&& mask n) <<< s).toNat = x * 2 ^ s := by
    rw [BitVec.toNat_shiftLeft, hmask, Nat.shiftLeft_eq, Nat.mod_eq_of_lt (by omega)]
  rw [show 32 - l = n + s by omega] at hz
  obtain ⟨p, hp⟩ := Nat.dvd_of_mod_eq_zero hz
  have hacc : (d.acc ||| ((v &&& mask n) <<< s)).toNat = (p * 2 ^ n + x) * 2 ^ s := by
    rw [BitVec.toNat_or, hshift, hp, mul_comm, ← Nat.shiftLeft_eq,
      ← Nat.shiftLeft_add_eq_or_of_lt hxs, Nat.shiftLeft_eq, hpow]
    ring
  have hw : k.write n v =
      { d with acc := d.acc ||| ((v &&& mask n) <<< s), live := BitVec.ofNat 6 (l + n) } := by
    simp only [BitSink.write, hq]; rfl
  refine ⟨?_, ?_, by rw [hw]; exact hd⟩
  · rw [hw]
    simp only [BitSink.Tidy, live, hacc]
    exact ⟨by omega, by rw [show 32 - (l + n) = s by omega]; simp⟩
  · rw [← hb, hw]
    simp only [BitSink.bits, List.append_assoc, List.append_cancel_left_eq]
    rw [BitSink.pending_eq (by simp only [live]; omega), BitSink.pending_eq (by omega)]
    simp only [live, hacc]
    rw [show 32 - (l + n) = s by omega, Nat.shiftRight_eq_div_pow,
      Nat.mul_div_cancel _ (by positivity), natToBits_add, Nat.shiftRight_eq_div_pow, ← hl,
      show (p * 2 ^ n + x) / 2 ^ n = p by
        rw [mul_comm, Nat.mul_add_div (by positivity), Nat.div_eq_of_lt hlt]; omega,
      Nat.shiftRight_eq_div_pow, show 32 - l = n + s by omega, hp,
      Nat.mul_div_cancel_left _ (by positivity)]
    congr 1
    apply natToBits_congr
    rw [Nat.add_comm, Nat.add_mul_mod_self_right, hx, Nat.mod_mod]

/-- Writing fields appends their bits in order. -/
theorem BitSink.writeAll_spec (fields : List BitField) (hf : ∀ f ∈ fields, f.1 ≤ 25) :
    ∀ {k : BitSink}, k.Tidy →
      (k.writeAll fields).Tidy ∧ (k.writeAll fields).bits = k.bits ++ fieldBits fields
        ∧ (k.writeAll fields).done = k.done := by
  induction fields with
  | nil => intro k h; exact ⟨h, by simp [BitSink.writeAll, fieldBits], rfl⟩
  | cons f fs ih =>
    intro k h
    obtain ⟨a, b, c⟩ := BitSink.write_spec h (hf f (by simp)) f.2
    obtain ⟨a', b', c'⟩ := ih (fun g hg => hf g (by simp [hg])) a
    refine ⟨a', ?_, c'.trans c⟩
    rw [show k.writeAll (f :: fs) = (k.write f.1 f.2).writeAll fs from rfl, b', b]
    simp [fieldBits]

/-- `Finish()` moves every pending bit to OUT, zero-filled to a whole byte, and ends the stream. -/
theorem BitSink.finish_spec {k : BitSink} (h : k.Tidy) :
    bytesToBits k.finish.out = padToByte k.bits ∧ k.finish.acc = 0 ∧ k.finish.live = 0
      ∧ k.finish.done = true := by
  obtain ⟨⟨_, hz⟩, hb, hlive, _⟩ := BitSink.drain_spec h
  refine ⟨?_, rfl, rfl, rfl⟩
  rw [← hb]
  simp only [BitSink.finish]
  generalize k.drain = d at *
  have hlen : d.bits.length = 8 * d.out.length + d.live.toNat := by
    simp [BitSink.bits, BitSink.pending_eq (show d.live.toNat ≤ 32 by omega)]
  split
  · next hpos =>
    simp only [BitSink.emitTop, bytesToBits_append, bytesToBits_cons, bytesToBits_nil,
      List.append_nil, padToByte, hlen]
    rw [show (8 - (8 * d.out.length + d.live.toNat) % 8) % 8 = 8 - d.live.toNat by omega]
    simp only [BitSink.bits, List.append_assoc, List.append_cancel_left_eq]
    rw [BitSink.pending_eq (by omega)]
    obtain ⟨p, hp⟩ := Nat.dvd_of_mod_eq_zero hz
    have hplt : p < 2 ^ d.live.toNat := by
      have := d.acc.isLt
      rw [hp] at this
      have e : (2:Nat) ^ 32 = 2 ^ (32 - d.live.toNat) * 2 ^ d.live.toNat := by
        rw [← pow_add]; congr 1; omega
      rw [e] at this
      exact Nat.lt_of_mul_lt_mul_left this
    have top : (d.acc.extractLsb' 24 8).toNat = p * 2 ^ (8 - d.live.toNat) := by
      have e : (2:Nat) ^ (32 - d.live.toNat) = 2 ^ 24 * 2 ^ (8 - d.live.toNat) := by
        rw [← pow_add]; congr 1; omega
      have e8 : (2:Nat) ^ 8 = 2 ^ d.live.toNat * 2 ^ (8 - d.live.toNat) := by
        rw [← pow_add]; congr 1; omega
      rw [BitVec.extractLsb'_toNat, Nat.shiftRight_eq_div_pow, hp, e,
        show 2 ^ 24 * 2 ^ (8 - d.live.toNat) * p = 2 ^ 24 * (p * 2 ^ (8 - d.live.toNat)) by ring,
        Nat.mul_div_cancel_left _ (by positivity), Nat.mod_eq_of_lt]
      rw [e8]
      exact Nat.mul_lt_mul_of_pos_right hplt (by positivity)
    rw [top, hp, Nat.shiftRight_eq_div_pow, Nat.mul_div_cancel_left _ (by positivity)]
    conv_lhs => rw [show 8 = d.live.toNat + (8 - d.live.toNat) by omega, natToBits_add]
    rw [show d.live.toNat + (8 - d.live.toNat) - d.live.toNat = 8 - d.live.toNat by omega,
      Nat.shiftRight_eq_div_pow, Nat.mul_div_cancel _ (by positivity)]
    congr 1
    apply List.ext_getElem
    · simp
    · intro i h₁ h₂
      rw [natToBits_getElem]
      simp only [List.getElem_replicate]
      simp only [natToBits_length] at h₁
      rw [Nat.testBit_mul_two_pow]
      simp; omega
  · next hpos =>
    have : d.live.toNat = 0 := by omega
    rw [padToByte, hlen, this]
    simp [BitSink.bits, BitSink.pending, this]

/-- What the drain loop does to `SINK_LIVE`, OUT and `SINK_BYTES`. -/
theorem BitSink.drainLoop_counts : ∀ (fuel : Nat) (k : BitSink), k.live.toNat < 8 * fuel + 8 →
    (k.drainLoop fuel).live.toNat = k.live.toNat % 8 ∧ k.out <+: (k.drainLoop fuel).out ∧
      (k.drainLoop fuel).bytes =
        k.bytes + BitVec.ofNat 32 ((k.drainLoop fuel).out.length - k.out.length)
  | 0, k, hl => ⟨by simp only [BitSink.drainLoop]; omega, List.prefix_rfl, by
      simp [BitSink.drainLoop]⟩
  | fuel + 1, k, hl => by
    rw [BitSink.drainLoop]
    split
    · rename_i h8
      have live : (k.live - 8).toNat = k.live.toNat - 8 := by
        rw [BitVec.toNat_sub_of_le (by bv_omega)]; rfl
      obtain ⟨h₁, h₂, h₃⟩ := BitSink.drainLoop_counts fuel
        { k.emitTop with acc := k.acc <<< 8, live := k.live - 8 } (by simp only [live]; omega)
      simp only [BitSink.emitTop, live] at h₁ h₂ h₃ ⊢
      generalize BitSink.drainLoop fuel _ = d at h₁ h₂ h₃ ⊢
      have := h₂.length_le
      simp only [List.length_append, List.length_singleton] at this h₃
      refine ⟨by omega, (List.prefix_append _ _).trans h₂, ?_⟩
      rw [h₃, BitVec.add_assoc]
      congr 1
      rw [show (1 : BitVec 32) = BitVec.ofNat 32 1 from rfl, ← BitVec.ofNat_add]
      congr 1
      omega
    · exact ⟨by omega, List.prefix_rfl, by simp⟩

/-- `Drain()` appends no bit. -/
theorem BitSink.drain_appended {k : BitSink} (h : k.Tidy) : k.Appended k.drain [] 0 := by
  obtain ⟨ht, hb, -, hd⟩ := BitSink.drain_spec h
  obtain ⟨hl, ho, hy⟩ := BitSink.drainLoop_counts 8 k (by have := h.1; omega)
  exact ⟨ht, by simpa using hb, ho, hy, hd, by simpa [BitSink.drain] using hl⟩

/-- `W(n, v)` appends the low `n` bits of `v`. -/
theorem BitSink.write_appended {k : BitSink} (h : k.Tidy) {n : Nat} (hn : n ≤ 25) (v : Word) :
    k.Appended (k.write n v) (natToBits n v.toNat) n := by
  obtain ⟨ht, hb, hd⟩ := BitSink.write_spec h hn v
  obtain ⟨hl, ho, hy⟩ := BitSink.drainLoop_counts 8 k (by have := h.1; omega)
  refine ⟨ht, hb, ho, hy, hd, ?_⟩
  simp only [BitSink.write, BitSink.drain, natToBits_length, Nat.sub_self, Nat.add_zero,
    BitVec.toNat_ofNat, hl]
  omega

/-- One write after another. -/
theorem BitSink.Appended.trans {k q p : BitSink} {a b : List Bool} {m n : Nat}
    (h₁ : k.Appended q a m) (h₂ : q.Appended p b n) (hm : m ≤ a.length) (hn : n ≤ b.length) :
    k.Appended p (a ++ b) n := by
  have l₁ := h₁.outKept.length_le
  have l₂ := h₂.outKept.length_le
  refine ⟨h₂.tidy, by rw [h₂.stream, h₁.stream, List.append_assoc], h₁.outKept.trans h₂.outKept,
    ?_, h₂.doneKept.trans h₁.doneKept, ?_⟩
  · rw [h₂.counted, h₁.counted, BitVec.add_assoc, ← BitVec.ofNat_add]
    congr 2
    omega
  · rw [h₂.live, h₁.live, List.length_append]
    omega

/-- Writes in a row, the last of them `f`. -/
theorem BitSink.writeAll_appended (f : BitField) (fields : List BitField)
    (hf : ∀ g ∈ fields ++ [f], g.1 ≤ 25) {k : BitSink} (h : k.Tidy) :
    k.Appended (k.writeAll (fields ++ [f])) (fieldBits (fields ++ [f])) f.1 := by
  induction fields generalizing k with
  | nil => simpa [BitSink.writeAll, fieldBits] using BitSink.write_appended h (hf f (by simp)) f.2
  | cons g gs ih =>
    have w := BitSink.write_appended h (hf g (by simp)) g.2
    have := w.trans (ih (fun x hx => hf x (by simp at hx ⊢; tauto)) w.tidy) (by simp)
      (by simp [fieldBits])
    simpa [BitSink.writeAll, fieldBits] using this

end Sys2Proof.Machine
end

