-- ==== Sys2Proof/Laws/Source.lean ====
section
/-! SUPPORT. The BitSource: what `Rd(n)` returns and leaves (42_bitsource.md rules R71 and R72). -/

namespace Sys2Proof.Machine

theorem BitSource.bits_length (r : BitSource) : r.bits.length = r.available := by
  simp [BitSource.bits, BitSource.available]

/-- One refilled byte: the bit string stays, eight more of its bits are live. -/
theorem BitSource.refillRound {r : BitSource} {b : Byte} {rest : List Byte}
    (hl : r.live.toNat ≤ 31) (ha : r.acc.toNat < 2 ^ r.live.toNat) (hf : r.fifo = b :: rest) :
    let q : BitSource :=
      { r with
        fifo := rest, acc := (r.acc <<< 8) ||| b.setWidth 40, live := r.live + 8
        bytes := r.bytes + 1 }
    q.live.toNat = r.live.toNat + 8 ∧ q.acc.toNat < 2 ^ q.live.toNat ∧ q.bits = r.bits := by
  have live : (r.live + 8).toNat = r.live.toNat + 8 := by bv_omega
  have hpow : 2 ^ r.live.toNat ≤ 2 ^ 31 := Nat.pow_le_pow_right (by omega) hl
  have hb := b.isLt
  have acc : ((r.acc <<< 8) ||| b.setWidth 40).toNat = r.acc.toNat * 2 ^ 8 + b.toNat := by
    rw [BitVec.toNat_or, BitVec.toNat_shiftLeft, BitVec.toNat_setWidth,
      Nat.mod_eq_of_lt (show b.toNat < 2 ^ 40 by omega), Nat.shiftLeft_eq,
      Nat.mod_eq_of_lt (by omega), ← Nat.shiftLeft_eq, ← Nat.shiftLeft_add_eq_or_of_lt hb]
  refine ⟨live, ?_, ?_⟩
  · simp only [live, acc, pow_add]; omega
  · simp only [BitSource.bits, live, acc, hf, bytesToBits_cons, ← List.append_assoc,
      natToBits_add, Nat.shiftRight_eq_div_pow]
    rw [show (r.acc.toNat * 2 ^ 8 + b.toNat) / 2 ^ 8 = r.acc.toNat by omega,
      natToBits_congr (show (r.acc.toNat * 2 ^ 8 + b.toNat) % 2 ^ 8 = b.toNat % 2 ^ 8 by omega)]

/-- The refill loop: enough bits become live, or IN runs out. -/
theorem BitSource.refillLoop_spec : ∀ (fuel : Nat) {n : Nat} {r : BitSource}, n ≤ 32 →
    r.live.toNat ≤ 39 → r.acc.toNat < 2 ^ r.live.toNat → n ≤ r.live.toNat + 8 * fuel →
    (n ≤ r.available → ∃ q m, r.refillLoop fuel n = .ok () q ∧ n ≤ q.live.toNat ∧
      q.live.toNat ≤ 39 ∧ q.acc.toNat < 2 ^ q.live.toNat ∧ q.bits = r.bits ∧ q.closed = r.closed ∧
      m ≤ r.fifo.length ∧ q.fifo = r.fifo.drop m ∧ q.bytes = r.bytes + BitVec.ofNat 32 m ∧
      q.live.toNat = r.live.toNat + 8 * m ∧ (m = 0 ∨ q.live.toNat < n + 8)) ∧
    (r.available < n → r.refillLoop fuel n = if r.closed then .raise .eof else .hold)
  | 0, n, r, hn, hl, ha, hf => by
    refine ⟨fun _ => ⟨r, 0, rfl, by omega, hl, ha, rfl, rfl, by simp, rfl, by simp, by simp, .inl rfl⟩,
      fun h => ?_⟩
    simp only [BitSource.available] at h
    omega
  | fuel + 1, n, r, hn, hl, ha, hf => by
    rw [BitSource.refillLoop]
    by_cases hlt : r.live.toNat < n
    · cases hfifo : r.fifo with
      | nil =>
        refine ⟨fun h => ?_, fun _ => ?_⟩
        · simp only [BitSource.available, hfifo] at h; simp at h; omega
        · by_cases hc : r.closed <;> simp [BitSource.take, hfifo, hlt, hc]
      | cons b rest =>
        obtain ⟨live, acc, bits⟩ := BitSource.refillRound (by omega) ha hfifo
        have avail := congrArg List.length bits
        rw [BitSource.bits_length, BitSource.bits_length] at avail
        obtain ⟨ok, out⟩ := BitSource.refillLoop_spec fuel hn (by rw [live]; omega) acc
          (by rw [live]; omega)
        simp only [hlt, if_true, BitSource.take, hfifo]
        refine ⟨fun h => ?_, fun h => ?_⟩
        · obtain ⟨q, m, e, h₁, h₂, h₃, h₄, h₅, h₆, h₇, h₈, h₉, h₁₀⟩ := ok (by rw [avail]; exact h)
          refine ⟨q, m + 1, e, h₁, h₂, h₃, h₄.trans bits, h₅, by simp at h₆ ⊢; omega, by simpa using h₇,
            ?_, by rw [h₉, live]; omega, .inr ?_⟩
          · rw [h₈, BitVec.add_assoc]; congr 1
            rw [BitVec.ofNat_add, BitVec.add_comm]; rfl
          · rcases h₁₀ with rfl | h
            · rw [h₉, live]; omega
            · exact h
        · exact out (by rw [avail]; exact h)
    · simp only [hlt, if_false]
      refine ⟨fun _ => ⟨r, 0, rfl, by omega, hl, ha, rfl, rfl, by simp, by simp, by simp, by simp,
        .inl rfl⟩, fun h => ?_⟩
      simp only [BitSource.available] at h
      omega

/-- `Rd(n)` with enough bits: the value of the next `n` bits, and the stream without them. -/
theorem rd_ok {r : BitSource} (h : r.Tidy) {n : Nat} (hn : n ≤ 32) (ha : n ≤ r.available) :
    ∃ v q, rd n r = .ok v q ∧ v < 2 ^ n ∧ natToBits n v = r.bits.take n ∧ q.bits = r.bits.drop n ∧
      q.Tidy ∧ q.closed = r.closed ∧ q.fifo = r.fifo.drop (r.bytesFor n) ∧
      q.bytes = r.bytes + BitVec.ofNat 32 (r.bytesFor n) ∧
      q.live.toNat = r.live.toNat + 8 * r.bytesFor n - n := by
  obtain ⟨hl, hacc⟩ := h
  obtain ⟨q, m, e, h₁, h₂, h₃, h₄, h₅, -, h₇, h₈, h₉, h₁₀⟩ :=
    (BitSource.refillLoop_spec 4 hn (by omega) hacc (by omega)).1 ha
  set live := q.live.toNat - n with hlive
  have hle : live ≤ 7 := by omega
  have hmod : q.acc.toNat % 2 ^ live < 2 ^ live := Nat.mod_lt _ (by positivity)
  have hp : 2 ^ live ≤ 2 ^ 7 := Nat.pow_le_pow_right (by omega) hle
  have tl : (BitVec.ofNat 6 live).toNat = live := by
    rw [BitVec.toNat_ofNat, Nat.mod_eq_of_lt (by omega)]
  have ta : (BitVec.ofNat 40 (q.acc.toNat % 2 ^ live)).toNat = q.acc.toNat % 2 ^ live := by
    rw [BitVec.toNat_ofNat, Nat.mod_eq_of_lt (by omega)]
  have hb : r.bits = natToBits n (q.acc.toNat >>> live) ++ (natToBits live q.acc.toNat
      ++ bytesToBits q.fifo) := by
    rw [← h₄, BitSource.bits, show q.live.toNat = n + live by omega, natToBits_add,
      List.append_assoc]
  have hm : r.bytesFor n = m := by simp only [BitSource.bytesFor]; omega
  refine ⟨(q.acc.toNat >>> live) % 2 ^ n,
    { q with acc := BitVec.ofNat 40 (q.acc.toNat % 2 ^ live), live := BitVec.ofNat 6 live },
    by simp only [rd, e, hlive], Nat.mod_lt _ (by positivity), ?_, ?_, ?_, h₅,
    by rw [hm]; exact h₇, by rw [hm]; exact h₈, by rw [hm]; simp only [tl]; omega⟩
  · rw [natToBits_mod, hb, List.take_left' (natToBits_length _ _)]
  · rw [hb, List.drop_left' (natToBits_length _ _)]
    simp only [BitSource.bits, tl, ta, natToBits_mod]
  · exact ⟨by simp only [tl]; exact hle, by simp only [tl, ta]; exact hmod⟩

/-- `Rd(n)` without enough bits: `E_EOF` when IN is closed, a hold when it is open. -/
theorem rd_short {r : BitSource} (h : r.Tidy) {n : Nat} (hn : n ≤ 32) (ha : r.available < n) :
    rd n r = if r.closed then .raise .eof else .hold := by
  obtain ⟨hl, hacc⟩ := h
  have := (BitSource.refillLoop_spec 4 hn (by omega) hacc (by omega)).2 ha
  by_cases hc : r.closed <;> simp [rd, this, hc]

/-- `Rd(n)` on a known bit string: if the stream starts with the `n` bits of `v`, the value is
`v`. -/
theorem rd_natToBits {r : BitSource} (h : r.Tidy) {n v : Nat} (hn : n ≤ 32) (hv : v < 2 ^ n)
    {rest : List Bool} (hb : r.bits = natToBits n v ++ rest) :
    ∃ q, rd n r = .ok v q ∧ q.bits = rest ∧ q.Tidy ∧ q.closed = r.closed := by
  have hlen : n ≤ r.available := by rw [← BitSource.bits_length, hb]; simp
  obtain ⟨w, q, e, hw, hv', hq, ht, hc, -⟩ := rd_ok h hn hlen
  rw [hb, List.take_left' (natToBits_length _ _)] at hv'
  have := natToBits_inj hv'
  rw [Nat.mod_eq_of_lt hw, Nat.mod_eq_of_lt hv] at this
  subst this
  exact ⟨q, e, by rw [hq, hb, List.drop_left' (natToBits_length _ _)], ht, hc⟩

/-- `Rd(n)` with enough bits consumes `n` bits. -/
theorem rd_consumed {r : BitSource} (h : r.Tidy) {n : Nat} (hn : n ≤ 32) (ha : n ≤ r.bits.length) :
    ∃ v q, rd n r = .ok v q ∧ v < 2 ^ n ∧ natToBits n v = r.bits.take n ∧ r.Consumed q n := by
  obtain ⟨v, q, e, hv, hb, hs, ht, hc, hf, hy, -⟩ :=
    rd_ok h hn (by rwa [BitSource.bits_length] at ha)
  exact ⟨v, q, e, hv, hb, ht, ha, hs, hf, hy, hc⟩

/-- Reading nothing. -/
theorem BitSource.Consumed.zero {r : BitSource} (h : r.Tidy) : r.Consumed r 0 :=
  ⟨h, by simp, by simp, by simp [BitSource.bytesFor], by simp [BitSource.bytesFor], rfl⟩

/-- Reading `n` bits and then `m` bits is reading `n + m` bits. -/
theorem BitSource.Consumed.trans {r q p : BitSource} {n m : Nat} (h₁ : r.Consumed q n)
    (h₂ : q.Consumed p m) : r.Consumed p (n + m) := by
  have len := congrArg List.length h₁.stream
  simp only [List.length_drop, BitSource.bits_length, BitSource.available] at len
  have fl : q.fifo.length = r.fifo.length - r.bytesFor n := by simp [h₁.taken]
  have e₁ := h₁.enough
  have e₂ := h₂.enough
  rw [BitSource.bits_length, BitSource.available] at e₁ e₂
  have key : r.bytesFor (n + m) = r.bytesFor n + q.bytesFor m := by
    have := h₁.tidy.1
    simp only [BitSource.bytesFor] at fl ⊢
    omega
  refine ⟨h₂.tidy, ?_, ?_, ?_, ?_, h₂.closedKept.trans h₁.closedKept⟩
  · rw [BitSource.bits_length, BitSource.available]; omega
  · rw [h₂.stream, h₁.stream, List.drop_drop]
  · rw [h₂.taken, h₁.taken, List.drop_drop, key]
  · rw [h₂.counted, h₁.counted, key, BitVec.add_assoc, BitVec.ofNat_add]

end Sys2Proof.Machine
end

