-- ==== Sys2Proof/Tests/Slice0.lean ====
section
/-! SUPPORT. Tests: ill-formed terms refused, words decoded, one step of each command against the
examples of spec/, and a witness for the hypotheses of every statement. Expected values come from the
rules' examples and the vectors of 95_test_vectors.md. -/

namespace Sys2Proof.Tests

open Sys2Proof Sys2Proof.Machine

-- The tests are elaborated one after the other: each is small, and a thread apiece costs more.
set_option Elab.async false

/-! ## Form and decoding -/

/-- Rule R54: `CFG` takes 1..9, `SINK_WRITE` 1..25, `SRC_READ` 1..32. -/
theorem test_wellFormed :
    (Instr.cfg 0).wellFormed = false ∧ (Instr.cfg 10).wellFormed = false ∧
    (Instr.cfg 1).wellFormed = true ∧ (Instr.cfg 9).wellFormed = true ∧
    (Instr.sinkWrite 0 0).wellFormed = false ∧ (Instr.sinkWrite 26 0).wellFormed = false ∧
    (Instr.sinkWrite 1 0).wellFormed = true ∧ (Instr.sinkWrite 25 0).wellFormed = true ∧
    (Instr.srcRead 0).wellFormed = false ∧ (Instr.srcRead 33).wellFormed = false ∧
    (Instr.srcRead 1).wellFormed = true ∧ (Instr.srcRead 32).wellFormed = true := by decide

/-- Words of the control family, written out from 30_encoding.md rules R53, R54 and R56. -/
theorem test_decode_control :
    decode 0x0000000000000000 = .ok (.nop) ∧
    decode 0x0100000000000000 = .ok (.sysReset) ∧
    decode 0x0209000000000000 = .ok (.cfg 9) := by decide

/-- Words of the sink family, written out from 30_encoding.md rules R53, R54 and R56. -/
theorem test_decode_sink :
    decode 0x1000000000000000 = .ok (.sinkReset) ∧
    decode 0x110300000000000D = .ok (.sinkWrite 3 13) ∧
    decode 0x1200000000000000 = .ok (.sinkFlush) ∧
    decode 0x1300000000000000 = .ok (.sinkFinish) := by decide

/-- Words of the source family, written out from 30_encoding.md rules R53, R54 and R56. -/
theorem test_decode_source :
    decode 0x1800000000000000 = .ok (.srcReset) ∧
    decode 0x1920000000000000 = .ok (.srcRead 32) := by decide

/-- Words of the crc family, written out from 30_encoding.md rules R53, R54 and R56. -/
theorem test_decode_crc :
    decode 0x2000000000000000 = .ok (.crcReset) ∧
    decode 0x2100000000000061 = .ok (.crcUpdate 0x61) ∧
    decode 0x2200FFFF00000041 = .ok (.crcUpdateRun 0x41 65535) ∧
    decode 0x2300000000000000 = .ok (.crcCombine) ∧
    decode 0x2400000080000001 = .ok (.crcFold 0x80000001) := by decide

/-- Words of the block family, written out from 30_encoding.md rules R53, R54 and R56. -/
theorem test_decode_block :
    decode 0x3000000000000000 = .ok (.blkReset) ∧
    decode 0x31000000000000FF = .ok (.blkPut 0xFF) ∧
    decode 0x3200000000000000 = .ok (.encMtf) := by decide

/-- Words of the huffman family, written out from 30_encoding.md rules R53, R54 and R56. -/
theorem test_decode_huffman :
    decode 0x3300000000000000 = .ok (.encTrain) ∧
    decode 0x3400000000000000 = .ok (.encCodes) ∧
    decode 0x3500000000000000 = .ok (.encEmit) := by decide

/-- Words of the framing family, written out from 30_encoding.md rules R53, R54 and R56. -/
theorem test_decode_framing :
    decode 0x3800000000000000 = .ok (.encStreamHdr) ∧
    decode 0x3901000000FFFFFF = .ok (.encBlockHdr 1 0xFFFFFF) ∧
    decode 0x3A00000000000000 = .ok (.encTrailer) := by decide

/-- Words of the decoder family, written out from 30_encoding.md rules R53, R54 and R56. -/
theorem test_decode_decoder :
    decode 0x4000000000000000 = .ok (.decReset) ∧
    decode 0x4100000000000000 = .ok (.decStreamHdr) ∧
    decode 0x4200000000000000 = .ok (.decBlockStart) ∧
    decode 0x4300000000000000 = .ok (.decTables) ∧
    decode 0x4400000000000000 = .ok (.decSymbols) := by decide

/-- Words of the bwt family, written out from 30_encoding.md rules R53, R54 and R56. -/
theorem test_decode_bwt :
    decode 0x4500000000000000 = .ok (.decIbwt) ∧
    decode 0x4600000000000000 = .ok (.decWalk) ∧
    decode 0x4700000000000000 = .ok (.decBlockEnd) := by decide

/-- Reserved opcodes and reserved bits (rules R55 and R57). -/
theorem test_decode_reserved :
    decode 0x4800000000000000 = .error .reservedOpcode ∧
    decode 0x3600000000000000 = .error .reservedOpcode ∧
    decode 0xFF00000000000000 = .error .reservedOpcode ∧
    decode 0x0000000000000001 = .error .reservedBits ∧
    decode 0x1101000100000000 = .error .reservedBits ∧
    decode 0x2100000000000100 = .error .reservedBits ∧
    decode 0x3902000000000000 = .error .reservedBits ∧
    decode 0x3900000001000000 = .error .reservedBits := by decide

/-! ## Helpers -/

/-- The state after a command; every command answers a next state. -/
def after (i : Instr) (s : State) : State :=
  match exec i s with
  | .next t => t
  | .fault _ => s
  | .refused _ => s

/-- The state after commands in a row. -/
def afterAll (is : List Instr) (s : State) : State := is.foldl (fun s i => after i s) s

/-- The state after one step. -/
def afterStep (s : State) : State :=
  match step s with
  | .next t => t
  | .fault _ => s
  | .refused _ => s

/-- Bits as a BitSource: the first `bits.length % 8` pending, the rest as bytes in IN. -/
def bytesOf : Nat → List Bool → List Byte
  | 0, _ => []
  | n + 1, bits => BitVec.ofNat 8 (bitsToNat (bits.take 8)) :: bytesOf n (bits.drop 8)

/-- The BitSource, open, whose bits are `bits`. -/
def sourceOf (bits : List Bool) : BitSource :=
  { acc := BitVec.ofNat 40 (bitsToNat (bits.take (bits.length % 8)))
    live := BitVec.ofNat 6 (bits.length % 8), bytes := 0
    fifo := bytesOf (bits.length / 8) (bits.drop (bits.length % 8)), closed := false }

/-- Reset with these bytes in IN, closed. -/
def withIn (bytes : List Byte) : State :=
  { State.reset with src := { State.reset.src with fifo := bytes, closed := true } }

/-- The block "baaac" loaded (rule R88's example). -/
def baaac : State :=
  afterAll [.blkPut 0x62, .blkPut 0x61, .blkPut 0x61, .blkPut 0x61, .blkPut 0x63] State.reset

/-- The block "a" coded. -/
def codedA : State := afterAll [.blkPut 0x61, .encMtf, .encTrain, .encCodes] State.reset

/-! ## Control -/

theorem test_nop : after .nop { State.reset with cmdCnt := 5 } = { State.reset with cmdCnt := 6 } := by
  decide

/-- Rule R61's example. -/
theorem test_sysReset :
    let t := after .sysReset { State.reset with err := 3, cmdCnt := 40, crc := 1, blockSize := 1 }
    t.err = 0 ∧ t.cmdCnt = 0 ∧ t.crc = 0xFFFFFFFF ∧ t.enc.last = 0xFFFFFFFF ∧ t.blockSize = 9 := by
  decide

theorem test_cfg :
    (after (.cfg 1) State.reset).blockSize = 1 ∧ (after (.cfg 0) State.reset).err = 0x22 ∧
    (after (.cfg 10) State.reset).err = 0x22 ∧ (after (.cfg 1) baaac).err = 0x21 := by decide +kernel

/-- `step` fetches what `withFetchWord` places and runs it. -/
theorem test_step_cfg :
    afterStep (State.reset.withFetchWord 64 0x0201000000000000) =
      { State.reset with blockSize := 1, cmdCnt := 1 } := by decide

theorem test_step_reserved :
    (afterStep (State.reset.withFetchWord 64 0x4800000000000000)).err = 0x20 ∧
    (afterStep (State.reset.withFetchWord 64 0x0000000000000001)).err = 0x22 ∧
    decodeTableWord 64 0x0201000000000000 = some (.cfg 1) := by decide

/-! ## BitSink (rules R67 to R70) -/

def sinkLive (acc : Word) (live : BitVec 6) : State :=
  { State.reset with sink := { State.reset.sink with acc := acc, live := live } }

theorem test_sinkReset :
    let t := after .sinkReset { State.reset with
      sink := { acc := 0xA8000000, live := 5, bytes := 2, done := true, out := [1, 2] } }
    t.sink = { acc := 0, live := 0, bytes := 2, done := false, out := [1, 2] } := by decide

theorem test_sinkWrite :
    let t := after (.sinkWrite 3 0b101) State.reset
    let u := after (.sinkWrite 25 0x1FFFFFF) t
    t.sink.acc = 0xA0000000 ∧ t.sink.live = 3 ∧ u.sink.acc = 0xBFFFFFF0 ∧ u.sink.live = 28 ∧
      u.sink.out = [] := by decide +kernel

theorem test_sinkFlush :
    (after .sinkFlush (sinkLive 0xBFFFFFF0 28)).sink =
      { acc := 0xF0000000, live := 4, bytes := 3, done := false, out := [0xBF, 0xFF, 0xFF] } := by
  decide +kernel

theorem test_sinkFinish :
    (after .sinkFinish (sinkLive 0xF0000000 4)).sink =
      { acc := 0, live := 0, bytes := 1, done := true, out := [0xF0] } := by decide +kernel

/-! ## BitSource (rules R73 and R74) -/

theorem test_srcReset :
    (after .srcReset { State.reset with src := { State.reset.src with acc := 0b101, live := 3, bytes := 9 } }).src =
      { State.reset.src with bytes := 9 } := by decide

theorem test_srcRead :
    let t := after (.srcRead 3) (withIn [0xBF, 0xFF, 0xFF, 0xF0])
    let u := after (.srcRead 25) t
    t.res = 0b101 ∧ t.src.live = 5 ∧ t.src.acc = 0b11111 ∧ t.src.bytes = 1 ∧
      u.res = 0x1FFFFFF ∧ u.src.live = 4 ∧ u.src.acc = 0 ∧ u.src.bytes = 4 := by decide +kernel

theorem test_srcRead_short :
    (after (.srcRead 9) (withIn [0xBF])).err = 0x03 ∧
    (after (.srcRead 9) State.reset) = { State.reset with held := some (.srcRead 9) } ∧
    (after (.srcRead 33) (withIn [0xBF])).err = 0x22 := by decide +kernel

/-! ## CRC (rules R77 to R81) -/

theorem test_crcReset : (after .crcReset { State.reset with crc := 0x1234 }).crc = 0xFFFFFFFF := by
  decide

theorem test_crcUpdate :
    (after (.crcUpdate 0x61) State.reset).crc = 0xE66C6494 ∧
    (after (.crcUpdate 0x00) State.reset).crc = 0x4E08BFB4 := by decide +kernel

/-- Another `CRC_POLY`, by rule R75: `T[1]` is the polynomial, whatever it is. -/
theorem test_crcPoly :
    let s := { State.reset with crcPoly := 0xEDB88320, crc := 0 }
    (after (.crcUpdate 0x01) s).crc = 0xEDB88320 ∧ (after (.crcUpdateRun 0x01 1) s).crc = 0xEDB88320 ∧
    (after .sysReset s).crcPoly = 0xEDB88320 := by decide +kernel

theorem test_crcUpdateRun :
    (after (.crcUpdateRun 0x41 5) State.reset).crc = 0xD14298BA ∧
    (after (.crcUpdateRun 0x41 0) State.reset).crc = 0xFFFFFFFF := by decide +kernel

theorem test_crcCombine :
    (after .crcCombine { State.reset with combined := 0x19939B6B, crc := ~~~0x648CBB73 }).combined =
      0x57AB8DA5 := by decide +kernel

theorem test_crcFold :
    (after (.crcFold 0) { State.reset with combined := 0x80000001 }).combined = 3 := by decide +kernel

/-! ## Encoder (rules R83 to R103) -/

theorem test_blkReset :
    (after .blkReset baaac).enc.last = 0xFFFFFFFF ∧ (after .blkReset baaac).enc.estate = .empty ∧
      (after .blkReset baaac).enc.inUse = 0 := by decide +kernel

theorem test_blkPut :
    let t := after (.blkPut 0x61) State.reset
    t.enc.last = 0 ∧ t.enc.block.read 0 = 0x61 ∧ t.enc.inUse = 2 ^ 0x61 ∧ t.enc.estate = .loaded := by
  decide +kernel

theorem test_encMtf :
    let t := after .encMtf baaac
    t.enc.nInUse = 3 ∧ t.enc.nMtf = 5 ∧ t.enc.symbols = [2, 2, 1, 3, 4] ∧
      t.enc.mtfFreq.readNats 0 5 = [0, 1, 2, 1, 1] := by decide +kernel

theorem test_encTrain :
    let t := afterAll [.encMtf, .encTrain] baaac
    t.enc.nGroups = 2 ∧ t.enc.selectors = [0] ∧ t.enc.lengths 0 = [3, 3, 2, 2, 2] ∧
      t.enc.lengths 1 = [3, 3, 2, 2, 2] := by decide +kernel

theorem test_encCodes :
    let t := afterAll [.encMtf, .encTrain, .encCodes] baaac
    t.enc.eCode.readNats 0 5 = [0b110, 0b111, 0b00, 0b01, 0b10] := by decide +kernel

theorem test_canonicalCodes :
    canonicalCodes [2, 2, 2, 3, 3] = [0b00, 0b01, 0b10, 0b110, 0b111] := by decide +kernel

/-- Rule R99 on the block "a", up to the tables, and the block reset; the sub-bitmap is the one of the
stream V-ENC-1 (assumption log 22). -/
theorem test_encEmit :
    let t := after .encEmit codedA
    t.sink.bits.take 51 = natToBits 16 0b0000001000000000 ++ natToBits 16 0x4000 ++ natToBits 3 2 ++
      natToBits 15 1 ++ [false] ∧ t.enc.estate = .empty ∧ t.enc.last = 0xFFFFFFFF := by decide +kernel

theorem test_encStreamHdr :
    let t := after .encStreamHdr State.reset
    t.sink.acc = 0x39000000 ∧ t.sink.live = 8 ∧ t.sink.out = [0x42, 0x5A, 0x68] := by decide +kernel

/-- Rule R102's example. -/
theorem test_encBlockHdr :
    let t := after (.encBlockHdr 0 0) (after (.blkPut 0x61) { State.reset with crc := ~~~0x19939B6B })
    t.sink.bits = bytesToBits [0x31, 0x41, 0x59, 0x26, 0x53, 0x59, 0x19, 0x93, 0x9B, 0x6B] ++
      List.replicate 25 false := by decide +kernel

/-- Rule R103's example: the stream with no block. -/
theorem test_encTrailer :
    (afterAll [.encStreamHdr, .encTrailer] State.reset).sink.out =
      [0x42, 0x5A, 0x68, 0x39, 0x17, 0x72, 0x45, 0x38, 0x50, 0x90, 0, 0, 0, 0] := by decide +kernel

/-! ## Decoder (rules R104 to R119) -/

def inState (d : DState) (s : State) : State := { s with dec := { s.dec with dstate := d } }

theorem test_decReset : (after .decReset (inState .eof State.reset)).dec.dstate = .idle := by decide

theorem test_decStreamHdr :
    let t := after .decStreamHdr (withIn [0x42, 0x5A, 0x68, 0x39, 0x00])
    t.dec.bs100k = 9 ∧ t.dec.dstate = .startBlock ∧ t.src.bytes = 4 ∧
      (after .decStreamHdr (withIn [0x42, 0x5A, 0x68, 0x30])).err = 0x02 ∧
      (after .decStreamHdr (withIn [0x43])).err = 0x01 := by decide +kernel

/-- Rule R106's examples: a block start, and the trailer of an empty stream. -/
theorem test_decBlockStart :
    let t := after .decBlockStart (inState .startBlock (withIn
      [0x31, 0x41, 0x59, 0x26, 0x53, 0x59, 0x19, 0x93, 0x9B, 0x6B, 0, 0, 0, 0x7F]))
    t.dec.storedCrc = 0x19939B6B ∧ t.dec.rand = 0 ∧ t.dec.origPtr = 0 ∧ t.dec.dstate = .tables ∧
      t.src.live = 7 ∧ t.src.bytes = 14 := by decide +kernel

theorem test_decBlockStart_trailer :
    (after .decBlockStart (inState .startBlock (withIn
      [0x17, 0x72, 0x45, 0x38, 0x50, 0x90, 0, 0, 0, 0]))).dec.dstate = .eof ∧
    (after .decBlockStart (inState .startBlock (withIn
      [0x17, 0x72, 0x45, 0x38, 0x50, 0x90, 0, 0, 0, 1]))).err = 0x11 := by decide +kernel

/-- The body of the block "a" (rules R111 and R115's examples), as the encoder emits it. -/
def bodyOfA : State :=
  { inState .tables State.reset with
    src := sourceOf (fieldBits codedA.enc.emitFields)
    dec := { State.reset.dec with dstate := .tables, bs100k := 9 } }

theorem test_decTables :
    let t := after .decTables bodyOfA
    t.dec.nInUse = 1 ∧ t.dec.seqToUnseq.read 0 = 0x61 ∧ t.dec.nGroups = 2 ∧
      t.dec.nSelectors = 1 ∧ t.dec.selector.read 0 = 0 ∧ t.dec.dstate = .symbols := by decide +kernel

theorem test_decSymbols :
    let t := afterAll [.decTables, .decSymbols] bodyOfA
    t.dec.nBlock = 1 ∧ t.dec.tt.read 0 = 0x61 ∧ t.dec.unzftab.read 0x61 = 1 ∧ t.dec.dstate = .ibwt := by
  decide +kernel

/-- Rule R110's example. -/
theorem test_limitBase :
    permOf [2, 2, 2, 3, 3] = [0, 1, 2, 3, 4] ∧ (limitBase [2, 2, 2, 3, 3]).take 5 =
      [(-1, 0), (-1, 0), (2, 0), (7, 3), (-1, 0)] := by decide +kernel

/-- Rule R116's example: the last column "cab" of "abc". -/
def cab : State :=
  { State.reset with
    dec := { State.reset.dec with
      dstate := .ibwt, bs100k := 9, nBlock := 3, origPtr := 0
      tt := State.reset.dec.tt.writeNats 0 [0x63, 0x61, 0x62]
      unzftab := State.reset.dec.unzftab.writeNats 0
        ((List.range 256).map fun b => [0x63, 0x61, 0x62].count b) } }

theorem test_decIbwt :
    let t := after .decIbwt cab
    t.dec.tt.readNats 0 3 = [0x163, 0x261, 0x062] ∧ t.dec.tPos = 1 ∧ t.dec.dstate = .plainWalk := by
  decide +kernel

theorem test_decWalk :
    let t := afterAll [.decIbwt, .decWalk] cab
    t.dout = [0x61, 0x62, 0x63] ∧ t.dec.tPos = 1 ∧ t.dec.dstate = .endOfBlock := by decide +kernel

/-- Rule R117 with the test table of V-IBWT-4: positions 2 and 5 of six are flipped. -/
theorem test_randomisedWalk :
    (walk (fun _ => 3) true (State.reset.dec.tt.writeNats 0 [0x100, 0x200, 0x300, 0x400, 0x500, 0]) 6 0
      { toGo := 0, pos := 0 }).2 = [0, 1, 0, 0, 1, 0] := by decide +kernel

theorem test_decBlockEnd :
    let s := inState .endOfBlock { State.reset with
      crc := ~~~0x19939B6B, dec := { State.reset.dec with storedCrc := 0x19939B6B } }
    (after .decBlockEnd s).combined = 0x19939B6B ∧ (after .decBlockEnd s).dec.dstate = .startBlock ∧
      (after .decBlockEnd { s with crc := 0 }).err = 0x10 := by decide +kernel

/-! ## Ports -/

/-- V-ERR-5 in small: a read holds, a byte pushed lets it complete. -/
theorem test_held_read_completes :
    let s := { State.reset with
      hostQueue := [.cmd 0x1908000000000000, .read 0x10, .cmd 0, .pushIn 0xA5] }
    (afterStep s).held = some (.srcRead 8) ∧ (afterStep (afterStep s)).readData = 0 ∧
      afterStep (afterStep (afterStep s)) = afterStep (afterStep s) := by decide +kernel

/-! ## Witnesses: for each statement a state and operands that meet its hypotheses, clause by clause -/

/-- Reset with these host actions to perform. -/
def withQueue (q : List HostAction) : State := { State.reset with hostQueue := q }

/-- Reset with a held `SRC_READ 8` and these host actions to perform. -/
def holding (q : List HostAction) : State := { withQueue q with held := some (.srcRead 8) }

/-- A poisoned block. -/
def poisoned (q : List HostAction) : State := { withQueue q with err := 0x21 }

theorem exec_after (i : Instr) (s : State) : exec i s = .next (after i s) := by
  obtain ⟨t, h⟩ := exec_next i s
  simp [after, h]

theorem step_issueNext {w : Command} {i : Instr} (h : decode w = .ok i) (s : State) :
    step (issueNext w s) = .next (afterStep (issueNext w s)) := by
  have : step (issueNext w s) = .next (after i { issueNext w s with hostQueue := s.hostQueue }) := by
    rw [← exec_after]
    simp [step, hostStep, issueNext, performAction, issue, h]
  simp [afterStep, this]

theorem step_afterStep {s t : State} (h : step s = .next t) : step s = .next (afterStep s) := by
  simp [afterStep, h]

/-- `State.Inv` from its parts, for a state that holds no command. -/
theorem inv_of {s : State} (held : s.held = none)
    (h : s.err ∈ definedErrorCodes ∧ (1 ≤ s.blockSize.toNat ∧ s.blockSize.toNat ≤ 9) ∧
      (s.enc.estate = .empty ↔ s.noBlock = true) ∧
      s.enc.blockLength ≤ Config.blockUnit * s.blockSize.toNat ∧ s.enc.nInUse.toNat ≤ 256 ∧
      s.enc.LengthsLegal ∧ s.sink.Tidy ∧ s.src.Tidy ∧ s.MemoriesCanonical) : s.Inv :=
  ⟨h.1, h.2.1, h.2.2.1, h.2.2.2.1, h.2.2.2.2.1, h.2.2.2.2.2.1, h.2.2.2.2.2.2.1,
    fun _ => h.2.2.2.2.2.2.2.1, fun i hi => (by rw [held] at hi; cases hi), h.2.2.2.2.2.2.2.2⟩

theorem reset_inv : State.reset.Inv := inv_of rfl (by decide +kernel)

theorem poisoned_inv : (poisoned [.reset]).Inv := inv_of rfl (by decide +kernel)

theorem baaac_inv : baaac.Inv := inv_of (by decide +kernel) (by decide +kernel)

theorem baaac_legal : baaac.enc.Legal :=
  ⟨by decide +kernel, by decide +kernel, by decide +kernel, by decide +kernel⟩

theorem mtfDone_inv : (after .encMtf baaac).Inv := inv_of (by decide +kernel) (by decide +kernel)

theorem mtfDone_legal : (after .encMtf baaac).enc.Legal :=
  ⟨by decide +kernel, by decide +kernel, by decide +kernel, by decide +kernel⟩

theorem trained_inv : (afterAll [.encMtf, .encTrain] baaac).Inv :=
  inv_of (by decide +kernel) (by decide +kernel)

theorem trained_legal : (afterAll [.encMtf, .encTrain] baaac).enc.Legal :=
  ⟨by decide +kernel, by decide +kernel, by decide +kernel, by decide +kernel⟩

/-- The block "baaac" coded. -/
def coded : State := afterAll [.encMtf, .encTrain, .encCodes] baaac

theorem coded_inv : coded.Inv := inv_of (by decide +kernel) (by decide +kernel)

theorem coded_legal : coded.enc.Legal :=
  ⟨by decide +kernel, by decide +kernel, by decide +kernel, by decide +kernel⟩

theorem coded_kraft : ∀ t < coded.enc.nGroups.toNat,
    Kraft (coded.enc.lengths t) ∧ ∀ l ∈ coded.enc.lengths t, 1 ≤ l := by decide +kernel

theorem witness_DecodeAndEncodeAgree : ∃ i, decode 0x3901000000000003 = .ok i :=
  ⟨.encBlockHdr 1 3, rfl⟩

theorem witness_StepRunsDecodedCommand :
    (withQueue [.cmd 0x0201000000000000]).held = none ∧
    (withQueue [.cmd 0x0201000000000000]).hostQueue = [.cmd 0x0201000000000000] ∧
    decode 0x0201000000000000 = .ok (.cfg 1) := by decide

theorem witness_ReservedWordsFault :
    (∀ row ∈ opcodeRows, (0x4800000000000000 : Command).extractLsb' 56 8 ≠ row.1) ∧
    (∃ row ∈ opcodeRows, (0x3902000000000000 : Command).extractLsb' 56 8 = row.1 ∧
      (0x3902000000000000 : Command) &&& row.2 ≠ 0) ∧
    ∀ w : Command, (withQueue [.cmd w]).held = none ∧ (withQueue [.cmd w]).hostQueue = [.cmd w] ∧
      (withQueue [.cmd w]).err = 0 :=
  ⟨fun row h => by
      have : (opcodeRows.all fun row =>
        decide ((0x4800000000000000 : Command).extractLsb' 56 8 ≠ row.1)) = true := rfl
      exact of_decide_eq_true (List.all_eq_true.mp this row h),
    ⟨(0x39, 0x00FEFFFFFF000000), List.elem_iff.mp rfl, rfl, by decide⟩, fun _ => ⟨rfl, rfl, rfl⟩⟩

/-- Each clause of the FIFO actions, with full and empty FIFOs and IN open and closed. -/
theorem witness_HostActionsMoveBytes :
    (∀ q, (withQueue q).held = none ∧ (withQueue q).hostQueue = q ∧ (withQueue q).src.closed = false ∧
      (withQueue q).sink.out = [] ∧ (withQueue q).dout = []) ∧
    (let s := { withIn [] with hostQueue := [.pushIn 1] };
      s.held = none ∧ s.src.closed = true ∧ s.hostQueue = [.pushIn 1]) ∧
    (let s := { withQueue [.popOut] with sink := { BitSink.reset with out := [1, 2] } };
      s.held = none ∧ s.sink.out = 1 :: [2]) ∧
    (let s := { withQueue [.popDout] with dout := [3] };
      s.held = none ∧ s.dout = 3 :: []) :=
  ⟨fun _ => ⟨rfl, rfl, rfl, rfl, rfl⟩, by decide, by decide, by decide⟩

/-- Both ends of the map, an unaligned address and the first unused one. -/
theorem witness_ReadReturnsTheRegisterMap :
    ∀ a' ∈ [0x00, 0x88, 0x85, 0x8C], let a := BitVec.ofNat 12 a';
      (withQueue [.read a]).held = none ∧ (withQueue [.read a]).hostQueue = [.read a] := by decide

theorem witness_HeldCommandRetried :
    (∀ q, (holding q).held = some (.srcRead 8) ∧ (holding q).hostQueue = q ∧
      (holding q).src.closed = false ∧ (holding q).sink.out = [] ∧ (holding q).dout = []) ∧
    (let s := { holding [.pushIn 1] with src := { BitSource.reset with closed := true } };
      s.held = some (.srcRead 8) ∧ s.src.closed = true) ∧
    (let s := { holding [.popOut] with sink := { BitSink.reset with out := [1, 2] } };
      s.held = some (.srcRead 8) ∧ s.sink.out = 1 :: [2]) ∧
    (let s := { holding [.popDout] with dout := [3] };
      s.held = some (.srcRead 8) ∧ s.dout = 3 :: []) :=
  ⟨fun _ => ⟨rfl, rfl, rfl, rfl, rfl⟩, by decide, by decide, by decide⟩

theorem witness_HoldHasNoEffect :
    State.reset.held = none ∧
    exec (.srcRead 9) State.reset = .next (after (.srcRead 9) State.reset) ∧
    (after (.srcRead 9) State.reset).held ≠ none := ⟨rfl, exec_after _ _, by decide +kernel⟩

/-- Both directions, the second one with IN closed and open, none of the bytes needed being there. -/
theorem witness_ReadsAreLazy :
    (let s := withIn [0xA5]
      let t := after (.srcRead 8) s
      exec (.srcRead 8) s = .next t ∧ Instr.readsBits (.srcRead 8) = true ∧ s.err = 0 ∧
        s.held = none ∧ t.err = 0 ∧ t.held = none) ∧
    ∀ closed, let s := { State.reset with src := { BitSource.reset with closed := closed } }
      let more := { s with src := { s.src with fifo := s.src.fifo ++ [0xA5] } }
      exec (.srcRead 8) more = .next (after (.srcRead 8) more) ∧ s.err = 0 ∧ s.held = none ∧
        s.src.closed = closed ∧ (after (.srcRead 8) more).err = 0 ∧
        (after (.srcRead 8) more).held = none := by
  refine ⟨⟨exec_after _ _, by decide +kernel⟩, fun closed => ⟨exec_after _ _, ?_⟩⟩
  cases closed <;> decide +kernel

theorem witness_PoisonedBlockIgnoresCommands :
    let s := poisoned [.cmd 0x0100000000000001]
    s.held = none ∧ s.hostQueue = [.cmd 0x0100000000000001] ∧ s.err ≠ 0 ∧
      (0x0100000000000001 : Command) ≠ 0x0100000000000000 := by decide

theorem witness_IrqStaysUntilReset :
    (poisoned [.reset]).Inv ∧ step (poisoned [.reset]) = .next (afterStep (poisoned [.reset])) ∧
      (poisoned [.reset]).irq = true := ⟨poisoned_inv, step_afterStep rfl, by decide⟩

theorem witness_ResetRestoresEveryRegister : (holding [.reset]).hostQueue = [.reset] := rfl

/-- Both ends of the legal range and their neighbours, and a block loaded. -/
theorem witness_NopCountsAndCfgSetsBlockSize :
    State.reset.err = 0 ∧ State.reset.enc.estate = .empty ∧
    (∀ bs' ∈ [1, 9], let bs := BitVec.ofNat 8 bs'; 1 ≤ bs.toNat ∧ bs.toNat ≤ 9) ∧
    (∀ bs' ∈ [0, 10, 255], let bs := BitVec.ofNat 8 bs'; bs.toNat = 0 ∨ 9 < bs.toNat) ∧
    baaac.err = 0 ∧ baaac.enc.estate ≠ .empty := by decide +kernel

theorem witness_SinkWriteAppendsBits :
    let s := sinkLive 0xFE000000 7
    s.err = 0 ∧ s.sink.Tidy ∧ s.sink.done = false ∧
    (∀ n' ∈ [1, 25], let n := BitVec.ofNat 8 n'; 1 ≤ n.toNat ∧ n.toNat ≤ 25) ∧
    ∀ n' ∈ [0, 26], let n := BitVec.ofNat 8 n'; n.toNat = 0 ∨ 25 < n.toNat := by decide +kernel

theorem witness_SinkFlushEmitsWholeBytes :
    let s := sinkLive 0xFFFFFFFF 32
    s.err = 0 ∧ s.sink.Tidy ∧ s.sink.done = false := by decide +kernel

theorem witness_SinkFinishPadsToByte :
    let s := sinkLive 0x80000000 1
    s.err = 0 ∧ s.sink.Tidy ∧ s.sink.done = false := by decide +kernel

theorem witness_SinkStreamIsConcatenation :
    (State.reset.Inv ∧ exec .nop State.reset = .next (after .nop State.reset)) ∧
    (BitSink.reset.acc = 0 ∧ BitSink.reset.live = 0 ∧
      ∀ f ∈ [((1, 1) : BitField), (25, 0)], 1 ≤ f.1 ∧ f.1 ≤ 25) ∧
    (BitSink.reset.Tidy ∧ (∀ x ∈ [((2, 3) : BitField)] ++ [(1, 1), (1, 1)], 1 ≤ x.1 ∧ x.1 ≤ 25) ∧
      fieldBits [(2, 3)] = fieldBits [(1, 1), (1, 1)]) :=
  ⟨⟨reset_inv, exec_after _ _⟩, by decide +kernel, by decide +kernel⟩

theorem witness_StreamResetsDropPendingBits : State.reset.err = 0 := rfl

/-- Seven bits pending and the widest read; a short read, closed and open; widths out of range. -/
theorem witness_SrcReadReturnsNextBits :
    (let s := { withIn [1, 2, 3, 4] with src := { (withIn [1, 2, 3, 4]).src with acc := 0x7F, live := 7 } };
      s.err = 0 ∧ s.src.Tidy ∧ 1 ≤ (32 : BitVec 8).toNat ∧ (32 : BitVec 8).toNat ≤ s.src.bits.length) ∧
    (let s := withIn [];
      s.err = 0 ∧ s.src.Tidy ∧ s.src.bits.length < (1 : BitVec 8).toNat ∧ s.src.closed = true) ∧
    (State.reset.err = 0 ∧ State.reset.src.Tidy ∧ State.reset.src.bits.length < (1 : BitVec 8).toNat ∧
      State.reset.src.closed = false) ∧
    ∀ n' ∈ [0, 33], let n := BitVec.ofNat 8 n'; n.toNat = 0 ∨ 32 < n.toNat := by decide +kernel

theorem witness_SrcReadsSplitFreely :
    let r := (withIn [1, 2]).src
    r.acc = 0 ∧ r.live = 0 ∧ (∀ n ∈ [3, 12], 1 ≤ n ∧ n ≤ 32) ∧ [3, 12].sum ≤ 8 * r.fifo.length ∧
      (∀ n ∈ [15], 1 ≤ n ∧ n ≤ 32) ∧ [15].sum = [3, 12].sum := by decide +kernel

/-- The default polynomial and another one. -/
theorem witness_CrcUpdateIsBitSerial :
    State.reset.err = 0 ∧ { State.reset with crcPoly := 0xEDB88320 }.err = 0 ∧
    step State.reset = .next State.reset := ⟨rfl, rfl, rfl⟩

theorem witness_CrcSeedRunsAndFolds :
    State.reset.err = 0 ∧ ∀ count' ∈ [0, 65534], let count := BitVec.ofNat 16 count'; count.toNat < 65535 := by decide +kernel

/-- A full block of 100000 bytes, in the registers the check reads. -/
def fullBlock : State :=
  { State.reset with blockSize := 1, enc := { State.reset.enc with last := 99999, estate := .loaded } }

theorem fullBlock_inv : fullBlock.Inv := inv_of rfl (by decide +kernel)

theorem witness_BlockLoadAppendsBytes :
    (State.reset.err = 0 ∧ State.reset.Inv ∧ State.reset.enc.estate = .empty ∧
      State.reset.enc.blockLength < 100000 * State.reset.blockSize.toNat) ∧
    (fullBlock.err = 0 ∧ fullBlock.Inv ∧ fullBlock.enc.estate = .loaded ∧
      100000 * fullBlock.blockSize.toNat ≤ fullBlock.enc.blockLength) ∧
    (coded.err = 0 ∧ coded.enc.estate ≠ .empty ∧ coded.enc.estate ≠ .loaded) :=
  ⟨⟨rfl, reset_inv, rfl, by decide⟩, ⟨rfl, fullBlock_inv, rfl, by decide⟩, by decide +kernel⟩

theorem witness_EmptyBlockMakesEncoderIdle :
    State.reset.err = 0 ∧ State.reset.enc.last = 0xFFFFFFFF := ⟨rfl, rfl⟩

theorem witness_EncMtfWritesSymbolStream :
    baaac.err = 0 ∧ baaac.Inv ∧ baaac.enc.Legal ∧ baaac.enc.estate = .loaded :=
  ⟨by decide +kernel, baaac_inv, baaac_legal, by decide +kernel⟩

theorem witness_RunCodeIsBijectiveBaseTwo :
    1 ≤ 1 ∧ ([0] : List Nat) ≠ [] ∧ ∀ d ∈ ([0, 1] : List Nat), d ≤ 1 := by decide

/-- The decoder of rule R89's hypotheses for "baaac": bytes 0x61, 0x62, 0x63 in use. -/
def seqDecoder : Decoder :=
  { State.reset.dec with
    nInUse := 3, seqToUnseq := State.reset.dec.seqToUnseq.writeNats 0 [0x61, 0x62, 0x63] }

theorem witness_ExpansionInvertsMtf :
    (baaac.Inv ∧ baaac.enc.Legal ∧ exec .encMtf baaac = .next (after .encMtf baaac)) ∧
    baaac.err = 0 ∧ baaac.enc.estate = .loaded ∧
    seqDecoder.nInUse = (after .encMtf baaac).enc.nInUse ∧
    (∀ u < 256, baaac.enc.inUse.getLsbD u = true →
      (seqDecoder.seqToUnseq.read (rankOf baaac.enc.inUse u)).toNat = u) ∧
    baaac.enc.blockLength ≤ 5 :=
  ⟨⟨baaac_inv, baaac_legal, exec_after _ _⟩, by decide +kernel⟩

theorem witness_EncTrainChoosesTables :
    ((after .encMtf baaac).Inv ∧ (after .encMtf baaac).enc.Legal) ∧ (after .encMtf baaac).err = 0 ∧
    (after .encMtf baaac).enc.estate = .mtfDone ∧ (after .encMtf baaac).enc.nMtf.toNat < 200 :=
  ⟨⟨mtfDone_inv, mtfDone_legal⟩, by decide +kernel⟩

theorem witness_SeedTablesShareOutTheAlphabet :
    2 ≤ 2 ∧ 6 ≤ 6 ∧ 1 ≤ [0, 1, 2, 1, 1].length ∧ 1 ≤ [0, 1, 2, 1, 1].getLastD 0 := by decide

theorem witness_TrainingPassPicksCheapest : [[1, 2, 2]] ≠ ([] : List (List Nat)) := by decide

theorem witness_TreeDepthsAreFullTree : 2 ≤ [256, 512].length := by decide

theorem witness_MakeLengthsIsFullTree :
    2 ≤ [0, 2 ^ 20 - 1].length ∧ [0, 2 ^ 20 - 1].length ≤ 258 ∧ ∀ f ∈ [0, 2 ^ 20 - 1], f < 2 ^ 20 := by
  decide +kernel

theorem witness_EncCodesAssignsCanonicalCodes :
    let s := afterAll [.encMtf, .encTrain] baaac
    (s.Inv ∧ s.enc.Legal) ∧ s.err = 0 ∧ s.enc.estate = .trained :=
  ⟨⟨trained_inv, trained_legal⟩, by decide +kernel⟩

theorem witness_CanonicalCodesArePrefixFree :
    (∀ l ∈ [2, 2, 2, 3, 3], 1 ≤ l ∧ l ≤ 20) ∧ Kraft [2, 2, 2, 3, 3] := by decide +kernel

theorem witness_EncEmitWritesBlockBody :
    (coded.Inv ∧ coded.enc.Legal) ∧ coded.err = 0 ∧ coded.enc.estate = .coded ∧
      coded.sink.done = false :=
  ⟨⟨coded_inv, coded_legal⟩, by decide +kernel⟩

theorem witness_TableSectionBitPatterns :
    24 ≤ 24 ∧ (∀ l ∈ [1, 20], 1 ≤ l ∧ l ≤ 20) ∧ [1, 20] ≠ [] := by decide

/-- The last position of the block, and the first one outside it. -/
theorem witness_EncHeadersFollowWireFormat :
    baaac.Inv ∧ baaac.err = 0 ∧ baaac.sink.done = false ∧ baaac.enc.last ≠ 0xFFFFFFFF ∧
      (4 : BitVec 24).toNat < baaac.enc.blockLength ∧ baaac.enc.blockLength ≤ (5 : BitVec 24).toNat :=
  ⟨baaac_inv, by decide +kernel⟩

theorem witness_EncTrailerEndsTheStream :
    State.reset.err = 0 ∧ State.reset.sink.Tidy ∧ State.reset.sink.done = false := by decide

theorem witness_DecResetAndBlockEnd :
    let s := inState .endOfBlock State.reset
    s.err = 0 ∧ s.dec.dstate = .endOfBlock ∧ ~~~s.crc = s.dec.storedCrc ∧
      ~~~{ s with crc := 0 }.crc ≠ s.dec.storedCrc := by decide

/-- A decoder state that reads these bits. -/
def reading (d : DState) (bits : List Bool) : State :=
  { inState d State.reset with src := sourceOf bits }

/-- A decoder state with just these bits left, IN closed or open. -/
def cutShort (d : DState) (closed : Bool) (bits : List Bool) : State :=
  { reading d bits with src := { sourceOf bits with closed := closed } }

/-- The digits 1 and 9, the ones just outside, a wrong byte in each of the three places, and headers cut
short with IN closed and open. -/
theorem witness_DecStreamHdrReadsHeader :
    (∀ digit ∈ [0x31, 0x39, 0x30, 0x3A],
      let s := { State.reset with src := sourceOf (natToBits 24 0x425A68 ++ natToBits 8 digit) };
      s.err = 0 ∧ s.dec.dstate = .idle ∧ s.src.Tidy ∧
        s.src.bits = natToBits 24 0x425A68 ++ natToBits 8 digit ++ []) ∧
    (∀ front ∈ [0, 1, 2],
      let s := { State.reset with
        src := sourceOf ((natToBits 24 0x425A68).take (8 * front) ++ natToBits 8 0x43) };
      s.err = 0 ∧ s.dec.dstate = .idle ∧ s.src.Tidy ∧ 0x43 ≠ [0x42, 0x5A, 0x68].getD front 0 ∧
        s.src.bits = (natToBits 24 0x425A68).take (8 * front) ++ natToBits 8 0x43 ++ []) ∧
    ∀ k ∈ [0, 8, 24, 31], ∀ closed,
      let s := cutShort .idle closed ((natToBits 24 0x425A68 ++ natToBits 8 0x31).take k);
      s.err = 0 ∧ s.dec.dstate = .idle ∧ s.src.Tidy ∧ s.src.closed = closed ∧ k < 32 ∧
        s.src.bits = (natToBits 24 0x425A68 ++ natToBits 8 0x31).take k := by
  decide +kernel

theorem witness_DecBlockStartReadsHeader :
    (let s := reading .startBlock
        (natToBits 48 0x314159265359 ++ natToBits 32 5 ++ natToBits 1 1 ++ natToBits 24 7);
      s.err = 0 ∧ s.dec.dstate = .startBlock ∧ s.src.Tidy ∧ s.src.bits = natToBits 48 0x314159265359 ++
        natToBits 32 (5 : Word).toNat ++ natToBits 1 (1 : BitVec 1).toNat ++
        natToBits 24 (7 : BitVec 24).toNat ++ []) ∧
    (let s := reading .startBlock (natToBits 48 0x177245385090 ++ natToBits 32 0);
      s.src.Tidy ∧ s.src.bits = natToBits 48 0x177245385090 ++ natToBits 32 s.combined.toNat ++ []) ∧
    (let s := reading .startBlock (natToBits 48 0x177245385090 ++ natToBits 32 1);
      s.src.Tidy ∧ (1 : Word) ≠ s.combined ∧
        s.src.bits = natToBits 48 0x177245385090 ++ natToBits 32 (1 : Word).toNat ++ []) ∧
    (let s := reading .startBlock (natToBits 48 0x314159265358);
      s.src.Tidy ∧ s.src.bits = natToBits 48 0x314159265358 ++ []) ∧
    ∀ closed, let s := cutShort .startBlock closed;
      (s []).err = 0 ∧ (s []).dec.dstate = .startBlock ∧
      ((s (natToBits 47 0)).src.Tidy ∧ (s (natToBits 47 0)).src.bits.length < 48 ∧
        (s (natToBits 47 0)).src.closed = closed) ∧
      (s (natToBits 48 0x314159265359 ++ natToBits 56 0)).src.Tidy ∧
      (s (natToBits 48 0x314159265359 ++ natToBits 56 0)).src.bits =
        natToBits 48 0x314159265359 ++ natToBits 56 0 ∧ (natToBits 56 0).length < 57 ∧
      (s (natToBits 48 0x177245385090 ++ natToBits 31 0)).src.Tidy ∧
      (s (natToBits 48 0x177245385090 ++ natToBits 31 0)).src.bits =
        natToBits 48 0x177245385090 ++ natToBits 31 0 ∧ (natToBits 31 0).length < 32 := by
  decide +kernel

/-- The table section of the block "a": byte 0x61, two tables, one selector. -/
def sectionOfA : TableSection :=
  { inUse := (List.range 256).map fun u => u == 0x61, nGroups := 2, selectors := [0]
    lens := [[2, 2, 1], [2, 2, 1]] }

theorem sectionOfA_legal : sectionOfA.Legal :=
  ⟨by decide +kernel, by decide +kernel, by decide +kernel, by decide +kernel, by decide +kernel,
    by decide +kernel⟩

theorem witness_DecTablesReadsBack :
    let bits := fieldBits (tableSectionFields sectionOfA.inUseBits 2 [0] [[2, 2, 1], [2, 2, 1]])
    let s := reading .tables bits
    sectionOfA.Legal ∧ s.err = 0 ∧ s.dec.dstate = .tables ∧ s.src.Tidy ∧ s.src.bits = bits ++ [] :=
  ⟨sectionOfA_legal, by decide +kernel⟩

theorem witness_TablesHoldTheSection :
    sectionOfA.Legal ∧ 1 < sectionOfA.nGroups ∧ 2 < (valuesInUse sectionOfA.inUse).length + 2 ∧
    (∀ w < (sectionOfA.lens.getD 1 []).length, 0 < (sectionOfA.lens.getD 1 []).getD w 0) ∧
    (∀ w < (sectionOfA.lens.getD 1 []).length, (sectionOfA.lens.getD 1 []).getD w 0 < 3) ∧
    ∀ l ∈ [1, 2], (∃ u ∈ sectionOfA.lens.getD 1 [], u ≤ l) ∧ ∃ u ∈ sectionOfA.lens.getD 1 [], l ≤ u :=
  ⟨sectionOfA_legal, by decide +kernel⟩

/-- One bad section of each kind: no group in use and a group whose sub-bitmap is 0; 1 and 7 tables; no
selector; a bad selector, first and second; a bad seed in the second table, and steps to 21 and to 0 in
the first, at its first symbol and its last. -/
theorem witness_DecTablesRejectsBadSections :
    let ok : List Bool → Bool := fun bits =>
      let s := reading .tables bits
      decide (s.err = 0 ∧ s.dec.dstate = .tables ∧ s.src.Tidy ∧ s.src.bits = bits)
    let map := natToBits 16 0x8000 ++ natToBits 16 1
    let two := map ++ natToBits 3 2 ++ natToBits 15 1 ++ unaryBits 0
    ([] : List Nat).length = (natToBits 16 0).count true ∧ ok (natToBits 16 0) ∧
      [0].length = (natToBits 16 0x8000).count true ∧
      (([0] : List Nat).flatMap (natToBits 16)).count true = 0 ∧
      ok (natToBits 16 0x8000 ++ natToBits 16 0) ∧
      [1].length = (natToBits 16 0x8000).count true ∧
      (([1] : List Nat).flatMap (natToBits 16)).count true = 1 ∧
      ok (map ++ natToBits 3 1) ∧ ok (map ++ natToBits 3 7) ∧
      ok (map ++ natToBits 3 2 ++ natToBits 15 0) ∧
      ok (map ++ natToBits 3 6 ++ natToBits 15 1 ++ List.replicate 6 true) ∧
      ok (map ++ natToBits 3 6 ++ natToBits 15 2 ++ unaryBits 5 ++ List.replicate 6 true) ∧
      ok (two ++ (natToBits 5 2 ++ [[], [], [false]].flatMap lengthCodeBits) ++ natToBits 5 0) ∧
      steppedLength 0 [] < 1 ∧ 20 < steppedLength 21 [] ∧
      ok (two ++ natToBits 5 20 ++ stepBits [true]) ∧ 20 < steppedLength 20 [true] ∧
      ok (two ++ natToBits 5 2 ++ [[], [false]].flatMap lengthCodeBits ++ stepBits [false]) ∧
      [[], [false]].length < 1 + 2 ∧ steppedLength 2 ([[], [false]].flatten ++ [false]) < 1 := by
  decide +kernel

theorem witness_CanonicalCodeDecodes :
    sectionOfA.Legal ∧ 1 < sectionOfA.nGroups ∧ Kraft (sectionOfA.lens.getD 1 []) ∧
    2 < (valuesInUse sectionOfA.inUse).length + 2 ∧ (sourceOf [false]).Tidy ∧
    (sourceOf [false]).bits = natToBits ((sectionOfA.lens.getD 1 []).getD 2 0)
      ((canonicalCodes (sectionOfA.lens.getD 1 [])).getD 2 0) ++ [] :=
  ⟨sectionOfA_legal, by decide +kernel⟩

/-- The section of V-DEC-4m: the code 111 is unused. -/
def sectionUnused : TableSection := { sectionOfA with lens := [[1, 2, 3], [1, 2, 3]] }

/-- The section of V-DEC-4p: the bytes 0x61 and 0x62 in use. -/
def sectionOfTwo : TableSection :=
  { sectionOfA with
    inUse := (List.range 256).map fun u => u == 0x61 || u == 0x62
    lens := [[2, 2, 2, 2], [2, 2, 2, 2]] }

theorem sections_legal : ∀ x, x = sectionOfA ∨ x = sectionUnused ∨ x = sectionOfTwo →
    x.Legal ∧ ∀ row ∈ x.lens, Kraft row := by
  rintro x (rfl | rfl | rfl)
  · exact ⟨sectionOfA_legal, by decide +kernel⟩
  · exact ⟨⟨by decide +kernel, by decide +kernel, by decide +kernel, by decide +kernel,
      by decide +kernel, by decide +kernel⟩, by decide +kernel⟩
  · exact ⟨⟨by decide +kernel, by decide +kernel, by decide +kernel, by decide +kernel,
      by decide +kernel, by decide +kernel⟩, by decide +kernel⟩

/-- The decoder in `SYMBOLS` after section `x`, with a block size digit and an `origPtr`, reading these
bits, IN closed or open. -/
def symbolsOf (x : TableSection) (bs100k : BitVec 4) (origPtr : BitVec 24) (closed : Bool)
    (bits : List Bool) : State :=
  { State.reset with
    src := { sourceOf bits with closed := closed }
    dec := { State.reset.dec with bs100k := bs100k, origPtr := origPtr }.setTables x }

/-- What the symbols given expand to after section `x`, in a block of at most `nmax` bytes. -/
def expanded (x : TableSection) (nmax : Nat) (syms : List Nat) : Expansion :=
  match expandSymbols (State.reset.dec.setTables x) nmax .start syms with
  | .more y => y
  | .done y => y
  | .fail => .start

/-- Whether the premises common to the clauses, but for those on `x`, hold when `syms` and then `after`
are read, followed by the bits `more`. -/
def premisesHold (x : TableSection) (bs100k : BitVec 4) (origPtr : BitVec 24) (closed : Bool)
    (syms after : List Nat) (more : List Bool) : Bool :=
  let s := symbolsOf x bs100k origPtr closed (bodyBits x.lens x.selectors (syms ++ after) ++ more)
  decide (s.err = 0 ∧ s.src.Tidy ∧ s.src.closed = closed ∧ s.dec.bs100k = bs100k ∧
    s.dec.bs100k.toNat ≤ 9 ∧ s.dec.origPtr = origPtr ∧
    (∀ v ∈ syms, v < (valuesInUse x.inUse).length + 2) ∧
    expandSymbols s.dec (100000 * s.dec.bs100k.toNat) .start syms =
      .more (expanded x (100000 * s.dec.bs100k.toNat) syms) ∧
    s.src.bits = bodyBits x.lens x.selectors (syms ++ after) ++ more)

/-- A block of one byte with `origPtr` 0 and 1; the unused code with 21 and, with IN closed and open, 20
bits; 50 symbols under one selector; 22 digits; and, with no room for a byte, a run and a byte too many. -/
theorem witness_DecSymbolsReadsBody :
    (∀ p ∈ [0, 1], premisesHold sectionOfA 9 (BitVec.ofNat 24 p) false [0] [2] []) ∧
    expandSymbols (symbolsOf sectionOfA 9 0 false []).dec 900000 .start ([0] ++ [2]) =
      .done (expanded sectionOfA 900000 [0, 2]) ∧
    (expanded sectionOfA 900000 [0, 2]).bytes.length = 1 ∧
    (premisesHold sectionUnused 9 0 false [] [] (List.replicate 21 true) ∧
      ∀ closed, premisesHold sectionUnused 9 0 closed [] [] (List.replicate 20 true)) ∧
    (∀ n ∈ [20, 21], ∀ v < 3,
      ¬ natToBits ([1, 2, 3].getD v 0) ((canonicalCodes [1, 2, 3]).getD v 0) <+:
        List.replicate n true) ∧
    premisesHold sectionOfTwo 9 0 false (List.replicate 50 2) [] [] ∧
    premisesHold sectionOfA 9 0 false [] (List.replicate 22 0) [] ∧
    (expanded sectionOfA 900000 []).run = 0 ∧
    premisesHold sectionOfA 0 0 false [0] [2] [] ∧
    0 < (expanded sectionOfA 0 [0]).bytes.length + (expanded sectionOfA 0 [0]).run + 0 ∧
    premisesHold sectionOfTwo 0 0 false [] [2] [] := by
  decide +kernel

theorem witness_EmittedBlockDecodes :
    let s := { reading .tables (fieldBits coded.enc.emitFields) with
      dec := { State.reset.dec with dstate := .tables, bs100k := 1 } }
    (coded.Inv ∧ coded.enc.Legal ∧ ∀ t < coded.enc.nGroups.toNat,
      Kraft (coded.enc.lengths t) ∧ ∀ l ∈ coded.enc.lengths t, 1 ≤ l) ∧
    coded.enc.estate = .coded ∧ s.err = 0 ∧ s.dec.dstate = .tables ∧ s.src.Tidy ∧
    s.dec.bs100k.toNat ≤ 9 ∧ coded.enc.blockLength ≤ 100000 * s.dec.bs100k.toNat ∧
    s.dec.origPtr.toNat < coded.enc.blockLength ∧
    s.src.bits = fieldBits coded.enc.emitFields ++ [] :=
  ⟨⟨coded_inv, coded_legal, coded_kraft⟩, by decide +kernel⟩

theorem cab_legal : cab.dec.Legal :=
  ⟨by decide +kernel, by decide +kernel, by decide +kernel, by decide +kernel⟩

theorem witness_DecIbwtLinksSortedPositions :
    cab.err = 0 ∧ cab.dec.Legal ∧ cab.dec.dstate = .ibwt := ⟨rfl, cab_legal, rfl⟩

/-- "cab" linked, ready to walk. -/
def linked : State := after .decIbwt cab

theorem linked_legal : linked.dec.Legal :=
  ⟨by decide +kernel, by decide +kernel, by decide +kernel, by decide +kernel⟩

/-- A randomised block ready to walk. -/
def randomised : State :=
  { linked with dec := { linked.dec with dstate := .randomizedWalk, rand := 1 } }

theorem randomised_legal : randomised.dec.Legal :=
  ⟨by decide +kernel, by decide +kernel, by decide +kernel, by decide +kernel⟩

/-- A plain and a randomised block; no byte of a short block is flipped, since stretches are 50 long. -/
theorem witness_DecWalkFollowsLinks :
    (linked.dec.Legal ∧ randomised.dec.Legal) ∧
    linked.err = 0 ∧ linked.dec.dstate = .plainWalk ∧ 2 < linked.dec.nBlock.toNat ∧
    randomised.err = 0 ∧ randomised.dec.dstate = .randomizedWalk :=
  ⟨⟨linked_legal, randomised_legal⟩, by decide +kernel⟩

theorem witness_InverseBwtRestoresBlock :
    let block : List Byte := [0x61, 0x62, 0x63]
    SortedRotations block [0, 1, 2] ∧ cab.err = 0 ∧ cab.dec.dstate = .ibwt ∧ cab.dec.rand = 0 ∧
    block ≠ [] ∧ block.length ≤ 900000 ∧ cab.dec.nBlock.toNat = block.length ∧
    cab.dec.origPtr.toNat = [0, 1, 2].idxOf 0 ∧
    (∀ i < block.length, cab.dec.tt.read i = ((lastColumn block [0, 1, 2]).getD i 0).setWidth 32) ∧
    ∀ b < 256, (cab.dec.unzftab.read b).toNat = block.countP fun c => decide (c.toNat = b) :=
  ⟨⟨by decide +kernel, by decide +kernel⟩, by decide +kernel⟩

/-- Each disjunct: the decoder commands at reset or in `EOF`, the encoder commands on a loaded block,
and the writing commands on a finished BitSink. -/
theorem witness_CommandsOutOfStateFault :
    State.reset.err = 0 ∧ (inState .eof State.reset).dec.dstate ≠ .idle ∧
    State.reset.dec.dstate ≠ .startBlock ∧ State.reset.dec.dstate ≠ .tables ∧
    State.reset.dec.dstate ≠ .symbols ∧ State.reset.dec.dstate ≠ .ibwt ∧
    State.reset.dec.dstate ≠ .plainWalk ∧ State.reset.dec.dstate ≠ .randomizedWalk ∧
    State.reset.dec.dstate ≠ .endOfBlock ∧ baaac.err = 0 ∧ baaac.enc.last ≠ 0xFFFFFFFF ∧
    baaac.enc.estate ≠ .mtfDone ∧ baaac.enc.estate ≠ .trained ∧ baaac.enc.estate ≠ .coded ∧
    coded.enc.last ≠ 0xFFFFFFFF ∧ coded.enc.estate ≠ .loaded ∧
    (after .sinkFinish baaac).err = 0 ∧ (after .sinkFinish baaac).sink.done = true ∧
    (after .sinkFinish baaac).enc.last ≠ 0xFFFFFFFF := by decide +kernel

theorem witness_DecoderMovesFollowDiagram :
    exec .decIbwt cab = .next linked ∧ cab.err = 0 ∧ cab.held = none ∧ linked.err = 0 ∧
      linked.held = none := ⟨exec_after _ _, by decide +kernel⟩

/-- A usage error; and one of another class for each command that can raise one. -/
theorem witness_ErrorsLeaveTheRestAlone :
    (∀ i s, exec i s = .next (after i s)) ∧ State.reset.err = 0 ∧
    0x20 ≤ (after (.cfg 0) State.reset).err.toNat ∧
    (let s := withIn []; s.err = 0 ∧ (after (.srcRead 1) s).err ≠ 0 ∧ (after .decStreamHdr s).err ≠ 0 ∧
      (after .decBlockStart (inState .startBlock s)).err ≠ 0 ∧
      (after .decTables (inState .tables s)).err ≠ 0 ∧
      (after .decSymbols (inState .symbols s)).err ≠ 0 ∧
      (after (.srcRead 1) s).err.toNat < 0x20) ∧
    (after .decBlockEnd (inState .endOfBlock { State.reset with crc := 0 })).err = 0x10 :=
  ⟨exec_after, by decide +kernel⟩

/-- A command that completes, one that faults, one that is ignored, one that holds, and `SYS_RESET`. -/
theorem witness_EveryCommandIsCounted :
    (∀ i s, exec i s = .next (after i s)) ∧ State.reset.held = none ∧
    (after .nop State.reset).held = none ∧ (after (.cfg 0) State.reset).held = none ∧
    (after .nop (poisoned [])).held = none ∧ (after (.srcRead 8) State.reset).held ≠ none :=
  ⟨exec_after, by decide +kernel⟩

theorem witness_MemoriesStayCanonical :
    State.reset.MemoriesCanonical ∧ step State.reset = .next State.reset := ⟨reset_inv.memories, rfl⟩

/-- "baaac" loaded, with `ENC_MTF` as the host's next action. -/
def baaacThenMtf : State := issueNext 0x3200000000000000 baaac

theorem baaacThenMtf_step : step baaacThenMtf = .next (afterStep baaacThenMtf) :=
  step_issueNext (i := .encMtf) rfl baaac

theorem baaacThenMtf_inv : baaacThenMtf.Inv := inv_of rfl (by decide +kernel)

theorem witness_InvKeptByEveryStep :
    baaacThenMtf.Inv ∧ step baaacThenMtf = .next (afterStep baaacThenMtf) :=
  ⟨baaacThenMtf_inv, baaacThenMtf_step⟩

theorem witness_EncoderLegalKeptByEveryStep :
    baaacThenMtf.Inv ∧ baaacThenMtf.enc.Legal ∧ step baaacThenMtf = .next (afterStep baaacThenMtf) :=
  ⟨baaacThenMtf_inv, baaac_legal, baaacThenMtf_step⟩

theorem cabThenIbwt_inv : (issueNext 0x4500000000000000 cab).Inv := inv_of rfl (by decide +kernel)

theorem witness_DecoderLegalKeptByEveryStep :
    (issueNext 0x4500000000000000 cab).Inv ∧ (issueNext 0x4500000000000000 cab).DecoderLegal ∧
      step (issueNext 0x4500000000000000 cab) =
        .next (afterStep (issueNext 0x4500000000000000 cab)) :=
  ⟨cabThenIbwt_inv, fun _ => cab_legal, step_issueNext (i := .decIbwt) rfl cab⟩

end Sys2Proof.Tests
end

section
/-! PROOF. The inverse Burrows-Wheeler transform (00_scope.md rule R13, 47_bwt_inverse.md rules R116
to R118), part 1: counting positions, and where a stable sort of the last column puts them. -/

namespace Sys2Proof.Machine

/-! ## Counting the positions below a bound -/

theorem countBelow_succ (n : Nat) (p : Nat → Bool) :
    countBelow (n + 1) p = countBelow n p + if p n then 1 else 0 := by
  simp [countBelow, List.range_succ, List.countP_append, List.countP_singleton]

theorem countBelow_congr {n : Nat} {p q : Nat → Bool} (h : ∀ i < n, p i = q i) :
    countBelow n p = countBelow n q :=
  List.countP_congr fun i hi => by rw [h i (List.mem_range.mp hi)]

/-- A position that is counted is counted from the next bound on. -/
theorem countBelow_lt {m n : Nat} {p : Nat → Bool} (hp : p m = true) (hmn : m < n) :
    countBelow m p < countBelow n p := by
  induction n with
  | zero => omega
  | succ n ih =>
    rw [countBelow_succ]
    by_cases hm : m = n
    · subst hm; simp [hp]
    · have := ih (by omega); omega

/-- What two properties that exclude each other count, a weaker one counts at least. -/
theorem countBelow_add_le (n : Nat) {p q r : Nat → Bool} (hpr : ∀ i, p i = true → r i = true)
    (hqr : ∀ i, q i = true → r i = true) (hpq : ∀ i, p i = true → q i = false) :
    countBelow n p + countBelow n q ≤ countBelow n r := by
  induction n with
  | zero => simp [countBelow]
  | succ n ih =>
    simp only [countBelow_succ]
    by_cases hp : p n = true
    · simp only [hp, hpr n hp, hpq n hp, if_true, Bool.false_eq_true, if_false]
      omega
    · by_cases hq : q n = true
      · simp only [hp, hq, hqr n hq, if_true, Bool.false_eq_true, if_false]
        omega
      · simp only [hp, hq, Bool.false_eq_true, if_false]
        omega

/-- The bytes below `v + 1` are those below `v` and those equal to `v`. -/
theorem countBelow_lt_succ (n : Nat) (f : Nat → Nat) (v : Nat) :
    countBelow n (fun i => decide (f i < v + 1)) =
      countBelow n (fun i => decide (f i < v)) + countBelow n (fun i => decide (f i = v)) := by
  induction n with
  | zero => rfl
  | succ n ih =>
    simp only [countBelow_succ, ih, decide_eq_true_eq]
    split <;> split <;> split <;> omega

/-! ## Stable sorting by bytes -/

/-- Where a stable sort of `b 0, …, b (n - 1)` puts position `i`: behind the smaller bytes and the
equal bytes before it (rule R116). -/
def sortedPos (n : Nat) (b : Nat → Byte) (i : Nat) : Nat :=
  countBelow n (fun j => decide ((b j).toNat < (b i).toNat)) +
    countBelow i fun j => decide (b j = b i)

variable {n i j : Nat} {b : Nat → Byte}

/-- A position is put before as many positions as have any property that the bytes up to its own
have. -/
theorem sortedPos_lt_countBelow {r : Nat → Bool} (hi : i < n)
    (hr : ∀ k, (b k).toNat ≤ (b i).toNat → r k = true) : sortedPos n b i < countBelow n r := by
  have equals : countBelow i (fun k => decide (b k = b i)) <
      countBelow n fun k => decide (b k = b i) := countBelow_lt (by simp) hi
  have split : countBelow n (fun k => decide ((b k).toNat < (b i).toNat)) +
      countBelow n (fun k => decide (b k = b i)) ≤ countBelow n r := by
    refine countBelow_add_le n (fun k hk => hr k ?_) (fun k hk => hr k ?_) fun k hk => ?_ <;>
      simp only [decide_eq_true_eq] at hk
    · exact hk.le
    · rw [hk]
    · exact decide_eq_false fun e => by simp [e] at hk
  unfold sortedPos
  omega

theorem sortedPos_lt_of_byte_lt (hi : i < n) (h : (b i).toNat < (b j).toNat) :
    sortedPos n b i < sortedPos n b j :=
  calc sortedPos n b i < countBelow n fun k => decide ((b k).toNat < (b j).toNat) :=
        sortedPos_lt_countBelow hi fun _ hk => decide_eq_true (hk.trans_lt h)
    _ ≤ sortedPos n b j := Nat.le_add_right _ _

theorem sortedPos_lt_of_byte_eq (h : b i = b j) (hij : i < j) :
    sortedPos n b i < sortedPos n b j := by
  have equals : countBelow i (fun k => decide (b k = b j)) <
      countBelow j fun k => decide (b k = b j) := countBelow_lt (by simp [h]) hij
  unfold sortedPos
  rw [h]
  omega

theorem sortedPos_lt (hi : i < n) : sortedPos n b i < n :=
  calc sortedPos n b i < countBelow n fun _ => true := sortedPos_lt_countBelow hi fun _ _ => rfl
    _ = n := by simp [countBelow]

/-- Positions are sorted by byte and, for equal bytes, by place. -/
theorem byte_le_of_sortedPos_lt (hj : j < n) (h : sortedPos n b i < sortedPos n b j) :
    (b i).toNat < (b j).toNat ∨ b i = b j ∧ i < j := by
  rcases lt_trichotomy (b i).toNat (b j).toNat with hlt | heq | hgt
  · exact .inl hlt
  · have hb : b i = b j := BitVec.eq_of_toNat_eq heq
    rcases lt_trichotomy i j with hij | rfl | hji
    · exact .inr ⟨hb, hij⟩
    · exact absurd h (lt_irrefl _)
    · exact absurd h (sortedPos_lt_of_byte_eq hb.symm hji).asymm
  · exact absurd h (sortedPos_lt_of_byte_lt hj hgt).asymm

theorem sortedPos_ne (hj : j < n) (hij : i < j) : sortedPos n b i ≠ sortedPos n b j := by
  rcases lt_trichotomy (b i).toNat (b j).toNat with hlt | heq | hgt
  · exact (sortedPos_lt_of_byte_lt (hij.trans hj) hlt).ne
  · exact (sortedPos_lt_of_byte_eq (BitVec.eq_of_toNat_eq heq) hij).ne
  · exact (sortedPos_lt_of_byte_lt hj hgt).ne'

/-- The sorted positions are the positions, each once. -/
theorem map_sortedPos_perm (n : Nat) (b : Nat → Byte) :
    ((List.range n).map (sortedPos n b)).Perm (List.range n) := by
  have nodup : ((List.range n).map (sortedPos n b)).Nodup :=
    List.pairwise_map.mpr <| List.pairwise_lt_range.imp_of_mem fun _ hj hij =>
      sortedPos_ne (List.mem_range.mp hj) hij
  have subset : (List.range n).map (sortedPos n b) ⊆ List.range n := by
    intro p hp
    obtain ⟨i, hi, rfl⟩ := List.mem_map.mp hp
    exact List.mem_range.mpr (sortedPos_lt (List.mem_range.mp hi))
  exact (List.subperm_of_subset nodup subset).perm_of_length_le (by simp)

theorem exists_sortedPos_eq {p : Nat} (hp : p < n) : ∃ i < n, sortedPos n b i = p := by
  simpa using (map_sortedPos_perm n b).mem_iff.mpr (List.mem_range.mpr hp)

/-- A link from each sorted position to its position stays below the bound. -/
theorem link_lt {link : Nat → Nat} (hlink : ∀ i < n, link (sortedPos n b i) = i) {p : Nat}
    (hp : p < n) : link p < n := by
  obtain ⟨i, hi, rfl⟩ := exists_sortedPos_eq (b := b) hp
  rwa [hlink i hi]

/-- Keys ordered as the stable sort orders their bytes, listed along the links, are the sorted list
of the same elements. -/
theorem sorted_keys_eq {α : Type} [LinearOrder α] {key row : Nat → α} {link : Nat → Nat}
    (hlink : ∀ i < n, link (sortedPos n b i) = i)
    (hkey : ∀ i < n, ∀ j < n, (b i).toNat < (b j).toNat ∨ b i = b j ∧ i < j → key i ≤ key j)
    (hrow : ((List.range n).map row).Pairwise (· ≤ ·))
    (hperm : ((List.range n).map key).Perm ((List.range n).map row)) :
    ∀ p < n, key (link p) = row p := by
  have sorted : ((List.range n).map (key ∘ link)).Pairwise (· ≤ ·) := by
    refine List.pairwise_map.mpr (List.pairwise_lt_range.imp_of_mem fun hp hq hpq => ?_)
    obtain ⟨i, hi, rfl⟩ := exists_sortedPos_eq (b := b) (List.mem_range.mp hp)
    obtain ⟨j, hj, rfl⟩ := exists_sortedPos_eq (b := b) (List.mem_range.mp hq)
    simpa [hlink i hi, hlink j hj] using hkey i hi j hj (byte_le_of_sortedPos_lt hj hpq)
  have links : ((List.range n).map (sortedPos n b)).map (key ∘ link) = (List.range n).map key := by
    rw [List.map_map]
    exact List.map_congr_left fun i hi => by simp [hlink i (List.mem_range.mp hi)]
  have perm : ((List.range n).map (key ∘ link)).Perm ((List.range n).map row) :=
    (((map_sortedPos_perm n b).map _).symm.trans (.of_eq links)).trans hperm
  have eq : (List.range n).map (key ∘ link) = (List.range n).map row :=
    perm.eq_of_pairwise' sorted hrow
  exact fun p hp => List.map_inj_left.mp eq p (List.mem_range.mpr hp)

end Sys2Proof.Machine
end

section
/-! PROOF. The inverse Burrows-Wheeler transform, part 2: `DEC_IBWT` links each sorted position to
its position in the last column (rule R116), and `DEC_WALK` follows the links (rules R117 and
R118). -/

namespace Sys2Proof.Machine

/-! ## The table of sums (rule R116) -/

theorem cumulate_length (acc : Nat) (xs : List Nat) : (cumulate acc xs).length = xs.length := by
  induction xs generalizing acc with
  | nil => rfl
  | cons x xs ih => simp [cumulate, ih]

theorem cumulate_getD (acc : Nat) (xs : List Nat) (k : Nat) (h : k < xs.length) :
    (cumulate acc xs).getD k 0 = acc + (xs.take k).sum := by
  induction xs generalizing acc k with
  | nil => simp at h
  | cons x xs ih =>
    cases k with
    | zero => simp [cumulate]
    | succ k =>
      have := ih (acc + x) k (by simpa using h)
      simp only [cumulate, List.getD_cons_succ, this, List.take_succ_cons, List.sum_cons]
      omega

/-- The counts of the values below `k` add up to the number of positions with a value below `k`. -/
theorem sum_counts_eq_countBelow (n : Nat) (f : Nat → Nat) (k : Nat) :
    ((List.range k).map fun v => countBelow n fun i => decide (f i = v)).sum =
      countBelow n fun i => decide (f i < k) := by
  induction k with
  | zero => simp [countBelow]
  | succ k ih =>
    rw [List.range_succ, List.map_append, List.sum_append, ih, countBelow_lt_succ]
    simp

/-- A block of bytes without links, with its byte counts, as `DEC_SYMBOLS` leaves it (rules R114 and
R115). -/
structure Decoder.Unlinked (d : Decoder) : Prop where
  noLinks : ∀ i < d.nBlock.toNat, d.ttLink i = 0
  counts : ∀ b < 256, (d.unzftab.read b).toNat =
    countBelow d.nBlock.toNat fun i => decide ((d.ttByte i).toNat = b)

/-- The table of sums holds where the first of each byte goes. -/
theorem Decoder.Unlinked.cftab {d : Decoder} (h : d.Unlinked) (c : Byte) :
    (cumulate 0 (d.unzftab.readNats 0 256)).getD c.toNat 0 =
      countBelow d.nBlock.toNat fun j => decide ((d.ttByte j).toNat < c.toNat) := by
  have counts : (d.unzftab.readNats 0 256).take c.toNat =
      (List.range c.toNat).map fun v =>
        countBelow d.nBlock.toNat fun i => decide ((d.ttByte i).toNat = v) := by
    rw [Mem.readNats, Mem.readRange, List.map_map, ← List.map_take, List.take_range,
      Nat.min_eq_left (by omega)]
    refine List.map_congr_left fun v hv => ?_
    simpa using h.counts v (by have := List.mem_range.mp hv; omega)
  rw [cumulate_getD _ _ _ (by simpa using c.isLt), counts, sum_counts_eq_countBelow, Nat.zero_add]

/-! ## One link word -/

theorem or_shiftLeft_byte (x v : BitVec 32) : (x ||| v <<< 8).setWidth 8 = x.setWidth 8 := by
  ext k hk
  simp

theorem or_shiftLeft_link (x : BitVec 32) (hx : x.toNat / 256 = 0) (i : Nat) (hi : i < 2 ^ 24) :
    (x ||| BitVec.ofNat 32 i <<< 8).toNat / 256 = i := by
  have link : (BitVec.ofNat 32 i <<< 8).toNat / 256 = i := by
    rw [BitVec.toNat_shiftLeft, BitVec.toNat_ofNat, Nat.shiftLeft_eq]
    omega
  rw [show 256 = 2 ^ 8 from rfl, ← Nat.shiftRight_eq_div_pow] at hx link ⊢
  rw [BitVec.toNat_or, Nat.shiftRight_or_distrib, hx, link, Nat.zero_or]

/-- A byte written to `TT` without a link is the byte read there, and the link is 0. -/
theorem Decoder.ttByte_of_read {d : Decoder} {a : Nat} {c : Byte}
    (h : d.tt.read a = c.setWidth 32) : d.ttByte a = c := by
  rw [Decoder.ttByte, h, BitVec.setWidth_setWidth_of_le _ (by omega), BitVec.setWidth_eq]

theorem Decoder.ttLink_of_read {d : Decoder} {a : Nat} {c : Byte}
    (h : d.tt.read a = c.setWidth 32) : d.ttLink a = 0 := by
  rw [Decoder.ttLink, h, BitVec.toNat_setWidth]
  omega

/-- The word the walk reads, without its byte, is the link. -/
theorem Decoder.toNat_link (d : Decoder) (p : Nat) (h : d.ttLink p < 2 ^ 20) :
    ((d.tt.read p >>> 8).setWidth 20).toNat = d.ttLink p := by
  rw [Decoder.ttLink] at h ⊢
  simpa [Nat.shiftRight_eq_div_pow] using h

/-! ## The link loop (rule R116) -/

/-- What the link loop has made of `TT` before position `i`: the links of the positions before `i`
are set, and the table of sums holds where the next of each byte goes. -/
structure Decoder.LinkedTo (d : Decoder) (i : Nat) (cftab : List Nat) (tt : Mem 32) : Prop where
  size : cftab.length = 256
  next : ∀ c : Byte, cftab.getD c.toNat 0 =
    countBelow d.nBlock.toNat (fun j => decide ((d.ttByte j).toNat < c.toNat)) +
      countBelow i fun j => decide (d.ttByte j = c)
  linked : ∀ j < i, tt.read (sortedPos d.nBlock.toNat d.ttByte j) =
    d.tt.read (sortedPos d.nBlock.toNat d.ttByte j) ||| BitVec.ofNat 32 j <<< 8
  kept : ∀ a, (∀ j < i, sortedPos d.nBlock.toNat d.ttByte j ≠ a) → tt.read a = d.tt.read a

theorem Decoder.Unlinked.linkedTo {d : Decoder} (h : d.Unlinked) :
    d.LinkedTo 0 (cumulate 0 (d.unzftab.readNats 0 256)) d.tt where
  size := by simp [cumulate_length]
  next c := by rw [h.cftab c]; rfl
  linked j hj := absurd hj (Nat.not_lt_zero j)
  kept _ _ := rfl

/-- The link loop never changes a byte. -/
theorem Decoder.LinkedTo.byte {d : Decoder} {i : Nat} {cftab : List Nat} {tt : Mem 32}
    (h : d.LinkedTo i cftab tt) (a : Nat) : (tt.read a).setWidth 8 = d.ttByte a := by
  by_cases ha : ∃ j < i, sortedPos d.nBlock.toNat d.ttByte j = a
  · obtain ⟨j, hj, rfl⟩ := ha
    rw [h.linked j hj, or_shiftLeft_byte, Decoder.ttByte]
  · rw [h.kept a (by simpa using ha), Decoder.ttByte]

/-- One round of the link loop. -/
theorem Decoder.LinkedTo.step {d : Decoder} {i : Nat} {cftab : List Nat} {tt : Mem 32}
    (h : d.LinkedTo i cftab tt) (hi : i < d.nBlock.toNat) :
    let uc := (tt.read i).toNat % 256
    let p := cftab.getD uc 0
    d.LinkedTo (i + 1) (cftab.set uc (p + 1))
      (tt.write p (tt.read p ||| BitVec.ofNat 32 i <<< 8)) := by
  have huc : (tt.read i).toNat % 256 = (d.ttByte i).toNat := by
    rw [← h.byte i, BitVec.toNat_setWidth]
  have hp : cftab.getD (d.ttByte i).toNat 0 = sortedPos d.nBlock.toNat d.ttByte i := h.next _
  have hne : ∀ j < i, sortedPos d.nBlock.toNat d.ttByte i ≠ sortedPos d.nBlock.toNat d.ttByte j :=
    fun j hj => (sortedPos_ne hi hj).symm
  intro uc p
  simp only [uc, p, huc, hp]
  refine ⟨by simp [h.size], fun c => ?_, fun j hj => ?_, fun a ha => ?_⟩
  · have hc := h.next c
    by_cases e : d.ttByte i = c
    · have hlen : c.toNat < cftab.length := h.size ▸ c.isLt
      simp only [← hp, e, countBelow_succ]
      simp [List.getD_eq_getElem?_getD, hlen] at hc ⊢
      omega
    · have hne' : (d.ttByte i).toNat ≠ c.toNat := fun e' => e (BitVec.eq_of_toNat_eq e')
      simp only [countBelow_succ, e]
      simp [List.getD_eq_getElem?_getD, hne'] at hc ⊢
      omega
  · rcases Nat.lt_succ_iff_lt_or_eq.mp hj with hj | rfl
    · rw [Mem.read_write, if_neg (hne j hj), h.linked j hj]
    · rw [Mem.read_write, if_pos rfl, h.kept _ fun j hj => (hne j hj).symm]
  · rw [Mem.read_write, if_neg (ha i (by omega)), h.kept a fun j hj => ha j (by omega)]

theorem Decoder.LinkedTo.linkLoop {d : Decoder} {i n : Nat} {cftab : List Nat} {tt : Mem 32}
    (h : d.LinkedTo i cftab tt) (hn : i + n = d.nBlock.toNat) :
    ∃ cftab', d.LinkedTo d.nBlock.toNat cftab' (linkLoop n i cftab tt) := by
  induction n generalizing i cftab tt with
  | zero => exact ⟨cftab, by simpa [← hn, Machine.linkLoop] using h⟩
  | succ n ih => exact ih (h.step (by omega)) (by omega)

/-- `TT` after `DEC_IBWT`. -/
def Decoder.linkedTt (d : Decoder) : Mem 32 :=
  linkLoop d.nBlock.toNat 0 (cumulate 0 (d.unzftab.readNats 0 256)) d.tt

/-- Each sorted position links to the position of its byte in the last column. -/
theorem Decoder.Unlinked.linkedTt_link {d : Decoder} (h : d.Unlinked) (i : Nat)
    (hi : i < d.nBlock.toNat) :
    (d.linkedTt.read (sortedPos d.nBlock.toNat d.ttByte i)).toNat / 256 = i := by
  obtain ⟨_, hl⟩ := h.linkedTo.linkLoop (Nat.zero_add _)
  rw [Decoder.linkedTt, hl.linked i hi]
  exact or_shiftLeft_link _ (h.noLinks _ (sortedPos_lt hi)) i (by omega)

/-- Linking keeps the bytes. -/
theorem Decoder.Unlinked.linkedTt_byte {d : Decoder} (h : d.Unlinked) (a : Nat) :
    (d.linkedTt.read a).setWidth 8 = d.ttByte a := by
  obtain ⟨_, hl⟩ := h.linkedTo.linkLoop (Nat.zero_add _)
  exact hl.byte a

/-- The decoder after `DEC_IBWT` (rule R116). -/
def Decoder.linkBlock (d : Decoder) : Decoder :=
  { d with
    tt := d.linkedTt
    tPos := ((d.linkedTt.read d.origPtr.toNat) >>> 8).setWidth 20
    dstate := if d.rand = 1 then .randomizedWalk else .plainWalk }

theorem exec_decIbwt {s : State} (herr : s.err = 0) (hd : s.dec.dstate = .ibwt) :
    exec .decIbwt s = .next { s with dec := s.dec.linkBlock }.countCommand := by
  rw [exec_eq_runCommand (by simp)]
  exact runCommand_done herr (inDState_here hd)

theorem Decoder.Unlinked.linkBlock_link {d : Decoder} (h : d.Unlinked) (i : Nat)
    (hi : i < d.nBlock.toNat) : d.linkBlock.ttLink (sortedPos d.nBlock.toNat d.ttByte i) = i :=
  h.linkedTt_link i hi

theorem Decoder.Unlinked.linkBlock_byte {d : Decoder} (h : d.Unlinked) :
    d.linkBlock.ttByte = d.ttByte := funext h.linkedTt_byte

/-- The walk starts at the link of the row `D_ORIGPTR`. -/
theorem Decoder.Unlinked.linkBlock_tPos {d : Decoder} (h : d.Unlinked)
    (hp : d.origPtr.toNat < d.nBlock.toNat) :
    d.linkBlock.tPos.toNat = d.linkBlock.ttLink d.origPtr.toNat :=
  d.linkBlock.toNat_link _ ((link_lt h.linkBlock_link hp).trans d.nBlock.isLt)

/-! ## The walk (rules R117 and R118) -/

/-- A plain walk lists the bytes at the positions it passes. -/
theorem walk_plain {d : Decoder} (hlink : ∀ p < d.nBlock.toNat, d.ttLink p < d.nBlock.toNat)
    (rnums : Nat → Nat) (n : Nat) (pos : BitVec 20) (hpos : pos.toNat < d.nBlock.toNat)
    (c : RandPos) :
    (walk rnums false d.tt n pos c).2 =
      (List.range n).map fun k => d.ttByte (d.walkPos pos.toNat k) := by
  induction n generalizing pos c with
  | zero => rfl
  | succ n ih =>
    have next := d.toNat_link pos.toNat ((hlink _ hpos).trans d.nBlock.isLt)
    rw [walk, List.range_succ_eq_map, List.map_cons, List.map_map]
    simp only [Bool.false_and, Bool.false_eq_true, if_false]
    rw [ih _ (by rw [next]; exact hlink _ hpos), next]
    rfl

theorem exec_decWalk_plain {s : State} (herr : s.err = 0) (hd : s.dec.dstate = .plainWalk)
    (hlink : ∀ p < s.dec.nBlock.toNat, s.dec.ttLink p < s.dec.nBlock.toNat)
    (hpos : s.dec.tPos.toNat < s.dec.nBlock.toNat) :
    ∃ u, exec .decWalk s = .next u ∧ u.err = 0 ∧ u.dec.dstate = .endOfBlock ∧
      u.dout = s.dout ++ (List.range s.dec.nBlock.toNat).map fun k =>
        s.dec.ttByte (s.dec.walkPos s.dec.tPos.toNat k) := by
  have body : walkBlock Config.rnums s = .done _ := if_neg (by simp [hd])
  refine ⟨_, (exec_eq_runCommand (by simp) s).trans (runCommand_done herr body), herr, rfl, ?_⟩
  simp only [hd, countCommand_dout, decide_false, reduceCtorEq]
  rw [walk_plain hlink _ _ _ hpos]

end Sys2Proof.Machine
end

section
/-! PROOF. The inverse Burrows-Wheeler transform, part 3: the sorted rotations, and O52. -/

namespace Sys2Proof.Machine

/-! ## Rotations (00_scope.md rule R13) -/

theorem rotation_eq_rotate {block : List Byte} {i : Nat} (h : i ≤ block.length) :
    rotation block i = (block.rotate i).map BitVec.toNat := by
  rw [rotation, List.rotate_eq_drop_append_take h]

theorem rotation_length (block : List Byte) (i : Nat) :
    (rotation block i).length = block.length := by
  rw [rotation, List.length_map, List.length_append, List.length_drop, List.length_take]
  omega

/-- Turning a block back by one is rotating it by one less, so turning that on gives the block. -/
theorem rotate_pred_mod {α : Type} (l : List α) (hl : l ≠ []) (i : Nat) :
    (l.rotate ((i + l.length - 1) % l.length)).rotate 1 = l.rotate i := by
  have : 0 < l.length := List.length_pos_iff.mpr hl
  rw [List.rotate_mod, List.rotate_rotate, show i + l.length - 1 + 1 = l.length + i by omega,
    ← List.rotate_rotate, List.rotate_length]

/-- The rotation that starts one place earlier takes the last element to the front. -/
theorem exists_rotation_snoc {block : List Byte} (hb : block ≠ []) {i : Nat}
    (hi : i < block.length) :
    let k := (i + block.length - 1) % block.length
    ∃ u : List Nat, rotation block k = (block.getD k 0).toNat :: u ∧
      rotation block i = u ++ [(block.getD k 0).toNat] := by
  intro k
  have hk : k < block.length := Nat.mod_lt _ (by omega)
  refine ⟨(block.drop (k + 1) ++ block.take k).map BitVec.toNat, ?_, ?_⟩
  · rw [rotation, List.drop_eq_getElem_cons hk, List.getD_eq_getElem _ _ hk]
    rfl
  · rw [rotation_eq_rotate hi.le, ← rotate_pred_mod block hb i,
      List.rotate_eq_drop_append_take hk.le, List.drop_eq_getElem_cons hk,
      List.getD_eq_getElem _ _ hk, List.cons_append, List.rotate_cons_succ, List.rotate_zero,
      List.map_append]
    rfl

/-- The starts of the rotations turned back by one are the positions too. -/
theorem rotation_starts_perm (block : List Byte) :
    ((List.range block.length).map fun i => (i + block.length - 1) % block.length).Perm
      (List.range block.length) := by
  have : ((List.range block.length).map fun i => (i + block.length - 1) % block.length) =
      (List.range block.length).rotate (block.length - 1) := by
    refine List.ext_getElem (by simp) fun i hi _ => ?_
    have : 0 < block.length := by simp at hi; omega
    simp [List.getElem_rotate, Nat.add_sub_assoc this]
  exact this ▸ List.rotate_perm _ _

/-- What follows two lists of one length does not change their order. -/
theorem append_lt_append {u v : List Nat} (hlen : u.length = v.length) (h : u < v)
    (x y : List Nat) : u ++ x < v ++ y := by
  induction u generalizing v with
  | nil => simp [List.length_eq_zero_iff.mp hlen.symm] at h
  | cons a u ih =>
    cases v with
    | nil => simp at hlen
    | cons c v =>
      simp only [List.cons_append, List.cons_lt_cons_iff] at h ⊢
      exact h.imp_right fun ⟨e, h⟩ => ⟨e, ih (by simpa using hlen) h⟩

/-! ## The rows of the sorted rotations -/

/-- Row `p` of the sorted rotations. -/
def sortedRow (block : List Byte) (order : List Nat) (p : Nat) : List Nat :=
  rotation block (order.getD p 0)

/-- Row `p` with its last byte taken to the front. -/
def turnedRow (block : List Byte) (order : List Nat) (p : Nat) : List Nat :=
  rotation block ((order.getD p 0 + block.length - 1) % block.length)

/-- The byte of row `p` in the last column. -/
def lastByte (block : List Byte) (order : List Nat) (p : Nat) : Byte :=
  (lastColumn block order).getD p 0

/-- The decoder holds the last column, linked: what `DEC_IBWT` makes of it. -/
structure Decoder.WalksColumn (d : Decoder) (block : List Byte) (order : List Nat) : Prop where
  size : d.nBlock.toNat = block.length
  byte : ∀ i < block.length, d.ttByte i = lastByte block order i
  link : ∀ i < block.length, d.ttLink (sortedPos block.length d.ttByte i) = i

theorem Decoder.WalksColumn.link_lt {d : Decoder} {block : List Byte} {order : List Nat}
    (h : d.WalksColumn block order) {p : Nat} (hp : p < block.length) :
    d.ttLink p < block.length := Machine.link_lt h.link hp

namespace SortedRotations

variable {block : List Byte} {order : List Nat} (h : SortedRotations block order)
include h

theorem order_length : order.length = block.length := by simpa using h.all.length_eq

theorem map_order {α : Type} (f : Nat → α) :
    ((List.range block.length).map fun p => f (order.getD p 0)) = order.map f := by
  refine List.ext_getElem (by simp [h.order_length]) fun p _ hp => ?_
  have hp' : p < order.length := by simpa using hp
  simp [hp']

theorem start_lt {p : Nat} (hp : p < block.length) : order.getD p 0 < block.length := by
  have hp' : p < order.length := h.order_length ▸ hp
  rw [List.getD_eq_getElem _ _ hp']
  exact List.mem_range.mp (h.all.mem_iff.mp (List.getElem_mem hp'))

theorem lastByte_eq {p : Nat} (hp : p < block.length) : lastByte block order p =
    block.getD ((order.getD p 0 + block.length - 1) % block.length) 0 := by
  have hp' : p < order.length := h.order_length ▸ hp
  simp [lastByte, lastColumn, hp']

theorem map_lastByte :
    (List.range block.length).map (lastByte block order) = lastColumn block order :=
  List.ext_getElem (by simp [lastColumn, h.order_length]) fun i _ hi => by simp [lastByte, hi]

/-- The last column has the bytes of the block. -/
theorem lastColumn_perm : (lastColumn block order).Perm block := by
  have bytes : (List.range block.length).map (fun i => block.getD i 0) = block := by
    refine List.ext_getElem (by simp) fun i _ hi => ?_
    simp [hi]
  have starts :=
    (h.all.map fun i => (i + block.length - 1) % block.length).trans (rotation_starts_perm block)
  have column := starts.map fun i => block.getD i 0
  rwa [bytes, List.map_map] at column

/-- The turned rows are the rows in another order. -/
theorem turnedRow_perm : ((List.range block.length).map (turnedRow block order)).Perm
    ((List.range block.length).map (sortedRow block order)) := by
  have turned : (List.range block.length).map (turnedRow block order) =
      (order.map fun i => (i + block.length - 1) % block.length).map (rotation block) := by
    rw [List.map_map]
    exact h.map_order fun i => rotation block ((i + block.length - 1) % block.length)
  have rows : (List.range block.length).map (sortedRow block order) = order.map (rotation block) :=
    h.map_order (rotation block)
  rw [turned, rows]
  exact (((h.all.map _).trans (rotation_starts_perm block)).trans h.all.symm).map _

/-- Rows are sorted. The `≤` of `SortedRotations` is the one its file sees, core's or Mathlib's; the
proof goes through `<`, which is the same for both. -/
theorem sortedRow_le {p q : Nat} (hq : q < block.length) (hpq : p < q) :
    sortedRow block order p ≤ sortedRow block order q := by
  have hq' : q < order.length := h.order_length ▸ hq
  have hle := List.pairwise_iff_getElem.mp h.sorted p q (hpq.trans hq') hq' hpq
  refine not_lt.mp fun hlt => absurd hle ?_
  simpa [sortedRow, hq', hpq.trans hq'] using hlt

theorem sortedRow_sorted :
    ((List.range block.length).map (sortedRow block order)).Pairwise (· ≤ ·) :=
  List.pairwise_map.mpr <| List.pairwise_lt_range.imp_of_mem fun _ hq hpq =>
    h.sortedRow_le (List.mem_range.mp hq) hpq

/-- A row is its turned row with the first byte, that of the last column, at the end. -/
theorem exists_row_eq {p : Nat} (hp : p < block.length) : ∃ u : List Nat,
    turnedRow block order p = (lastByte block order p).toNat :: u ∧
      sortedRow block order p = u ++ [(lastByte block order p).toNat] := by
  rw [h.lastByte_eq hp]
  exact exists_rotation_snoc (List.length_pos_iff.mp (by omega)) (h.start_lt hp)

/-- Turned rows are ordered by the last column and, for equal bytes, by row. -/
theorem turnedRow_le {p q : Nat} (hp : p < block.length) (hq : q < block.length)
    (hpq : (lastByte block order p).toNat < (lastByte block order q).toNat ∨
      lastByte block order p = lastByte block order q ∧ p < q) :
    turnedRow block order p ≤ turnedRow block order q := by
  obtain ⟨u, hu, hu'⟩ := h.exists_row_eq hp
  obtain ⟨v, hv, hv'⟩ := h.exists_row_eq hq
  rw [hu, hv, ← not_lt, List.cons_lt_cons_iff]
  rcases hpq with hlt | ⟨heq, hpq⟩
  · rintro (hgt | ⟨heq, -⟩) <;> omega
  · rintro (hgt | ⟨-, hlt⟩)
    · simp [heq] at hgt
    · have hle := h.sortedRow_le hq hpq
      have hlen : (sortedRow block order p).length = (sortedRow block order q).length := by
        simp only [sortedRow, rotation_length]
      rw [hu', hv'] at hle hlen
      exact hle.not_gt (append_lt_append (by simpa using hlen.symm) hlt _ _)

/-- Following a link from row `p` leads to a row that is row `p` turned on by one place, also when
rows are equal. -/
theorem rotate_link {d : Decoder} (hd : d.WalksColumn block order) {p : Nat}
    (hp : p < block.length) :
    block.rotate (order.getD (d.ttLink p) 0) = block.rotate (order.getD p 0 + 1) := by
  have ordered : ∀ i < block.length, ∀ j < block.length,
      (d.ttByte i).toNat < (d.ttByte j).toNat ∨ d.ttByte i = d.ttByte j ∧ i < j →
        turnedRow block order i ≤ turnedRow block order j := by
    intro i hi j hj hij
    rw [hd.byte i hi, hd.byte j hj] at hij
    exact h.turnedRow_le hi hj hij
  have eq : turnedRow block order (d.ttLink p) = sortedRow block order p :=
    sorted_keys_eq hd.link ordered h.sortedRow_sorted h.turnedRow_perm p hp
  rw [turnedRow, sortedRow, rotation_eq_rotate (Nat.mod_lt _ (by omega)).le,
    rotation_eq_rotate (h.start_lt hp).le] at eq
  have turned := List.map_injective_iff.mpr (fun _ _ => BitVec.eq_of_toNat_eq) eq
  rw [← rotate_pred_mod block (List.length_pos_iff.mp (by omega)), turned, List.rotate_rotate]

/-- After `k` links the walk is at a row that is its first row turned on by `k` places. -/
theorem rotate_walkPos {d : Decoder} (hd : d.WalksColumn block order) (k : Nat) {p : Nat}
    (hp : p < block.length) : d.walkPos p k < block.length ∧
      block.rotate (order.getD (d.walkPos p k) 0) = block.rotate (order.getD p 0 + k) := by
  induction k generalizing p with
  | zero => exact ⟨hp, rfl⟩
  | succ k ih =>
    obtain ⟨lt, eq⟩ := ih (hd.link_lt hp)
    refine ⟨lt, eq.trans ?_⟩
    rw [← List.rotate_rotate, h.rotate_link hd hp, List.rotate_rotate, Nat.add_right_comm]
    rfl

/-- The last byte of a row that is the block turned on by `k + 1` places is the block's byte `k`. -/
theorem lastByte_of_rotate {p k : Nat} (hp : p < block.length) (hk : k < block.length)
    (hrow : block.rotate (order.getD p 0) = block.rotate (k + 1)) :
    lastByte block order p = block[k] := by
  have last (m : Nat) : (block.rotate m)[block.length - 1]? =
      block[(m + block.length - 1) % block.length]? := by
    rw [List.getElem?_rotate (by omega), show block.length - 1 + m = m + block.length - 1 by omega]
  have hmod : (k + 1 + block.length - 1) % block.length = k := by
    rw [Nat.add_right_comm, Nat.add_sub_cancel, Nat.add_mod_right, Nat.mod_eq_of_lt hk]
  rw [h.lastByte_eq hp, List.getD_eq_getElem?_getD, ← last, hrow, last, hmod,
    List.getElem?_eq_getElem hk, Option.getD_some]

/-- The bytes the plain walk reads from the row of the unrotated block on are the block. -/
theorem walk_bytes {d : Decoder} (hd : d.WalksColumn block order) {p : Nat} (hp : p < block.length)
    (hzero : order.getD p 0 = 0) :
    ((List.range d.nBlock.toNat).map fun k => d.ttByte (d.walkPos (d.ttLink p) k)) = block := by
  refine List.ext_getElem (by simp [hd.size]) fun k _ hk => ?_
  obtain ⟨lt, eq⟩ := h.rotate_walkPos hd (k + 1) hp
  rw [hzero, Nat.zero_add] at eq
  rw [List.getElem_map, List.getElem_range]
  exact (hd.byte _ lt).trans (h.lastByte_of_rotate lt hk eq)

/-- The row of the unrotated block. -/
theorem idxOf_zero (hb : block ≠ []) :
    order.idxOf 0 < block.length ∧ order.getD (order.idxOf 0) 0 = 0 := by
  have hmem : 0 ∈ order :=
    h.all.mem_iff.mpr (List.mem_range.mpr (List.length_pos_iff.mpr hb))
  have hlt := List.idxOf_lt_length_of_mem hmem
  exact ⟨h.order_length ▸ hlt, by
    rw [List.getD_eq_getElem _ _ hlt, List.getElem_idxOf hlt]⟩

/-- The last column with the byte counts of the block is a block without links. -/
theorem unlinked {d : Decoder} (hn : d.nBlock.toNat = block.length)
    (htt : ∀ i < block.length, d.tt.read i = (lastByte block order i).setWidth 32)
    (hcounts : ∀ b < 256, (d.unzftab.read b).toNat = block.countP fun c => decide (c.toNat = b)) :
    d.Unlinked where
  noLinks i hi := Decoder.ttLink_of_read (htt i (hn ▸ hi))
  counts b hb := by
    rw [hcounts b hb, ← h.lastColumn_perm.countP_eq, ← h.map_lastByte, List.countP_map, hn]
    exact countBelow_congr fun i hi => by rw [Decoder.ttByte_of_read (htt i hi)]; rfl

end SortedRotations

/-- Settles O52: the sorted rows and the rows turned by one, listed along the links, are the same
sequence, so each step of the walk turns the unrotated block on by one place. -/
theorem inverseBwtRestoresBlock : Obligations.InverseBwtRestoresBlock := by
  unfold Obligations.InverseBwtRestoresBlock
  intro s block order herr hd hrand hb _ hsorted hn horig htt hcounts
  have hu : s.dec.Unlinked := hsorted.unlinked hn htt hcounts
  have hw : s.dec.linkBlock.WalksColumn block order := {
    size := hn
    byte := fun i hi => hu.linkBlock_byte ▸ Decoder.ttByte_of_read (htt i hi)
    link := fun i hi => by rw [hu.linkBlock_byte, ← hn]; exact hu.linkBlock_link i (hn ▸ hi) }
  obtain ⟨hrow, hzero⟩ := hsorted.idxOf_zero hb
  rw [← horig] at hrow hzero
  have htPos := hu.linkBlock_tPos (hn ▸ hrow)
  have hlink : ∀ p < s.dec.nBlock.toNat, s.dec.linkBlock.ttLink p < s.dec.nBlock.toNat :=
    fun _ => link_lt hu.linkBlock_link
  obtain ⟨u, hwalk, hu_err, hu_state, hu_dout⟩ :=
    exec_decWalk_plain (s := { s with dec := s.dec.linkBlock }.countCommand) herr
      (if_neg (by simp [hrand])) hlink (htPos ▸ hlink _ (hn ▸ hrow))
  refine ⟨_, u, exec_decIbwt herr hd, hwalk, hu_err, hu_state, hu_dout.trans ?_⟩
  simp only [countCommand_dec, countCommand_dout, htPos]
  exact congrArg (s.dout ++ ·) (hsorted.walk_bytes hw hrow hzero)

end Sys2Proof.Machine
end

section
/-! PROOF. What every command and every step keep (10_state.md), part 1: one rule for each wrapper
around a command's own rule, and what a predicate must satisfy to be kept by every step. -/

namespace Sys2Proof.Machine

/-! ## The state a command leads to (40_control.md rule R59) -/

/-- `P` holds of the next state that the common dispatch around command `i` in state `s` makes of
what the command's own rule answers (rule R59). -/
def CmdResult.LeadsTo (i : Instr) (s : State) (P : State → Prop) : CmdResult → Prop
  | .done t => P t.countCommand
  | .raise e t => P (takeError e t)
  | .hold => P (holdCommand i s)

section
variable {P : State → Prop} {i : Instr} {s t : State} {f : State → CmdResult}

theorem leadsTo_ite {c : Prop} [Decidable c] {a b : CmdResult} (ha : c → a.LeadsTo i s P)
    (hb : ¬ c → b.LeadsTo i s P) : (if c then a else b).LeadsTo i s P := by
  by_cases h : c
  · rw [if_pos h]; exact ha h
  · rw [if_neg h]; exact hb h

theorem leadsTo_unlessNoBlock (hempty : P s.countCommand)
    (hf : s.noBlock = false → (f s).LeadsTo i s P) : (unlessNoBlock f s).LeadsTo i s P := by
  cases h : s.noBlock with
  | true => rw [unlessNoBlock_empty h]; exact hempty
  | false => rw [unlessNoBlock_block h]; exact hf h

theorem leadsTo_sinkCommand (herr : P (takeError .state s)) (hf : (f s).LeadsTo i s P) :
    (sinkCommand f s).LeadsTo i s P := by
  cases h : s.sink.done with
  | true => rw [sinkCommand_done h]; exact herr
  | false => rw [sinkCommand_open h]; exact hf

theorem leadsTo_inDState {d : DState} (herr : P (takeError .state s))
    (hf : s.dec.dstate = d → (f s).LeadsTo i s P) : (inDState d f s).LeadsTo i s P := by
  by_cases h : s.dec.dstate = d
  · rw [inDState_here h]; exact hf h
  · rw [inDState_other h]; exact herr

theorem leadsTo_readCommand {α : Type} {x : Reader α} {spoil : State → State}
    {k : α → BitSource → State → CmdResult}
    (hok : ∀ a r, x s.src = .ok a r → (k a r s).LeadsTo i s P)
    (hraise : ∀ e, P (takeError e (spoil s))) (hhold : P (holdCommand i s)) :
    (readCommand x spoil k s).LeadsTo i s P := by
  rcases readCommand_cases x spoil k s with ⟨a, r, hx, h⟩ | ⟨e, -, h⟩ | ⟨-, h⟩
  · rw [h]; exact hok a r hx
  · rw [h]; exact hraise e
  · rw [h]; exact hhold

/-- `DEC_IBWT` completes in its state (rule R116). -/
theorem leadsTo_ibwt (h : P { s with dec := s.dec.linkBlock }.countCommand) :
    (ibwt s).LeadsTo i s P := h

/-- A command at a port with no error recorded leads where its own rule does. -/
theorem exec_leadsTo (hi : i ≠ .sysReset) (herr : s.err = 0)
    (hbody : (commandBody i s).LeadsTo i s P) (h : exec i s = .next t) : P t := by
  rcases exec_cases h with ⟨hi', -⟩ | ⟨-, herr', -⟩ | ⟨-, -, u, hu, rfl⟩ | ⟨-, -, e, u, hu, rfl⟩ |
    ⟨-, -, hu, rfl⟩
  · exact absurd hi' hi
  · exact absurd herr herr'
  all_goals rw [hu] at hbody; exact hbody

end

/-! ## Invariants of the step (70_reset_and_hazards.md rule R143) -/

/-- A host action other than a command word and the reset input changes the FIFOs, `IN_CLOSED` and
what the host was given, and nothing else of the state (20_memory.md rules R38 to R41). -/
theorem hostEffect_frame (a : HostAction) (s : State) :
    hostEffect a s = { s with
      src := { s.src with
        fifo := (hostEffect a s).src.fifo, closed := (hostEffect a s).src.closed }
      sink := { s.sink with out := (hostEffect a s).sink.out }
      dout := (hostEffect a s).dout, readData := (hostEffect a s).readData
      popOutData := (hostEffect a s).popOutData, popDoutData := (hostEffect a s).popDoutData
      freeTick := (hostEffect a s).freeTick } := by
  cases a with
  | cmd w => rfl
  | pushIn b => simp only [hostEffect, pushIn]; split <;> rfl
  | closeIn => rfl
  | popOut => simp only [hostEffect, popOut]; split <;> rfl
  | popDout => simp only [hostEffect, popDout]; split <;> rfl
  | read addr => rfl
  | reset => rfl

/-- What a predicate must satisfy to be kept by every step: each part of a step keeps it. -/
structure StepInvariant (P : State → Prop) : Prop where
  queue : ∀ s q, P s → P { s with hostQueue := q }
  effect : ∀ a s, P s → P (hostEffect a s)
  /-- a held command is taken back before it is run again (rule R139) -/
  free : ∀ s, P s → P { s with held := none }
  reset : ∀ s, P s → P s.resetBlock
  count : ∀ s, P s → P s.countCommand
  error : ∀ e s, s.held = none → P s → P (takeError e s)
  body : ∀ i s, i ≠ .sysReset → s.err = 0 → s.held = none → P s →
    (commandBody i s).LeadsTo i s P

section
variable {P : State → Prop} {s t : State} (hP : StepInvariant P)
include hP

/-- A command at a free port. -/
theorem StepInvariant.exec {i : Instr} (hheld : s.held = none) (hs : P s)
    (h : exec i s = .next t) : P t := by
  by_cases hi : i = .sysReset
  · rw [hi, exec_sysReset] at h
    exact Host.Outcome.next.inj h ▸ hP.reset s hs
  by_cases herr : s.err = 0
  · exact exec_leadsTo hi herr (hP.body i s hi herr hheld hs) h
  · rw [exec_eq_runCommand hi, runCommand_poisoned herr] at h
    exact Host.Outcome.next.inj h ▸ hP.count s hs

/-- A word that is no command. -/
theorem StepInvariant.rejectWord {e : DecodeError} (hheld : s.held = none) (hs : P s) :
    P (rejectWord e s) := by
  unfold Machine.rejectWord
  split
  · cases e with
    | reservedOpcode => exact hP.error .opcode s hheld hs
    | reservedBits => exact hP.error .operand s hheld hs
  · exact hP.count s hs

theorem StepInvariant.step (hs : P s) (h : step s = .next t) : P t := by
  rcases step_cases h with ⟨-, rfl⟩ | ⟨-, -, -, -, rfl⟩ | ⟨-, rest, i, -, hheld, -, hexec⟩ |
    ⟨-, rest, e, -, hheld, -, rfl⟩ | ⟨rest, -, rfl⟩ | ⟨a, rest, -, -, -, hretry⟩
  · exact hs
  · exact hs
  · exact hP.exec (s := { s with hostQueue := rest }) hheld (hP.queue s rest hs) hexec
  · exact hP.rejectWord hheld (hP.queue s rest hs)
  · exact hP.reset _ (hP.queue s rest hs)
  · have heffect := hP.effect a _ (hP.queue s rest hs)
    rcases retryHeld_cases hretry with ⟨-, rfl⟩ | ⟨i, -, hexec⟩
    · exact heffect
    · exact hP.exec rfl (hP.free _ heffect) hexec

end

end Sys2Proof.Machine
end

section
/-! PROOF. What every command and every step keep (10_state.md), part 2: the canonical form of the
internal memories (rules R35 and R36), and O57. -/

namespace Sys2Proof.Machine

theorem Encoder.memoriesCanonical_resetAt (draw : Nat) :
    (Encoder.resetAt draw).MemoriesCanonical := by
  have free := Mem.wf_unspecified
  exact ⟨free .., free .., free .., free .., free .., free .., free ..⟩

theorem Decoder.memoriesCanonical_resetAt (draw : Nat) :
    (Decoder.resetAt draw).MemoriesCanonical := by
  have free := Mem.wf_unspecified
  exact ⟨free .., free .., free .., free .., free .., free .., free .., free .., free .., free ..⟩

section
variable {d : Decoder} (h : d.MemoriesCanonical)
include h

/-- `DEC_TABLES` (46_huffman_decode.md rule R111). -/
theorem Decoder.memoriesCanonical_setTables (x : TableSection) :
    (d.setTables x).MemoriesCanonical := by
  obtain ⟨inUse, seqToUnseq, selector, len, limit, base, perm, minLen, tt, unzftab⟩ := h
  exact ⟨Mem.wf_writeRange inUse _ _, Mem.wf_writeNats seqToUnseq _ _,
    Mem.wf_writeNats selector _ _, Mem.wf_writeRows _ _ _ len, Mem.wf_writeRows _ _ _ limit,
    Mem.wf_writeRows _ _ _ base, Mem.wf_writeRows _ _ _ perm, Mem.wf_writeNats minLen _ _, tt,
    unzftab⟩

/-- `DEC_SYMBOLS` (46_huffman_decode.md rule R115). -/
theorem Decoder.memoriesCanonical_setSymbols (x : Expansion) :
    (d.setSymbols x).MemoriesCanonical := by
  obtain ⟨inUse, seqToUnseq, selector, len, limit, base, perm, minLen, tt, unzftab⟩ := h
  exact ⟨inUse, seqToUnseq, selector, len, limit, base, perm, minLen, Mem.wf_writeRange tt _ _,
    Mem.wf_writeNats unzftab _ _⟩

end

theorem wf_linkLoop (n : Nat) : ∀ (i : Nat) (cftab : List Nat) {tt : Mem 32}, tt.wf →
    (linkLoop n i cftab tt).wf := by
  induction n with
  | zero => exact fun _ _ _ h => h
  | succ n ih => exact fun i _ _ h => ih (i + 1) _ (Mem.wf_write h _ _)

/-- `DEC_IBWT` (47_bwt_inverse.md rule R116). -/
theorem Decoder.memoriesCanonical_linkBlock {d : Decoder} (h : d.MemoriesCanonical) :
    d.linkBlock.MemoriesCanonical := by
  obtain ⟨inUse, seqToUnseq, selector, len, limit, base, perm, minLen, tt, unzftab⟩ := h
  exact ⟨inUse, seqToUnseq, selector, len, limit, base, perm, minLen, wf_linkLoop _ _ _ tt, unzftab⟩

/-- What a failed command leaves of the memories is canonical (60_exceptions.md rule R128): the
memories a failed `DEC_TABLES` or `DEC_SYMBOLS` writes list no element. -/
theorem memoriesCanonical_spoilTables (s : State) (h : s.MemoriesCanonical) :
    (spoilTables s).MemoriesCanonical := by
  obtain ⟨enc, -, -, -, -, -, -, -, -, tt, unzftab⟩ := h
  have free := Mem.wf_unspecified
  exact ⟨enc, free .., free .., free .., free .., free .., free .., free .., free .., tt, unzftab⟩

theorem memoriesCanonical_spoilSymbols (s : State) (h : s.MemoriesCanonical) :
    (spoilSymbols s).MemoriesCanonical := by
  obtain ⟨enc, inUse, seqToUnseq, selector, len, limit, base, perm, minLen, -, -⟩ := h
  have free := Mem.wf_unspecified
  exact ⟨enc, inUse, seqToUnseq, selector, len, limit, base, perm, minLen, free .., free ..⟩

/-- Every command's own rule leads from canonical memories to canonical memories. -/
theorem commandBody_memoriesCanonical (i : Instr) {s : State} (h : s.MemoriesCanonical) :
    (commandBody i s).LeadsTo i s State.MemoriesCanonical := by
  have henc := h.1
  have hdec := h.2
  obtain ⟨block, mtfv, mtfFreq, selector, selMtf, eLen, eCode⟩ := henc
  cases i with
  | nop | sinkReset | srcReset | crcReset | crcCombine | blkReset | decReset => exact h
  | crcUpdate _ | crcUpdateRun _ _ | crcFold _ => exact h
  | sysReset =>
    exact ⟨Encoder.memoriesCanonical_resetAt _, Decoder.memoriesCanonical_resetAt _⟩
  | cfg bs => exact leadsTo_ite (fun _ => h) fun _ => leadsTo_ite (fun _ => h) fun _ => h
  | sinkWrite n value =>
    rw [commandBody]
    exact leadsTo_sinkCommand h (leadsTo_ite (fun _ => h) fun _ => h)
  | sinkFlush | sinkFinish | encStreamHdr | encTrailer =>
    rw [commandBody]
    exact leadsTo_sinkCommand h h
  | encBlockHdr rand origPtr =>
    exact leadsTo_unlessNoBlock h fun _ =>
      leadsTo_sinkCommand h (leadsTo_ite (fun _ => h) fun _ => h)
  | srcRead n =>
    exact leadsTo_ite (fun _ => h) fun _ => leadsTo_readCommand (fun _ _ _ => h) (fun _ => h) h
  | blkPut byte =>
    exact leadsTo_ite (fun _ => h) fun _ => leadsTo_ite (fun _ => h) fun _ =>
      ⟨⟨Mem.wf_write block _ _, mtfv, mtfFreq, selector, selMtf, eLen, eCode⟩, hdec⟩
  | encMtf =>
    exact leadsTo_unlessNoBlock h fun _ => leadsTo_ite (fun _ => h) fun _ =>
      ⟨⟨block, Mem.wf_writeNats mtfv _ _, Mem.wf_writeNats mtfFreq _ _, selector, selMtf, eLen,
        eCode⟩, hdec⟩
  | encTrain =>
    exact leadsTo_unlessNoBlock h fun _ => leadsTo_ite (fun _ => h) fun _ =>
      ⟨⟨block, mtfv, mtfFreq, Mem.wf_writeNats selector _ _, selMtf, Mem.wf_writeRows _ _ _ eLen,
        eCode⟩, hdec⟩
  | encCodes =>
    exact leadsTo_unlessNoBlock h fun _ => leadsTo_ite (fun _ => h) fun _ =>
      ⟨⟨block, mtfv, mtfFreq, selector, selMtf, eLen, Mem.wf_writeRows _ _ _ eCode⟩, hdec⟩
  | encEmit =>
    exact leadsTo_unlessNoBlock h fun _ => leadsTo_ite (fun _ => h) fun _ =>
      leadsTo_sinkCommand h
        ⟨⟨block, mtfv, mtfFreq, selector, Mem.wf_writeNats selMtf _ _, eLen, eCode⟩, hdec⟩
  | decStreamHdr =>
    exact leadsTo_inDState h fun _ => leadsTo_readCommand (fun _ _ _ => h) (fun _ => h) h
  | decBlockStart =>
    refine leadsTo_inDState h fun _ => leadsTo_readCommand (fun a r _ => ?_) (fun _ => h) h
    cases a with
    | block crc rand origPtr => exact h
    | trailer => exact h
  | decTables =>
    exact leadsTo_inDState h fun _ => leadsTo_readCommand
      (fun x _ _ => ⟨h.1, Decoder.memoriesCanonical_setTables hdec x⟩)
      (fun _ => memoriesCanonical_spoilTables s h) h
  | decSymbols =>
    exact leadsTo_inDState h fun _ => leadsTo_readCommand
      (fun x _ _ => ⟨h.1, Decoder.memoriesCanonical_setSymbols hdec x⟩)
      (fun _ => memoriesCanonical_spoilSymbols s h) h
  | decIbwt =>
    exact leadsTo_inDState h fun _ => leadsTo_ibwt ⟨h.1, Decoder.memoriesCanonical_linkBlock hdec⟩
  | decWalk => exact leadsTo_ite (fun _ => h) fun _ => h
  | decBlockEnd =>
    rw [commandBody]
    exact leadsTo_inDState h fun _ => leadsTo_ite (fun _ => h) fun _ => h

theorem memoriesCanonical_stepInvariant : StepInvariant State.MemoriesCanonical where
  queue _ _ h := h
  effect a s h := by rw [hostEffect_frame]; exact h
  free _ h := h
  reset _ _ := ⟨Encoder.memoriesCanonical_resetAt _, Decoder.memoriesCanonical_resetAt _⟩
  count _ h := h
  error _ _ _ h := h
  body i _ _ _ _ h := commandBody_memoriesCanonical i h

/-- Settles O57: a command writes ranges and rows of the memories, each of which keeps the canonical
form, or leaves them unspecified with no element listed. -/
theorem memoriesStayCanonical : Obligations.MemoriesStayCanonical := by
  unfold Obligations.MemoriesStayCanonical
  exact fun _ _ hs h => memoriesCanonical_stepInvariant.step hs h

end Sys2Proof.Machine
end

section
/-! PROOF. What every command and every step keep (10_state.md), part 3: counting (rule R16), and
commands out of their state (rules R19 and R26). O56 and O53. -/

namespace Sys2Proof.Machine

/-! ## Counting -/

/-- From `s` to `t` one command was counted and none holds, or one holds and was not counted. -/
def CountedUnlessHeld (s t : State) : Prop :=
  (t.held = none ∧ t.cmdCnt = s.cmdCnt + 1) ∨ (t.held ≠ none ∧ t.cmdCnt = s.cmdCnt)

/-- A command's own rule touches neither the port nor the count. -/
theorem commandBody_countedUnlessHeld {i : Instr} {s : State} (hi : i ≠ .sysReset)
    (hheld : s.held = none) : (commandBody i s).LeadsTo i s (CountedUnlessHeld s) := by
  have counted : (s.held = none ∧ s.cmdCnt + 1 = s.cmdCnt + 1) ∨
    (s.held ≠ none ∧ s.cmdCnt + 1 = s.cmdCnt) := .inl ⟨hheld, rfl⟩
  have holds : CountedUnlessHeld s (holdCommand i s) := .inr ⟨by simp, rfl⟩
  cases i with
  | sysReset => exact absurd rfl hi
  | nop | sinkReset | srcReset | crcReset | crcCombine | blkReset | decReset => exact counted
  | crcUpdate _ | crcUpdateRun _ _ | crcFold _ => exact counted
  | cfg bs =>
    exact leadsTo_ite (fun _ => counted) fun _ => leadsTo_ite (fun _ => counted) fun _ => counted
  | sinkWrite n value =>
    rw [commandBody]
    exact leadsTo_sinkCommand counted (leadsTo_ite (fun _ => counted) fun _ => counted)
  | sinkFlush | sinkFinish | encStreamHdr | encTrailer =>
    rw [commandBody]
    exact leadsTo_sinkCommand counted counted
  | encBlockHdr rand origPtr =>
    exact leadsTo_unlessNoBlock counted fun _ =>
      leadsTo_sinkCommand counted (leadsTo_ite (fun _ => counted) fun _ => counted)
  | srcRead n =>
    exact leadsTo_ite (fun _ => counted) fun _ =>
      leadsTo_readCommand (fun _ _ _ => counted) (fun _ => counted) holds
  | blkPut byte =>
    exact leadsTo_ite (fun _ => counted) fun _ => leadsTo_ite (fun _ => counted) fun _ => counted
  | encMtf | encTrain | encCodes =>
    exact leadsTo_unlessNoBlock counted fun _ => leadsTo_ite (fun _ => counted) fun _ => counted
  | encEmit =>
    exact leadsTo_unlessNoBlock counted fun _ => leadsTo_ite (fun _ => counted) fun _ =>
      leadsTo_sinkCommand counted counted
  | decStreamHdr | decTables | decSymbols =>
    exact leadsTo_inDState counted fun _ =>
      leadsTo_readCommand (fun _ _ _ => counted) (fun _ => counted) holds
  | decBlockStart =>
    refine leadsTo_inDState counted fun _ =>
      leadsTo_readCommand (fun a r _ => ?_) (fun _ => counted) holds
    cases a with
    | block crc rand origPtr => exact counted
    | trailer => exact counted
  | decIbwt => exact leadsTo_inDState counted fun _ => leadsTo_ibwt counted
  | decWalk => exact leadsTo_ite (fun _ => counted) fun _ => counted
  | decBlockEnd =>
    rw [commandBody]
    exact leadsTo_inDState counted fun _ => leadsTo_ite (fun _ => counted) fun _ => counted

theorem exec_countedUnlessHeld {i : Instr} {s t : State} (hi : i ≠ .sysReset)
    (hheld : s.held = none) (h : exec i s = .next t) : CountedUnlessHeld s t := by
  by_cases herr : s.err = 0
  · exact exec_leadsTo hi herr (commandBody_countedUnlessHeld hi hheld) h
  · rw [exec_eq_runCommand hi, runCommand_poisoned herr] at h
    exact Host.Outcome.next.inj h ▸ .inl ⟨hheld, rfl⟩

/-! ## Every step answers a next state -/

theorem issue_next (w : Command) (s : State) : ∃ t, issue w s = .next t := by
  unfold issue
  split
  · exact exec_next _ s
  · exact ⟨_, rfl⟩

theorem retryHeld_next (s : State) : ∃ t, retryHeld s = .next t := by
  unfold retryHeld
  split
  · exact ⟨_, rfl⟩
  · exact exec_next _ _

theorem performAction_next (waiting : State) (a : HostAction) (s : State) :
    ∃ t, performAction waiting a s = .next t := by
  cases a with
  | cmd w =>
    cases hheld : s.held with
    | none => simpa only [performAction, hheld] using issue_next w s
    | some i => exact ⟨waiting, by simp only [performAction, hheld]⟩
  | pushIn b => exact retryHeld_next _
  | closeIn => exact retryHeld_next _
  | popOut => exact retryHeld_next _
  | popDout => exact retryHeld_next _
  | read addr => exact retryHeld_next _
  | reset => exact ⟨_, rfl⟩

theorem step_next (s : State) : ∃ t, step s = .next t := by
  unfold step hostStep
  split
  · exact ⟨_, rfl⟩
  · exact performAction_next _ _ _

/-- Settles O56: every part a step is made of answers a next state, and every command's own rule
leaves the port and the count to the common dispatch. -/
theorem everyCommandIsCounted : Obligations.EveryCommandIsCounted := by
  unfold Obligations.EveryCommandIsCounted
  refine ⟨step_next, fun s t i hheld h => ⟨?_, fun hi => ?_, fun hh => ?_⟩⟩
  · rintro rfl
    exact Host.Outcome.next.inj h ▸ rfl
  · rcases exec_countedUnlessHeld hi hheld h with ⟨-, hcount⟩ | ⟨hh, -⟩
    · exact fun _ => hcount
    · exact fun hnone => absurd hnone hh
  · by_cases hi : i = .sysReset
    · subst hi
      exact absurd (Host.Outcome.next.inj h ▸ rfl) hh
    · rcases exec_countedUnlessHeld hi hheld h with ⟨hnone, -⟩ | ⟨-, hcount⟩
      · exact absurd hnone hh
      · exact hcount

/-! ## Commands out of their state -/

theorem noBlock_eq_false {s : State} (h : s.enc.last ≠ 0xFFFFFFFF) : s.noBlock = false :=
  decide_eq_false h

/-- A command whose own rule raises `E_STATE` changes `ERR` and `CMDCNT` and nothing else. -/
theorem exec_stateError {i : Instr} {s : State} (hi : i ≠ .sysReset) (herr : s.err = 0)
    (hbody : commandBody i s = .raise .state s) :
    exec i s = .next { s with err := 0x21, cmdCnt := s.cmdCnt + 1 } := by
  rw [exec_eq_runCommand hi, runCommand_raise herr hbody]
  rfl

section
variable {s : State}

/-- An encoder stage on a loaded block in another `ESTATE` (rule R19). -/
theorem commandBody_outOfEState {i : Instr} (hblock : s.enc.last ≠ 0xFFFFFFFF)
    (h : (i = .encMtf ∧ s.enc.estate ≠ .loaded) ∨ (i = .encTrain ∧ s.enc.estate ≠ .mtfDone) ∨
      (i = .encCodes ∧ s.enc.estate ≠ .trained) ∨ (i = .encEmit ∧ s.enc.estate ≠ .coded)) :
    i ≠ .sysReset ∧ commandBody i s = .raise .state s := by
  have block {f : State → CmdResult} : unlessNoBlock f s = f s :=
    unlessNoBlock_block (noBlock_eq_false hblock)
  rcases h with ⟨rfl, hs⟩ | ⟨rfl, hs⟩ | ⟨rfl, hs⟩ | ⟨rfl, hs⟩
  all_goals exact ⟨by simp, block.trans (if_pos hs)⟩

/-- A command that writes bits on a finished BitSink (rule R26). -/
theorem commandBody_sinkDone {i : Instr} (hdone : s.sink.done = true)
    (h : (∃ n value, i = .sinkWrite n value) ∨ i = .sinkFlush ∨ i = .sinkFinish ∨
      i = .encStreamHdr ∨ i = .encTrailer ∨ (s.enc.last ≠ 0xFFFFFFFF ∧
        (i = .encEmit ∨ ∃ rand origPtr, i = .encBlockHdr rand origPtr))) :
    i ≠ .sysReset ∧ commandBody i s = .raise .state s := by
  have finished {f : State → CmdResult} : sinkCommand f s = .raise .state s :=
    sinkCommand_done hdone
  rcases h with ⟨n, value, rfl⟩ | rfl | rfl | rfl | rfl | ⟨hblock, h⟩
  iterate 5 exact ⟨by simp, by rw [commandBody]; exact finished⟩
  have block {f : State → CmdResult} : unlessNoBlock f s = f s :=
    unlessNoBlock_block (noBlock_eq_false hblock)
  rcases h with rfl | ⟨rand, origPtr, rfl⟩
  · by_cases hs : s.enc.estate = .coded
    · exact ⟨by simp, block.trans ((if_neg (not_not.mpr hs)).trans finished)⟩
    · exact ⟨by simp, block.trans (if_pos hs)⟩
  · exact ⟨by simp, block.trans finished⟩

end

/-- Settles O53: each command's first check is that of its state. -/
theorem commandsOutOfStateFault : Obligations.CommandsOutOfStateFault := by
  unfold Obligations.CommandsOutOfStateFault
  intro s i herr h
  suffices i ≠ .sysReset ∧ commandBody i s = .raise .state s from exec_stateError this.1 herr this.2
  rcases h with ⟨rfl, hs⟩ | ⟨rfl, hs⟩ | ⟨rfl, hs⟩ | ⟨rfl, hs⟩ | ⟨rfl, hs⟩ | ⟨rfl, hs⟩ | ⟨rfl, hs⟩ |
    ⟨hblock, h⟩ | ⟨hdone, h⟩
  · exact ⟨by simp, inDState_other hs⟩
  · exact ⟨by simp, inDState_other hs⟩
  · exact ⟨by simp, inDState_other hs⟩
  · exact ⟨by simp, inDState_other hs⟩
  · exact ⟨by simp, inDState_other hs⟩
  · exact ⟨by simp, if_pos hs⟩
  · exact ⟨by simp, by rw [commandBody]; exact inDState_other hs⟩
  · exact commandBody_outOfEState hblock h
  · exact commandBody_sinkDone hdone h

end Sys2Proof.Machine
end

section
/-! PROOF. What every command and every step keep (10_state.md), part 4: every reading takes the
first bits of the bit string and leaves the BitSource in its form (rules R27 and R28). -/

namespace Sys2Proof.Machine

/-- A successful reading is the reading of some number of bits (42_bitsource.md rule R72). -/
def Reader.Consumes {α : Type} (x : Reader α) : Prop :=
  ∀ ⦃r : BitSource⦄ ⦃a : α⦄ ⦃q : BitSource⦄, r.Tidy → x r = .ok a q → ∃ n, r.Consumed q n

/-- A successful reading keeps the BitSource's form. -/
theorem Reader.Consumes.tidy {α : Type} {x : Reader α} (hx : x.Consumes) {r q : BitSource} {a : α}
    (hr : r.Tidy) (h : x r = .ok a q) : q.Tidy := by
  obtain ⟨n, hn⟩ := hx hr h
  exact hn.tidy

/-! ## What readings are made of -/

theorem consumes_pure {α : Type} (a : α) : (Reader.pure a).Consumes := by
  intro r b q hr h
  injection h with _ hq
  exact ⟨0, hq ▸ .zero hr⟩

theorem consumes_fail {α : Type} (e : ErrCode) : (Reader.fail (α := α) e).Consumes :=
  fun _ _ _ _ h => nomatch h

theorem consumes_exhausted {α : Type} : (Reader.exhausted (α := α)).Consumes := by
  intro r a q _ h
  unfold Reader.exhausted at h
  split at h <;> contradiction

theorem consumes_bind {α β : Type} {x : Reader α} {f : α → Reader β} (hx : x.Consumes)
    (hf : ∀ a, (f a).Consumes) : (x.bind f).Consumes := by
  intro r b q hr h
  obtain ⟨a, p, hp, hq⟩ := Reader.bind_ok.mp h
  obtain ⟨n, hn⟩ := hx hr hp
  obtain ⟨m, hm⟩ := hf a hn.tidy hq
  exact ⟨n + m, hn.trans hm⟩

theorem consumes_ite {α : Type} {c : Prop} {_ : Decidable c} {x y : Reader α} (hx : x.Consumes)
    (hy : y.Consumes) : (if c then x else y).Consumes := by
  by_cases h : c
  · rw [if_pos h]; exact hx
  · rw [if_neg h]; exact hy

theorem consumes_rd {n : Nat} (hn : n ≤ 32) : (rd n).Consumes := by
  intro r a q hr h
  by_cases hlen : n ≤ r.bits.length
  · obtain ⟨v, p, hp, -, -, hcons⟩ := rd_consumed hr hn hlen
    injection hp.symm.trans h with _ hpq
    exact ⟨n, hpq ▸ hcons⟩
  · rw [rd_short hr hn (by rw [BitSource.bits_length] at hlen; omega)] at h
    split at h <;> contradiction

theorem consumes_times {α : Type} (n : Nat) {x : Reader α} (hx : x.Consumes) :
    (Reader.times n x).Consumes := by
  induction n with
  | zero => exact consumes_pure []
  | succ n ih => exact consumes_bind hx fun _ => consumes_bind ih fun _ => consumes_pure _

/-! ## Stream and block headers (46_huffman_decode.md rules R105 and R106) -/

theorem consumes_expectByte (b : Nat) : (expectByte b).Consumes :=
  consumes_bind (consumes_rd (by decide)) fun _ => consumes_ite (consumes_pure _) (consumes_fail _)

theorem consumes_readStreamHdr : readStreamHdr.Consumes :=
  consumes_bind (consumes_expectByte _) fun _ => consumes_bind (consumes_expectByte _) fun _ =>
    consumes_bind (consumes_expectByte _) fun _ => consumes_bind (consumes_rd (by decide)) fun _ =>
      consumes_ite (consumes_fail _) (consumes_pure _)

theorem consumes_readBlockStart (combined : Word) : (readBlockStart combined).Consumes := by
  have read24 : (rd 24).Consumes := consumes_rd (by decide)
  have read32 : (rd 32).Consumes := consumes_rd (by decide)
  refine consumes_bind read24 fun _ => consumes_bind read24 fun _ =>
    consumes_ite ?block <|
      consumes_ite ?trailer (consumes_fail _)
  case block =>
    exact consumes_bind read32 fun _ => consumes_bind (consumes_rd (by decide)) fun _ =>
      consumes_bind read24 fun _ => consumes_pure _
  case trailer =>
    exact consumes_bind read32 fun _ => consumes_ite (consumes_fail _) (consumes_pure _)

/-! ## Table section (rules R107 to R111) -/

theorem consumes_readGroups (g k : Nat) : (readGroups g k).Consumes := by
  induction k with
  | zero => exact consumes_pure []
  | succ k ih =>
    refine consumes_bind (consumes_ite ?used (consumes_pure _)) fun _ =>
      consumes_bind ih fun _ => consumes_pure _
    exact consumes_bind (consumes_rd (by decide)) fun _ => consumes_pure _

theorem consumes_readMapping : readMapping.Consumes :=
  consumes_bind (consumes_rd (by decide)) fun _ => consumes_readGroups _ _

theorem consumes_readUnary (nG fuel : Nat) : ∀ j, (readUnary nG fuel j).Consumes := by
  induction fuel with
  | zero => exact fun _ => consumes_fail _
  | succ fuel ih =>
    exact fun j => consumes_bind (consumes_rd (by decide)) fun _ =>
      consumes_ite (consumes_ite (consumes_fail _) (ih _)) (consumes_pure _)

theorem consumes_readSelectors : readSelectors.Consumes :=
  consumes_bind (consumes_rd (by decide)) fun _ => consumes_ite (consumes_fail _) <|
    consumes_bind (consumes_rd (by decide)) fun _ => consumes_ite (consumes_fail _) <|
      consumes_bind (consumes_times _ (consumes_readUnary _ _ _)) fun _ => consumes_pure _

theorem consumes_lengthLoop (fuel : Nat) : ∀ curr, (lengthLoop fuel curr).Consumes := by
  have bit : (rd 1).Consumes := consumes_rd (by decide)
  induction fuel with
  | zero => exact fun _ => consumes_exhausted
  | succ fuel ih =>
    exact fun curr => consumes_ite (consumes_fail _) <| consumes_bind bit fun _ =>
      consumes_ite (consumes_pure _) <| consumes_bind bit fun _ => ih _

theorem consumes_readLength (curr : Nat) : (readLength curr).Consumes :=
  fun _ _ _ hr h => consumes_lengthLoop _ curr hr h

theorem consumes_readDeltas (n : Nat) : ∀ curr, (readDeltas n curr).Consumes := by
  induction n with
  | zero => exact fun _ => consumes_pure []
  | succ n ih =>
    exact fun curr => consumes_bind (consumes_readLength curr) fun l =>
      consumes_bind (ih l) fun _ => consumes_pure _

theorem consumes_readTable (a : Nat) : (readTable a).Consumes :=
  consumes_bind (consumes_rd (by decide)) fun _ => consumes_readDeltas _ _

theorem consumes_readTables : readTables.Consumes :=
  consumes_bind consumes_readMapping fun _ => consumes_ite (consumes_fail _) <|
    consumes_bind consumes_readSelectors fun _ =>
      consumes_bind (consumes_times _ (consumes_readTable _)) fun _ => consumes_pure _

/-! ## Symbol stream (rules R112 to R115) -/

theorem consumes_probeSymbol (d : Decoder) (t fuel : Nat) :
    ∀ zn zvec, (probeSymbol d t fuel zn zvec).Consumes := by
  induction fuel with
  | zero => exact fun _ _ => consumes_fail _
  | succ fuel ih =>
    exact fun zn zvec => consumes_ite (consumes_fail _) <|
      consumes_ite (consumes_ite (consumes_fail _) (consumes_pure _)) <|
        consumes_bind (consumes_rd (by decide)) fun _ => ih _ _

/-- `MINLEN[t]` is a 5-bit number, so it can be read at once. -/
theorem consumes_decSym (d : Decoder) (t : Nat) : (decSym d t).Consumes :=
  consumes_bind (consumes_rd (by have := (d.minLen.read t).isLt; omega)) fun _ =>
    consumes_probeSymbol d t _ _ _

theorem consumes_nextSym (d : Decoder) (g : GroupPos) : (nextSym d g).Consumes :=
  consumes_ite
    (consumes_ite (consumes_fail _) <|
      consumes_bind (consumes_decSym d _) fun _ => consumes_pure _)
    (consumes_bind (consumes_decSym d _) fun _ => consumes_pure _)

theorem consumes_expandLoop (d : Decoder) (nmax fuel : Nat) :
    ∀ g x, (expandLoop d nmax fuel g x).Consumes := by
  induction fuel with
  | zero => exact fun _ _ => consumes_fail _
  | succ fuel ih =>
    refine fun g x => consumes_bind (consumes_nextSym d g) fun sg => ?_
    cases x.symbol d nmax sg.1 with
    | more y => exact ih sg.2 y
    | done y => exact consumes_pure y
    | fail => exact consumes_fail _

theorem consumes_readSymbols (d : Decoder) : (readSymbols d).Consumes :=
  consumes_bind (consumes_expandLoop d _ _ _ _) fun _ =>
    consumes_ite (consumes_fail _) (consumes_pure _)

end Sys2Proof.Machine
end

section
/-! PROOF. What every command and every step keep (10_state.md), part 5: the encoder's code lengths
are at most 20 (45_huffman_encode.md rules R92 and R93), and every bit field it writes is at most 25
bits wide (41_bitsink.md rule R64). -/

namespace Sys2Proof.Machine

/-! ## Length construction and training -/

theorem treeDepths_length (leaves : List Nat) : (treeDepths leaves).length = leaves.length := by
  simp [treeDepths]

theorem limitLengths_length (maxLen fuel : Nat) :
    ∀ leaves, (limitLengths maxLen fuel leaves).length = leaves.length := by
  induction fuel with
  | zero => intro leaves; simp [limitLengths, treeDepths_length]
  | succ fuel ih =>
    intro leaves
    rw [limitLengths]
    split
    · rw [ih, List.length_map]
    · exact treeDepths_length leaves

/-- The length limit is met by construction, whatever the weights. -/
theorem limitLengths_le (maxLen fuel : Nat) :
    ∀ leaves, ∀ l ∈ limitLengths maxLen fuel leaves, l ≤ maxLen := by
  induction fuel with
  | zero =>
    intro leaves l hl
    obtain ⟨d, -, rfl⟩ := List.mem_map.mp hl
    exact min_le_left maxLen d
  | succ fuel ih =>
    intro leaves l hl
    rw [limitLengths] at hl
    split at hl
    · exact ih _ l hl
    · next hnone =>
      refine not_lt.mp fun hlt => hnone ?_
      exact List.any_eq_true.mpr ⟨l, hl, decide_eq_true hlt⟩

/-- The lengths of a code table over `a` symbols, as rule R93 makes them. -/
structure LegalLengths (a : Nat) (row : List Nat) : Prop where
  size : row.length = a
  le : ∀ l ∈ row, l ≤ Config.maxCodeLen

theorem makeLengths_legal (freq : List Nat) :
    LegalLengths freq.length (makeLengths Config.maxCodeLen freq) where
  size := by rw [makeLengths, limitLengths_length, List.length_map]
  le := limitLengths_le _ _ _

theorem trainingPass_tables_length (a : Nat) (groups : List (List Nat)) (tables : List (List Nat)) :
    (trainingPass a groups tables).2.length = tables.length := by
  simp [trainingPass]

theorem trainingPass_legal {a : Nat} {groups tables : List (List Nat)} {row : List Nat}
    (h : row ∈ (trainingPass a groups tables).2) : LegalLengths a row := by
  obtain ⟨t, -, rfl⟩ := List.mem_map.mp h
  simpa [chosenFreq] using makeLengths_legal (chosenFreq a t groups (groups.map (cheapest tables)))

theorem trainingPasses_tables_length (a : Nat) (groups : List (List Nat)) (n : Nat) :
    ∀ r, (trainingPasses a groups n r).2.length = r.2.length := by
  induction n with
  | zero => exact fun _ => rfl
  | succ n ih => exact fun r => (ih _).trans (trainingPass_tables_length a groups r.2)

/-- The tables after at least one pass are those of a pass. -/
theorem trainingPasses_legal {a : Nat} {groups : List (List Nat)} {row : List Nat} (n : Nat) :
    ∀ r, row ∈ (trainingPasses a groups (n + 1) r).2 → LegalLengths a row := by
  induction n with
  | zero => exact fun _ h => trainingPass_legal h
  | succ n ih => exact fun _ h => ih _ h

theorem seedTables_length (freq : List Nat) (a nG nPart : Nat) :
    ∀ remF gs, (seedTables freq a nG nPart remF gs).length = nPart := by
  induction nPart with
  | zero => exact fun _ _ => rfl
  | succ nPart ih => intro remF gs; simp only [seedTables, List.length_cons, ih]

theorem train_tables_length (a : Nat) (freq syms : List Nat) :
    (train a freq syms).2.length = tableCount syms.length := by
  simp only [train, trainingPasses_tables_length, List.length_reverse, seedTables_length]

theorem train_legal {a : Nat} {freq syms row : List Nat} (h : row ∈ (train a freq syms).2) :
    LegalLengths a row := trainingPasses_legal 3 _ h

theorem tableCount_lt (n : Nat) : tableCount n < 8 := by
  unfold tableCount
  repeat' split
  all_goals decide

theorem Encoder.alphabet_le_symbolRow {e : Encoder} (h : e.nInUse.toNat ≤ 256) :
    e.alphabet ≤ Config.symbolRow := Nat.add_le_add_right h 2

/-- An element of a table written to `E_LEN` in rows of `a` symbols. -/
theorem toNat_read_writeRows_le {a t v : Nat} (m : Mem 5) {tables : List (List Nat)}
    (hrow : a ≤ Config.symbolRow) (htables : ∀ row ∈ tables, LegalLengths a row)
    (ht : t < tables.length) (hv : v < a) :
    ((m.writeRows Config.symbolRow 0 (tables.map fun row => row.map (BitVec.ofNat 5))).read
      (Config.symbolRow * t + v)).toNat ≤ Config.maxCodeLen := by
  have legal := htables _ (List.getElem_mem ht)
  have hv' : v < tables[t].length := legal.size ▸ hv
  have hsize : ∀ row ∈ tables.map fun row => row.map (BitVec.ofNat 5),
      row.length ≤ Config.symbolRow := by
    intro row h
    obtain ⟨r, hr, rfl⟩ := List.mem_map.mp h
    rw [List.length_map, (htables r hr).size]
    exact hrow
  have hread := Mem.read_writeRows Config.symbolRow _ hsize 0 m t v (by simpa using ht)
    (by simpa using hv')
  rw [Nat.zero_add] at hread
  simp only [hread, List.getElem_map, BitVec.toNat_ofNat]
  exact (Nat.mod_le _ _).trans (legal.le _ (List.getElem_mem hv'))

/-! ## Widths of the bit fields (45_huffman_encode.md rules R97 to R103) -/

/-- A selector MTF list: distinct 3-bit values. -/
structure SelectorList (pos : List Nat) : Prop where
  nodup : pos.Nodup
  lt : ∀ t ∈ pos, t < 8

theorem SelectorList.length_le {pos : List Nat} (h : SelectorList pos) : pos.length ≤ 8 := by
  have sub : pos ⊆ List.range 8 := fun t ht => List.mem_range.mpr (h.lt t ht)
  simpa using (h.nodup.subperm sub).length_le

/-- Moving a value to the front, or adding it there. -/
theorem SelectorList.toFront {pos : List Nat} (h : SelectorList pos) {t : Nat} (ht : t < 8) :
    SelectorList (toFront t (pos.idxOf t) pos) := by
  rw [Machine.toFront, List.eraseIdx_idxOf_eq_erase]
  refine ⟨List.nodup_cons.mpr ⟨h.nodup.not_mem_erase, h.nodup.erase t⟩, fun x hx => ?_⟩
  rcases List.mem_cons.mp hx with rfl | hx
  · exact ht
  · exact h.lt x (List.mem_of_mem_erase hx)

/-- A selector MTF value is a position in the list, or its length. -/
theorem selectorMtf_le (selectors : List Nat) : ∀ {pos : List Nat}, SelectorList pos →
    (∀ t ∈ selectors, t < 8) → ∀ j ∈ selectorMtf pos selectors, j ≤ 8 := by
  induction selectors with
  | nil => exact fun _ _ _ h => nomatch h
  | cons t rest ih =>
    intro pos hpos hsel j hj
    rcases List.mem_cons.mp hj with rfl | hj
    · exact List.idxOf_le_length.trans hpos.length_le
    · exact ih (hpos.toFront (hsel t (by simp))) (fun x hx => hsel x (by simp [hx])) j hj

theorem lengthSteps_width (curr l : Nat) : ∀ f ∈ lengthSteps curr l, f.1 ≤ 2 := by
  intro f hf
  simp only [lengthSteps, List.mem_append, List.mem_replicate, List.mem_singleton] at hf
  rcases hf with (⟨-, rfl⟩ | ⟨-, rfl⟩) | rfl
  all_goals decide

theorem lengthDeltas_width (lens : List Nat) : ∀ curr, ∀ f ∈ lengthDeltas curr lens, f.1 ≤ 2 := by
  induction lens with
  | nil => exact fun _ _ h => nomatch h
  | cons l lens ih =>
    intro curr f hf
    rcases List.mem_append.mp hf with hf | hf
    · exact lengthSteps_width curr l f hf
    · exact ih l f hf

theorem tableFields_width (lens : List Nat) : ∀ f ∈ tableFields lens, f.1 ≤ 25 := by
  intro f hf
  rcases List.mem_cons.mp hf with rfl | hf
  · exact (by decide : 5 ≤ 25)
  · exact (lengthDeltas_width lens _ f hf).trans (by decide)

theorem bitmapFields_width (inUse : BitVec 256) : ∀ f ∈ bitmapFields inUse, f.1 ≤ 25 := by
  intro f hf
  rcases List.mem_cons.mp hf with rfl | hf
  · exact (by decide : 16 ≤ 25)
  · obtain ⟨i, -, rfl⟩ := List.mem_map.mp hf
    exact (by decide : 16 ≤ 25)

/-- A default that meets a bound keeps it on all of `getD`. -/
theorem getD_le {l : List Nat} {b : Nat} (h : ∀ x ∈ l, x ≤ b) (i : Nat) : l.getD i 0 ≤ b := by
  rw [List.getD_eq_getElem?_getD]
  cases hi : l[i]? with
  | none => exact Nat.zero_le b
  | some x => exact h x (List.mem_of_getElem? hi)

/-- A symbol's field is as wide as its code length. -/
theorem bodyFields_width {lens codes : List (List Nat)} {b : Nat}
    (hlens : ∀ row ∈ lens, ∀ l ∈ row, l ≤ b) (groups : List (List Nat)) :
    ∀ selectors, ∀ f ∈ bodyFields lens codes groups selectors, f.1 ≤ b := by
  have row (t : Nat) : ∀ l ∈ lens.getD t [], l ≤ b := by
    rw [List.getD_eq_getElem?_getD]
    cases ht : lens[t]? with
    | none => exact fun _ h => nomatch h
    | some r => exact hlens r (List.mem_of_getElem? ht)
  induction groups with
  | nil => exact fun _ _ h => nomatch h
  | cons g groups ih =>
    intro selectors f hf
    cases selectors with
    | nil => exact nomatch hf
    | cons t selectors =>
      rcases List.mem_append.mp hf with hf | hf
      · obtain ⟨x, -, rfl⟩ := List.mem_map.mp hf
        exact getD_le (row t) x
      · exact ih selectors f hf

/-- The lengths `ENC_EMIT` reads are at most 20. -/
theorem Encoder.LengthsLegal.rows {e : Encoder} (h : e.LengthsLegal) (hs : e.estate = .coded) :
    ∀ row ∈ e.eLen.readRows Config.symbolRow e.nGroups.toNat e.alphabet, ∀ l ∈ row, l ≤ 20 := by
  intro row hrow l hl
  obtain ⟨t, ht, rfl⟩ := List.mem_map.mp hrow
  obtain ⟨x, hx, rfl⟩ := List.mem_map.mp hl
  obtain ⟨v, hv, rfl⟩ := List.mem_map.mp hx
  exact h (.inr hs) t (List.mem_range.mp ht) v (List.mem_range.mp hv)

theorem Encoder.emitFields_width {e : Encoder} (h : e.LengthsLegal) (hs : e.estate = .coded) :
    ∀ f ∈ e.emitFields, f.1 ≤ 25 := by
  intro f hf
  simp only [Encoder.emitFields, List.mem_append] at hf
  rcases hf with (((hf | hf) | hf) | hf) | hf
  · exact bitmapFields_width _ f hf
  · simp only [List.mem_cons, List.not_mem_nil, or_false] at hf
    rcases hf with rfl | rfl
    · exact (by decide : 3 ≤ 25)
    · exact (by decide : 15 ≤ 25)
  · obtain ⟨j, hj, rfl⟩ := List.mem_map.mp hf
    have hpos : SelectorList (List.range e.nGroups.toNat) :=
      ⟨List.nodup_range, fun t ht => (List.mem_range.mp ht).trans e.nGroups.isLt⟩
    have hsel : ∀ t ∈ e.selector.readNats 0 e.nSelectors.toNat, t < 8 := by
      intro t ht
      obtain ⟨x, -, rfl⟩ := List.mem_map.mp ht
      exact x.isLt
    have := selectorMtf_le _ hpos hsel j hj
    simp only [unaryField]
    omega
  · obtain ⟨row, -, hf⟩ := List.mem_flatMap.mp hf
    exact tableFields_width row f hf
  · exact (bodyFields_width (h.rows hs) _ _ f hf).trans (by decide)

end Sys2Proof.Machine
end

section
/-! PROOF. What every command and every step keep (10_state.md), part 6: the invariant of the block,
and O58. -/

namespace Sys2Proof.Machine

/-! ## Errors, holds and resets -/

theorem ErrCode.toBits_ne_zero (e : ErrCode) : e.toBits ≠ 0 := by cases e <;> decide

theorem ErrCode.toBits_defined (e : ErrCode) : e.toBits ∈ definedErrorCodes := by
  cases e <;> decide

/-- The empty block has no bytes. -/
theorem blockLength_le_of_empty {e : Encoder} {n : Nat} (h : e.last = 0xFFFFFFFF) :
    e.blockLength ≤ n := by
  rw [Encoder.blockLength, h]
  exact Nat.zero_le n

theorem BitSink.tidy_of_empty {k : BitSink} (hacc : k.acc = 0) (hlive : k.live = 0) : k.Tidy := by
  rw [BitSink.Tidy, hacc, hlive]
  decide

theorem BitSource.tidy_of_empty {r : BitSource} (hacc : r.acc = 0) (hlive : r.live = 0) :
    r.Tidy := by
  rw [BitSource.Tidy, hacc, hlive]
  decide

theorem blockSizeLegal_iff {bs : BitVec 8} :
    blockSizeLegal bs = true ↔ 1 ≤ bs.toNat ∧ bs.toNat ≤ 9 := by
  simp only [blockSizeLegal, Bool.and_eq_true, decide_eq_true_eq]

theorem writeCountLegal_iff {n : BitVec 8} :
    writeCountLegal n = true ↔ 1 ≤ n.toNat ∧ n.toNat ≤ 25 := by
  simp only [writeCountLegal, Bool.and_eq_true, decide_eq_true_eq]

theorem readCountLegal_iff {n : BitVec 8} :
    readCountLegal n = true ↔ 1 ≤ n.toNat ∧ n.toNat ≤ 32 := by
  simp only [readCountLegal, Bool.and_eq_true, decide_eq_true_eq]

theorem noBlock_iff {s : State} : s.noBlock = true ↔ s.enc.last = 0xFFFFFFFF := decide_eq_true_iff

section
variable {s : State} (h : s.Inv)
include h

/-- An error may leave the BitSource and the decoder as it likes, but not their memories' form
(60_exceptions.md rule R128). -/
theorem State.Inv.takeError (u : State) (e : ErrCode) (hheld : u.held = none)
    (hsize : u.blockSize = s.blockSize) (henc : u.enc = s.enc) (hsink : u.sink = s.sink)
    (hmem : u.MemoriesCanonical) : (takeError e u).Inv where
  errDefined := e.toBits_defined
  blockSizeLegal := by rw [takeError_blockSize, hsize]; exact h.blockSizeLegal
  emptyIffNoBlock := by
    rw [noBlock_iff, takeError_enc, henc, ← noBlock_iff]; exact h.emptyIffNoBlock
  blockFits := by rw [takeError_enc, takeError_blockSize, henc, hsize]; exact h.blockFits
  inUseLegal := by rw [takeError_enc, henc]; exact h.inUseLegal
  lengthsLegal := by rw [takeError_enc, henc]; exact h.lengthsLegal
  sinkTidy := by rw [takeError_sink, hsink]; exact h.sinkTidy
  srcTidy herr := absurd herr e.toBits_ne_zero
  heldReads i hi := by rw [takeError_held, hheld] at hi; contradiction
  memories := hmem

/-- A command that reads bits may hold while no error is recorded (rule R139). -/
theorem State.Inv.holdCommand {i : Instr} (herr : s.err = 0) (hi : Instr.readsBits i = true) :
    (holdCommand i s).Inv :=
  { h with heldReads := fun _ hj => Option.some.inj hj ▸ ⟨hi, herr⟩ }

/-- `CMDCNT` is no part of the invariant. -/
theorem State.Inv.countCommand : s.countCommand.Inv := { h with }

end

/-- Both resets (70_reset_and_hazards.md rule R134). -/
theorem State.inv_resetBlock (s : State) : s.resetBlock.Inv where
  errDefined := by rw [resetBlock_err]; decide
  blockSizeLegal := by rw [resetBlock_blockSize]; decide
  emptyIffNoBlock := iff_of_true rfl rfl
  blockFits := blockLength_le_of_empty rfl
  inUseLegal := Nat.zero_le _
  lengthsLegal := nofun
  sinkTidy := BitSink.tidy_of_empty rfl rfl
  srcTidy _ := BitSource.tidy_of_empty rfl rfl
  heldReads _ := nofun
  memories := ⟨Encoder.memoriesCanonical_resetAt _, Decoder.memoriesCanonical_resetAt _⟩

/-! ## Encoder commands -/

/-- One byte more in a block with room for it: `LAST + 1` does not wrap to −1 (rule R84). -/
theorem blockLength_put {last : Word} {cap : Nat} (hcap : cap ≤ 900000)
    (hfits : (last + 1).toNat ≤ cap) (hroom : last.toInt + 1 < cap) :
    (last + 1 + 1).toNat ≤ cap ∧ last + 1 ≠ 0xFFFFFFFF := by
  rw [BitVec.toInt_eq_toNat_cond] at hroom
  constructor <;> bv_omega

theorem State.Inv.capacity_le {s : State} (h : s.Inv) :
    Config.blockUnit * s.blockSize.toNat ≤ 900000 :=
  Nat.mul_le_mul_left Config.blockUnit h.blockSizeLegal.2

theorem rankOf_le (inUse : BitVec 256) (u : Nat) : rankOf inUse u ≤ u := by
  simpa [rankOf] using List.countP_le_length (p := fun v => inUse.getLsbD v) (l := List.range u)

/-- The encoder after tables were trained (rule R94): `r` holds the selectors and the tables. -/
def Encoder.setTrained (e : Encoder) (r : List Nat × List (List Nat)) : Encoder :=
  { e with
    nGroups := BitVec.ofNat 3 (tableCount e.nMtf.toNat)
    nSelectors := BitVec.ofNat 15 r.1.length
    selector := e.selector.writeNats 0 r.1
    eLen := e.eLen.writeRows Config.symbolRow 0 (r.2.map fun row => row.map (BitVec.ofNat 5))
    estate := .trained }

/-- As many tables as rule R90 asks for, of legal lengths, are legal in `E_LEN`. -/
theorem Encoder.setTrained_lengthsLegal {e : Encoder} {r : List Nat × List (List Nat)}
    (h : e.nInUse.toNat ≤ 256) (hcount : r.2.length = tableCount e.nMtf.toNat)
    (htables : ∀ row ∈ r.2, LegalLengths e.alphabet row) : (e.setTrained r).LengthsLegal := by
  intro _ t ht v hv
  have ht' : t < r.2.length := by
    rwa [Encoder.setTrained, BitVec.toNat_ofNat, Nat.mod_eq_of_lt (tableCount_lt _), ← hcount] at ht
  exact toNat_read_writeRows_le e.eLen (Encoder.alphabet_le_symbolRow h) htables ht' hv

/-- `ENC_TRAIN` in its state (rule R94). -/
theorem encTrain_done {s : State} (hs : s.enc.estate = .mtfDone) :
    encTrain s = .done { s with enc := s.enc.setTrained (train s.enc.alphabet
      (s.enc.mtfFreq.readNats 0 s.enc.alphabet) (s.enc.mtfv.readNats 0 s.enc.nMtf.toNat)) } :=
  if_neg (not_not.mpr hs)

/-! ## The BitSink's fields -/

theorem BitSink.tidy_finish {k : BitSink} (h : k.Tidy) : k.finish.Tidy := by
  obtain ⟨-, hacc, hlive, -⟩ := BitSink.finish_spec h
  exact BitSink.tidy_of_empty hacc hlive

theorem streamHeaderFields_width (bs : BitVec 4) : ∀ f ∈ streamHeaderFields bs, f.1 ≤ 25 := by
  simp [streamHeaderFields, byteField]

theorem blockHeaderFields_width (crcValue : Word) (rand : BitVec 1) (origPtr : BitVec 24) :
    ∀ f ∈ blockHeaderFields crcValue rand origPtr, f.1 ≤ 25 := by
  simp [blockHeaderFields, blockMagicFields, wordFields, byteField]

theorem trailerFields_width (combined : Word) :
    ∀ f ∈ trailerMagicFields ++ wordFields combined, f.1 ≤ 25 := by
  simp [trailerMagicFields, wordFields, byteField]

/-! ## Every command and every step -/

/-- What holds after a command if one property brings another along. -/
theorem CmdResult.LeadsTo.mp {P Q : State → Prop} {i : Instr} {s : State} {r : CmdResult}
    (hPQ : r.LeadsTo i s fun t => P t → Q t) (hP : r.LeadsTo i s P) : r.LeadsTo i s Q := by
  cases r with
  | done t => exact hPQ hP
  | raise e t => exact hPQ hP
  | hold => exact hPQ hP

/-- Every command's own rule leads to a state of the invariant, if its memories are canonical. -/
theorem commandBody_inv_of_memories {i : Instr} {s : State} (hi : i ≠ .sysReset) (herr : s.err = 0)
    (hheld : s.held = none) (h : s.Inv) :
    (commandBody i s).LeadsTo i s fun t => t.MemoriesCanonical → t.Inv := by
  have same : s.MemoriesCanonical → s.countCommand.Inv := fun _ => h.countCommand
  have fails (e : ErrCode) : s.MemoriesCanonical → (takeError e s).Inv :=
    h.takeError s e hheld rfl rfl rfl
  have src := h.srcTidy herr
  cases i with
  | sysReset => exact absurd rfl hi
  | nop => exact same
  | crcReset | crcCombine | decReset => exact fun hm => { h with memories := hm }
  | crcUpdate _ | crcUpdateRun _ _ | crcFold _ => exact fun hm => { h with memories := hm }
  | cfg bs =>
    refine leadsTo_ite (fun _ => fails _) fun hs => leadsTo_ite (fun _ => fails _) fun hbs hm => ?_
    have legal := blockSizeLegal_iff.mp (by simpa using hbs)
    have empty := noBlock_iff.mp (h.emptyIffNoBlock.mp (not_not.mp hs))
    have size : (bs.setWidth 4).toNat = bs.toNat := by
      rw [BitVec.toNat_setWidth]; omega
    exact { h with
      blockSizeLegal := size ▸ legal, blockFits := blockLength_le_of_empty empty, memories := hm }
  | sinkReset =>
    exact fun hm => { h with
      sinkTidy := BitSink.tidy_of_empty rfl rfl, memories := hm }
  | sinkWrite n value =>
    rw [commandBody]
    refine leadsTo_sinkCommand (fails _) (leadsTo_ite (fun _ => fails _) fun hn hm => ?_)
    have legal := writeCountLegal_iff.mp (by simpa using hn)
    exact { h with sinkTidy := (BitSink.write_spec h.sinkTidy legal.2 value).1, memories := hm }
  | sinkFlush =>
    rw [commandBody]
    exact leadsTo_sinkCommand (fails _) fun hm =>
      { h with sinkTidy := (BitSink.drain_spec h.sinkTidy).1, memories := hm }
  | sinkFinish =>
    rw [commandBody]
    exact leadsTo_sinkCommand (fails _) fun hm =>
      { h with sinkTidy := BitSink.tidy_finish h.sinkTidy, memories := hm }
  | srcReset =>
    exact fun hm => { h with
      srcTidy := fun _ => BitSource.tidy_of_empty rfl rfl, memories := hm }
  | srcRead n =>
    refine leadsTo_ite (fun _ => fails _) fun hn => leadsTo_readCommand (fun v r hr hm => ?_)
      (fun e => h.takeError (spoilSrcRead s) e hheld rfl rfl rfl) fun _ => h.holdCommand herr rfl
    have legal := readCountLegal_iff.mp (by simpa using hn)
    exact { h with srcTidy := fun _ => (consumes_rd legal.2).tidy src hr, memories := hm }
  | blkReset =>
    exact fun hm => { h with
      emptyIffNoBlock := iff_of_true rfl rfl, blockFits := blockLength_le_of_empty rfl
      lengthsLegal := nofun, memories := hm }
  | blkPut byte =>
    refine leadsTo_ite (fun _ => fails _) fun _ => leadsTo_ite (fun _ => fails _) fun hroom hm => ?_
    obtain ⟨fits, loaded⟩ := blockLength_put h.capacity_le h.blockFits (by push_cast; omega)
    exact { h with
      emptyIffNoBlock := iff_of_false nofun fun hno => loaded (noBlock_iff.mp hno)
      blockFits := fits, lengthsLegal := nofun, memories := hm }
  | encMtf =>
    refine leadsTo_unlessNoBlock same fun hblock => leadsTo_ite (fun _ => fails _) fun _ hm => ?_
    exact { h with
      emptyIffNoBlock := iff_of_false nofun (Bool.eq_false_iff.mp hblock)
      inUseLegal := (Nat.mod_le _ _).trans (rankOf_le _ _), lengthsLegal := nofun, memories := hm }
  | encTrain =>
    refine leadsTo_unlessNoBlock same fun hblock => ?_
    by_cases hs : s.enc.estate = .mtfDone
    · rw [encTrain_done hs]
      have count := train_tables_length s.enc.alphabet (s.enc.mtfFreq.readNats 0 s.enc.alphabet)
        (s.enc.mtfv.readNats 0 s.enc.nMtf.toNat)
      rw [Mem.readNats_length] at count
      exact fun hm => { h with
        emptyIffNoBlock := iff_of_false nofun (Bool.eq_false_iff.mp hblock)
        lengthsLegal := Encoder.setTrained_lengthsLegal h.inUseLegal count fun _ => train_legal
        memories := hm }
    · rw [encTrain, if_pos hs]
      exact fails _
  | encCodes =>
    refine leadsTo_unlessNoBlock same fun hblock => leadsTo_ite (fun _ => fails _) fun hs hm => ?_
    exact { h with
      emptyIffNoBlock := iff_of_false nofun (Bool.eq_false_iff.mp hblock)
      lengthsLegal := fun _ => h.lengthsLegal (.inl (not_not.mp hs)), memories := hm }
  | encEmit =>
    refine leadsTo_unlessNoBlock same fun _ => leadsTo_ite (fun _ => fails _) fun hs =>
      leadsTo_sinkCommand (fails _) fun hm => ?_
    have width := Encoder.emitFields_width h.lengthsLegal (not_not.mp hs)
    exact { h with
      emptyIffNoBlock := iff_of_true rfl rfl, blockFits := blockLength_le_of_empty rfl
      lengthsLegal := nofun, sinkTidy := (BitSink.writeAll_spec _ width h.sinkTidy).1
      memories := hm }
  | encStreamHdr =>
    rw [commandBody]
    refine leadsTo_sinkCommand (fails _) fun hm => { h with sinkTidy := ?_, memories := hm }
    exact (BitSink.writeAll_spec _ (streamHeaderFields_width _) h.sinkTidy).1
  | encBlockHdr rand origPtr =>
    refine leadsTo_unlessNoBlock same fun _ => leadsTo_sinkCommand (fails _) <|
      leadsTo_ite (fun _ => fails _) fun _ hm => { h with sinkTidy := ?_, memories := hm }
    exact (BitSink.writeAll_spec _ (blockHeaderFields_width _ _ _) h.sinkTidy).1
  | encTrailer =>
    rw [commandBody]
    refine leadsTo_sinkCommand (fails _) fun hm => { h with sinkTidy := ?_, memories := hm }
    exact BitSink.tidy_finish (BitSink.writeAll_spec _ (trailerFields_width _) h.sinkTidy).1
  | decStreamHdr =>
    refine leadsTo_inDState (fails _) fun _ => leadsTo_readCommand (fun bs r hr hm => ?_)
      (fun e => h.takeError (spoilStreamHdr s) e hheld rfl rfl rfl) fun _ => h.holdCommand herr rfl
    exact { h with srcTidy := fun _ => consumes_readStreamHdr.tidy src hr, memories := hm }
  | decBlockStart =>
    refine leadsTo_inDState (fails _) fun _ => leadsTo_readCommand (fun a r hr => ?_)
      (fun e => h.takeError (spoilBlockStart s) e hheld rfl rfl rfl) fun _ => h.holdCommand herr rfl
    have tidy : r.Tidy := (consumes_readBlockStart _).tidy src hr
    cases a with
    | block crc rand origPtr => exact fun hm => { h with srcTidy := fun _ => tidy, memories := hm }
    | trailer => exact fun hm => { h with srcTidy := fun _ => tidy, memories := hm }
  | decTables =>
    refine leadsTo_inDState (fails _) fun _ => leadsTo_readCommand (fun x r hr hm => ?_)
      (fun e => h.takeError (spoilTables s) e hheld rfl rfl rfl) fun _ => h.holdCommand herr rfl
    exact { h with srcTidy := fun _ => consumes_readTables.tidy src hr, memories := hm }
  | decSymbols =>
    refine leadsTo_inDState (fails _) fun _ => leadsTo_readCommand (fun x r hr hm => ?_)
      (fun e => h.takeError (spoilSymbols s) e hheld rfl rfl rfl) fun _ => h.holdCommand herr rfl
    exact { h with srcTidy := fun _ => (consumes_readSymbols _).tidy src hr, memories := hm }
  | decIbwt =>
    exact leadsTo_inDState (fails _) fun _ => leadsTo_ibwt fun hm => { h with memories := hm }
  | decWalk => exact leadsTo_ite (fun _ => fails _) fun _ hm => { h with memories := hm }
  | decBlockEnd =>
    rw [commandBody]
    refine leadsTo_inDState (fails _) fun _ => leadsTo_ite (fun _ => ?_) fun _ hm =>
      { h with memories := hm }
    exact h.takeError (spoilBlockEnd s) _ hheld rfl rfl rfl

theorem inv_stepInvariant : StepInvariant State.Inv where
  queue _ _ h := { h with }
  effect a s h := by rw [hostEffect_frame]; exact { h with }
  free _ h := { h with heldReads := fun _ => nofun }
  reset s _ := s.inv_resetBlock
  count _ h := h.countCommand
  error e _ hheld h := h.takeError _ e hheld rfl rfl rfl h.memories
  body i _ hi herr hheld h :=
    (commandBody_inv_of_memories hi herr hheld h).mp (commandBody_memoriesCanonical i h.memories)

/-- Settles O58: besides the memories' form (O57), every command keeps the registers' ranges, and
writes fields of at most 25 bits and reads at most 32 bits at once. -/
theorem invKeptByEveryStep : Obligations.InvKeptByEveryStep := by
  unfold Obligations.InvKeptByEveryStep
  exact fun _ _ hs h => inv_stepInvariant.step hs h

end Sys2Proof.Machine
end

section
/-! PROOF. The host's side of the ports (20_memory.md): what each FIFO action and a register read do
at a free command port. O6 and O7. -/

namespace Sys2Proof.Machine

/-! ## A host action at the ports -/

/-- A step whose action is neither a command word nor the reset input does what the action does, and
then runs a held command again (70_reset_and_hazards.md rule R139). -/
theorem step_eq_retryHeld {s : State} {a : HostAction} {rest : List HostAction}
    (hq : s.hostQueue = a :: rest) (hcmd : ∀ w, a ≠ .cmd w) (hreset : a ≠ .reset) :
    step s = retryHeld (hostEffect a { s with hostQueue := rest }) := by
  rw [step, hostStep, hq]
  cases a with
  | cmd w => exact absurd rfl (hcmd w)
  | reset => exact absurd rfl hreset
  | pushIn _ | closeIn | popOut | popDout | read _ => rfl

theorem retryHeld_free {s : State} (hheld : s.held = none) : retryHeld s = .next s := by
  rw [retryHeld, hheld]

theorem hostEffect_held (a : HostAction) (s : State) : (hostEffect a s).held = s.held := by
  rw [hostEffect_frame]

/-- With no command held, the action is all that such a step does. -/
theorem step_eq_of_hostEffect {s t : State} {a : HostAction} {rest : List HostAction}
    (hheld : s.held = none) (hq : s.hostQueue = a :: rest)
    (heffect : hostEffect a { s with hostQueue := rest } = t)
    (hcmd : ∀ w, a ≠ .cmd w := by nofun) (hreset : a ≠ .reset := by nofun) : step s = .next t := by
  subst heffect
  exact (step_eq_retryHeld hq hcmd hreset).trans
    (retryHeld_free ((hostEffect_held _ _).trans hheld))

/-! ## The byte FIFOs (rules R38 to R40) -/

theorem pushIn_open {s : State} {b : Byte} (h : s.src.closed = false) :
    pushIn b s = { s with src := { s.src with fifo := s.src.fifo ++ [b] } } := by
  rw [pushIn, h]; rfl

theorem pushIn_closed {s : State} {b : Byte} (h : s.src.closed = true) : pushIn b s = s :=
  if_pos h

theorem popOut_cons {s : State} {b : Byte} {out : List Byte} (h : s.sink.out = b :: out) :
    popOut s = { s with sink := { s.sink with out := out }, popOutData := b } := by
  rw [popOut, h]

theorem popDout_cons {s : State} {b : Byte} {out : List Byte} (h : s.dout = b :: out) :
    popDout s = { s with dout := out, popDoutData := b } := by
  rw [popDout, h]

/-- A pop of an empty OUT returns a free value and removes nothing (assumption log 6). -/
theorem popOut_nil {s : State} (h : s.sink.out = []) :
    popOut s = { s with
      popOutData := Config.freeBits 8 s.freeTick 0, freeTick := s.freeTick + 1 } := by
  rw [popOut, h]

/-- A pop of an empty DOUT returns a free value and removes nothing (assumption log 6). -/
theorem popDout_nil {s : State} (h : s.dout = []) :
    popDout s = { s with
      popDoutData := Config.freeBits 8 s.freeTick 0, freeTick := s.freeTick + 1 } := by
  rw [popDout, h]

/-- Settles O6: at a free port a step is the host action alone, and each action has one equation per
state of its FIFO. -/
theorem hostActionsMoveBytes : Obligations.HostActionsMoveBytes := by
  unfold Obligations.HostActionsMoveBytes
  intro s rest hheld
  refine ⟨fun b hq hopen => ?_, fun b hq hclosed => ?_, fun hq => ?_, fun b out hq hout => ?_,
    fun b out hq hout => ?_, fun hq hempty => ?_, fun hq hempty => ?_⟩
  · exact step_eq_of_hostEffect hheld hq (pushIn_open hopen)
  · exact step_eq_of_hostEffect hheld hq (pushIn_closed hclosed)
  · exact step_eq_of_hostEffect hheld hq rfl
  · exact step_eq_of_hostEffect hheld hq (popOut_cons hout)
  · exact step_eq_of_hostEffect hheld hq (popDout_cons hout)
  · exact ⟨_, _, step_eq_of_hostEffect hheld hq (popOut_nil hempty)⟩
  · exact ⟨_, _, step_eq_of_hostEffect hheld hq (popDout_nil hempty)⟩

/-! ## The register read map (rule R41) -/

/-- Every address outside the map reads 0: unaligned, or above the last register. -/
theorem readRegister_unmapped (s : State) {a : BitVec 12} (h : a.toNat % 4 ≠ 0 ∨ 0x88 < a.toNat) :
    s.readRegister a = 0 := by
  unfold State.readRegister
  split
  case h_36 => rfl
  -- in every other arm `a` is an aligned address up to 0x88
  all_goals omega

/-- The one register wider than the port: a read returns its low half. -/
theorem readRegister_srcAcc (s : State) :
    s.readRegister 0x2C = s.src.acc.extractLsb' 0 32 :=
  BitVec.setWidth_eq_extractLsb' (by decide)

/-- Settles O7: a read changes nothing but what it returns, and the value it returns is the register
map's. -/
theorem readReturnsTheRegisterMap : Obligations.ReadReturnsTheRegisterMap := by
  unfold Obligations.ReadReturnsTheRegisterMap
  intro s a rest hheld hq
  refine ⟨s.readRegister a, step_eq_of_hostEffect hheld hq rfl, ?_⟩
  -- the eleven registers below `SRC_ACC`
  iterate 11 refine ⟨by rintro rfl; rfl, ?_⟩
  refine ⟨by rintro rfl; exact readRegister_srcAcc s, ?_⟩
  -- the twenty-three registers above it
  iterate 23 refine ⟨by rintro rfl; rfl, ?_⟩
  exact readRegister_unmapped s

end Sys2Proof.Machine
end

section
/-! PROOF. The command word (30_encoding.md rules R53 to R57), part 1: its four fields, and the
operands that fill only the low bits of a field. -/

namespace Sys2Proof

/-! ## The four fields (rule R53) -/

section
variable (op a a' : BitVec 8) (b b' : BitVec 16) (c c' : Word) (w : Command)

@[simp] theorem opField_packWord : opField (packWord op a b c) = op := by
  calc (op ++ a ++ b ++ c).extractLsb' 56 8
    _ = (op ++ a ++ b).extractLsb' 24 8 := BitVec.extractLsb'_append_eq_of_le (by decide)
    _ = (op ++ a).extractLsb' 8 8 := BitVec.extractLsb'_append_eq_of_le (by decide)
    _ = op := BitVec.extractLsb'_append_eq_left

@[simp] theorem aField_packWord : aField (packWord op a b c) = a := by
  calc (op ++ a ++ b ++ c).extractLsb' 48 8
    _ = (op ++ a ++ b).extractLsb' 16 8 := BitVec.extractLsb'_append_eq_of_le (by decide)
    _ = (op ++ a).extractLsb' 0 8 := BitVec.extractLsb'_append_eq_of_le (by decide)
    _ = a := BitVec.extractLsb'_append_eq_right

@[simp] theorem bField_packWord : bField (packWord op a b c) = b := by
  calc (op ++ a ++ b ++ c).extractLsb' 32 16
    _ = (op ++ a ++ b).extractLsb' 0 16 := BitVec.extractLsb'_append_eq_of_le (by decide)
    _ = b := BitVec.extractLsb'_append_eq_right

@[simp] theorem cField_packWord : cField (packWord op a b c) = c :=
  BitVec.extractLsb'_append_eq_right

@[simp] theorem opField_and (v : Command) : opField (v &&& w) = opField v &&& opField w :=
  BitVec.extractLsb'_and

@[simp] theorem aField_and (v : Command) : aField (v &&& w) = aField v &&& aField w :=
  BitVec.extractLsb'_and

@[simp] theorem bField_and (v : Command) : bField (v &&& w) = bField v &&& bField w :=
  BitVec.extractLsb'_and

@[simp] theorem cField_and (v : Command) : cField (v &&& w) = cField v &&& cField w :=
  BitVec.extractLsb'_and

/-- A word is its four fields. -/
theorem packWord_fields : packWord (opField w) (aField w) (bField w) (cField w) = w := by
  have hi : opField w ++ aField w = w.extractLsb' 48 16 :=
    BitVec.extractLsb'_append_extractLsb'_eq_extractLsb' rfl
  have mid : w.extractLsb' 48 16 ++ bField w = w.extractLsb' 32 32 :=
    BitVec.extractLsb'_append_extractLsb'_eq_extractLsb' rfl
  unfold packWord
  rw [hi, mid]
  exact BitVec.extractLsb'_append_extractLsb'

theorem eq_zero_iff_fields :
    w = 0 ↔ opField w = 0 ∧ aField w = 0 ∧ bField w = 0 ∧ cField w = 0 := by
  constructor
  · rintro rfl
    exact ⟨rfl, rfl, rfl, rfl⟩
  · rintro ⟨hop, ha, hb, hc⟩
    rw [← packWord_fields w, hop, ha, hb, hc]
    rfl

/-- A mask outside the opcode picks bits of each operand field on its own. -/
theorem packWord_and_eq_zero_iff : packWord op a b c &&& packWord 0 a' b' c' = 0 ↔
    a &&& a' = 0 ∧ b &&& b' = 0 ∧ c &&& c' = 0 := by
  rw [eq_zero_iff_fields]
  simp

theorem decode_packWord : decode (packWord op a b c) = decodeFields op a b c := by simp [decode]

end

/-! ## An operand in the low bits of a field (rules R54 and R55) -/

section
variable {k m : Nat}

theorem low_setWidth (x : BitVec m) : (x.setWidth (k + m)).extractLsb' 0 m = x := by
  rw [BitVec.extractLsb'_setWidth_of_le (by omega), BitVec.extractLsb'_eq_self]

theorem high_setWidth (x : BitVec m) : (x.setWidth (k + m)).extractLsb' m k = 0 := by
  rw [BitVec.extractLsb'_setWidth_of_le (by omega)]
  ext i hi
  simp

theorem setWidth_low_eq_self {x : BitVec (k + m)} (h : x.extractLsb' m k = 0) :
    (x.extractLsb' 0 m).setWidth (k + m) = x := by
  calc (x.extractLsb' 0 m).setWidth (k + m)
    _ = 0#k ++ x.extractLsb' 0 m := by rw [BitVec.setWidth_eq_append (by omega)]; simp
    _ = x.extractLsb' m k ++ x.extractLsb' 0 m := by rw [h]; rfl
    _ = x := BitVec.extractLsb'_append_extractLsb'

/-- The bits above the operand are 0 exactly when none of them is in the mask of these bits. -/
theorem and_highMask_eq_zero_iff (x : BitVec (k + m)) :
    x &&& (BitVec.allOnes k ++ 0#m) = 0 ↔ x.extractLsb' m k = 0 := by
  have masked : x &&& (BitVec.allOnes k ++ 0#m) = x.extractLsb' m k ++ 0#m := by
    conv_lhs => rw [← BitVec.extractLsb'_append_extractLsb' (x := x)]
    rw [BitVec.and_append, BitVec.and_allOnes, BitVec.and_zero]
  have zero : (0 : BitVec (k + m)) = 0#k ++ 0#m := BitVec.zero_append_zero.symm
  rw [masked, zero]
  exact BitVec.append_left_inj (0#m)

theorem and_allOnes_eq_zero_iff (x : BitVec m) : x &&& BitVec.allOnes m = 0 ↔ x = 0 := by
  rw [BitVec.and_allOnes]

theorem and_zero_eq_zero_iff (x : BitVec m) : x &&& 0 = 0 ↔ True :=
  iff_true_intro BitVec.and_zero

theorem and_byteMask_eq_zero_iff (c : Word) : c &&& 0xFFFFFF00 = 0 ↔ byteOnly c = true :=
  (and_highMask_eq_zero_iff (k := 24) (m := 8) c).trans decide_eq_true_iff.symm

theorem setWidth_byte_eq_self {c : Word} (h : byteOnly c = true) :
    (c.extractLsb' 0 8).setWidth 32 = c :=
  setWidth_low_eq_self (k := 24) (of_decide_eq_true h)

end

end Sys2Proof
end

section
/-! PROOF. The command word (30_encoding.md rules R53 to R57), part 2: each row of the opcode map,
and O1 to O3 and O5. -/

namespace Sys2Proof.Machine

/-! ## Decoding an encoded command (rule R56) -/

theorem decode_encode (i : Instr) : decode (encode i) = .ok i := by
  cases i with
  | cfg _ | sinkWrite _ _ | srcRead _ | crcFold _ => exact decode_packWord _ _ _ _
  | crcUpdate byte | crcUpdateRun byte _ | blkPut byte =>
    have low : (byte.setWidth 32).extractLsb' 0 8 = byte := low_setWidth (k := 24) byte
    have high : byteOnly (byte.setWidth 32) = true := decide_eq_true (high_setWidth (k := 24) byte)
    rw [encode, decode_packWord]
    simp [decodeFields, ifReservedZero, low, high]
  | encBlockHdr rand origPtr =>
    have randLow := low_setWidth (k := 7) rand
    have randHigh := high_setWidth (k := 7) rand
    have ptrLow := low_setWidth (k := 8) origPtr
    have ptrHigh := high_setWidth (k := 8) origPtr
    rw [encode, decode_packWord]
    simp [decodeFields, ifReservedZero, randLow, randHigh, ptrLow, ptrHigh]
  | _ => rfl

/-! ## The rows of the opcode map (rules R55 and R56) -/

/-- The opcode is a command's, and the mask is the bits reserved for it: a word with this opcode is
rejected when one of them is set, and otherwise is a command's encoding and decodes to it. -/
def MeansCommand (op : BitVec 8) (mask : Command) : Prop :=
  ∀ a b c, ∃ i, decodeFields op a b c = ifReservedZero (packWord op a b c &&& mask = 0) i ∧
    (packWord op a b c &&& mask = 0 → encode i = packWord op a b c)

section
variable {op ma : BitVec 8} {mb : BitVec 16} {mc : Word}

/-- A row from its parts, the mask field by field: `zero` is the decoder's check, `i` the command it
answers. -/
theorem meansCommand_of_fields {zero : BitVec 8 → BitVec 16 → Word → Prop}
    [∀ a b c, Decidable (zero a b c)] {i : BitVec 8 → BitVec 16 → Word → Instr}
    (hdecode : ∀ a b c, decodeFields op a b c = ifReservedZero (zero a b c) (i a b c))
    (hencode : ∀ a b c, zero a b c → encode (i a b c) = packWord op a b c)
    (hzero : ∀ a b c, a &&& ma = 0 ∧ b &&& mb = 0 ∧ c &&& mc = 0 ↔ zero a b c := by
      intros
      simp only [and_allOnes_eq_zero_iff, and_zero_eq_zero_iff, and_byteMask_eq_zero_iff, true_and,
        and_true]) :
    MeansCommand op (packWord 0 ma mb mc) := by
  intro a b c
  have mask := (packWord_and_eq_zero_iff op a ma b mb c mc).trans (hzero a b c)
  refine ⟨i a b c, ?_, fun h => hencode a b c (mask.mp h)⟩
  rw [hdecode]
  exact congrArg (ifReservedZero · _) (decide_eq_decide.mpr mask.symm)

theorem meansCommand_noOperand (i : Instr)
    (hdecode : ∀ a b c, decodeFields op a b c = ifReservedZero (a = 0 ∧ b = 0 ∧ c = 0) i := by
      intros; rfl)
    (hencode : encode i = packWord op 0 0 0 := by rfl) : MeansCommand op 0x00FFFFFFFFFFFFFF := by
  refine meansCommand_of_fields (ma := .allOnes 8) (mb := .allOnes 16) (mc := .allOnes 32)
    hdecode ?_
  rintro _ _ _ ⟨rfl, rfl, rfl⟩
  exact hencode

theorem meansCommand_operandA (i : BitVec 8 → Instr)
    (hdecode : ∀ a b c, decodeFields op a b c = ifReservedZero (b = 0 ∧ c = 0) (i a) := by
      intros; rfl)
    (hencode : ∀ a, encode (i a) = packWord op a 0 0 := by intro; rfl) :
    MeansCommand op 0x0000FFFFFFFFFFFF := by
  refine meansCommand_of_fields (ma := 0) (mb := .allOnes 16) (mc := .allOnes 32) hdecode ?_
  rintro a _ _ ⟨rfl, rfl⟩
  exact hencode a

theorem meansCommand_byte (i : Byte → Instr)
    (hdecode : ∀ a b c, decodeFields op a b c =
      ifReservedZero (a = 0 ∧ b = 0 ∧ byteOnly c) (i (c.extractLsb' 0 8)) := by intros; rfl)
    (hencode : ∀ byte, encode (i byte) = packWord op 0 0 (byte.setWidth 32) := by intro; rfl) :
    MeansCommand op 0x00FFFFFFFFFFFF00 := by
  refine meansCommand_of_fields (ma := .allOnes 8) (mb := .allOnes 16) (mc := 0xFFFFFF00) hdecode ?_
  rintro _ _ c ⟨rfl, rfl, hc⟩
  rw [hencode, setWidth_byte_eq_self hc]

end

theorem meansCommand_sinkWrite : MeansCommand 0x11 0x0000FFFF00000000 := by
  refine meansCommand_of_fields (ma := 0) (mb := .allOnes 16) (mc := 0) (fun _ _ _ => rfl) ?_
  rintro a _ c rfl
  rfl

theorem meansCommand_crcFold : MeansCommand 0x24 0x00FFFFFF00000000 := by
  refine meansCommand_of_fields (ma := .allOnes 8) (mb := .allOnes 16) (mc := 0)
    (fun _ _ _ => rfl) ?_
  rintro _ _ c ⟨rfl, rfl⟩
  rfl

theorem meansCommand_crcUpdateRun : MeansCommand 0x22 0x00FF0000FFFFFF00 := by
  refine meansCommand_of_fields (ma := .allOnes 8) (mb := 0) (mc := 0xFFFFFF00)
    (fun _ _ _ => rfl) ?_
  rintro _ b c ⟨rfl, hc⟩
  rw [encode, setWidth_byte_eq_self hc]

theorem meansCommand_encBlockHdr : MeansCommand 0x39 0x00FEFFFFFF000000 := by
  refine meansCommand_of_fields (ma := 0xFE) (mb := .allOnes 16) (mc := 0xFF000000)
    (fun _ _ _ => rfl) ?_ fun a b c => ?_
  · rintro a _ c ⟨ha, rfl, hc⟩
    have rand := setWidth_low_eq_self (k := 7) (m := 1) ha
    have origPtr := setWidth_low_eq_self (k := 8) (m := 24) hc
    rw [encode, rand, origPtr]
  · exact and_congr (and_highMask_eq_zero_iff (k := 7) (m := 1) a)
      (and_congr (and_allOnes_eq_zero_iff b) (and_highMask_eq_zero_iff (k := 8) (m := 24) c))

/-- Every row of the opcode map, in the order of rule R56. -/
theorem meansCommand_of_mem_opcodeRows {row : BitVec 8 × Command} (h : row ∈ opcodeRows) :
    MeansCommand row.1 row.2 := by
  simp only [opcodeRows, List.mem_append, List.mem_cons, List.not_mem_nil, or_false] at h
  rcases h with (((rfl | rfl | rfl | rfl | rfl | rfl | rfl | rfl | rfl) |
    (rfl | rfl | rfl | rfl | rfl | rfl | rfl | rfl | rfl)) |
    (rfl | rfl | rfl | rfl | rfl | rfl | rfl | rfl | rfl)) | (rfl | rfl | rfl | rfl)
  · exact meansCommand_noOperand .nop
  · exact meansCommand_noOperand .sysReset
  · exact meansCommand_operandA .cfg
  · exact meansCommand_noOperand .sinkReset
  · exact meansCommand_sinkWrite
  · exact meansCommand_noOperand .sinkFlush
  · exact meansCommand_noOperand .sinkFinish
  · exact meansCommand_noOperand .srcReset
  · exact meansCommand_operandA .srcRead
  · exact meansCommand_noOperand .crcReset
  · exact meansCommand_byte .crcUpdate
  · exact meansCommand_crcUpdateRun
  · exact meansCommand_noOperand .crcCombine
  · exact meansCommand_crcFold
  · exact meansCommand_noOperand .blkReset
  · exact meansCommand_byte .blkPut
  · exact meansCommand_noOperand .encMtf
  · exact meansCommand_noOperand .encTrain
  · exact meansCommand_noOperand .encCodes
  · exact meansCommand_noOperand .encEmit
  · exact meansCommand_noOperand .encStreamHdr
  · exact meansCommand_encBlockHdr
  · exact meansCommand_noOperand .encTrailer
  · exact meansCommand_noOperand .decReset
  · exact meansCommand_noOperand .decStreamHdr
  · exact meansCommand_noOperand .decBlockStart
  · exact meansCommand_noOperand .decTables
  · exact meansCommand_noOperand .decSymbols
  · exact meansCommand_noOperand .decIbwt
  · exact meansCommand_noOperand .decWalk
  · exact meansCommand_noOperand .decBlockEnd

theorem decode_of_row {w : Command} {row : BitVec 8 × Command} (hrow : row ∈ opcodeRows)
    (hop : opField w = row.1) : ∃ i, decode w = ifReservedZero (w &&& row.2 = 0) i ∧
      (w &&& row.2 = 0 → encode i = w) := by
  have h := meansCommand_of_mem_opcodeRows hrow (aField w) (bField w) (cField w)
  rwa [← hop, packWord_fields] at h

theorem decode_of_no_row {w : Command} (h : ∀ row ∈ opcodeRows, opField w ≠ row.1) :
    decode w = .error .reservedOpcode := by
  have hnot : (opField w).toNat ∉ opcodeRows.map fun row => row.1.toNat := by
    rw [List.mem_map]
    rintro ⟨row, hrow, heq⟩
    exact h row hrow (BitVec.eq_of_toNat_eq heq.symm)
  unfold decode decodeFields
  split
  case h_32 => rfl
  -- every other arm is that of an opcode in the map
  all_goals
    next heq =>
      rw [heq] at hnot
      exact absurd (by decide) hnot

/-! ## The opcode map (rules R55 to R57) -/

section
variable {p : Prop} [Decidable p] {i j : Instr}

theorem ifReservedZero_eq_ok_iff : ifReservedZero p i = .ok j ↔ p ∧ i = j := by
  by_cases h : p <;> simp [ifReservedZero, h]

theorem ifReservedZero_eq_reservedBits_iff : ifReservedZero p i = .error .reservedBits ↔ ¬p := by
  by_cases h : p <;> simp [ifReservedZero, h]

theorem ifReservedZero_ne_reservedOpcode : ifReservedZero p i ≠ .error .reservedOpcode := by
  by_cases h : p <;> simp [ifReservedZero, h]

end

section
variable {w : Command}

theorem decode_eq_reservedOpcode_iff :
    decode w = .error .reservedOpcode ↔ ∀ row ∈ opcodeRows, opField w ≠ row.1 := by
  refine ⟨fun h row hrow hop => ?_, decode_of_no_row⟩
  obtain ⟨i, hdecode, -⟩ := decode_of_row hrow hop
  exact ifReservedZero_ne_reservedOpcode (hdecode.symm.trans h)

theorem exists_row_of_decode_ne (h : decode w ≠ .error .reservedOpcode) :
    ∃ row ∈ opcodeRows, opField w = row.1 := by
  simpa [decode_eq_reservedOpcode_iff] using h

theorem decode_eq_reservedBits_iff : decode w = .error .reservedBits ↔
    ∃ row ∈ opcodeRows, opField w = row.1 ∧ w &&& row.2 ≠ 0 := by
  constructor
  · intro h
    obtain ⟨row, hrow, hop⟩ := exists_row_of_decode_ne (w := w) (by rw [h]; nofun)
    obtain ⟨i, hdecode, -⟩ := decode_of_row hrow hop
    exact ⟨row, hrow, hop, ifReservedZero_eq_reservedBits_iff.mp (hdecode.symm.trans h)⟩
  · rintro ⟨row, hrow, hop, hbits⟩
    obtain ⟨i, hdecode, -⟩ := decode_of_row hrow hop
    exact hdecode.trans (ifReservedZero_eq_reservedBits_iff.mpr hbits)

theorem row_of_decode_eq_ok {i : Instr} (h : decode w = .ok i) :
    ∃ row ∈ opcodeRows, opField w = row.1 ∧ w &&& row.2 = 0 ∧ encode i = w := by
  obtain ⟨row, hrow, hop⟩ := exists_row_of_decode_ne (w := w) (by rw [h]; nofun)
  obtain ⟨j, hdecode, hencode⟩ := decode_of_row hrow hop
  obtain ⟨hzero, rfl⟩ := ifReservedZero_eq_ok_iff.mp (hdecode.symm.trans h)
  exact ⟨row, hrow, hop, hzero, hencode hzero⟩

theorem exists_decode_eq_ok_iff : (∃ i, decode w = .ok i) ↔
    ∃ row ∈ opcodeRows, opField w = row.1 ∧ w &&& row.2 = 0 := by
  constructor
  · rintro ⟨i, h⟩
    obtain ⟨row, hrow, hop, hzero, -⟩ := row_of_decode_eq_ok h
    exact ⟨row, hrow, hop, hzero⟩
  · rintro ⟨row, hrow, hop, hzero⟩
    obtain ⟨i, hdecode, -⟩ := decode_of_row hrow hop
    exact ⟨i, hdecode.trans (ifReservedZero_eq_ok_iff.mpr ⟨hzero, rfl⟩)⟩

end

/-- Settles O1: each command's encoding decodes to it, and a word that decodes to a command has only
0s outside the command's opcode and operands, so it is the encoding. -/
theorem decodeAndEncodeAgree : Obligations.DecodeAndEncodeAgree := by
  unfold Obligations.DecodeAndEncodeAgree
  refine ⟨decode_encode, fun w i h => ?_⟩
  obtain ⟨_, -, -, -, hencode⟩ := row_of_decode_eq_ok h
  exact hencode

/-- Settles O2: the decoder checks the reserved bits of the opcode's row, if it has one. -/
theorem decodeFollowsOpcodeMap : Obligations.DecodeFollowsOpcodeMap := by
  unfold Obligations.DecodeFollowsOpcodeMap
  exact fun w =>
    ⟨decode_eq_reservedOpcode_iff, decode_eq_reservedBits_iff, exists_decode_eq_ok_iff⟩

/-- Settles O3: the decoder evaluated on eight fixed words, six commands and two that are none. -/
theorem sampleWordsDecode : Obligations.SampleWordsDecode := by
  unfold Obligations.SampleWordsDecode
  decide

/-! ## Words that are no command (40_control.md rule R59) -/

theorem step_of_decode_error {s : State} {w : Command} {rest : List HostAction} {e : DecodeError}
    (hheld : s.held = none) (hq : s.hostQueue = .cmd w :: rest) (hdecode : decode w = .error e) :
    step s = .next (rejectWord e { s with hostQueue := rest }) := by
  simp only [step, hostStep, hq, performAction, hheld, issue, hdecode]

theorem rejectWord_reservedOpcode {s : State} (herr : s.err = 0) :
    rejectWord .reservedOpcode s = takeError .opcode s := if_pos herr

theorem rejectWord_reservedBits {s : State} (herr : s.err = 0) :
    rejectWord .reservedBits s = takeError .operand s := if_pos herr

/-- Settles O5: such a word decodes to the error of its row (O2), and rejecting it is taking the
usage error of that name. -/
theorem reservedWordsFault : Obligations.ReservedWordsFault := by
  unfold Obligations.ReservedWordsFault
  intro s w rest hheld hq herr
  refine ⟨fun hop => ?_, fun hbits => ?_⟩
  · have hstep := step_of_decode_error hheld hq (decode_eq_reservedOpcode_iff.mpr hop)
    exact hstep.trans (congrArg _ (rejectWord_reservedOpcode herr))
  · have hstep := step_of_decode_error hheld hq (decode_eq_reservedBits_iff.mpr hbits)
    exact hstep.trans (congrArg _ (rejectWord_reservedBits herr))

end Sys2Proof.Machine
end

section
/-! PROOF. The command port and the control commands (40_control.md rules R59, R60 and R62): O4 and
O15. -/

namespace Sys2Proof.Machine

/-! ## A command word at a free port (rule R59) -/

theorem step_of_decode_ok {s : State} {w : Command} {rest : List HostAction} {i : Instr}
    (hheld : s.held = none) (hq : s.hostQueue = .cmd w :: rest) (hdecode : decode w = .ok i) :
    step s = exec i { s with hostQueue := rest } := by
  simp only [step, hostStep, hq, performAction, hheld, issue, hdecode]

/-- Settles O4: at a free port a step is the issue of the word, and issuing runs what it decodes
to. -/
theorem stepRunsDecodedCommand : Obligations.StepRunsDecodedCommand := by
  unfold Obligations.StepRunsDecodedCommand
  exact fun _ _ _ _ => step_of_decode_ok

/-! ## `NOP` and `CFG` (rules R60 and R62) -/

/-- A command whose own rule raises `E_OPERAND` changes `ERR` and `CMDCNT` and nothing else. -/
theorem exec_operandError {i : Instr} {s : State} (hi : i ≠ .sysReset) (herr : s.err = 0)
    (hbody : commandBody i s = .raise .operand s) :
    exec i s = .next { s with err := 0x22, cmdCnt := s.cmdCnt + 1 } := by
  rw [exec_eq_runCommand hi, runCommand_raise herr hbody]
  rfl

section
variable {s : State} {bs : BitVec 8}

theorem exec_nop (herr : s.err = 0) : exec .nop s = .next s.countCommand :=
  runCommand_done (i := .nop) herr rfl

theorem commandBody_cfg_notEmpty (hs : s.enc.estate ≠ .empty) :
    commandBody (.cfg bs) s = .raise .state s := if_pos hs

theorem commandBody_cfg_illegal (hs : s.enc.estate = .empty) (hbs : blockSizeLegal bs = false) :
    commandBody (.cfg bs) s = .raise .operand s :=
  (if_neg (not_not.mpr hs)).trans (if_pos (by rw [hbs]; rfl))

theorem commandBody_cfg_legal (hs : s.enc.estate = .empty) (hbs : blockSizeLegal bs = true) :
    commandBody (.cfg bs) s = .done { s with blockSize := bs.setWidth 4 } :=
  (if_neg (not_not.mpr hs)).trans (if_neg (by rw [hbs]; decide))

theorem exec_cfg_legal (herr : s.err = 0) (hs : s.enc.estate = .empty)
    (hbs : blockSizeLegal bs = true) :
    exec (.cfg bs) s = .next { s with blockSize := bs.setWidth 4 }.countCommand :=
  runCommand_done herr (commandBody_cfg_legal hs hbs)

end

/-- A legal block size fits in the four bits of `BLOCKSIZE100K`. -/
theorem toNat_setWidth_of_blockSizeLegal {bs : BitVec 8} (hbs : blockSizeLegal bs = true) :
    (bs.setWidth 4).toNat = bs.toNat := by
  have := (blockSizeLegal_iff.mp hbs).2
  rw [BitVec.toNat_setWidth]
  omega

theorem blockSizeLegal_eq_false_iff {bs : BitVec 8} :
    blockSizeLegal bs = false ↔ bs.toNat = 0 ∨ 9 < bs.toNat := by
  rw [← Bool.not_eq_true, blockSizeLegal_iff]
  omega

/-- Settles O15: `NOP` completes with no effect, and `CFG` has one outcome per answer of its two
checks. -/
theorem nopCountsAndCfgSetsBlockSize : Obligations.NopCountsAndCfgSetsBlockSize := by
  unfold Obligations.NopCountsAndCfgSetsBlockSize
  intro s bs herr
  refine ⟨exec_nop herr, fun hs hlow hhigh => ?_, fun hs hbs => ?_, fun hs => ?_⟩
  · have legal := blockSizeLegal_iff.mpr ⟨hlow, hhigh⟩
    exact ⟨_, toNat_setWidth_of_blockSizeLegal legal, exec_cfg_legal herr hs legal⟩
  · exact exec_operandError nofun herr
      (commandBody_cfg_illegal hs (blockSizeLegal_eq_false_iff.mpr hbs))
  · exact exec_stateError nofun herr (commandBody_cfg_notEmpty hs)

end Sys2Proof.Machine
end

section
/-! PROOF. The BitSink's streams and its commands (41_bitsink.md rules R63 to R70): O16 to O20. -/

namespace Sys2Proof.Machine

/-! ## The bytes emitted (rules R63 and R66) -/

/-- The bits of a byte list determine it. -/
theorem bytesToBits_injective : Function.Injective bytesToBits := by
  intro a b h
  induction a generalizing b with
  | nil =>
    cases b with
    | nil => rfl
    | cons c cs =>
      have hlen := congrArg List.length h
      simp only [bytesToBits_length, List.length_nil, List.length_cons] at hlen
      omega
  | cons x xs ih =>
    cases b with
    | nil => simpa using congrArg List.length h
    | cons c cs =>
      rw [bytesToBits_cons, bytesToBits_cons] at h
      obtain ⟨hhead, htail⟩ := List.append_inj h (by simp)
      have hbyte : x.toNat % 2 ^ 8 = c.toNat % 2 ^ 8 := natToBits_inj hhead
      rw [ih htail, BitVec.eq_of_toNat_eq (by omega : x.toNat = c.toNat)]

theorem padToByte_length (bits : List Bool) :
    (padToByte bits).length = 8 * ((bits.length + 7) / 8) := by
  rw [padToByte, List.length_append, List.length_replicate]
  omega

theorem BitSink.pending_length {k : BitSink} (h : k.Tidy) : k.pending.length = k.live.toNat := by
  rw [BitSink.pending_eq h.1, natToBits_length]

theorem BitSink.bits_length {k : BitSink} (h : k.Tidy) :
    k.bits.length = 8 * k.out.length + k.live.toNat := by
  rw [BitSink.bits, List.length_append, bytesToBits_length, BitSink.pending_length h]

theorem BitSink.pending_of_empty {k : BitSink} (h : k.live = 0) : k.pending = [] := by
  rw [BitSink.pending, h]
  rfl

/-- What has moved to OUT, with what is pending, is what was pending with what was written. -/
theorem BitSink.exists_emitted {k q : BitSink} {bits : List Bool} (hout : k.out <+: q.out)
    (hbits : q.bits = k.bits ++ bits) :
    ∃ emitted, q.out = k.out ++ emitted ∧
      bytesToBits emitted ++ q.pending = k.pending ++ bits := by
  obtain ⟨emitted, hq⟩ := hout
  refine ⟨emitted, hq.symm, ?_⟩
  simpa [BitSink.bits, ← hq] using hbits

theorem BitSink.out_prefix_writeAll (fields : List BitField) (hf : ∀ f ∈ fields, f.1 ≤ 25) :
    ∀ {k : BitSink}, k.Tidy → k.out <+: (k.writeAll fields).out := by
  induction fields with
  | nil => exact fun _ => List.prefix_rfl
  | cons f fs ih =>
    intro k h
    have first := BitSink.write_appended h (hf f List.mem_cons_self) f.2
    exact first.outKept.trans (ih (fun g hg => hf g (List.mem_cons_of_mem f hg)) first.tidy)

/-- `Finish()` only appends to OUT, and counts the bytes (rule R65). -/
theorem BitSink.finish_counts {k : BitSink} (h : k.Tidy) :
    k.out <+: k.finish.out ∧
      k.finish.bytes = k.bytes + BitVec.ofNat 32 (k.finish.out.length - k.out.length) := by
  have hdrain := BitSink.drain_appended h
  have hle := hdrain.outKept.length_le
  by_cases hlive : 0 < k.drain.live.toNat
  · have hout : k.finish.out = k.drain.emitTop.out := by simp [BitSink.finish, hlive]
    have hbytes : k.finish.bytes = k.drain.bytes + BitVec.ofNat 32 1 := by
      simp [BitSink.finish, BitSink.emitTop, hlive]
    rw [hout, hbytes, BitSink.emitTop]
    refine ⟨hdrain.outKept.trans (List.prefix_append _ _), ?_⟩
    rw [hdrain.counted, BitVec.add_assoc, ← BitVec.ofNat_add, List.length_append,
      List.length_singleton, Nat.sub_add_comm hle]
  · have hout : k.finish.out = k.drain.out := by simp [BitSink.finish, hlive]
    have hbytes : k.finish.bytes = k.drain.bytes := by simp [BitSink.finish, hlive]
    rw [hout, hbytes]
    exact ⟨hdrain.outKept, hdrain.counted⟩

/-- `Finish()` emits one byte for each eight bits pending or begun. -/
theorem BitSink.finish_out_length {k : BitSink} (h : k.Tidy) :
    k.finish.out.length = k.out.length + (k.live.toNat + 7) / 8 := by
  have hlen := congrArg List.length (BitSink.finish_spec h).1
  rw [bytesToBits_length, padToByte_length, BitSink.bits_length h] at hlen
  omega

/-! ## Every command keeps the BitSink's form (rule R66) -/

/-- Besides the commands that write bits, no command's own rule touches `SINK_ACC` or `SINK_LIVE`
but to clear them. -/
theorem commandBody_sinkTidy (i : Instr) {s : State} (h : s.Inv) :
    (commandBody i s).LeadsTo i s fun t => t.sink.Tidy := by
  have kept : s.sink.Tidy := h.sinkTidy
  cases i with
  | nop | srcReset | crcReset | crcCombine | blkReset | decReset => exact kept
  | crcUpdate _ | crcUpdateRun _ _ | crcFold _ => exact kept
  | sysReset | sinkReset => exact BitSink.tidy_of_empty rfl rfl
  | cfg bs => exact leadsTo_ite (fun _ => kept) fun _ => leadsTo_ite (fun _ => kept) fun _ => kept
  | sinkWrite n value =>
    rw [commandBody]
    refine leadsTo_sinkCommand kept (leadsTo_ite (fun _ => kept) fun hn => ?_)
    have legal := writeCountLegal_iff.mp (by simpa using hn)
    exact (BitSink.write_spec kept legal.2 value).1
  | sinkFlush =>
    rw [commandBody]
    exact leadsTo_sinkCommand kept (BitSink.drain_spec kept).1
  | sinkFinish =>
    rw [commandBody]
    exact leadsTo_sinkCommand kept (BitSink.tidy_finish kept)
  | encStreamHdr =>
    rw [commandBody]
    exact leadsTo_sinkCommand kept (BitSink.writeAll_spec _ (streamHeaderFields_width _) kept).1
  | encTrailer =>
    rw [commandBody]
    exact leadsTo_sinkCommand kept
      (BitSink.tidy_finish (BitSink.writeAll_spec _ (trailerFields_width _) kept).1)
  | encBlockHdr rand origPtr =>
    exact leadsTo_unlessNoBlock kept fun _ => leadsTo_sinkCommand kept <|
      leadsTo_ite (fun _ => kept) fun _ =>
        (BitSink.writeAll_spec _ (blockHeaderFields_width _ _ _) kept).1
  | encEmit =>
    refine leadsTo_unlessNoBlock kept fun _ => leadsTo_ite (fun _ => kept) fun hs =>
      leadsTo_sinkCommand kept ?_
    exact (BitSink.writeAll_spec _ (Encoder.emitFields_width h.lengthsLegal (not_not.mp hs)) kept).1
  | encMtf | encTrain | encCodes =>
    exact leadsTo_unlessNoBlock kept fun _ => leadsTo_ite (fun _ => kept) fun _ => kept
  | blkPut byte =>
    exact leadsTo_ite (fun _ => kept) fun _ => leadsTo_ite (fun _ => kept) fun _ => kept
  | srcRead n =>
    exact leadsTo_ite (fun _ => kept) fun _ =>
      leadsTo_readCommand (fun _ _ _ => kept) (fun _ => kept) kept
  | decStreamHdr | decTables | decSymbols =>
    exact leadsTo_inDState kept fun _ =>
      leadsTo_readCommand (fun _ _ _ => kept) (fun _ => kept) kept
  | decBlockStart =>
    refine leadsTo_inDState kept fun _ =>
      leadsTo_readCommand (fun a r _ => ?_) (fun _ => kept) kept
    cases a with
    | block crc rand origPtr => exact kept
    | trailer => exact kept
  | decIbwt => exact leadsTo_inDState kept fun _ => leadsTo_ibwt kept
  | decWalk => exact leadsTo_ite (fun _ => kept) fun _ => kept
  | decBlockEnd =>
    rw [commandBody]
    exact leadsTo_inDState kept fun _ => leadsTo_ite (fun _ => kept) fun _ => kept

/-- Of every state of the invariant, one where a command holds too (which is why this is not read off
the invariant, whose other parts need a free port). -/
theorem exec_sinkTidy {i : Instr} {s t : State} (hs : s.Inv) (h : exec i s = .next t) :
    t.sink.Tidy := by
  by_cases hi : i = .sysReset
  · rw [hi, exec_sysReset] at h
    exact Host.Outcome.next.inj h ▸ s.inv_resetBlock.sinkTidy
  by_cases herr : s.err = 0
  · exact exec_leadsTo hi herr (commandBody_sinkTidy i hs) h
  · rw [exec_eq_runCommand hi, runCommand_poisoned herr] at h
    exact Host.Outcome.next.inj h ▸ hs.sinkTidy

/-! ## The stream is what was written (rule R66) -/

section
variable {k : BitSink} (h : k.Tidy)
include h

/-- How the bits are split into fields does not show in the stream. -/
theorem BitSink.bits_writeAll_congr {f g : List BitField} (hf : ∀ x ∈ f, x.1 ≤ 25)
    (hg : ∀ x ∈ g, x.1 ≤ 25) (hbits : fieldBits f = fieldBits g) :
    (k.writeAll f).bits = (k.writeAll g).bits := by
  obtain ⟨-, streamF, -⟩ := BitSink.writeAll_spec f hf h
  obtain ⟨-, streamG, -⟩ := BitSink.writeAll_spec g hg h
  rw [streamF, streamG, hbits]

/-- OUT after `Finish()` depends on the stream only. -/
theorem BitSink.finish_out_congr {q : BitSink} (hq : q.Tidy) (hbits : k.bits = q.bits) :
    k.finish.out = q.finish.out := by
  apply bytesToBits_injective
  rw [(BitSink.finish_spec h).1, (BitSink.finish_spec hq).1, hbits]

end

/-- Settles O19: each write appends its field's bits to the bit string in OUT and pending, so that
string, and the bytes `Finish()` makes of it, depend on the fields' bits only. -/
theorem sinkStreamIsConcatenation : Obligations.SinkStreamIsConcatenation := by
  unfold Obligations.SinkStreamIsConcatenation
  refine ⟨fun _ _ _ => exec_sinkTidy, fun k fields hacc hlive hf => ?_, fun k f g h hfg hbits => ?_⟩
  · have width : ∀ f ∈ fields, f.1 ≤ 25 := fun f hmem => (hf f hmem).2
    have fresh := BitSink.tidy_of_empty hacc hlive
    obtain ⟨tidy, stream, -⟩ := BitSink.writeAll_spec fields width fresh
    have emitted := BitSink.exists_emitted (BitSink.out_prefix_writeAll fields width fresh) stream
    rw [BitSink.pending_of_empty hlive, List.nil_append] at emitted
    exact ⟨tidy, emitted⟩
  · have hf : ∀ x ∈ f, x.1 ≤ 25 := fun x hx => (hfg x (List.mem_append_left g hx)).2
    have hg : ∀ x ∈ g, x.1 ≤ 25 := fun x hx => (hfg x (List.mem_append_right f hx)).2
    have stream := BitSink.bits_writeAll_congr h hf hg hbits
    exact ⟨stream, BitSink.finish_out_congr (BitSink.writeAll_spec f hf h).1
      (BitSink.writeAll_spec g hg h).1 stream⟩

/-! ## The BitSink commands' own rules -/

/-- A command whose own rule completes. -/
theorem exec_done {i : Instr} {s t : State} (hi : i ≠ .sysReset) (herr : s.err = 0)
    (hbody : commandBody i s = .done t) : exec i s = .next t.countCommand :=
  (exec_eq_runCommand hi s).trans (runCommand_done herr hbody)

theorem writeCountLegal_eq_false_iff {n : BitVec 8} :
    writeCountLegal n = false ↔ n.toNat = 0 ∨ 25 < n.toNat := by
  rw [← Bool.not_eq_true, writeCountLegal_iff]
  omega

section
variable {s : State} {n : BitVec 8} {value : Word} (hopen : s.sink.done = false)
include hopen

theorem commandBody_sinkWrite_illegal (hn : writeCountLegal n = false) :
    commandBody (.sinkWrite n value) s = .raise .operand s := by
  rw [commandBody, sinkCommand_open hopen, hn]
  rfl

theorem commandBody_sinkWrite_legal (hn : writeCountLegal n = true) :
    commandBody (.sinkWrite n value) s = .done { s with sink := s.sink.write n.toNat value } := by
  rw [commandBody, sinkCommand_open hopen, hn]
  rfl

theorem commandBody_sinkFlush :
    commandBody .sinkFlush s = .done { s with sink := s.sink.drain } := by
  rw [commandBody, sinkCommand_open hopen]

theorem commandBody_sinkFinish :
    commandBody .sinkFinish s = .done { s with sink := s.sink.finish } := by
  rw [commandBody, sinkCommand_open hopen]

end

/-! ## `SINK_WRITE` (rules R64 and R68) -/

/-- Settles O16: a legal count completes with `W(n, value)`, which appends those bits, and any other
count is a usage error. -/
theorem sinkWriteAppendsBits : Obligations.SinkWriteAppendsBits := by
  unfold Obligations.SinkWriteAppendsBits
  intro s n value herr htidy hopen
  refine ⟨fun hlow hhigh => ?_, fun hn => ?_⟩
  · have legal := writeCountLegal_iff.mpr ⟨hlow, hhigh⟩
    have hexec := exec_done (i := .sinkWrite n value) nofun herr
      (commandBody_sinkWrite_legal hopen legal)
    exact ⟨_, hexec, BitSink.write_appended htidy hhigh value⟩
  · exact exec_operandError nofun herr
      (commandBody_sinkWrite_illegal hopen (writeCountLegal_eq_false_iff.mpr hn))

/-! ## `SINK_FLUSH` (rules R63 and R69) -/

theorem BitSink.drain_live {k : BitSink} (h : k.Tidy) :
    k.drain.live.toNat = k.live.toNat % 8 := by
  simpa using (BitSink.drain_appended h).live

/-- `Drain()` splits the pending bits into the bytes it emits and fewer than eight left pending. -/
theorem BitSink.drain_splits_pending {k : BitSink} (h : k.Tidy) :
    ∃ emitted, k.drain.out = k.out ++ emitted ∧ emitted.length = k.live.toNat / 8 ∧
      bytesToBits emitted ++ k.drain.pending = k.pending := by
  have drained := BitSink.drain_appended h
  obtain ⟨emitted, hout, hsplit⟩ := BitSink.exists_emitted drained.outKept drained.stream
  rw [List.append_nil] at hsplit
  refine ⟨emitted, hout, ?_, hsplit⟩
  have hlen := congrArg List.length hsplit
  rw [List.length_append, bytesToBits_length, BitSink.pending_length drained.tidy,
    BitSink.pending_length h, BitSink.drain_live h] at hlen
  omega

/-- Settles O17: `SINK_FLUSH` is the drain step, which emits the first bits of the pending ones as
whole bytes. -/
theorem sinkFlushEmitsWholeBytes : Obligations.SinkFlushEmitsWholeBytes := by
  unfold Obligations.SinkFlushEmitsWholeBytes
  intro s herr htidy hopen
  obtain ⟨emitted, hout, hcount, hsplit⟩ := BitSink.drain_splits_pending htidy
  have drained := BitSink.drain_appended htidy
  have hlive := BitSink.drain_live htidy
  have hlen : (bytesToBits emitted).length = 8 * emitted.length := bytesToBits_length emitted
  have hexec := exec_done (i := .sinkFlush) nofun herr (commandBody_sinkFlush hopen)
  refine ⟨s.sink.drain, emitted, hexec, drained, by omega, hlive, hout, hcount, ?_, ?_⟩
  · rw [← hsplit, List.take_left' hlen]
  · rw [← hsplit, List.drop_left' hlen]

/-! ## `SINK_FINISH` (rules R65 and R70) -/

/-- Settles O18: `SINK_FINISH` is the finish step, whose bytes are the bits in OUT and pending,
padded, so as many as the pending bits fill or begin. -/
theorem sinkFinishPadsToByte : Obligations.SinkFinishPadsToByte := by
  unfold Obligations.SinkFinishPadsToByte
  intro s herr htidy hopen
  obtain ⟨hbits, hacc, hlive, hdone⟩ := BitSink.finish_spec htidy
  obtain ⟨hout, hbytes⟩ := BitSink.finish_counts htidy
  rw [BitSink.finish_out_length htidy, Nat.add_sub_cancel_left] at hbytes
  have hexec := exec_done (i := .sinkFinish) nofun herr (commandBody_sinkFinish hopen)
  exact ⟨_, hexec, hbits, hout, hbytes, hacc, hlive, hdone⟩

/-! ## `SINK_RESET` and `SRC_RESET` (rule R67, 42_bitsource.md rule R73) -/

theorem BitSource.bits_of_empty {r : BitSource} (h : r.live = 0) : r.bits = bytesToBits r.fifo := by
  rw [BitSource.bits, h]
  rfl

/-- Settles O20: both resets complete unconditionally, and a BitSource with nothing pending reads
IN alone. -/
theorem streamResetsDropPendingBits : Obligations.StreamResetsDropPendingBits := by
  unfold Obligations.StreamResetsDropPendingBits
  intro s herr
  have sinkReset := exec_done (i := .sinkReset) nofun herr rfl
  have srcReset := exec_done (i := .srcReset) nofun herr rfl
  exact ⟨sinkReset, srcReset, BitSource.bits_of_empty rfl⟩

end Sys2Proof.Machine
end

section
/-! PROOF. Reads are lazy, part 1: a reading takes only the bytes it needs (42_bitsource.md rules R71
and R72), and short of them it raises `E_EOF` or holds (20_memory.md rule R38). -/

namespace Sys2Proof.Machine

/-- IN with more bytes behind those it holds. -/
def BitSource.withMore (r : BitSource) (extra : List Byte) : BitSource :=
  { r with fifo := r.fifo ++ extra }

/-- The block with more bytes behind those in IN. -/
def State.withMore (s : State) (extra : List Byte) : State :=
  { s with src := s.src.withMore extra }

@[simp] theorem BitSource.withMore_live (r : BitSource) (extra : List Byte) :
    (r.withMore extra).live = r.live := rfl

@[simp] theorem BitSource.withMore_available (r : BitSource) (extra : List Byte) :
    (r.withMore extra).available = r.available + 8 * extra.length := by
  simp only [BitSource.available, BitSource.withMore, List.length_append]
  omega

/-- What a reading answers without the bytes `extra` at the end of IN, and what it answers with them:
the same value or error, with those bytes left, unless the bytes without `extra` run out. -/
inductive ReadResult.Extends {α : Type} (closed : Bool) (extra : List Byte) :
    ReadResult α → ReadResult α → Prop
  | ok {a : α} {q : BitSource} (kept : q.closed = closed) :
      Extends closed extra (.ok a q) (.ok a (q.withMore extra))
  | raise {e : ErrCode} : Extends closed extra (.raise e) (.raise e)
  | eof {y : ReadResult α} (shut : closed = true) : Extends closed extra (.raise .eof) y
  | hold {y : ReadResult α} (opened : closed = false) : Extends closed extra .hold y

/-- A reading that takes only the bytes it needs. -/
def Reader.Lazy {α : Type} (x : Reader α) : Prop :=
  ∀ (r : BitSource) (extra : List Byte),
    ReadResult.Extends r.closed extra (x r) (x (r.withMore extra))

/-! ## What readings are made of -/

theorem lazy_pure {α : Type} (a : α) : (Reader.pure a).Lazy := fun _ _ => .ok rfl

theorem lazy_fail {α : Type} (e : ErrCode) : (Reader.fail (α := α) e).Lazy := fun _ _ => .raise

/-- A reading that goes on after another one, when what follows may differ with more bytes in IN. -/
theorem ReadResult.extends_bind {α β : Type} {x : Reader α} {f g : α → Reader β} {r : BitSource}
    {extra : List Byte} (hx : x.Lazy)
    (hfg : ∀ a q, x r = .ok a q → q.closed = r.closed →
      ReadResult.Extends q.closed extra (f a q) (g a (q.withMore extra))) :
    ReadResult.Extends r.closed extra (x.bind f r) (x.bind g (r.withMore extra)) := by
  have hx := hx r extra
  unfold Reader.bind
  generalize hless : x r = less, x (r.withMore extra) = more at hx
  cases hx with
  | @ok a q kept => exact kept ▸ hfg a q hless kept
  | raise => exact .raise
  | eof shut => exact .eof shut
  | hold opened => exact .hold opened

theorem lazy_bind {α β : Type} {x : Reader α} {f : α → Reader β} (hx : x.Lazy)
    (hf : ∀ a, (f a).Lazy) : (x.bind f).Lazy :=
  fun _ extra => ReadResult.extends_bind hx fun a q _ _ => hf a q extra

theorem lazy_ite {α : Type} {c : Prop} {_ : Decidable c} {x y : Reader α} (hx : x.Lazy)
    (hy : y.Lazy) : (if c then x else y).Lazy := by
  by_cases h : c
  · rw [if_pos h]; exact hx
  · rw [if_neg h]; exact hy

theorem lazy_times {α : Type} (n : Nat) {x : Reader α} (hx : x.Lazy) : (Reader.times n x).Lazy := by
  induction n with
  | zero => exact lazy_pure []
  | succ n ih => exact lazy_bind hx fun _ => lazy_bind ih fun _ => lazy_pure _

theorem lazy_take : Reader.Lazy BitSource.take := by
  intro r extra
  unfold BitSource.take
  cases hfifo : r.fifo with
  | cons b rest =>
    rw [BitSource.withMore, hfifo]
    exact .ok rfl
  | nil =>
    cases hclosed : r.closed with
    | true => exact .eof rfl
    | false => exact .hold rfl

/-- The accumulator after one more byte from IN (rule R71). -/
def BitSource.shiftIn (b : Byte) (r : BitSource) : BitSource :=
  { r with acc := (r.acc <<< 8) ||| b.setWidth 40, live := r.live + 8, bytes := r.bytes + 1 }

/-- One round of the refill loop is a reading of a byte and the rounds after it. -/
theorem BitSource.refillLoop_succ {n : Nat} {r : BitSource} (fuel : Nat) (hlive : r.live.toNat < n) :
    r.refillLoop (fuel + 1) n =
      (Reader.bind BitSource.take fun b q => (q.shiftIn b).refillLoop fuel n) r := by
  rw [BitSource.refillLoop, if_pos hlive]
  unfold Reader.bind
  cases r.take <;> rfl

theorem BitSource.refillLoop_enough {n : Nat} {r : BitSource} (fuel : Nat)
    (hlive : ¬ r.live.toNat < n) : r.refillLoop fuel n = .ok () r := by
  cases fuel with
  | zero => rfl
  | succ fuel => rw [BitSource.refillLoop, if_neg hlive]

theorem lazy_refillLoop (fuel n : Nat) : Reader.Lazy (BitSource.refillLoop fuel n) := by
  induction fuel with
  | zero => exact lazy_pure ()
  | succ fuel ih =>
    intro r extra
    by_cases hlive : r.live.toNat < n
    · rw [BitSource.refillLoop_succ fuel hlive, BitSource.refillLoop_succ fuel (by exact hlive)]
      exact lazy_bind lazy_take (fun b q => ih (q.shiftIn b)) r extra
    · rw [BitSource.refillLoop_enough _ hlive, BitSource.refillLoop_enough _ (by exact hlive)]
      exact .ok rfl

/-- The value of the `n` oldest live bits. -/
def BitSource.topBits (n : Nat) (r : BitSource) : Nat :=
  (r.acc.toNat >>> (r.live.toNat - n)) % 2 ^ n

/-- The BitSource without its `n` oldest live bits. -/
def BitSource.dropTop (n : Nat) (r : BitSource) : BitSource :=
  { r with
    acc := BitVec.ofNat 40 (r.acc.toNat % 2 ^ (r.live.toNat - n))
    live := BitVec.ofNat 6 (r.live.toNat - n) }

/-- `Rd(n)` (rule R71) is the refill loop, then the removal of the `n` oldest live bits. -/
theorem rd_eq_bind (n : Nat) :
    rd n = Reader.bind (BitSource.refillLoop 4 n) fun _ q => .ok (q.topBits n) (q.dropTop n) := by
  funext r
  unfold rd Reader.bind
  cases r.refillLoop 4 n <;> rfl

theorem lazy_rd (n : Nat) : (rd n).Lazy := by
  rw [rd_eq_bind]
  exact lazy_bind (lazy_refillLoop 4 n) fun _ _ _ => .ok rfl

/-! ## Bits left to read -/

theorem BitSource.available_shiftIn_of_take {r q : BitSource} {b : Byte} (hlive : r.live.toNat < 32)
    (h : r.take = .ok b q) :
    (q.shiftIn b).live.toNat = r.live.toNat + 8 ∧ (q.shiftIn b).available = r.available := by
  unfold BitSource.take at h
  cases hfifo : r.fifo with
  | nil => rw [hfifo] at h; dsimp only at h; split at h <;> contradiction
  | cons c rest =>
    rw [hfifo] at h
    injection h with _ hq
    have hlive8 : (r.live + 8).toNat = r.live.toNat + 8 := by bv_omega
    subst hq
    refine ⟨hlive8, ?_⟩
    simp only [BitSource.available, BitSource.shiftIn, hlive8, hfifo, List.length_cons]
    omega

/-- The refill loop makes enough bits live and loses none. -/
theorem BitSource.available_of_refillLoop {n fuel : Nat} (hn : n ≤ 32) : ∀ {r q : BitSource},
    n ≤ r.live.toNat + 8 * fuel → r.refillLoop fuel n = .ok () q →
      n ≤ q.live.toNat ∧ q.available = r.available := by
  induction fuel with
  | zero =>
    intro r q hfuel h
    injection h with _ hq
    exact hq ▸ ⟨hfuel, rfl⟩
  | succ fuel ih =>
    intro r q hfuel h
    by_cases hlive : r.live.toNat < n
    · rw [BitSource.refillLoop_succ fuel hlive] at h
      obtain ⟨b, p, htake, hloop⟩ := Reader.bind_ok.mp h
      obtain ⟨hlive8, havail⟩ := BitSource.available_shiftIn_of_take (by omega) htake
      rw [← havail]
      exact ih (by omega) hloop
    · rw [BitSource.refillLoop_enough _ hlive] at h
      injection h with _ hq
      exact hq ▸ ⟨by omega, rfl⟩

/-- A read of `n` bits leaves `n` bits less, whatever the state of the BitSource. -/
theorem rd_available {n v : Nat} {r q : BitSource} (hn : n ≤ 32) (h : rd n r = .ok v q) :
    q.available + n = r.available := by
  rw [rd_eq_bind] at h
  obtain ⟨_, p, hloop, hok⟩ := Reader.bind_ok.mp h
  injection hok with _ hq
  have hfuel : n ≤ r.live.toNat + 8 * 4 := by omega
  obtain ⟨hlive, havail⟩ := BitSource.available_of_refillLoop hn hfuel hloop
  have hleft : (p.dropTop n).live.toNat = p.live.toNat - n := by
    rw [BitSource.dropTop, BitVec.toNat_ofNat]
    omega
  rw [← hq, ← havail]
  simp only [BitSource.available, hleft]
  simp only [BitSource.dropTop]
  omega

/-! ## Stream and block headers (46_huffman_decode.md rules R105 and R106) -/

theorem lazy_expectByte (b : Nat) : (expectByte b).Lazy :=
  lazy_bind (lazy_rd 8) fun _ => lazy_ite (lazy_pure _) (lazy_fail _)

theorem lazy_readStreamHdr : readStreamHdr.Lazy :=
  lazy_bind (lazy_expectByte _) fun _ => lazy_bind (lazy_expectByte _) fun _ =>
    lazy_bind (lazy_expectByte _) fun _ => lazy_bind (lazy_rd 8) fun _ =>
      lazy_ite (lazy_fail _) (lazy_pure _)

theorem lazy_readBlockStart (combined : Word) : (readBlockStart combined).Lazy := by
  refine lazy_bind (lazy_rd 24) fun _ => lazy_bind (lazy_rd 24) fun _ =>
    lazy_ite ?block <| lazy_ite ?trailer (lazy_fail _)
  case block =>
    exact lazy_bind (lazy_rd 32) fun _ => lazy_bind (lazy_rd 1) fun _ =>
      lazy_bind (lazy_rd 24) fun _ => lazy_pure _
  case trailer =>
    exact lazy_bind (lazy_rd 32) fun _ => lazy_ite (lazy_fail _) (lazy_pure _)

/-! ## Table section (rules R107 to R111) -/

theorem lazy_readGroups (g k : Nat) : (readGroups g k).Lazy := by
  induction k with
  | zero => exact lazy_pure []
  | succ k ih =>
    have subBitmap := lazy_bind (lazy_rd 16) fun v => lazy_pure (natToBits 16 v)
    exact lazy_bind (lazy_ite subBitmap (lazy_pure _)) fun _ => lazy_bind ih fun _ => lazy_pure _

theorem lazy_readMapping : readMapping.Lazy :=
  lazy_bind (lazy_rd 16) fun _ => lazy_readGroups _ _

theorem lazy_readUnary (nG fuel : Nat) : ∀ j, (readUnary nG fuel j).Lazy := by
  induction fuel with
  | zero => exact fun _ => lazy_fail _
  | succ fuel ih =>
    exact fun j => lazy_bind (lazy_rd 1) fun _ =>
      lazy_ite (lazy_ite (lazy_fail _) (ih _)) (lazy_pure _)

theorem lazy_readSelectors : readSelectors.Lazy :=
  lazy_bind (lazy_rd 3) fun _ => lazy_ite (lazy_fail _) <|
    lazy_bind (lazy_rd 15) fun _ => lazy_ite (lazy_fail _) <|
      lazy_bind (lazy_times _ (lazy_readUnary _ _ _)) fun _ => lazy_pure _

/-- With one round more than there are bits left to read, the length loop's bound is never met, so
more bytes in IN and a greater bound change nothing (rule R109). -/
theorem lengthLoop_extends (extra : List Byte) (fuel : Nat) :
    ∀ (fuel' curr : Nat) (r : BitSource), r.available < fuel →
      (r.withMore extra).available < fuel' →
      ReadResult.Extends r.closed extra (lengthLoop fuel curr r)
        (lengthLoop fuel' curr (r.withMore extra)) := by
  induction fuel with
  | zero => exact fun _ _ _ h => absurd h (Nat.not_lt_zero _)
  | succ fuel ih =>
    intro fuel' curr r hfuel hfuel'
    obtain ⟨fuel', rfl⟩ : ∃ k, fuel' = k + 1 := ⟨fuel' - 1, by omega⟩
    simp only [BitSource.withMore_available] at hfuel'
    rw [lengthLoop, lengthLoop]
    by_cases hrange : curr < 1 ∨ Config.maxCodeLen < curr
    · rw [if_pos hrange, if_pos hrange]
      exact .raise
    rw [if_neg hrange, if_neg hrange]
    refine ReadResult.extends_bind (lazy_rd 1) fun b q hq _ => ?_
    by_cases hb : b = 0
    · rw [if_pos hb, if_pos hb]
      exact .ok rfl
    rw [if_neg hb, if_neg hb]
    refine ReadResult.extends_bind (lazy_rd 1) fun d p hp _ => ?_
    have hfirst := rd_available (by decide) hq
    have hsecond := rd_available (by decide) hp
    exact ih fuel' _ p (by omega) (by rw [BitSource.withMore_available]; omega)

theorem lazy_readLength (curr : Nat) : (readLength curr).Lazy :=
  fun r extra => lengthLoop_extends extra _ _ curr r (Nat.lt_succ_self _) (Nat.lt_succ_self _)

theorem lazy_readDeltas (n : Nat) : ∀ curr, (readDeltas n curr).Lazy := by
  induction n with
  | zero => exact fun _ => lazy_pure []
  | succ n ih =>
    exact fun curr => lazy_bind (lazy_readLength curr) fun l =>
      lazy_bind (ih l) fun _ => lazy_pure _

theorem lazy_readTable (a : Nat) : (readTable a).Lazy :=
  lazy_bind (lazy_rd 5) fun _ => lazy_readDeltas _ _

theorem lazy_readTables : readTables.Lazy :=
  lazy_bind lazy_readMapping fun _ => lazy_ite (lazy_fail _) <|
    lazy_bind lazy_readSelectors fun _ =>
      lazy_bind (lazy_times _ (lazy_readTable _)) fun _ => lazy_pure _

/-! ## Symbol stream (rules R112 to R115) -/

theorem lazy_probeSymbol (d : Decoder) (t fuel : Nat) :
    ∀ zn zvec, (probeSymbol d t fuel zn zvec).Lazy := by
  induction fuel with
  | zero => exact fun _ _ => lazy_fail _
  | succ fuel ih =>
    exact fun zn zvec => lazy_ite (lazy_fail _) <|
      lazy_ite (lazy_ite (lazy_fail _) (lazy_pure _)) <| lazy_bind (lazy_rd 1) fun _ => ih _ _

theorem lazy_decSym (d : Decoder) (t : Nat) : (decSym d t).Lazy :=
  lazy_bind (lazy_rd _) fun _ => lazy_probeSymbol d t _ _ _

theorem lazy_nextSym (d : Decoder) (g : GroupPos) : (nextSym d g).Lazy :=
  lazy_ite
    (lazy_ite (lazy_fail _) <| lazy_bind (lazy_decSym d _) fun _ => lazy_pure _)
    (lazy_bind (lazy_decSym d _) fun _ => lazy_pure _)

theorem lazy_expandLoop (d : Decoder) (nmax fuel : Nat) :
    ∀ g x, (expandLoop d nmax fuel g x).Lazy := by
  induction fuel with
  | zero => exact fun _ _ => lazy_fail _
  | succ fuel ih =>
    refine fun g x => lazy_bind (lazy_nextSym d g) fun sg => ?_
    cases x.symbol d nmax sg.1 with
    | more y => exact ih sg.2 y
    | done y => exact lazy_pure y
    | fail => exact lazy_fail _

theorem lazy_readSymbols (d : Decoder) : (readSymbols d).Lazy :=
  lazy_bind (lazy_expandLoop d _ _ _ _) fun _ => lazy_ite (lazy_fail _) (lazy_pure _)

end Sys2Proof.Machine
end

section
/-! PROOF. Reads are lazy, part 2: the commands that read bits (70_reset_and_hazards.md rule R139), and
O10. -/

namespace Sys2Proof.Machine

/-! ## The commands' own rules -/

/-- What a command's own rule answers without the bytes `extra` at the end of IN, and what it answers
with them: both complete, with those bytes left, or both raise an error, unless the bytes without
`extra` run out. -/
inductive CmdResult.Extends (closed : Bool) (extra : List Byte) : CmdResult → CmdResult → Prop
  | done {t : State} : Extends closed extra (.done t) (.done (t.withMore extra))
  | raise {e e' : ErrCode} {t u : State} : Extends closed extra (.raise e t) (.raise e' u)
  | eof {t : State} {y : CmdResult} (shut : closed = true) : Extends closed extra (.raise .eof t) y
  | hold {y : CmdResult} (opened : closed = false) : Extends closed extra .hold y

section
variable {s : State} {extra : List Byte}

theorem CmdResult.extends_readCommand {α : Type} {x : Reader α} {spoil : State → State}
    {k : α → BitSource → State → CmdResult} (hx : x.Lazy)
    (hk : ∀ a q, CmdResult.Extends s.src.closed extra (k a q s)
      (k a (q.withMore extra) (s.withMore extra))) :
    CmdResult.Extends s.src.closed extra (readCommand x spoil k s)
      (readCommand x spoil k (s.withMore extra)) := by
  have hx : ReadResult.Extends s.src.closed extra (x s.src) (x (s.withMore extra).src) :=
    hx s.src extra
  unfold readCommand
  generalize x s.src = less, x (s.withMore extra).src = more at hx
  cases hx with
  | @ok a q => exact hk a q
  | raise => exact .raise
  | eof shut => exact .eof shut
  | hold opened => exact .hold opened

theorem CmdResult.extends_inDState {d : DState} {f : State → CmdResult}
    (hf : CmdResult.Extends s.src.closed extra (f s) (f (s.withMore extra))) :
    CmdResult.Extends s.src.closed extra (inDState d f s) (inDState d f (s.withMore extra)) := by
  by_cases h : s.dec.dstate = d
  · rw [inDState_here h, inDState_here (by exact h)]
    exact hf
  · rw [inDState_other h, inDState_other (by exact h)]
    exact .raise

/-- What `SRC_READ` leaves when it completes (rule R74). -/
def srcReadDone (v : Nat) (r : BitSource) (s : State) : CmdResult :=
  .done { s with res := BitVec.ofNat 32 v, src := r }

theorem commandBody_srcRead_illegal {n : BitVec 8} (hn : readCountLegal n = false) :
    commandBody (.srcRead n) s = .raise .operand s := by
  rw [commandBody, hn]
  rfl

theorem commandBody_srcRead_legal {n : BitVec 8} (hn : readCountLegal n = true) :
    commandBody (.srcRead n) s = readCommand (rd n.toNat) spoilSrcRead srcReadDone s := by
  rw [commandBody, hn]
  rfl

/-- A command that reads bits sees IN through its reading only. -/
theorem commandBody_extends {i : Instr} (hi : Instr.readsBits i = true) (s : State)
    (extra : List Byte) :
    CmdResult.Extends s.src.closed extra (commandBody i s) (commandBody i (s.withMore extra)) := by
  cases i with
  | srcRead n =>
    cases legal : readCountLegal n with
    | false =>
      rw [commandBody_srcRead_illegal legal, commandBody_srcRead_illegal legal]
      exact .raise
    | true =>
      rw [commandBody_srcRead_legal legal, commandBody_srcRead_legal legal]
      exact CmdResult.extends_readCommand (lazy_rd _) fun _ _ => .done
  | decStreamHdr =>
    exact CmdResult.extends_inDState <|
      CmdResult.extends_readCommand lazy_readStreamHdr fun _ _ => .done
  | decBlockStart =>
    refine CmdResult.extends_inDState <|
      CmdResult.extends_readCommand (lazy_readBlockStart s.combined) fun start _ => ?_
    cases start with
    | block crc rand origPtr => exact .done
    | trailer => exact .done
  | decTables =>
    exact CmdResult.extends_inDState <|
      CmdResult.extends_readCommand lazy_readTables fun _ _ => .done
  | decSymbols =>
    exact CmdResult.extends_inDState <|
      CmdResult.extends_readCommand (lazy_readSymbols s.dec) fun _ _ => .done
  | _ => contradiction

end

/-! ## Completing with more bytes in IN, and without them -/

/-- A command that ends with no error recorded and none held has completed. -/
theorem commandBody_done_of_exec {i : Instr} {s t : State} (hi : i ≠ .sysReset) (herr : s.err = 0)
    (hterr : t.err = 0) (htfree : t.held = none) (h : exec i s = .next t) :
    ∃ u, commandBody i s = .done u ∧ t = u.countCommand := by
  rcases exec_cases h with ⟨hi', -⟩ | ⟨-, herr', -⟩ | ⟨-, -, hdone⟩ | ⟨-, -, e, u, -, rfl⟩ |
    ⟨-, -, -, rfl⟩
  · exact absurd hi' hi
  · exact absurd herr herr'
  · exact hdone
  · exact absurd hterr e.toBits_ne_zero
  · contradiction

theorem exec_raises {i : Instr} {s u : State} {e : ErrCode} (hi : i ≠ .sysReset) (herr : s.err = 0)
    (hbody : commandBody i s = .raise e u) : exec i s = .next (takeError e u) :=
  (exec_eq_runCommand hi s).trans (runCommand_raise herr hbody)

theorem exec_holds {i : Instr} {s : State} (hi : i ≠ .sysReset) (herr : s.err = 0)
    (hbody : commandBody i s = .hold) : exec i s = .next { s with held := some i } :=
  (exec_eq_runCommand hi s).trans (runCommand_hold herr hbody)

theorem Instr.ne_sysReset_of_readsBits {i : Instr} (h : Instr.readsBits i = true) :
    i ≠ .sysReset := by
  rintro rfl
  contradiction

section
variable {i : Instr} {s t : State} {extra : List Byte} (hreads : Instr.readsBits i = true)
  (herr : s.err = 0) (hterr : t.err = 0) (htfree : t.held = none)
include hreads herr hterr htfree

/-- A command that completes does the same with more bytes in IN, and leaves those bytes. -/
theorem exec_withMore_of_completes (h : exec i s = .next t) :
    exec i (s.withMore extra) = .next (t.withMore extra) := by
  have hi := Instr.ne_sysReset_of_readsBits hreads
  obtain ⟨u, hu, rfl⟩ := commandBody_done_of_exec hi herr hterr htfree h
  have hbody := commandBody_extends hreads s extra
  generalize hmore : commandBody i (s.withMore extra) = more at hbody
  rw [hu] at hbody
  cases hbody with
  | done => exact exec_done (s := s.withMore extra) hi herr hmore

/-- A command that completes with more bytes in IN completes without them, or runs out of bytes. -/
theorem exec_of_completes_withMore (h : exec i (s.withMore extra) = .next t) :
    (∃ u, exec i s = .next u ∧ u.err = 0 ∧ u.held = none) ∨
    (s.src.closed = false ∧ exec i s = .next { s with held := some i }) ∨
    (s.src.closed = true ∧ ∃ u, exec i s = .next u ∧ u.err = 0x03) := by
  have hi := Instr.ne_sysReset_of_readsBits hreads
  obtain ⟨u, hu, rfl⟩ := commandBody_done_of_exec hi (by exact herr) hterr htfree h
  have hbody := commandBody_extends hreads s extra
  generalize hless : commandBody i s = less at hbody
  rw [hu] at hbody
  cases hbody with
  | done => exact .inl ⟨_, exec_done hi herr hless, hterr, htfree⟩
  | hold opened => exact .inr (.inl ⟨opened, exec_holds hi herr hless⟩)
  | eof shut => exact .inr (.inr ⟨shut, _, exec_raises hi herr hless, rfl⟩)

end

/-- Settles O10: with more bytes in IN a command's own rule answers as without them, unless those
it had run out. -/
theorem readsAreLazy : Obligations.ReadsAreLazy := by
  unfold Obligations.ReadsAreLazy
  intro i s t extra hreads herr _ hterr htfree
  exact ⟨exec_withMore_of_completes hreads herr hterr htfree,
    exec_of_completes_withMore hreads herr hterr htfree⟩

end Sys2Proof.Machine
end

section
/-! PROOF. The BitSource's reads (42_bitsource.md rules R71, R72 and R74): O21 and O22. -/

namespace Sys2Proof.Machine

/-! ## `SRC_READ` (rule R74) -/

theorem readCountLegal_eq_false_iff {n : BitVec 8} :
    readCountLegal n = false ↔ n.toNat = 0 ∨ 32 < n.toNat := by
  rw [← Bool.not_eq_true, readCountLegal_iff]
  omega

section
variable {s : State} {n : BitVec 8}

theorem exec_srcRead_enough (herr : s.err = 0) (htidy : s.src.Tidy)
    (hn : readCountLegal n = true) (henough : n.toNat ≤ s.src.bits.length) :
    ∃ (v : Word) (q : BitSource),
      exec (.srcRead n) s = .next { s with res := v, src := q, cmdCnt := s.cmdCnt + 1 } ∧
      v.toNat < 2 ^ n.toNat ∧ natToBits n.toNat v.toNat = s.src.bits.take n.toNat ∧
      s.src.Consumed q n.toNat := by
  have hn32 := (readCountLegal_iff.mp hn).2
  obtain ⟨v, q, hrd, hlt, hbits, hcons⟩ := rd_consumed htidy hn32 henough
  have hword : (BitVec.ofNat 32 v).toNat = v := by
    rw [BitVec.toNat_ofNat]
    exact Nat.mod_eq_of_lt (hlt.trans_le (Nat.pow_le_pow_right (by decide) hn32))
  have hbody : commandBody (.srcRead n) s = srcReadDone v q s := by
    rw [commandBody_srcRead_legal hn, readCommand, hrd]
  have hexec := exec_done (i := .srcRead n) nofun herr hbody
  exact ⟨BitVec.ofNat 32 v, q, hexec, by rwa [hword], by rwa [hword], hcons⟩

theorem commandBody_srcRead_short (htidy : s.src.Tidy) (hn : readCountLegal n = true)
    (hshort : s.src.bits.length < n.toNat) :
    commandBody (.srcRead n) s =
      if s.src.closed then .raise .eof (spoilSrcRead s) else .hold := by
  rw [BitSource.bits_length] at hshort
  rw [commandBody_srcRead_legal hn, readCommand,
    rd_short htidy (readCountLegal_iff.mp hn).2 hshort]
  cases s.src.closed <;> rfl

end

/-- Settles O21: with enough bits `Rd(n)` consumes them, and short of them it fails as IN is closed
or open. -/
theorem srcReadReturnsNextBits : Obligations.SrcReadReturnsNextBits := by
  unfold Obligations.SrcReadReturnsNextBits
  intro s n herr htidy
  refine ⟨fun hlow hhigh henough => ?_, fun hlow hhigh hshort hclosed => ?_,
    fun hlow hhigh hshort hopen => ?_, fun hn => ?_⟩
  · exact exec_srcRead_enough herr htidy (readCountLegal_iff.mpr ⟨hlow, hhigh⟩) henough
  · have hbody := commandBody_srcRead_short htidy (readCountLegal_iff.mpr ⟨hlow, hhigh⟩) hshort
    rw [if_pos hclosed] at hbody
    have hexec := exec_raises (i := .srcRead n) nofun herr hbody
    exact ⟨_, _, _, _, hexec, rfl, hclosed⟩
  · have hbody := commandBody_srcRead_short htidy (readCountLegal_iff.mpr ⟨hlow, hhigh⟩) hshort
    rw [if_neg (by simp [hopen])] at hbody
    exact exec_holds nofun herr hbody
  · exact exec_operandError nofun herr
      (commandBody_srcRead_illegal (readCountLegal_eq_false_iff.mpr hn))

/-! ## Reads in a row (rule R72) -/

/-- The first `n` bits of the stream determine the BitSource after they are read. -/
theorem BitSource.Consumed.unique {r p q : BitSource} {n : Nat} (hp : r.Consumed p n)
    (hq : r.Consumed q n) : p = q := by
  have hfifo : p.fifo = q.fifo := hp.taken.trans hq.taken.symm
  have hbits : p.bits = q.bits := hp.stream.trans hq.stream.symm
  have hlen := congrArg List.length hbits
  simp only [BitSource.bits_length, BitSource.available, hfifo] at hlen
  have hlive : p.live = q.live := BitVec.eq_of_toNat_eq (by omega)
  have hacc : p.acc = q.acc := by
    simp only [BitSource.bits, hfifo, hlive, List.append_cancel_right_eq] at hbits
    have hmod := natToBits_inj hbits
    rw [Nat.mod_eq_of_lt (hlive ▸ hp.tidy.2), Nat.mod_eq_of_lt hq.tidy.2] at hmod
    exact BitVec.eq_of_toNat_eq hmod
  have hbytes : p.bytes = q.bytes := hp.counted.trans hq.counted.symm
  have hclosed : p.closed = q.closed := hp.closedKept.trans hq.closedKept.symm
  cases p
  cases q
  simp_all only

/-- Reads in a row return the bits of the stream in order, and consume as many as they ask for. -/
theorem readWidths_consumed (ns : List Nat) : ∀ {r : BitSource}, r.Tidy → (∀ n ∈ ns, n ≤ 32) →
    ns.sum ≤ r.bits.length → ∃ vs q, readWidths ns r = .ok vs q ∧
      ((ns.zip vs).flatMap fun p => natToBits p.1 p.2) = r.bits.take ns.sum ∧
      r.Consumed q ns.sum := by
  induction ns with
  | nil => exact fun hr _ _ => ⟨[], _, rfl, rfl, .zero hr⟩
  | cons n ns ih =>
    intro r hr hwidth hsum
    obtain ⟨hn, hns⟩ := List.forall_mem_cons.mp hwidth
    rw [List.sum_cons] at hsum
    obtain ⟨v, p, hrd, -, hbits, hfirst⟩ := rd_consumed hr hn (by omega)
    have hleft : ns.sum ≤ p.bits.length := by rw [hfirst.stream, List.length_drop]; omega
    obtain ⟨vs, q, hrest, hrestBits, hthen⟩ := ih hfirst.tidy hns hleft
    refine ⟨v :: vs, q, ?_, ?_, ?_⟩
    · exact Reader.bind_ok.mpr ⟨v, p, hrd, Reader.bind_ok.mpr ⟨vs, q, hrest, rfl⟩⟩
    · rw [List.zip_cons_cons, List.flatMap_cons, hbits, hrestBits, hfirst.stream, List.sum_cons,
        List.take_add]
    · rw [List.sum_cons]
      exact hfirst.trans hthen

/-- From a fresh BitSource, `k` bits fill or begin `⌈k / 8⌉` bytes. -/
theorem BitSource.bytesFor_of_empty {r : BitSource} (hlive : r.live = 0) (k : Nat) :
    r.bytesFor k = (k + 7) / 8 := by
  rw [BitSource.bytesFor, hlive]
  rfl

section
variable {r q : BitSource} {k : Nat} (hlive : r.live = 0) (h : r.Consumed q k)
include hlive h

/-- The bits of those bytes that were not asked for stay live. -/
theorem BitSource.Consumed.live_fresh : q.live.toNat = 8 * ((k + 7) / 8) - k := by
  have hfifo := h.taken
  rw [BitSource.bytesFor_of_empty hlive] at hfifo
  have henough := h.enough
  have hlen := congrArg List.length h.stream
  rw [BitSource.bits_of_empty hlive, bytesToBits_length] at henough
  rw [BitSource.bits_of_empty hlive, BitSource.bits_length, BitSource.available, hfifo] at hlen
  simp only [List.length_drop, bytesToBits_length] at hlen
  omega

/-- They are the last bits of the bytes taken. -/
theorem BitSource.Consumed.pending_fresh :
    natToBits q.live.toNat q.acc.toNat =
      (bytesToBits (r.fifo.take ((k + 7) / 8))).drop k := by
  have hfifo := h.taken
  rw [BitSource.bytesFor_of_empty hlive] at hfifo
  have henough := h.enough
  have hstream := h.stream
  rw [BitSource.bits_of_empty hlive] at henough hstream
  rw [bytesToBits_length] at henough
  have hinside : k ≤ (bytesToBits (r.fifo.take ((k + 7) / 8))).length := by
    rw [bytesToBits_length, List.length_take]
    omega
  rw [← List.take_append_drop ((k + 7) / 8) r.fifo, bytesToBits_append,
    List.drop_append_of_le_length hinside, BitSource.bits, hfifo] at hstream
  exact List.append_cancel_right hstream

end

/-- Settles O22: reads of `k` bits in all consume the first `k` bits, which determines the BitSource
they leave. -/
theorem srcReadsSplitFreely : Obligations.SrcReadsSplitFreely := by
  unfold Obligations.SrcReadsSplitFreely
  intro r ns hacc hlive hns hsum
  have htidy := BitSource.tidy_of_empty hacc hlive
  have hbits := BitSource.bits_of_empty hlive
  have hlen : r.bits.length = 8 * r.fifo.length := by rw [hbits, bytesToBits_length]
  obtain ⟨vs, q, hread, hvalues, hcons⟩ :=
    readWidths_consumed ns htidy (fun n hn => (hns n hn).2) (hlen ▸ hsum)
  have hcount := BitSource.bytesFor_of_empty hlive ns.sum
  refine ⟨vs, q, hread, hbits ▸ hvalues, hcount ▸ hcons.taken, hcount ▸ hcons.counted,
    hcons.live_fresh hlive, hcons.pending_fresh hlive, hcons.tidy.2, hcons.closedKept,
    fun ms hms hsame => ?_⟩
  obtain ⟨ws, q', hread', -, hcons'⟩ :=
    readWidths_consumed ms htidy (fun n hn => (hms n hn).2) (hsame ▸ hlen ▸ hsum)
  rw [hsame] at hcons'
  exact ⟨ws, hcons.unique hcons' ▸ hread'⟩

end Sys2Proof.Machine
end

section
/-! PROOF. The CRC32 accumulator (43_crc.md rules R75 to R81): the table step is eight bit-serial
steps; the seed, runs and folds. O23 and O24. -/

namespace Sys2Proof.Machine

/-! ## The table step (rules R75, R76 and R78) -/

/-- The rounds that make a table entry are steps of the bit-serial CRC. -/
theorem crcTableRounds_eq_foldl (poly : Word) (n : Nat) (c : Word) :
    crcTableRounds poly n c = (List.range n).foldl (fun r _ => crcTableRound poly r) c := by
  rw [List.foldl_const, List.length_range]
  induction n generalizing c with
  | zero => rfl
  | succ n ih => exact ih _

/-- A word whose top bit is 0 passes a round beside another word, shifted. -/
theorem crcTableRound_xor (poly c : Word) {low : Word} (hlow : low.getLsbD 31 = false) :
    crcTableRound poly (c ^^^ low) = crcTableRound poly c ^^^ low <<< 1 := by
  unfold crcTableRound
  rw [BitVec.getLsbD_xor, hlow, Bool.xor_false, BitVec.shiftLeft_xor_distrib]
  split
  · ac_rfl
  · rfl

/-- A word whose top `n` bits are 0 passes `n` rounds beside another word, shifted. -/
theorem crcTableRounds_xor (poly : Word) (n : Nat) (c : Word) {low : Word}
    (hlow : ∀ j < n, low.getLsbD (31 - j) = false) :
    crcTableRounds poly n (c ^^^ low) = crcTableRounds poly n c ^^^ low <<< n := by
  induction n generalizing c low with
  | zero => rw [BitVec.shiftLeft_zero]; rfl
  | succ n ih =>
    have hshifted : ∀ j < n, (low <<< 1).getLsbD (31 - j) = false := by
      intro j hj
      rw [BitVec.getLsbD_shiftLeft, Nat.sub_sub, hlow (j + 1) (by omega), Bool.and_false]
    rw [crcTableRounds, crcTableRound_xor poly c (hlow 0 n.succ_pos), ih _ hshifted,
      ← BitVec.shiftLeft_add, Nat.add_comm 1 n]
    rfl

/-- The register with a byte fed in at its top is the table index at the top, beside the 24 low
bits. -/
theorem xor_topByte (r : Word) (b : Byte) :
    r ^^^ b.setWidth 32 <<< 24 =
      (r.extractLsb' 24 8 ^^^ b).setWidth 32 <<< 24 ^^^ (r.setWidth 24).setWidth 32 := by
  refine BitVec.eq_of_getLsbD_eq fun i hi => ?_
  simp only [BitVec.getLsbD_xor, BitVec.getLsbD_shiftLeft, BitVec.getLsbD_setWidth,
    BitVec.getLsbD_extractLsb', hi]
  by_cases h : i < 24
  · simp [h]
  · have hindex : i - 24 < 8 := by omega
    have hback : 24 + (i - 24) = i := by omega
    simp [h, hindex, hback, show i - 24 < 32 by omega]

/-- An 8-bit shift drops what stands above the 24 low bits. -/
theorem setWidth24_shiftLeft (r : Word) : (r.setWidth 24).setWidth 32 <<< 8 = r <<< 8 := by
  refine BitVec.eq_of_getLsbD_eq fun i hi => ?_
  simp only [BitVec.getLsbD_shiftLeft, BitVec.getLsbD_setWidth]
  simp [show i - 8 < 24 by omega, show i - 8 < 32 by omega]

/-- Eight rounds turn the index's part of the register into the table entry, and shift up the 24 low
bits, which no round tests. -/
theorem crcStep_eq_bitSerial (poly r : Word) (b : Byte) :
    crcStep poly r b =
      (List.range 8).foldl (fun r _ => crcTableRound poly r) (r ^^^ b.setWidth 32 <<< 24) := by
  have hlow : ∀ j < 8, ((r.setWidth 24).setWidth 32).getLsbD (31 - j) = false := by
    intro j hj
    rw [BitVec.getLsbD_setWidth, BitVec.getLsbD_of_ge _ _ (by omega), Bool.and_false]
  rw [← crcTableRounds_eq_foldl, xor_topByte, crcTableRounds_xor poly 8 _ hlow,
    setWidth24_shiftLeft, BitVec.xor_comm]
  rfl

/-- `CRC_POLY` is a parameter of the block (rule R75). -/
theorem crcPoly_stepInvariant (poly : Word) : StepInvariant (fun s => s.crcPoly = poly) where
  queue _ _ h := h
  effect a s h := by rw [hostEffect_frame]; exact h
  free _ h := h
  reset _ h := h
  count _ h := h
  error _ _ _ h := h
  body i s _ _ _ h := by
    cases hbody : commandBody i s with
    | done u => exact (commandBody_crcPoly i s u (.inl hbody)).trans h
    | raise e u => exact (commandBody_crcPoly i s u (.inr ⟨e, hbody⟩)).trans h
    | hold => exact h

/-- Settles O23: the table step is eight bit-serial steps because the bits below the table index
pass all eight rounds untested. -/
theorem crcUpdateIsBitSerial : Obligations.CrcUpdateIsBitSerial := by
  unfold Obligations.CrcUpdateIsBitSerial
  refine ⟨rfl, by decide, fun s t h => (crcPoly_stepInvariant s.crcPoly).step rfl h, ?_⟩
  intro s byte herr
  have hexec := exec_done (i := .crcUpdate byte) nofun herr rfl
  rw [crcStep_eq_bitSerial] at hexec
  exact hexec

/-! ## The seed, runs and folds (rules R77, R79, R80 and R81) -/

/-- `crcRun` takes its first step first; its last step can be taken last. -/
theorem crcRun_succ (poly r : Word) (b : Byte) (n : Nat) :
    crcRun poly b (n + 1) r = crcStep poly (crcRun poly b n r) b := by
  induction n generalizing r with
  | zero => rfl
  | succ n ih => exact ih _

/-- Settles O24: every command is its own rule's effect, and a run of `count + 1` steps is a run of
`count` with one more step behind it. -/
theorem crcSeedRunsAndFolds : Obligations.CrcSeedRunsAndFolds := by
  unfold Obligations.CrcSeedRunsAndFolds
  intro s byte value herr
  have run := fun count : BitVec 16 => exec_done (i := .crcUpdateRun byte count) nofun herr rfl
  refine ⟨exec_done (i := .crcReset) nofun herr rfl, exec_done (i := .crcCombine) nofun herr rfl,
    exec_done (i := .crcFold value) nofun herr rfl, run 0, fun count hcount => ?_⟩
  have hnext : (count + 1).toNat = count.toNat + 1 := by bv_omega
  refine ⟨_, _, _, run count, exec_done (i := .crcUpdate byte) nofun herr rfl, run (count + 1),
    ?_, rfl⟩
  rw [hnext]
  exact crcRun_succ _ _ _ _

end Sys2Proof.Machine
end

section
/-! PROOF. The MTF and RLE2 transform (44_mtf_encode.md rules R86 to R88), part 1: the run code, and
O28; the symbols the loop of rule R88 puts. -/

namespace Sys2Proof.Machine

/-! ## The run code (rule R87) -/

/-- The run that digits stand for, least significant first, RUNA and RUNB weighing 1 and 2. -/
def runValue (ds : List Nat) : Nat := ds.foldr (fun d acc => (d + 1) + 2 * acc) 0

@[simp] theorem runValue_nil : runValue [] = 0 := rfl

@[simp] theorem runValue_cons (d : Nat) (ds : List Nat) :
    runValue (d :: ds) = (d + 1) + 2 * runValue ds := rfl

theorem two_pow_length_le_runValue (ds : List Nat) : 2 ^ ds.length ≤ runValue ds + 1 := by
  induction ds with
  | nil => exact Nat.le_refl 1
  | cons d ds ih => rw [List.length_cons, pow_succ, runValue_cons]; omega

theorem runValue_pos {ds : List Nat} (h : ds ≠ []) : 1 ≤ runValue ds := by
  obtain ⟨d, ds, rfl⟩ := List.exists_cons_of_ne_nil h
  rw [runValue_cons]
  omega

/-- The last digit is what remains of `z` below 2. -/
theorem runDigits_last {z : Nat} (fuel : Nat) (hz : z < 2) : runDigits (fuel + 1) z = [z] := by
  rw [runDigits, if_pos hz, Nat.mod_eq_of_lt hz]

theorem runDigits_more {z : Nat} (fuel : Nat) (hz : 2 ≤ z) :
    runDigits (fuel + 1) z = z % 2 :: runDigits fuel ((z - 2) / 2) := by
  rw [runDigits, if_neg (Nat.not_lt.mpr hz)]

theorem runDigits_spec (fuel : Nat) : ∀ z < fuel, runDigits fuel z ≠ [] ∧
    (∀ d ∈ runDigits fuel z, d ≤ 1) ∧ runValue (runDigits fuel z) = z + 1 := by
  induction fuel with
  | zero => exact fun _ h => absurd h (Nat.not_lt_zero _)
  | succ fuel ih =>
    intro z hfuel
    rcases Nat.lt_or_ge z 2 with hz | hz
    · rw [runDigits_last fuel hz]
      exact ⟨nofun, by simpa using Nat.le_of_lt_succ hz, rfl⟩
    · obtain ⟨-, hdigits, hvalue⟩ := ih ((z - 2) / 2) (by omega)
      rw [runDigits_more fuel hz]
      refine ⟨nofun, List.forall_mem_cons.mpr ⟨by omega, hdigits⟩, ?_⟩
      rw [runValue_cons, hvalue]
      omega

/-- A digit string is what is written for its value. -/
theorem runDigits_runValue (ds : List Nat) : ∀ fuel, ds ≠ [] → (∀ d ∈ ds, d ≤ 1) →
    runValue ds ≤ fuel → runDigits fuel (runValue ds - 1) = ds := by
  induction ds with
  | nil => exact fun _ h => absurd rfl h
  | cons d ds ih =>
    intro fuel _ hdigits hfuel
    obtain ⟨hd, hds⟩ := List.forall_mem_cons.mp hdigits
    rw [runValue_cons] at hfuel ⊢
    obtain ⟨fuel, rfl⟩ : ∃ k, fuel = k + 1 := ⟨fuel - 1, by omega⟩
    cases ds with
    | nil => exact runDigits_last fuel (by simp only [runValue_nil]; omega)
    | cons c cs =>
      have hpos := runValue_pos (List.cons_ne_nil c cs)
      have hrest := ih fuel nofun hds (by omega)
      have hdigit : (d + 1 + 2 * runValue (c :: cs) - 1) % 2 = d := by omega
      have hleft : (d + 1 + 2 * runValue (c :: cs) - 1 - 2) / 2 = runValue (c :: cs) - 1 := by omega
      rw [runDigits_more fuel (by omega), hdigit, hleft, hrest]

theorem putRun_of_pos {r : Nat} (hr : 1 ≤ r) : putRun r = runDigits r (r - 1) :=
  if_neg (by omega)

theorem putRun_le (r : Nat) : ∀ d ∈ putRun r, d ≤ 1 := by
  rcases Nat.eq_zero_or_pos r with rfl | hr
  · nofun
  · rw [putRun_of_pos hr]
    exact (runDigits_spec r (r - 1) (by omega)).2.1

theorem runValue_putRun (r : Nat) : runValue (putRun r) = r := by
  rcases Nat.eq_zero_or_pos r with rfl | hr
  · rfl
  · rw [putRun_of_pos hr, (runDigits_spec r (r - 1) (by omega)).2.2]
    omega

theorem two_pow_length_putRun_le (r : Nat) : 2 ^ (putRun r).length ≤ r + 1 := by
  simpa only [runValue_putRun] using two_pow_length_le_runValue (putRun r)

theorem putRun_length_le (r : Nat) : (putRun r).length ≤ r :=
  Nat.le_of_lt_succ (Nat.lt_two_pow_self.trans_le (two_pow_length_putRun_le r))

/-- Settles O28: each digit takes its weight from the run and halves what is left, and a digit
string is written back for its value. -/
theorem runCodeIsBijectiveBaseTwo : Obligations.RunCodeIsBijectiveBaseTwo := by
  unfold Obligations.RunCodeIsBijectiveBaseTwo
  refine ⟨fun r hr => ⟨?_, putRun_le r, runValue_putRun r⟩, fun ds hne hdigits => ?_, by decide⟩
  · rw [putRun_of_pos hr]
    exact (runDigits_spec r (r - 1) (by omega)).1
  · exact (putRun_of_pos (runValue_pos hne)).trans
      (runDigits_runValue ds _ hne hdigits (Nat.le_refl _))

/-! ## The loop over the block (rule R88) -/

/-- A byte at the front of the list lengthens the pending run. -/
theorem mtfSymbols_front {yy : List Nat} {s : Nat} (z : Nat) (rest : List Nat)
    (h : yy.head? = some s) : mtfSymbols yy z (s :: rest) = mtfSymbols yy (z + 1) rest := by
  rw [mtfSymbols, if_pos h]

/-- Any other byte ends the pending run and moves to the front. -/
theorem mtfSymbols_move {yy : List Nat} {s : Nat} (z : Nat) (rest : List Nat)
    (h : yy.head? ≠ some s) :
    mtfSymbols yy z (s :: rest) =
      putRun z ++ (yy.idxOf s + 1) :: mtfSymbols (toFront s (yy.idxOf s) yy) 0 rest := by
  rw [mtfSymbols, if_neg h]

/-- Moving an entry to the front permutes the list. -/
theorem toFront_idxOf_perm {yy : List Nat} {s : Nat} (h : s ∈ yy) :
    (toFront s (yy.idxOf s) yy).Perm yy := by
  rw [toFront, List.eraseIdx_idxOf_eq_erase]
  exact (List.perm_cons_erase h).symm

/-- An entry that is not in front stands behind position 0. -/
theorem idxOf_pos_of_head? {yy : List Nat} {s : Nat} (hs : s ∈ yy) (h : yy.head? ≠ some s) :
    1 ≤ yy.idxOf s := by
  cases yy with
  | nil => contradiction
  | cons y yy =>
    have hne : y ≠ s := fun he => h (congrArg some he)
    rw [List.idxOf_cons_ne yy hne]
    exact Nat.succ_pos _

theorem mtfSymbols_length_le (l : List Nat) : ∀ (yy : List Nat) (z : Nat),
    (mtfSymbols yy z l).length ≤ z + l.length := by
  induction l with
  | nil => exact fun _ z => putRun_length_le z
  | cons s rest ih =>
    intro yy z
    by_cases h : yy.head? = some s
    · have := ih yy (z + 1)
      rw [mtfSymbols_front z rest h, List.length_cons]
      omega
    · have hrun := putRun_length_le z
      have := ih (toFront s (yy.idxOf s) yy) 0
      rw [mtfSymbols_move z rest h, List.length_append, List.length_cons, List.length_cons]
      omega

theorem mtfSymbols_le (l : List Nat) : ∀ {yy : List Nat} (z : Nat), 1 ≤ yy.length →
    (∀ s ∈ l, s ∈ yy) → ∀ x ∈ mtfSymbols yy z l, x ≤ yy.length := by
  induction l with
  | nil => exact fun z hyy _ x hx => (putRun_le z x hx).trans hyy
  | cons s rest ih =>
    intro yy z hyy hmem x hx
    obtain ⟨hs, hrest⟩ := List.forall_mem_cons.mp hmem
    by_cases h : yy.head? = some s
    · rw [mtfSymbols_front z rest h] at hx
      exact ih (z + 1) hyy hrest x hx
    · have hperm := toFront_idxOf_perm hs
      rw [mtfSymbols_move z rest h, List.mem_append, List.mem_cons] at hx
      rcases hx with hx | rfl | hx
      · exact (putRun_le z x hx).trans hyy
      · exact List.idxOf_lt_length_of_mem hs
      · rw [← hperm.length_eq] at hyy ⊢
        exact ih 0 hyy (fun t ht => hperm.mem_iff.mpr (hrest t ht)) x hx

end Sys2Proof.Machine
end

section
/-! PROOF. The MTF and RLE2 transform (44_mtf_encode.md rules R83 to R88), part 2: the block loaded
and the symbol stream `ENC_MTF` makes of it. O25, O26 and O27. -/

namespace Sys2Proof.Machine

/-! ## Numbers written to a memory -/

section
variable {w : Nat} (m : Mem w) {vs : List Nat}

theorem Mem.getElem_readNats (a n i : Nat) (h : i < (m.readNats a n).length) :
    (m.readNats a n)[i] = (m.read (a + i)).toNat := by
  simp [Mem.readNats, Mem.readRange]

@[simp] theorem Mem.readRange_length (a n : Nat) : (m.readRange a n).length = n := by
  rw [Mem.readRange, List.length_map, List.length_range]

/-- Numbers that fit the elements are read back. -/
theorem Mem.toNat_read_writeNats (h : ∀ v ∈ vs, v < 2 ^ w) {i : Nat} (hi : i < vs.length) :
    ((m.writeNats 0 vs).read i).toNat = vs[i] := by
  have hread := Mem.read_writeRange_inside m 0 (vs.map (BitVec.ofNat w)) i (by simpa using hi)
  rw [Nat.zero_add] at hread
  rw [Mem.writeNats, hread, List.getElem_map, BitVec.toNat_ofNat,
    Nat.mod_eq_of_lt (h _ (List.getElem_mem hi))]

theorem Mem.readNats_writeNats (h : ∀ v ∈ vs, v < 2 ^ w) :
    (m.writeNats 0 vs).readNats 0 vs.length = vs := by
  refine List.ext_getElem (by simp) fun i _ hi => ?_
  rw [Mem.getElem_readNats, Nat.zero_add, Mem.toNat_read_writeNats m h hi]

theorem Mem.read_writeNats_outside {b : Nat} (h : vs.length ≤ b) :
    (m.writeNats 0 vs).read b = m.read b :=
  Mem.read_writeRange_outside m 0 _ b (.inr (by simpa using h))

end

/-- Counting a value in a list is counting the positions that hold it. -/
theorem count_eq_countBelow {l : List Nat} {f : Nat → Nat} (x : Nat)
    (h : ∀ i (hi : i < l.length), f i = l[i]) :
    l.count x = countBelow l.length fun i => decide (f i = x) := by
  have hl : l = (List.range l.length).map f :=
    List.ext_getElem (by simp) fun i hi _ => by simp [h i hi]
  conv_lhs => rw [hl]
  rw [List.count, List.countP_map]
  exact List.countP_congr fun i _ => by simp

/-! ## The block loaded (rules R83 to R86) -/

/-- An encoder with a block loaded whose bytes are in use. -/
structure Encoder.HoldsBlock (e : Encoder) : Prop where
  nonempty : 1 ≤ e.blockLength
  fits : e.blockLength ≤ 900000
  bytesInUse : ∀ i < e.blockLength, e.inUse.getLsbD (e.block.read i).toNat = true

theorem one_le_blockLength {e : Encoder} (h : e.last ≠ 0xFFFFFFFF) : 1 ≤ e.blockLength := by
  rw [Encoder.blockLength]
  bv_omega

section
variable {s : State} (hinv : s.Inv)
include hinv

theorem State.Inv.last_ne (hs : s.enc.estate ≠ .empty) : s.enc.last ≠ 0xFFFFFFFF :=
  fun hlast => hs (hinv.emptyIffNoBlock.mpr (noBlock_iff.mpr hlast))

theorem State.Inv.holdsBlock (hlegal : s.enc.Legal) (hs : s.enc.estate ≠ .empty) :
    s.enc.HoldsBlock where
  nonempty := one_le_blockLength (hinv.last_ne hs)
  fits := hinv.blockFits.trans hinv.capacity_le
  bytesInUse := hlegal.bytesInUse

/-- `LAST + 1` as a signed number is how many bytes the block holds. -/
theorem State.Inv.last_toInt : s.enc.last.toInt + 1 = s.enc.blockLength := by
  have hfits := hinv.blockFits.trans hinv.capacity_le
  rw [Encoder.blockLength] at hfits ⊢
  rw [BitVec.toInt_eq_toNat_cond]
  bv_omega

end

/-- The encoder after a byte was put in its block (rule R84). -/
def Encoder.put (e : Encoder) (byte : Byte) : Encoder :=
  { e with
    last := e.last + 1
    block := e.block.write e.blockLength byte
    inUse := e.inUse ||| BitVec.ofNat 256 (2 ^ byte.toNat)
    estate := .loaded }

theorem Encoder.read_block_put (e : Encoder) (byte : Byte) (a : Nat) :
    (e.put byte).block.read a = if e.blockLength = a then byte else e.block.read a :=
  Mem.read_write _ _ _ _

theorem Encoder.getLsbD_inUse_put (e : Encoder) (byte : Byte) {u : Nat} (hu : u < 256) :
    (e.put byte).inUse.getLsbD u = (decide (u = byte.toNat) || e.inUse.getLsbD u) := by
  rw [Encoder.put, BitVec.getLsbD_or, BitVec.getLsbD_ofNat, Nat.testBit_two_pow, Bool.or_comm,
    decide_eq_true hu, Bool.true_and, decide_eq_decide.mpr eq_comm]

section
variable {s : State} {byte : Byte}

theorem commandBody_blkPut_outOfState (hempty : s.enc.estate ≠ .empty)
    (hloaded : s.enc.estate ≠ .loaded) : commandBody (.blkPut byte) s = .raise .state s :=
  if_pos ⟨hempty, hloaded⟩

variable (hinv : s.Inv) (hs : s.enc.estate = .empty ∨ s.enc.estate = .loaded)
include hinv hs

theorem commandBody_blkPut_full (hfull : Config.blockUnit * s.blockSize.toNat ≤ s.enc.blockLength) :
    commandBody (.blkPut byte) s = .raise .capacity s :=
  (if_neg (by tauto)).trans (if_pos (by rw [hinv.last_toInt]; exact_mod_cast hfull))

theorem commandBody_blkPut_room (hroom : s.enc.blockLength < Config.blockUnit * s.blockSize.toNat) :
    commandBody (.blkPut byte) s = .done { s with enc := s.enc.put byte } :=
  (if_neg (by tauto)).trans (if_neg (by rw [hinv.last_toInt, not_le]; exact_mod_cast hroom))

end

/-- Settles O25: the byte goes to the element `LAST + 1`, and `LAST` does not wrap below the
capacity. -/
theorem blockLoadAppendsBytes : Obligations.BlockLoadAppendsBytes := by
  unfold Obligations.BlockLoadAppendsBytes
  intro s byte herr
  refine ⟨exec_done (i := .blkReset) nofun herr rfl, fun hinv hs hroom => ?_,
    fun hinv hs hfull => ?_, fun hempty hloaded => ?_⟩
  · have hread := s.enc.read_block_put byte
    refine ⟨(s.enc.put byte).block, (s.enc.put byte).inUse,
      exec_done (i := .blkPut byte) nofun herr (commandBody_blkPut_room hinv hs hroom), rfl,
      (hread _).trans (if_pos rfl), fun a ha => (hread a).trans (if_neg ha.symm),
      fun u hu => s.enc.getLsbD_inUse_put byte hu⟩
  · exact exec_raises (i := .blkPut byte) nofun herr (commandBody_blkPut_full hinv hs hfull)
  · exact exec_stateError (i := .blkPut byte) nofun herr
      (commandBody_blkPut_outOfState hempty hloaded)

/-- Settles O26: the check for an empty block comes before every other check of the five
commands. -/
theorem emptyBlockMakesEncoderIdle : Obligations.EmptyBlockMakesEncoderIdle := by
  unfold Obligations.EmptyBlockMakesEncoderIdle
  intro s i herr hlast hi
  have empty {f : State → CmdResult} : unlessNoBlock f s = .done s :=
    unlessNoBlock_empty (noBlock_iff.mpr hlast)
  rcases hi with rfl | rfl | rfl | rfl | ⟨rand, origPtr, rfl⟩
  all_goals exact exec_done nofun herr empty

/-! ## The sequence numbers of the block's bytes (rule R86) -/

/-- A byte in use has a smaller sequence number than the next bound. -/
theorem rankOf_lt {inUse : BitVec 256} {u v : Nat} (hu : inUse.getLsbD u = true) (huv : u < v) :
    rankOf inUse u < rankOf inUse v := countBelow_lt hu huv

/-- The sequence numbers of the block's bytes, in order. -/
def Encoder.sequence (e : Encoder) : List Nat :=
  (e.block.readNats 0 e.blockLength).map (rankOf e.inUse)

theorem Encoder.sequence_length (e : Encoder) : e.sequence.length = e.blockLength := by
  rw [Encoder.sequence, List.length_map, Mem.readNats_length]

/-- The symbols before `EOB`. -/
def Encoder.loopSymbols (e : Encoder) : List Nat :=
  mtfSymbols (List.range (rankOf e.inUse 256)) 0 e.sequence

theorem Encoder.symbolStream_eq (e : Encoder) :
    e.symbolStream = e.loopSymbols ++ [rankOf e.inUse 256 + 1] := rfl

theorem Encoder.symbolStream_length (e : Encoder) :
    e.symbolStream.length = e.loopSymbols.length + 1 := by
  rw [e.symbolStream_eq, List.length_append, List.length_singleton]

theorem Encoder.loopSymbols_length_le (e : Encoder) :
    e.loopSymbols.length ≤ e.blockLength := by
  have := mtfSymbols_length_le e.sequence (List.range (rankOf e.inUse 256)) 0
  rwa [e.sequence_length, Nat.zero_add] at this

namespace Encoder.HoldsBlock

variable {e : Encoder} (h : e.HoldsBlock)
include h

theorem mem_range_of_mem_sequence : ∀ q ∈ e.sequence, q ∈ List.range (rankOf e.inUse 256) := by
  intro q hq
  obtain ⟨v, hv, rfl⟩ := List.mem_map.mp hq
  obtain ⟨i, hi, rfl⟩ := List.getElem_of_mem hv
  rw [Mem.readNats_length] at hi
  rw [Mem.getElem_readNats, Nat.zero_add]
  exact List.mem_range.mpr (rankOf_lt (h.bytesInUse i hi) (BitVec.isLt _))

/-- A block has a byte, so a byte value is in use. -/
theorem one_le_rankOf : 1 ≤ rankOf e.inUse 256 :=
  (Nat.zero_le _).trans_lt (rankOf_lt (h.bytesInUse 0 h.nonempty) (BitVec.isLt _))

theorem loopSymbols_le : ∀ x ∈ e.loopSymbols, x ≤ rankOf e.inUse 256 := by
  have := mtfSymbols_le e.sequence 0 (by rw [List.length_range]; exact h.one_le_rankOf)
    h.mem_range_of_mem_sequence
  rwa [List.length_range] at this

theorem symbolStream_le : ∀ x ∈ e.symbolStream, x ≤ rankOf e.inUse 256 + 1 := by
  intro x hx
  rw [e.symbolStream_eq, List.mem_append, List.mem_singleton] at hx
  rcases hx with hx | rfl
  · exact (h.loopSymbols_le x hx).trans (Nat.le_succ _)
  · exact Nat.le_refl _

theorem symbolStream_length_le : e.symbolStream.length ≤ 900001 := by
  have := e.loopSymbols_length_le
  have := h.fits
  rw [e.symbolStream_length]
  omega

end Encoder.HoldsBlock

/-! ## `ENC_MTF` (rule R88) -/

/-- The encoder after `ENC_MTF`. -/
def Encoder.setMtf (e : Encoder) : Encoder :=
  { e with
    nInUse := BitVec.ofNat 9 (rankOf e.inUse 256)
    nMtf := BitVec.ofNat 20 e.symbolStream.length
    mtfv := e.mtfv.writeNats 0 e.symbolStream
    mtfFreq := e.mtfFreq.writeNats 0
      ((List.range (rankOf e.inUse 256 + 2)).map fun x => e.symbolStream.count x)
    estate := .mtfDone }

theorem encMtf_done {s : State} (hs : s.enc.estate = .loaded) :
    encMtf s = .done { s with enc := s.enc.setMtf } := if_neg (not_not.mpr hs)

theorem exec_encMtf {s : State} (herr : s.err = 0) (hlast : s.enc.last ≠ 0xFFFFFFFF)
    (hs : s.enc.estate = .loaded) :
    exec .encMtf s = .next { s with enc := s.enc.setMtf }.countCommand :=
  exec_done nofun herr ((unlessNoBlock_block (noBlock_eq_false hlast)).trans (encMtf_done hs))

theorem Encoder.toNat_nInUse_setMtf (e : Encoder) :
    e.setMtf.nInUse.toNat = rankOf e.inUse 256 := by
  have := rankOf_le e.inUse 256
  rw [Encoder.setMtf, BitVec.toNat_ofNat]
  omega

namespace Encoder.HoldsBlock

variable {e : Encoder} (h : e.HoldsBlock)
include h

theorem toNat_nMtf_setMtf : e.setMtf.nMtf.toNat = e.symbolStream.length := by
  have := h.symbolStream_length_le
  rw [Encoder.setMtf, BitVec.toNat_ofNat]
  omega

/-- Every symbol fits an element of `MTFV`. -/
theorem symbolStream_lt : ∀ x ∈ e.symbolStream, x < 2 ^ 9 := by
  intro x hx
  have := h.symbolStream_le x hx
  have := rankOf_le e.inUse 256
  omega

theorem toNat_read_mtfv_setMtf {i : Nat} (hi : i < e.symbolStream.length) :
    (e.setMtf.mtfv.read i).toNat = e.symbolStream[i] :=
  e.mtfv.toNat_read_writeNats h.symbolStream_lt hi

theorem symbols_setMtf : e.setMtf.symbols = e.symbolStream := by
  rw [Encoder.symbols, h.toNat_nMtf_setMtf]
  exact e.mtfv.readNats_writeNats h.symbolStream_lt

/-- `MTFFREQ` counts the symbols of the alphabet. -/
theorem mtfFreq_setMtf : e.setMtf.mtfFreq.readNats 0 (rankOf e.inUse 256 + 2) =
    (List.range (rankOf e.inUse 256 + 2)).map fun x => e.symbolStream.count x := by
  have fits : ∀ c ∈ (List.range (rankOf e.inUse 256 + 2)).map fun x => e.symbolStream.count x,
      c < 2 ^ 20 := by
    intro c hc
    obtain ⟨x, -, rfl⟩ := List.mem_map.mp hc
    exact (List.count_le_length.trans h.symbolStream_length_le).trans_lt (by decide)
  have := e.mtfFreq.readNats_writeNats fits
  rwa [List.length_map, List.length_range] at this

theorem toNat_read_mtfFreq_setMtf {x : Nat} (hx : x ≤ rankOf e.inUse 256 + 1) :
    (e.setMtf.mtfFreq.read x).toNat = e.symbolStream.count x := by
  have hlen : x < (e.setMtf.mtfFreq.readNats 0 (rankOf e.inUse 256 + 2)).length := by
    rw [Mem.readNats_length]
    omega
  have hread := Mem.getElem_readNats _ 0 _ x hlen
  simpa [h.mtfFreq_setMtf] using hread.symm

end Encoder.HoldsBlock

/-- Settles O27: the loop puts at most one symbol for each byte, none of them above the number of
byte values in use, and `EOB` is one more than that. -/
theorem encMtfWritesSymbolStream : Obligations.EncMtfWritesSymbolStream := by
  unfold Obligations.EncMtfWritesSymbolStream
  intro s herr hinv hlegal hs
  have hne : s.enc.estate ≠ .empty := by rw [hs]; nofun
  have h := hinv.holdsBlock hlegal hne
  have hn := s.enc.toNat_nInUse_setMtf
  have hm := h.toNat_nMtf_setMtf
  have hlen := s.enc.symbolStream_length
  have hloop := s.enc.loopSymbols_length_le
  refine ⟨s.enc.setMtf.nInUse, s.enc.setMtf.nMtf, s.enc.setMtf.mtfv, s.enc.setMtf.mtfFreq,
    exec_encMtf herr (hinv.last_ne hne) hs, hn, ?_, ?_, ?_, ?_, fun i hi => ?_,
    fun x hx => ?_, fun a ha => ?_, fun a ha => ?_⟩
  · rw [hn]; exact h.one_le_rankOf
  · rw [hm]; omega
  · rw [hm]; omega
  · rw [hn, hm, h.toNat_read_mtfv_setMtf (by omega)]
    simp [s.enc.symbolStream_eq]
  · rw [hm] at hi
    have hi' : i < s.enc.loopSymbols.length := by omega
    rw [hn, h.toNat_read_mtfv_setMtf (by omega)]
    simp only [s.enc.symbolStream_eq, List.getElem_append_left hi']
    exact h.loopSymbols_le _ (List.getElem_mem hi')
  · rw [hn] at hx
    rw [hm, h.toNat_read_mtfFreq_setMtf hx]
    exact count_eq_countBelow x fun i hi => h.toNat_read_mtfv_setMtf hi
  · rw [hm] at ha
    exact s.enc.mtfv.read_writeNats_outside (by omega)
  · rw [hn] at ha
    exact s.enc.mtfFreq.read_writeNats_outside (by simp; omega)

end Sys2Proof.Machine
end

section
/-! PROOF. The MTF and RLE2 transform (44_mtf_encode.md rule R89), part 3: the decoder's expansion
of the symbol stream (46_huffman_decode.md rule R114) gives the block back, and O29. -/

namespace Sys2Proof.Machine

/-! ## The symbols of the expansion (rule R114) -/

section
variable {d : Decoder} {nmax : Nat}

theorem expandSymbols_append {x y : Expansion} (a b : List Nat)
    (h : expandSymbols d nmax x a = .more y) :
    expandSymbols d nmax x (a ++ b) = expandSymbols d nmax y b := by
  induction a generalizing x with
  | nil => cases h; rfl
  | cons s a ih =>
    rw [expandSymbols] at h
    rw [List.cons_append, expandSymbols]
    cases hs : x.symbol d nmax s with
    | more z => rw [hs] at h; exact ih h
    | done z => rw [hs] at h; contradiction
    | fail => rw [hs] at h; contradiction

theorem expandSymbols_cons {x y : Expansion} {s : Nat} (b : List Nat)
    (h : x.symbol d nmax s = .more y) :
    expandSymbols d nmax x (s :: b) = expandSymbols d nmax y b := by
  rw [expandSymbols, h]

theorem expandSymbols_last {x y : Expansion} {s : Nat} (h : x.symbol d nmax s = .done y) :
    expandSymbols d nmax x [s] = .done y := by
  rw [expandSymbols, h]

/-! ## Runs -/

/-- The expansion with a run of `run` under way, its next digit weighing `weight`. -/
def Expansion.withRun (x : Expansion) (run weight : Nat) : Expansion :=
  { x with run := run, weight := weight }

variable (hn : 1 ≤ d.nInUse.toNat)
include hn

/-- RUNA and RUNB are digits of a run, below the weight `2^21`. -/
theorem Expansion.symbol_digit {x : Expansion} {s : Nat} (hs : s ≤ 1) (hw : x.weight < 2 ^ 21) :
    x.symbol d nmax s = .more (x.withRun (x.run + (s + 1) * x.weight) (2 * x.weight)) := by
  have hdigit : x.digit s = some (x.withRun (x.run + (s + 1) * x.weight) (2 * x.weight)) :=
    if_neg (Nat.not_le.mpr hw)
  simp only [Expansion.symbol]
  rw [if_neg (by omega), if_pos hs, hdigit]

/-- The digits of a run add up to its value, if no digit reaches the weight `2^21`. -/
theorem expandSymbols_digits (ds : List Nat) : ∀ (x : Expansion), (∀ s ∈ ds, s ≤ 1) →
    x.weight * 2 ^ ds.length ≤ 2 ^ 21 →
    expandSymbols d nmax x ds =
      .more (x.withRun (x.run + x.weight * runValue ds) (x.weight * 2 ^ ds.length)) := by
  induction ds with
  | nil => intro x _ _; simp [Expansion.withRun, expandSymbols]
  | cons s ds ih =>
    intro x hds hw
    obtain ⟨hs, hds⟩ := List.forall_mem_cons.mp hds
    rw [List.length_cons, pow_succ, ← mul_assoc] at hw
    have hpos : x.weight ≤ x.weight * 2 ^ ds.length := Nat.le_mul_of_pos_right _ (by positivity)
    rw [expandSymbols_cons ds (Expansion.symbol_digit hn hs (by omega)), ih _ hds]
    · simp only [Expansion.withRun, runValue_cons, List.length_cons]
      congr 2
      · ring
      · ring
    · simp only [Expansion.withRun]
      rw [mul_comm 2, mul_assoc, mul_comm 2, ← mul_assoc]
      exact hw

/-- A run shorter than `2^20` has at most 20 digits. -/
theorem expandSymbols_putRun {x : Expansion} {r : Nat} (hrun : x.run = 0) (hweight : x.weight = 1)
    (hr : r < 2 ^ 20) : ∃ w, (r = 0 → w = 1) ∧
      expandSymbols d nmax x (putRun r) = .more (x.withRun r w) := by
  have hlen := two_pow_length_putRun_le r
  have := expandSymbols_digits (nmax := nmax) hn (putRun r) x (putRun_le r) (by rw [hweight]; omega)
  rw [hrun, hweight, runValue_putRun, Nat.zero_add, Nat.one_mul, Nat.one_mul] at this
  exact ⟨_, fun h => by rw [h]; rfl, this⟩

end

/-! ## Bytes appended -/

/-- The expansion with `n` more copies of a byte. -/
def Expansion.appended (x : Expansion) (byte : Byte) (n : Nat) : Expansion :=
  { x with
    counts := x.counts.set byte.toNat (x.counts.getD byte.toNat 0 + n)
    bytes := List.replicate n byte ++ x.bytes
    nblock := x.nblock + n }

theorem Expansion.append_eq {x : Expansion} {nmax n : Nat} (byte : Byte)
    (h : x.nblock + n ≤ nmax) : x.append nmax byte.toNat n = some (x.appended byte n) := by
  have hbyte : BitVec.ofNat 8 byte.toNat = byte := BitVec.ofNat_toNat _ _
  rw [Expansion.append, if_neg (Nat.not_lt.mpr h), hbyte]
  rfl

/-- The byte at the front of the recency list. -/
def Expansion.front (d : Decoder) (x : Expansion) : Byte := d.seqToUnseq.read (x.yy.headD 0)

/-- The expansion with no run under way, its counts those of the bytes decoded. -/
structure Expansion.BetweenRuns (x : Expansion) : Prop where
  run : x.run = 0
  weight : x.weight = 1
  size : x.counts.length = 256
  nblock : x.nblock = x.bytes.length
  counts : ∀ b < 256, x.counts.getD b 0 = x.bytes.countP fun c => decide (c.toNat = b)

theorem Expansion.start_yy : Expansion.start.yy = List.range 256 := by rw [Expansion.start]

theorem Expansion.start_nblock : Expansion.start.nblock = 0 := by rw [Expansion.start]

theorem Expansion.start_bytes : Expansion.start.bytes = [] := by rw [Expansion.start]

theorem Expansion.betweenRuns_start : Expansion.start.BetweenRuns where
  run := rfl
  weight := rfl
  size := List.length_replicate
  nblock := rfl
  counts b hb := by
    rw [Expansion.start, List.getD_replicate _ hb]
    rfl

namespace Expansion.BetweenRuns

variable {x : Expansion} (h : x.BetweenRuns)
include h

theorem appended (byte : Byte) (n : Nat) : (x.appended byte n).BetweenRuns where
  run := h.run
  weight := h.weight
  size := List.length_set.trans h.size
  nblock := by
    simp only [Expansion.appended, List.length_append, List.length_replicate, h.nblock,
      Nat.add_comm]
  counts b hb := by
    have hlt : byte.toNat < x.counts.length := by rw [h.size]; exact byte.isLt
    have hcounts := h.counts b hb
    rw [List.getD_eq_getElem?_getD] at hcounts
    simp only [Expansion.appended, List.getD_eq_getElem?_getD, List.getElem?_set,
      List.countP_append, List.countP_replicate, decide_eq_true_eq]
    by_cases hbyte : byte.toNat = b
    · rw [if_pos hbyte, if_pos hlt, if_pos hbyte, Option.getD_some, hbyte, hcounts, Nat.add_comm]
    · rw [if_neg hbyte, if_neg hbyte, hcounts, Nat.zero_add]

theorem withFront (yy : List Nat) : { x with yy := yy }.BetweenRuns := { h with }

theorem appended_zero (byte : Byte) : x.appended byte 0 = x := by
  have hlt : byte.toNat < x.counts.length := by rw [h.size]; exact byte.isLt
  have hset : x.counts.set byte.toNat (x.counts.getD byte.toNat 0 + 0) = x.counts := by
    rw [Nat.add_zero, List.getD_eq_getElem _ _ hlt, List.set_getElem_self]
  rw [Expansion.appended, hset]
  rfl

theorem withRun_zero : x.withRun 0 1 = x := by
  rw [Expansion.withRun, ← h.run, ← h.weight]

/-- Closing a run appends its copies of the front byte. -/
theorem closeRun_withRun {d : Decoder} {nmax r w : Nat} (hw : r = 0 → w = 1)
    (hroom : x.nblock + r ≤ nmax) :
    (x.withRun r w).closeRun d nmax = some (x.appended (x.front d) r) := by
  rcases Nat.eq_zero_or_pos r with rfl | hr
  · rw [hw rfl, h.withRun_zero, h.appended_zero, Expansion.closeRun, if_pos h.run]
  · have happend : (x.withRun r w).append nmax (x.front d).toNat r =
        some ((x.withRun r w).appended (x.front d) r) := Expansion.append_eq _ hroom
    have hrest : ((x.withRun r w).appended (x.front d) r).withRun 0 1 = x.appended (x.front d) r :=
      (h.appended (x.front d) r).withRun_zero
    rw [Expansion.closeRun, if_neg (show ¬ (x.withRun r w).run = 0 from Nat.ne_of_gt hr)]
    exact (congrArg (Option.map fun y => y.withRun 0 1) happend).trans (congrArg some hrest)

end Expansion.BetweenRuns

/-- The expansion with the entry `v` at position `j` moved to the front. -/
def Expansion.moved (x : Expansion) (v j : Nat) : Expansion := { x with yy := toFront v j x.yy }

section
variable {d : Decoder} {nmax : Nat} {x : Expansion} {r w : Nat} (hx : x.BetweenRuns)
  (hw : r = 0 → w = 1)
include hx hw

/-- `EOB` closes the run under way and ends the block. -/
theorem Expansion.symbol_eob (hn : 1 ≤ d.nInUse.toNat) (hroom : x.nblock + r ≤ nmax) :
    (x.withRun r w).symbol d nmax (d.nInUse.toNat + 1) = .done (x.appended (x.front d) r) := by
  simp only [Expansion.symbol, and_true, if_true]
  rcases Nat.eq_zero_or_pos r with rfl | hr
  · rw [if_pos (show (x.withRun 0 w).run = 0 from rfl), hw rfl, hx.withRun_zero, hx.appended_zero]
  · rw [if_neg (show ¬ (x.withRun r w).run = 0 from Nat.ne_of_gt hr), if_neg (by omega),
      hx.closeRun_withRun hw hroom]

/-- A position closes the run under way and appends the byte there, which moves to the front. -/
theorem Expansion.symbol_position {v j : Nat} (hj : 1 ≤ j) (hjn : j < d.nInUse.toNat)
    (hv : x.yy.getD j 0 = v) (hroom : x.nblock + r + 1 ≤ nmax) :
    (x.withRun r w).symbol d nmax (j + 1) =
      .more (((x.appended (x.front d) r).moved v j).appended (d.seqToUnseq.read v) 1) := by
  have hmove : (x.appended (x.front d) r).move d nmax j =
      some (((x.appended (x.front d) r).moved v j).appended (d.seqToUnseq.read v) 1) := by
    subst hv
    exact Expansion.append_eq (x := (x.appended (x.front d) r).moved (x.yy.getD j 0) j) _ hroom
  simp only [Expansion.symbol]
  rw [if_neg (by omega), if_neg (by omega), hx.closeRun_withRun hw (by omega)]
  simp only [Nat.add_sub_cancel, hmove]
  exact if_neg (by omega)

end

/-! ## The symbols of a block -/

/-- A position in a list that begins another one. -/
theorem getD_idxOf_of_prefix {yy zz : List Nat} {s : Nat} (h : yy <+: zz) (hs : s ∈ yy) :
    zz.getD (yy.idxOf s) 0 = s := by
  obtain ⟨tail, rfl⟩ := h
  have hlt := List.idxOf_lt_length_of_mem hs
  rw [List.getD_append _ _ _ _ hlt, List.getD_eq_getElem _ _ hlt, List.getElem_idxOf]

/-- Moving an entry to the front of a list moves it to the front of a longer one. -/
theorem toFront_prefix {yy zz : List Nat} {s : Nat} (h : yy <+: zz) (hs : s ∈ yy) :
    toFront s (yy.idxOf s) yy <+: toFront s (yy.idxOf s) zz := by
  obtain ⟨tail, rfl⟩ := h
  rw [toFront, toFront, List.eraseIdx_append_of_lt_length (List.idxOf_lt_length_of_mem hs)]
  exact ⟨tail, rfl⟩

/-- What the loop of rule R88 puts for the rest of a block, with a run of `z` pending, expands to
the run's copies of the front byte and the rest of the block. The decoder's recency list has the
encoder's as its beginning. -/
theorem expandSymbols_mtfSymbols {d : Decoder} {nmax : Nat} (hn : 1 ≤ d.nInUse.toNat)
    (l : List Nat) : ∀ {yy : List Nat} {x : Expansion} (z : Nat), x.BetweenRuns →
    yy <+: x.yy → yy.length = d.nInUse.toNat → (∀ s ∈ l, s ∈ yy) →
    x.nblock + z + l.length ≤ nmax → z + l.length < 2 ^ 20 →
    ∃ (y : Expansion) (r w : Nat),
      expandSymbols d nmax x (mtfSymbols yy z l) = .more (y.withRun r w) ∧
      (r = 0 → w = 1) ∧ y.BetweenRuns ∧ y.nblock + r ≤ nmax ∧
      (y.appended (y.front d) r).bytes =
        (l.map d.seqToUnseq.read).reverse ++ (List.replicate z (x.front d) ++ x.bytes) := by
  induction l with
  | nil =>
    intro yy x z hx _ _ _ hroom hshort
    obtain ⟨w, hw, hrun⟩ := expandSymbols_putRun (nmax := nmax) hn hx.run hx.weight hshort
    exact ⟨x, z, w, hrun, hw, hx, hroom, rfl⟩
  | cons s rest ih =>
    intro yy x z hx hprefix hlen hmem hroom hshort
    obtain ⟨hs, hrest⟩ := List.forall_mem_cons.mp hmem
    rw [List.length_cons] at hroom hshort
    by_cases hfront : yy.head? = some s
    · obtain ⟨y, r, w, hexpand, hw, hy, hyroom, hbytes⟩ :=
        ih (z + 1) hx hprefix hlen hrest (by omega) (by omega)
      refine ⟨y, r, w, by rw [mtfSymbols_front z rest hfront]; exact hexpand, hw, hy, hyroom, ?_⟩
      have hhead : x.front d = d.seqToUnseq.read s := by
        obtain ⟨tail, htail⟩ := hprefix
        rw [Expansion.front, ← htail, List.headD_eq_head?_getD, List.head?_append, hfront]
        rfl
      rw [hbytes, List.map_cons, List.reverse_cons, List.replicate_succ, hhead, List.append_assoc]
      rfl
    · obtain ⟨w, hw, hrun⟩ := expandSymbols_putRun (nmax := nmax) hn hx.run hx.weight
        (show z < 2 ^ 20 by omega)
      have hstep := Expansion.symbol_position hx hw (idxOf_pos_of_head? hs hfront)
        (hlen ▸ List.idxOf_lt_length_of_mem hs) (getD_idxOf_of_prefix hprefix hs)
        (show x.nblock + z + 1 ≤ nmax by omega)
      have hperm := toFront_idxOf_perm hs
      obtain ⟨y, r, w', hexpand, hw', hy, hyroom, hbytes⟩ := ih 0
        (((hx.appended (x.front d) z).withFront _).appended (d.seqToUnseq.read s) 1)
        (toFront_prefix hprefix hs) (hperm.length_eq.trans hlen)
        (fun t ht => hperm.mem_iff.mpr (hrest t ht))
        (show x.nblock + z + 1 + 0 + rest.length ≤ nmax by omega) (by omega)
      refine ⟨y, r, w', ?_, hw', hy, hyroom, ?_⟩
      · rw [mtfSymbols_move z rest hfront, expandSymbols_append _ _ hrun,
          expandSymbols_cons _ hstep]
        exact hexpand
      · rw [hbytes, List.map_cons, List.reverse_cons, List.append_assoc]
        rfl

/-- The bytes in the order of the block: each byte's sequence number stands for the byte. -/
theorem Encoder.map_read_sequence {e : Encoder} (h : e.HoldsBlock) {d : Decoder}
    (hseq : ∀ u < 256, e.inUse.getLsbD u = true →
      (d.seqToUnseq.read (rankOf e.inUse u)).toNat = u) :
    e.sequence.map d.seqToUnseq.read = e.block.readRange 0 e.blockLength := by
  simp only [Encoder.sequence, Mem.readNats, Mem.readRange, List.map_map]
  refine List.map_congr_left fun i hi => BitVec.eq_of_toNat_eq ?_
  have huse := h.bytesInUse i (List.mem_range.mp hi)
  simpa using hseq _ (BitVec.isLt _) huse

/-- The expansion of a block's symbol stream, by a decoder with the same bytes in use, is the block
(rule R89). -/
theorem Encoder.HoldsBlock.expandSymbols_symbolStream {e : Encoder} (h : e.HoldsBlock) {d : Decoder}
    {nmax : Nat} (hn : d.nInUse.toNat = rankOf e.inUse 256)
    (hseq : ∀ u < 256, e.inUse.getLsbD u = true →
      (d.seqToUnseq.read (rankOf e.inUse u)).toNat = u) (hroom : e.blockLength ≤ nmax) :
    ∃ x y, expandSymbols d nmax .start e.loopSymbols = .more x ∧
      x.symbol d nmax (rankOf e.inUse 256 + 1) = .done y ∧
      y.bytes.reverse = e.block.readRange 0 e.blockLength ∧ y.nblock = e.blockLength ∧
      y.BetweenRuns := by
  have hpos : 1 ≤ d.nInUse.toNat := hn ▸ h.one_le_rankOf
  have hfits := h.fits
  have hprefix : List.range (rankOf e.inUse 256) <+: Expansion.start.yy := by
    rw [Expansion.start_yy, ← Nat.min_eq_left (rankOf_le e.inUse 256), ← List.take_range]
    exact List.take_prefix _ _
  obtain ⟨y, r, w, hexpand, hw, hy, hyroom, hbytes⟩ := expandSymbols_mtfSymbols (nmax := nmax) hpos
    e.sequence 0 Expansion.betweenRuns_start hprefix (by rw [List.length_range, hn])
    h.mem_range_of_mem_sequence (by rw [e.sequence_length, Expansion.start_nblock]; omega)
    (by rw [e.sequence_length]; omega)
  have hclosed := hy.appended (y.front d) r
  have hblock : (y.appended (y.front d) r).bytes.reverse = e.block.readRange 0 e.blockLength := by
    rw [hbytes, Encoder.map_read_sequence h hseq, Expansion.start_bytes]
    simp
  refine ⟨_, _, hexpand, hn ▸ Expansion.symbol_eob hy hw hpos hyroom, hblock, ?_, hclosed⟩
  rw [hclosed.nblock, ← List.length_reverse, hblock, Mem.readRange_length]

/-- Settles O29: the decoder's recency list begins with the encoder's at every symbol, so each digit
string is the run it was written for and each position names the byte it was written for. -/
theorem expansionInvertsMtf : Obligations.ExpansionInvertsMtf := by
  unfold Obligations.ExpansionInvertsMtf
  intro s t d nmax herr hinv hlegal hs hexec hnInUse hseq hroom
  have hne : s.enc.estate ≠ .empty := by rw [hs]; nofun
  have h := hinv.holdsBlock hlegal hne
  have ht : t.enc = s.enc.setMtf := by
    rw [exec_encMtf herr (hinv.last_ne hne) hs] at hexec
    exact Host.Outcome.next.inj hexec ▸ rfl
  have hn : d.nInUse.toNat = rankOf s.enc.inUse 256 := by
    rw [hnInUse, ht]
    exact s.enc.toNat_nInUse_setMtf
  obtain ⟨x, y, hmore, hdone, hbytes, hlen, hy⟩ := h.expandSymbols_symbolStream hn hseq hroom
  rw [ht, h.symbols_setMtf, s.enc.symbolStream_eq, List.dropLast_concat]
  refine ⟨x, y, hmore, ?_, hbytes, hlen, hy.counts⟩
  rw [expandSymbols_append _ _ hmore, expandSymbols_last hdone]

end Sys2Proof.Machine
end

section
/-! PROOF. What the encoder's stages leave in its memories (44_mtf_encode.md rules R84 and R88,
45_huffman_encode.md rules R90 to R95), and O59. -/

namespace Sys2Proof.Machine

/-! ## Least and greatest of a list -/

theorem foldl_min_mem (l : List Nat) : ∀ a, l.foldl min a = a ∨ l.foldl min a ∈ l := by
  induction l with
  | nil => exact fun _ => .inl rfl
  | cons x l ih =>
    intro a
    rw [List.foldl_cons]
    rcases ih (min a x) with h | h
    · rcases min_choice a x with hmin | hmin
      · exact .inl (h.trans hmin)
      · exact .inr (List.mem_cons.mpr (.inl (h.trans hmin)))
    · exact .inr (List.mem_cons_of_mem x h)

theorem foldl_min_le (l : List Nat) : ∀ a, l.foldl min a ≤ a ∧ ∀ x ∈ l, l.foldl min a ≤ x := by
  induction l with
  | nil => exact fun a => ⟨Nat.le_refl a, nofun⟩
  | cons y l ih =>
    intro a
    obtain ⟨hmin, hall⟩ := ih (min a y)
    exact ⟨hmin.trans (min_le_left a y),
      List.forall_mem_cons.mpr ⟨hmin.trans (min_le_right a y), hall⟩⟩

theorem le_foldl_max (l : List Nat) : ∀ a, a ≤ l.foldl max a ∧ ∀ x ∈ l, x ≤ l.foldl max a := by
  induction l with
  | nil => exact fun a => ⟨Nat.le_refl a, nofun⟩
  | cons y l ih =>
    intro a
    obtain ⟨hmax, hall⟩ := ih (max a y)
    exact ⟨(le_max_left a y).trans hmax,
      List.forall_mem_cons.mpr ⟨(le_max_right a y).trans hmax, hall⟩⟩

theorem leastOf_mem {l : List Nat} (h : l ≠ []) : leastOf l ∈ l := by
  obtain ⟨x, l, rfl⟩ := List.exists_cons_of_ne_nil h
  rcases foldl_min_mem (x :: l) x with hx | hx
  · exact List.mem_cons.mpr (.inl hx)
  · exact hx

theorem leastOf_le {l : List Nat} {x : Nat} (h : x ∈ l) : leastOf l ≤ x :=
  (foldl_min_le l _).2 x h

theorem le_greatestOf {l : List Nat} {x : Nat} (h : x ∈ l) : x ≤ greatestOf l :=
  (le_foldl_max l 0).2 x h

/-! ## The selectors of the training passes (rules R90 and R92) -/

theorem symbolGroups_nil (size fuel : Nat) : symbolGroups size fuel [] = [] := by
  cases fuel with
  | zero => rfl
  | succ fuel => rw [symbolGroups, if_pos rfl]

theorem symbolGroups_cons {size fuel : Nat} {syms : List Nat} (h : syms ≠ []) :
    symbolGroups size (fuel + 1) syms =
      syms.take size :: symbolGroups size fuel (syms.drop size) := by
  rw [symbolGroups, if_neg h]

/-- One group for each 50 symbols or part of 50. -/
theorem symbolGroups_length (fuel : Nat) : ∀ syms : List Nat, syms.length ≤ fuel →
    (symbolGroups Config.groupSize fuel syms).length = (syms.length + 49) / 50 := by
  induction fuel with
  | zero =>
    intro syms h
    rw [List.length_eq_zero_iff.mp (Nat.le_zero.mp h)]
    rfl
  | succ fuel ih =>
    intro syms h
    by_cases hne : syms = []
    · rw [hne, symbolGroups_nil]
      rfl
    · have hpos := List.length_pos_iff.mpr hne
      have hsize : Config.groupSize = 50 := rfl
      have hlen : (syms.drop Config.groupSize).length = syms.length - 50 := by
        rw [List.length_drop, hsize]
      rw [symbolGroups_cons hne, List.length_cons, ih _ (by omega), hlen]
      omega

theorem cheapest_lt {tables : List (List Nat)} (h : tables ≠ []) (group : List Nat) :
    cheapest tables group < tables.length := by
  have hne : tables.map (groupCost group) ≠ [] := by simpa using h
  simpa [cheapest] using List.idxOf_lt_length_of_mem (leastOf_mem hne)

/-- After at least one pass there is a selector for each group, naming one of the tables. -/
theorem trainingPasses_selectors (a : Nat) (groups : List (List Nat)) (n : Nat) :
    ∀ r : List Nat × List (List Nat), r.2 ≠ [] →
      (trainingPasses a groups (n + 1) r).1.length = groups.length ∧
      ∀ t ∈ (trainingPasses a groups (n + 1) r).1, t < r.2.length := by
  induction n with
  | zero =>
    intro r hr
    refine ⟨List.length_map _, fun t ht => ?_⟩
    obtain ⟨g, -, rfl⟩ := List.mem_map.mp ht
    exact cheapest_lt hr g
  | succ n ih =>
    intro r hr
    have hlen := trainingPass_tables_length a groups r.2
    have hne : (trainingPass a groups r.2).2 ≠ [] := by
      rw [← List.length_pos_iff, hlen]
      exact List.length_pos_iff.mpr hr
    have := ih (trainingPass a groups r.2) hne
    rwa [hlen] at this

theorem two_le_tableCount (n : Nat) : 2 ≤ tableCount n := by
  unfold tableCount
  repeat' split
  all_goals decide

theorem tableCount_le (n : Nat) : tableCount n ≤ 6 := by
  unfold tableCount
  repeat' split
  all_goals decide

theorem train_selectors (a : Nat) (freq syms : List Nat) :
    (train a freq syms).1.length = (syms.length + 49) / 50 ∧
      ∀ t ∈ (train a freq syms).1, t < tableCount syms.length := by
  have hcount : (seedTables freq a (tableCount syms.length) (tableCount syms.length)
      syms.length 0).reverse.length = tableCount syms.length := by
    rw [List.length_reverse, seedTables_length]
  have hne := List.length_pos_iff.mp (hcount ▸ (two_le_tableCount syms.length).trans' (by decide))
  obtain ⟨hlen, hlt⟩ := trainingPasses_selectors a
    (symbolGroups Config.groupSize syms.length syms) 3 ([], _) hne
  exact ⟨hlen.trans (symbolGroups_length _ _ (Nat.le_refl _)), fun t ht => hcount ▸ hlt t ht⟩

/-! ## The number of codes (rule R95) -/

theorem assignCodes_length (n : Nat) (lens : List Nat) : ∀ i vec codes,
    (assignCodes n lens i vec codes).2.length = codes.length := by
  induction lens with
  | nil => exact fun _ _ _ => rfl
  | cons l lens ih =>
    intro i vec codes
    rw [assignCodes]
    split
    · rw [ih, List.length_set]
    · exact ih _ _ _

theorem codeLoop_length (lens : List Nat) (count : Nat) : ∀ n vec codes,
    (codeLoop lens count n vec codes).length = codes.length := by
  induction count with
  | zero => exact fun _ _ _ => rfl
  | succ count ih =>
    intro n vec codes
    rw [codeLoop, ih, assignCodes_length]

theorem canonicalCodes_length (lens : List Nat) : (canonicalCodes lens).length = lens.length := by
  rw [canonicalCodes, codeLoop_length, List.length_replicate]

/-! ## Each stage leaves what it says -/

/-- No block, nothing to say of it. -/
theorem Encoder.legal_of_empty {e : Encoder} (hlast : e.last = 0xFFFFFFFF)
    (hs : e.estate = .empty) : e.Legal where
  bytesInUse i hi := absurd hi (Nat.not_lt.mpr (blockLength_le_of_empty hlast))
  stream h := by simp [hs] at h
  tables h := by simp [hs] at h
  codes h := by simp [hs] at h

/-- `BLK_PUT` (44_mtf_encode.md rule R84). -/
theorem Encoder.Legal.put {e : Encoder} (h : e.Legal) (byte : Byte) : (e.put byte).Legal where
  bytesInUse i hi := by
    have hread := e.read_block_put byte i
    rw [e.getLsbD_inUse_put byte (BitVec.isLt _), hread]
    by_cases hlast : e.blockLength = i
    · rw [if_pos hlast, decide_eq_true rfl, Bool.true_or]
    · have hlt : i < e.blockLength := by
        have hle : (e.put byte).blockLength ≤ e.blockLength + 1 := by
          simp only [Encoder.blockLength, Encoder.put]
          bv_omega
        omega
      rw [if_neg hlast, h.bytesInUse i hlt, Bool.or_true]
  stream := nofun
  tables := nofun
  codes := nofun

/-- `ENC_MTF` (rule R88). -/
theorem Encoder.HoldsBlock.legal_setMtf {e : Encoder} (h : e.HoldsBlock) : e.setMtf.Legal where
  bytesInUse := h.bytesInUse
  stream _ := by
    have halphabet : e.setMtf.alphabet = rankOf e.inUse 256 + 2 :=
      congrArg (· + 2) e.toNat_nInUse_setMtf
    refine ⟨e.toNat_nInUse_setMtf, h.toNat_nMtf_setMtf, h.symbols_setMtf, ?_⟩
    rw [halphabet]
    exact h.mtfFreq_setMtf
  tables := nofun
  codes := nofun

/-- `ENC_TRAIN` (45_huffman_encode.md rules R90 and R92). -/
theorem Encoder.Legal.setTrained {e : Encoder} (h : e.Legal) (hs : e.estate = .mtfDone)
    (freq : List Nat) :
    (e.setTrained (train e.alphabet freq (e.mtfv.readNats 0 e.nMtf.toNat))).Legal where
  bytesInUse := h.bytesInUse
  stream _ := h.stream (.inl hs)
  tables _ := by
    obtain ⟨hlen, hlt⟩ := train_selectors e.alphabet freq (e.mtfv.readNats 0 e.nMtf.toNat)
    rw [Mem.readNats_length] at hlen hlt
    generalize train e.alphabet freq (e.mtfv.readNats 0 e.nMtf.toNat) = r at hlen hlt
    have hcount := tableCount_lt e.nMtf.toNat
    have hgroups : (e.setTrained r).nGroups.toNat = tableCount e.nMtf.toNat := by
      rw [Encoder.setTrained, BitVec.toNat_ofNat, Nat.mod_eq_of_lt hcount]
    have hselectors : (e.setTrained r).nSelectors.toNat = r.1.length := by
      have := e.nMtf.isLt
      rw [Encoder.setTrained, BitVec.toNat_ofNat, hlen]
      omega
    refine ⟨hgroups, hselectors.trans hlen, ?_⟩
    rw [hgroups, Encoder.selectors, hselectors]
    exact (e.selector.readNats_writeNats fun t ht => (hlt t ht).trans hcount).symm ▸ hlt
  codes := nofun

/-- The encoder after `ENC_CODES` (rule R96). -/
def Encoder.setCodes (e : Encoder) : Encoder :=
  { e with
    eCode := e.eCode.writeRows Config.symbolRow 0
      ((e.eLen.readRows Config.symbolRow e.nGroups.toNat e.alphabet).map fun lens =>
        (canonicalCodes lens).map (BitVec.ofNat 20))
    estate := .coded }

theorem encCodes_done {s : State} (hs : s.enc.estate = .trained) :
    encCodes s = .done { s with enc := s.enc.setCodes } := if_neg (not_not.mpr hs)

theorem Encoder.lengths_length (e : Encoder) (t : Nat) : (e.lengths t).length = e.alphabet :=
  Mem.readNats_length _ _ _

/-- The codes of table `t` stand in row `t` of `E_CODE` (rule R95). -/
theorem Encoder.read_eCode_setCodes {e : Encoder} (hn : e.nInUse.toNat ≤ 256) {t v : Nat}
    (ht : t < e.nGroups.toNat) (hv : v < e.alphabet) :
    e.setCodes.eCode.read (Config.symbolRow * t + v) =
      BitVec.ofNat 20 ((canonicalCodes (e.lengths t)).getD v 0) := by
  have hsize : ∀ row ∈ ((List.range e.nGroups.toNat).map e.lengths).map fun lens =>
      (canonicalCodes lens).map (BitVec.ofNat 20), row.length ≤ Config.symbolRow := by
    simp only [List.map_map, List.mem_map]
    rintro _ ⟨t, -, rfl⟩
    simpa [canonicalCodes_length, Encoder.lengths_length] using Encoder.alphabet_le_symbolRow hn
  have hv' : v < (canonicalCodes (e.lengths t)).length := by
    rwa [canonicalCodes_length, Encoder.lengths_length]
  have := Mem.read_writeRows Config.symbolRow _ hsize 0 e.eCode t v (by simpa using ht)
    (by simpa using hv')
  rw [Nat.zero_add] at this
  rw [List.getD_eq_getElem _ _ hv']
  exact this.trans (by simp)

/-- `ENC_CODES` (rule R96). -/
theorem Encoder.Legal.setCodes {e : Encoder} (h : e.Legal) (hn : e.nInUse.toNat ≤ 256)
    (hs : e.estate = .trained) : e.setCodes.Legal where
  bytesInUse := h.bytesInUse
  stream _ := h.stream (.inr (.inl hs))
  tables _ := h.tables (.inl hs)
  codes _ _ ht _ hv := Encoder.read_eCode_setCodes hn ht hv

/-! ## Every command and every step -/

/-- Every command's own rule keeps what the encoder's stages leave. -/
theorem commandBody_encoderLegal {i : Instr} {s : State} (hi : i ≠ .sysReset) (hinv : s.Inv)
    (h : s.enc.Legal) : (commandBody i s).LeadsTo i s fun t => t.enc.Legal := by
  cases i with
  | sysReset => exact absurd rfl hi
  | nop | sinkReset | srcReset | crcReset | crcCombine | decReset => exact h
  | crcUpdate _ | crcUpdateRun _ _ | crcFold _ => exact h
  | cfg bs => exact leadsTo_ite (fun _ => h) fun _ => leadsTo_ite (fun _ => h) fun _ => h
  | sinkWrite n value =>
    rw [commandBody]
    exact leadsTo_sinkCommand h (leadsTo_ite (fun _ => h) fun _ => h)
  | sinkFlush | sinkFinish | encStreamHdr | encTrailer =>
    rw [commandBody]
    exact leadsTo_sinkCommand h h
  | encBlockHdr rand origPtr =>
    exact leadsTo_unlessNoBlock h fun _ =>
      leadsTo_sinkCommand h (leadsTo_ite (fun _ => h) fun _ => h)
  | srcRead n =>
    exact leadsTo_ite (fun _ => h) fun _ => leadsTo_readCommand (fun _ _ _ => h) (fun _ => h) h
  | blkReset => exact Encoder.legal_of_empty rfl rfl
  | blkPut byte =>
    exact leadsTo_ite (fun _ => h) fun _ => leadsTo_ite (fun _ => h) fun _ => h.put byte
  | encMtf =>
    refine leadsTo_unlessNoBlock h fun _ => ?_
    by_cases hs : s.enc.estate = .loaded
    · rw [encMtf_done hs]
      exact (hinv.holdsBlock h (by rw [hs]; nofun)).legal_setMtf
    · rw [encMtf, if_pos hs]
      exact h
  | encTrain =>
    refine leadsTo_unlessNoBlock h fun _ => ?_
    by_cases hs : s.enc.estate = .mtfDone
    · rw [encTrain_done hs]
      exact h.setTrained hs _
    · rw [encTrain, if_pos hs]
      exact h
  | encCodes =>
    refine leadsTo_unlessNoBlock h fun _ => ?_
    by_cases hs : s.enc.estate = .trained
    · rw [encCodes_done hs]
      exact h.setCodes hinv.inUseLegal hs
    · rw [encCodes, if_pos hs]
      exact h
  | encEmit =>
    exact leadsTo_unlessNoBlock h fun _ => leadsTo_ite (fun _ => h) fun _ =>
      leadsTo_sinkCommand h (Encoder.legal_of_empty rfl rfl)
  | decStreamHdr | decTables | decSymbols =>
    exact leadsTo_inDState h fun _ => leadsTo_readCommand (fun _ _ _ => h) (fun _ => h) h
  | decBlockStart =>
    refine leadsTo_inDState h fun _ => leadsTo_readCommand (fun a r _ => ?_) (fun _ => h) h
    cases a with
    | block crc rand origPtr => exact h
    | trailer => exact h
  | decIbwt => exact leadsTo_inDState h fun _ => leadsTo_ibwt h
  | decWalk => exact leadsTo_ite (fun _ => h) fun _ => h
  | decBlockEnd =>
    rw [commandBody]
    exact leadsTo_inDState h fun _ => leadsTo_ite (fun _ => h) fun _ => h

theorem CmdResult.LeadsTo.and {P Q : State → Prop} {i : Instr} {s : State} {r : CmdResult}
    (hP : r.LeadsTo i s P) (hQ : r.LeadsTo i s Q) : r.LeadsTo i s fun t => P t ∧ Q t := by
  cases r with
  | done t => exact ⟨hP, hQ⟩
  | raise e t => exact ⟨hP, hQ⟩
  | hold => exact ⟨hP, hQ⟩

theorem encoderLegal_stepInvariant : StepInvariant fun s => s.Inv ∧ s.enc.Legal where
  queue s q h := ⟨inv_stepInvariant.queue s q h.1, h.2⟩
  effect a s h := ⟨inv_stepInvariant.effect a s h.1, by rw [hostEffect_frame]; exact h.2⟩
  free s h := ⟨inv_stepInvariant.free s h.1, h.2⟩
  reset s h := ⟨inv_stepInvariant.reset s h.1, Encoder.legal_of_empty rfl rfl⟩
  count s h := ⟨inv_stepInvariant.count s h.1, h.2⟩
  error e s hheld h := ⟨inv_stepInvariant.error e s hheld h.1, h.2⟩
  body i s hi herr hheld h :=
    (inv_stepInvariant.body i s hi herr hheld h.1).and (commandBody_encoderLegal hi h.1 h.2)

/-- Settles O59: each encoder command leaves what it writes as its stage says and what the stages
before it wrote as it was, and no other command touches the encoder. -/
theorem encoderLegalKeptByEveryStep : Obligations.EncoderLegalKeptByEveryStep := by
  unfold Obligations.EncoderLegalKeptByEveryStep
  exact fun _ _ hinv h hstep => (encoderLegal_stepInvariant.step ⟨hinv, h⟩ hstep).2

end Sys2Proof.Machine
end

section
/-! PROOF. What `ENC_EMIT` writes is read back, part 1: a reading of known bits, and the table
section (45_huffman_encode.md rules R97 to R99 against 46_huffman_decode.md rules R107 to R111). -/

namespace Sys2Proof.Machine

/-! ## A reading of known bits -/

/-- Where the bits to be read begin with `bits`, the reading takes those and answers `a`. -/
def Reader.Reads {α : Type} (x : Reader α) (bits : List Bool) (a : α) : Prop :=
  ∀ ⦃r : BitSource⦄ ⦃rest : List Bool⦄, r.Tidy → r.bits = bits ++ rest →
    ∃ q, x r = .ok a q ∧ r.Consumed q bits.length

section
variable {α β : Type}

theorem reads_pure (a : α) : (Reader.pure a).Reads [] a := fun r _ hr _ => ⟨r, rfl, .zero hr⟩

theorem reads_bind {x : Reader α} {f : α → Reader β} {u v : List Bool} {a : α} {b : β}
    (hx : x.Reads u a) (hf : (f a).Reads v b) : (x.bind f).Reads (u ++ v) b := by
  intro r rest hr hbits
  rw [List.append_assoc] at hbits
  obtain ⟨p, hp, hfirst⟩ := hx hr hbits
  obtain ⟨q, hq, hthen⟩ := hf hfirst.tidy (by rw [hfirst.stream, hbits, List.drop_left])
  exact ⟨q, Reader.bind_ok.mpr ⟨a, p, hp, hq⟩, by
    rw [List.length_append]
    exact hfirst.trans hthen⟩

/-- A reading whose value is only converted. -/
theorem reads_bind_pure {x : Reader α} {u : List Bool} {a : α} (g : α → β) (hx : x.Reads u a) :
    (x.bind fun a => .pure (g a)).Reads u (g a) := by
  simpa only [List.append_nil] using reads_bind (f := fun a => .pure (g a)) hx (reads_pure (g a))

theorem reads_ite_pos {c : Prop} {_ : Decidable c} {x y : Reader α} {u : List Bool} {a : α} (hc : c)
    (hx : x.Reads u a) : (if c then x else y).Reads u a := by
  rw [if_pos hc]
  exact hx

theorem reads_ite_neg {c : Prop} {_ : Decidable c} {x y : Reader α} {u : List Bool} {a : α}
    (hc : ¬ c) (hy : y.Reads u a) : (if c then x else y).Reads u a := by
  rw [if_neg hc]
  exact hy

/-- Readings in a row. -/
theorem reads_times {x : Reader α} (bits : α → List Bool) (as : List α)
    (h : ∀ a ∈ as, x.Reads (bits a) a) : (Reader.times as.length x).Reads (as.flatMap bits) as := by
  induction as with
  | nil => exact reads_pure []
  | cons a as ih =>
    obtain ⟨ha, has⟩ := List.forall_mem_cons.mp h
    exact reads_bind ha (reads_bind_pure _ (ih has))

end

theorem reads_rd {n v : Nat} (hn : n ≤ 32) (hv : v < 2 ^ n) : (rd n).Reads (natToBits n v) v := by
  intro r rest hr hbits
  obtain ⟨w, q, hq, hw, hwbits, hcons⟩ := rd_consumed hr hn (by rw [hbits]; simp)
  rw [hbits, List.take_left' (natToBits_length n v)] at hwbits
  have heq := natToBits_inj hwbits
  rw [Nat.mod_eq_of_lt hw, Nat.mod_eq_of_lt hv] at heq
  exact ⟨q, heq ▸ hq, by rwa [natToBits_length]⟩

theorem reads_bit (b : Bool) : (rd 1).Reads [b] b.toNat := by
  cases b with
  | true => exact reads_rd (v := 1) (by decide) (by decide)
  | false => exact reads_rd (v := 0) (by decide) (by decide)

/-! ## Bits of fields -/

@[simp] theorem fieldBits_nil : fieldBits [] = [] := rfl

theorem fieldBits_cons (f : BitField) (fs : List BitField) :
    fieldBits (f :: fs) = natToBits f.1 f.2.toNat ++ fieldBits fs := List.flatMap_cons

theorem fieldBits_singleton (f : BitField) : fieldBits [f] = natToBits f.1 f.2.toNat := by
  rw [fieldBits_cons, fieldBits_nil, List.append_nil]

theorem fieldBits_flatMap {α : Type} (l : List α) (g : α → List BitField) :
    fieldBits (l.flatMap g) = l.flatMap fun a => fieldBits (g a) := List.flatMap_assoc

theorem fieldBits_map {α : Type} (l : List α) (g : α → BitField) :
    fieldBits (l.map g) = l.flatMap fun a => natToBits (g a).1 (g a).2.toNat := by
  rw [fieldBits, List.flatMap_map]

/-- A word holds the low bits of a number. -/
theorem natToBits_toNat_ofNat {n w : Nat} (hn : n ≤ w) (v : Nat) :
    natToBits n (BitVec.ofNat w v).toNat = natToBits n v := by
  refine natToBits_congr ?_
  rw [BitVec.toNat_ofNat, Nat.mod_mod_of_dvd _ (Nat.pow_dvd_pow 2 hn)]

theorem bitsToNat_concat (l : List Bool) (b : Bool) :
    bitsToNat (l ++ [b]) = 2 * bitsToNat l + b.toNat := by
  rw [bitsToNat, List.foldl_append]
  rfl

theorem natToBits_bitsToNat (l : List Bool) : natToBits l.length (bitsToNat l) = l := by
  induction l using List.reverseRecOn with
  | nil => rfl
  | append_singleton l b ih =>
    have hhigh : (2 * bitsToNat l + b.toNat) >>> 1 = bitsToNat l := by
      have := Bool.toNat_lt b
      rw [Nat.shiftRight_one]
      omega
    have hlow : natToBits 1 (2 * bitsToNat l + b.toNat) = [b] := by
      rw [natToBits_congr (w := b.toNat) (by omega)]
      cases b <;> rfl
    rw [bitsToNat_concat, List.length_append, List.length_singleton, natToBits_add, hhigh, ih, hlow]

theorem bitsToNat_lt (l : List Bool) : bitsToNat l < 2 ^ l.length := by
  induction l using List.reverseRecOn with
  | nil => decide
  | append_singleton l b ih =>
    have := Bool.toNat_lt b
    rw [bitsToNat_concat, List.length_append, List.length_singleton, pow_succ]
    omega

/-! ## Bitmaps (rules R99 and R107) -/

/-- `IN_USE` as a list, byte value 0 first. -/
def inUseList (inUse : BitVec 256) : List Bool := (List.range 256).map inUse.getLsbD

theorem map_range_mul {α : Type} (f : Nat → α) (m n : Nat) :
    ((List.range m).flatMap fun i => (List.range n).map fun j => f (n * i + j)) =
      (List.range (n * m)).map f := by
  induction m with
  | zero => rfl
  | succ m ih =>
    rw [List.range_succ, List.flatMap_append, ih, Nat.mul_succ, List.range_add, List.map_append,
      List.map_map, List.flatMap_singleton]
    rfl

theorem flatMap_groupBits (inUse : BitVec 256) :
    (List.range 16).flatMap (groupBits inUse) = inUseList inUse :=
  map_range_mul inUse.getLsbD 16 16

theorem groupBits_length (inUse : BitVec 256) (i : Nat) : (groupBits inUse i).length = 16 := by
  rw [groupBits, List.length_map, List.length_range]

theorem bitmapField_bits {bits : List Bool} (h : bits.length = 16) :
    natToBits (bitmapField bits).1 (bitmapField bits).2.toNat = bits := by
  rw [bitmapField, natToBits_toNat_ofNat (show 16 ≤ 32 by decide), ← h, natToBits_bitsToNat]

/-- A group without a byte value in use has a sub-bitmap of zeros. -/
theorem groupBits_of_not_used {inUse : BitVec 256} {i : Nat} (h : groupUsed inUse i = false) :
    groupBits inUse i = List.replicate 16 false := by
  rw [groupUsed, List.any_eq_false] at h
  exact List.eq_replicate_iff.mpr ⟨groupBits_length inUse i, fun b hb => by simpa using h b hb⟩

/-- Sixteen bits read as a number and taken apart again. -/
theorem reads_bitmap {bits : List Bool} (h : bits.length = 16) :
    ((rd 16).bind fun v => .pure (natToBits 16 v)).Reads bits bits := by
  have hlt := bitsToNat_lt bits
  have hbits := natToBits_bitsToNat bits
  rw [h] at hlt hbits
  have := reads_bind_pure (natToBits 16) (reads_rd (by decide) hlt)
  rwa [hbits] at this

/-- The sub-bitmaps of the last `k` groups, those without a byte value in use left out. -/
theorem reads_readGroups {inUse : BitVec 256} {g : Nat}
    (hg : ∀ j < 16, g.testBit j = groupUsed inUse (15 - j)) (k : Nat) : k ≤ 16 →
    (readGroups g k).Reads
      (((List.range' (16 - k) k).filter (groupUsed inUse)).flatMap (groupBits inUse))
      ((List.range' (16 - k) k).flatMap (groupBits inUse)) := by
  induction k with
  | zero => exact fun _ => reads_pure []
  | succ k ih =>
    intro hk
    have hrange : List.range' (16 - (k + 1)) (k + 1) = (15 - k) :: List.range' (16 - k) k := by
      rw [List.range'_succ, show 16 - (k + 1) = 15 - k by omega, show 15 - k + 1 = 16 - k by omega]
    have hrest := reads_bind_pure (groupBits inUse (15 - k) ++ ·) (ih (by omega))
    rw [hrange, List.flatMap_cons]
    cases hused : groupUsed inUse (15 - k) with
    | true =>
      rw [List.filter_cons_of_pos hused, List.flatMap_cons]
      refine reads_bind (reads_ite_pos ?_ (reads_bitmap (groupBits_length inUse _))) hrest
      rw [hg k (by omega), hused]
    | false =>
      rw [List.filter_cons_of_neg (by simp [hused]), ← List.nil_append (List.flatMap _ _)]
      refine reads_bind (reads_ite_neg ?_ ?_) hrest
      · rw [hg k (by omega), hused]
        exact Bool.false_ne_true
      · rw [groupBits_of_not_used hused]
        exact reads_pure _

theorem reads_readMapping (inUse : BitVec 256) :
    readMapping.Reads (fieldBits (bitmapFields inUse)) (inUseList inUse) := by
  have hlen : ((List.range 16).map (groupUsed inUse)).length = 16 := by
    rw [List.length_map, List.length_range]
  have hlt := bitsToNat_lt ((List.range 16).map (groupUsed inUse))
  have hbits := natToBits_bitsToNat ((List.range 16).map (groupUsed inUse))
  rw [hlen] at hlt hbits
  have hg : ∀ j < 16, (bitsToNat ((List.range 16).map (groupUsed inUse))).testBit j =
      groupUsed inUse (15 - j) := by
    intro j hj
    have := natToBits_getElem 16 (bitsToNat ((List.range 16).map (groupUsed inUse))) (15 - j)
      (by rw [natToBits_length]; omega)
    simp only [hbits, List.getElem_map, List.getElem_range] at this
    rw [this]
    congr 1
    omega
  have hsub : fieldBits (((List.range 16).filter (groupUsed inUse)).map fun i =>
      bitmapField (groupBits inUse i)) =
      ((List.range 16).filter (groupUsed inUse)).flatMap (groupBits inUse) := by
    rw [fieldBits_map]
    congr 1
    funext i
    exact bitmapField_bits (groupBits_length inUse i)
  have hgroups := reads_readGroups hg 16 (Nat.le_refl 16)
  rw [Nat.sub_self, ← List.range_eq_range', flatMap_groupBits] at hgroups
  rw [bitmapFields, fieldBits_cons, bitmapField_bits hlen, hsub]
  have hread := reads_rd (show 16 ≤ 32 by decide) hlt
  rw [hbits] at hread
  exact reads_bind hread hgroups

/-! ## Selectors (rules R97 and R108) -/

theorem unaryField_bits {j : Nat} (hj : j < 32) :
    natToBits (unaryField j).1 (unaryField j).2.toNat = unaryBits j := by
  have hhigh : (2 ^ (j + 1) - 2) >>> 1 = 2 ^ j - 1 := by
    rw [Nat.shiftRight_one, pow_succ]
    omega
  have hlow : natToBits 1 (2 ^ (j + 1) - 2) = [false] :=
    natToBits_congr (w := 0) (by rw [pow_succ]; omega)
  have hones : natToBits j (2 ^ j - 1) = List.replicate j true := by
    refine List.eq_replicate_iff.mpr ⟨natToBits_length _ _, fun b hb => ?_⟩
    obtain ⟨i, hi, rfl⟩ := List.getElem_of_mem hb
    rw [natToBits_length] at hi
    rw [natToBits_getElem, Nat.testBit_two_pow_sub_one]
    exact decide_eq_true (by omega)
  rw [unaryField, natToBits_toNat_ofNat (by omega), natToBits_add, hhigh, hones, hlow, unaryBits]

/-- From value `j` on, `k` 1 bits and a 0 bit are the value `j + k`. -/
theorem reads_readUnary {nG : Nat} (k : Nat) : ∀ {fuel j : Nat}, j + k < nG → k < fuel →
    (readUnary nG fuel j).Reads (unaryBits k) (j + k) := by
  induction k with
  | zero =>
    intro fuel j _ hfuel
    obtain ⟨fuel, rfl⟩ : ∃ n, fuel = n + 1 := ⟨fuel - 1, by omega⟩
    exact reads_bind (u := [false]) (reads_bit false) (reads_pure j)
  | succ k ih =>
    intro fuel j hj hfuel
    obtain ⟨fuel, rfl⟩ : ∃ n, fuel = n + 1 := ⟨fuel - 1, by omega⟩
    have hrest := ih (fuel := fuel) (j := j + 1) (by omega) (by omega)
    rw [Nat.add_right_comm, Nat.add_assoc] at hrest
    exact reads_bind (u := [true]) (reads_bit true)
      (reads_ite_pos rfl (reads_ite_neg (by omega) hrest))

/-- The inverse selector MTF undoes the selector MTF. -/
theorem selectorUnMtf_selectorMtf (selectors : List Nat) : ∀ {pos : List Nat},
    (∀ t ∈ selectors, t ∈ pos) → selectorUnMtf pos (selectorMtf pos selectors) = selectors := by
  induction selectors with
  | nil => exact fun _ => rfl
  | cons t rest ih =>
    intro pos h
    obtain ⟨ht, hrest⟩ := List.forall_mem_cons.mp h
    have hget : pos.getD (pos.idxOf t) 0 = t := getD_idxOf_of_prefix List.prefix_rfl ht
    rw [selectorMtf, selectorUnMtf, hget,
      ih fun u hu => (toFront_idxOf_perm ht).mem_iff.mpr (hrest u hu)]

theorem selectorMtf_length (selectors : List Nat) : ∀ pos : List Nat,
    (selectorMtf pos selectors).length = selectors.length := by
  induction selectors with
  | nil => exact fun _ => rfl
  | cons t rest ih => intro pos; rw [selectorMtf, List.length_cons, ih, List.length_cons]

/-- A selector MTF value is a position in the list. -/
theorem selectorMtf_lt (selectors : List Nat) : ∀ {pos : List Nat},
    (∀ t ∈ selectors, t ∈ pos) → ∀ j ∈ selectorMtf pos selectors, j < pos.length := by
  induction selectors with
  | nil => exact fun _ _ => nofun
  | cons t rest ih =>
    intro pos h
    obtain ⟨ht, hrest⟩ := List.forall_mem_cons.mp h
    have hperm := toFront_idxOf_perm ht
    refine List.forall_mem_cons.mpr ⟨List.idxOf_lt_length_of_mem ht, ?_⟩
    rw [← hperm.length_eq]
    exact ih fun u hu => hperm.mem_iff.mpr (hrest u hu)

theorem reads_readSelectors {nG : Nat} {selectors : List Nat} (hlow : 2 ≤ nG) (hhigh : nG ≤ 6)
    (hsome : 1 ≤ selectors.length) (hfew : selectors.length ≤ 32767)
    (hlt : ∀ t ∈ selectors, t < nG) :
    readSelectors.Reads (natToBits 3 nG ++ (natToBits 15 selectors.length ++
      (selectorMtf (List.range nG) selectors).flatMap unaryBits)) (nG, selectors) := by
  have hmem : ∀ t ∈ selectors, t ∈ List.range nG := fun t ht => List.mem_range.mpr (hlt t ht)
  have hvalues : ∀ j ∈ selectorMtf (List.range nG) selectors,
      (readUnary nG nG 0).Reads (unaryBits j) j := by
    intro j hj
    have hj := selectorMtf_lt selectors hmem j hj
    rw [List.length_range] at hj
    simpa using reads_readUnary (nG := nG) (j := 0) j (by omega) hj
  have htimes := reads_times unaryBits _ hvalues
  rw [selectorMtf_length] at htimes
  have := reads_bind_pure (fun js => (nG, selectorUnMtf (List.range nG) js)) htimes
  rw [selectorUnMtf_selectorMtf selectors hmem] at this
  exact reads_bind (reads_rd (by decide) (by omega)) <| reads_ite_neg (by omega) <|
    reads_bind (reads_rd (by decide) (by omega)) <| reads_ite_neg (by omega) this

/-! ## Code lengths (rules R98 and R109) -/

theorem lengthSteps_self (l : Nat) : lengthSteps l l = [(1, 0)] := by
  rw [lengthSteps, Nat.sub_self]
  rfl

theorem lengthSteps_up {curr l : Nat} (h : curr < l) :
    lengthSteps curr l = (2, 0b10) :: lengthSteps (curr + 1) l := by
  obtain ⟨n, rfl⟩ := Nat.exists_eq_add_of_lt h
  simp only [lengthSteps, show curr + n + 1 - curr = n + 1 by omega,
    show curr + n + 1 - (curr + 1) = n by omega, show curr - (curr + n + 1) = 0 by omega,
    show curr + 1 - (curr + n + 1) = 0 by omega, List.replicate_succ]
  rfl

theorem lengthSteps_down {curr l : Nat} (h : l < curr) :
    lengthSteps curr l = (2, 0b11) :: lengthSteps (curr - 1) l := by
  obtain ⟨n, rfl⟩ := Nat.exists_eq_add_of_lt h
  simp only [lengthSteps, show l + n + 1 - l = n + 1 by omega,
    show l + n + 1 - 1 - l = n by omega, show l - (l + n + 1) = 0 by omega,
    show l - (l + n + 1 - 1) = 0 by omega, List.replicate_succ]
  rfl

/-- One round for each step from `curr` to `l`, and one for the 0 bit. -/
theorem reads_lengthLoop {l : Nat} (hl : 1 ≤ l ∧ l ≤ 20) (fuel : Nat) : ∀ curr,
    1 ≤ curr ∧ curr ≤ 20 → l - curr + (curr - l) < fuel →
    (lengthLoop fuel curr).Reads (fieldBits (lengthSteps curr l)) l := by
  have hmax : Config.maxCodeLen = 20 := rfl
  induction fuel with
  | zero => exact fun _ _ h => absurd h (Nat.not_lt_zero _)
  | succ fuel ih =>
    intro curr hcurr hfuel
    refine reads_ite_neg (by omega) ?_
    rcases Nat.lt_trichotomy curr l with hlt | rfl | hgt
    · rw [lengthSteps_up hlt, fieldBits_cons]
      exact reads_bind (u := [true]) (reads_bit true) <| reads_ite_neg (by decide) <|
        reads_bind (u := [false]) (reads_bit false) (ih (curr + 1) (by omega) (by omega))
    · rw [lengthSteps_self, fieldBits_singleton]
      exact reads_bind (v := []) (reads_bit false) (reads_pure curr)
    · rw [lengthSteps_down hgt, fieldBits_cons]
      exact reads_bind (u := [true]) (reads_bit true) <| reads_ite_neg (by decide) <|
        reads_bind (u := [true]) (reads_bit true) (ih (curr - 1) (by omega) (by omega))

/-- Each step takes at least a bit. -/
theorem steps_le_fieldBits_length (curr l : Nat) :
    l - curr + (curr - l) ≤ (fieldBits (lengthSteps curr l)).length := by
  simp only [lengthSteps, fieldBits, List.flatMap_append, List.flatMap_replicate,
    List.length_append, List.length_flatten, List.map_replicate, List.sum_replicate,
    natToBits_length, smul_eq_mul]
  omega

theorem reads_readLength {curr l : Nat} (hcurr : 1 ≤ curr ∧ curr ≤ 20) (hl : 1 ≤ l ∧ l ≤ 20) :
    (readLength curr).Reads (fieldBits (lengthSteps curr l)) l := by
  intro r rest hr hbits
  have hlen := congrArg List.length hbits
  have hsteps := steps_le_fieldBits_length curr l
  rw [BitSource.bits_length, List.length_append] at hlen
  exact reads_lengthLoop hl (r.available + 1) curr hcurr (by omega) hr hbits

theorem reads_readDeltas (lens : List Nat) : ∀ {curr : Nat}, 1 ≤ curr ∧ curr ≤ 20 →
    (∀ l ∈ lens, 1 ≤ l ∧ l ≤ 20) →
    (readDeltas lens.length curr).Reads (fieldBits (lengthDeltas curr lens)) lens := by
  induction lens with
  | nil => exact fun _ _ => reads_pure []
  | cons l lens ih =>
    intro curr hcurr h
    obtain ⟨hl, hlens⟩ := List.forall_mem_cons.mp h
    rw [lengthDeltas, fieldBits_append]
    exact reads_bind (reads_readLength hcurr hl) (reads_bind_pure _ (ih hl hlens))

theorem reads_readTable {lens : List Nat} (hne : lens ≠ []) (h : ∀ l ∈ lens, 1 ≤ l ∧ l ≤ 20) :
    (readTable lens.length).Reads (fieldBits (tableFields lens)) lens := by
  have hhead : 1 ≤ lens.headD 0 ∧ lens.headD 0 ≤ 20 := by
    obtain ⟨l, lens, rfl⟩ := List.exists_cons_of_ne_nil hne
    exact h l List.mem_cons_self
  rw [tableFields, fieldBits_cons, natToBits_toNat_ofNat (show 5 ≤ 32 by decide)]
  exact reads_bind (reads_rd (by decide) (by omega)) (reads_readDeltas lens hhead h)

/-! ## The table section (rules R99 and R111) -/

theorem tableSectionFields_bits {nG : Nat} {selectors : List Nat} (inUse : BitVec 256)
    (lens : List (List Nat)) (hnG : nG ≤ 6) (hlt : ∀ t ∈ selectors, t < nG) :
    fieldBits (tableSectionFields inUse nG selectors lens) =
      fieldBits (bitmapFields inUse) ++ ((natToBits 3 nG ++ (natToBits 15 selectors.length ++
        (selectorMtf (List.range nG) selectors).flatMap unaryBits)) ++
          lens.flatMap fun row => fieldBits (tableFields row)) := by
  have hunary : (selectorMtf (List.range nG) selectors).flatMap
      (fun j => natToBits (unaryField j).1 (unaryField j).2.toNat) =
      (selectorMtf (List.range nG) selectors).flatMap unaryBits := by
    refine List.flatMap_congr fun j hj => unaryField_bits ?_
    have := selectorMtf_lt selectors (fun t ht => List.mem_range.mpr (hlt t ht)) j hj
    rw [List.length_range] at this
    omega
  simp only [tableSectionFields, fieldBits_append, fieldBits_cons, fieldBits_nil,
    fieldBits_map, fieldBits_flatMap, hunary, natToBits_toNat_ofNat (show 3 ≤ 32 by decide),
    natToBits_toNat_ofNat (show 15 ≤ 32 by decide), List.append_assoc,
    List.append_nil]

/-- `DEC_TABLES` reads back every table section the encoder's format can write. -/
theorem reads_readTables {x : TableSection} (hx : x.Legal) {inUse : BitVec 256}
    (hinUse : x.inUse = inUseList inUse) :
    readTables.Reads (fieldBits (tableSectionFields inUse x.nGroups x.selectors x.lens)) x := by
  obtain ⟨_, nG, selectors, lens⟩ := x
  obtain rfl : _ = inUseList inUse := hinUse
  obtain ⟨hlow, hhigh, hcount⟩ := hx.groups
  have htables : ∀ row ∈ lens, (readTable ((valuesInUse (inUseList inUse)).length + 2)).Reads
      (fieldBits (tableFields row)) row := by
    intro row hrow
    obtain ⟨hsize, hrange⟩ := hx.lengths row hrow
    rw [← hsize]
    exact reads_readTable (List.ne_nil_of_length_pos (by omega)) hrange
  have htimes := reads_times (fun row => fieldBits (tableFields row)) lens htables
  rw [hcount] at htimes
  rw [tableSectionFields_bits inUse lens hhigh hx.selectors]
  exact reads_bind (reads_readMapping inUse) <|
    reads_ite_neg (fun h => hx.used (List.length_eq_zero_iff.mp h)) <|
      reads_bind (reads_readSelectors hlow hhigh hx.count.1 hx.count.2 hx.selectors) <|
        reads_bind_pure _ htimes

end Sys2Proof.Machine
end

section
/-! PROOF. What `ENC_EMIT` writes is read back, part 2: a canonical code (45_huffman_encode.md rule
R95) is decoded to its symbol (46_huffman_decode.md rules R110 and R112). -/

namespace Sys2Proof.Machine

/-! ## The first code of a length (rule R110) -/

theorem firstCode_succ (lens : List Nat) (l : Nat) :
    firstCode lens (l + 1) = 2 * (firstCode lens l + lens.count l) := by
  have hdouble : ((List.range l).map fun k => lens.count k * 2 ^ (l + 1 - k)) =
      (List.range l).map fun k => 2 * (lens.count k * 2 ^ (l - k)) := by
    refine List.map_congr_left fun k hk => ?_
    rw [Nat.succ_sub (List.mem_range.mp hk).le, pow_succ]
    ring
  rw [firstCode, List.sum_range_succ, hdouble, List.sum_map_mul_left, ← firstCode,
    Nat.add_sub_cancel_left, Nat.mul_add, pow_one, Nat.mul_comm (lens.count l)]

/-- No code is as short as the shortest length or shorter. -/
theorem firstCode_of_le_leastOf {lens : List Nat} {l : Nat} (h : l ≤ leastOf lens) :
    firstCode lens l = 0 := by
  refine List.sum_eq_zero fun x hx => ?_
  obtain ⟨k, hk, rfl⟩ := List.mem_map.mp hx
  have hnone : lens.count k = 0 := List.count_eq_zero.mpr fun hmem => by
    have := leastOf_le hmem
    have := List.mem_range.mp hk
    omega
  rw [hnone, Nat.zero_mul]

/-- The codes of a length leave the codes of each longer length above their extensions. -/
theorem mul_le_firstCode (lens : List Nat) (l m : Nat) :
    2 ^ (m + 1) * (firstCode lens l + lens.count l) ≤ firstCode lens (l + m + 1) := by
  induction m with
  | zero => rw [Nat.add_zero, firstCode_succ, pow_one]
  | succ m ih =>
    rw [← Nat.add_assoc, firstCode_succ, pow_succ, Nat.mul_comm _ 2, Nat.mul_assoc]
    omega

/-- How many symbols have a shorter code. -/
def shorterCount (lens : List Nat) (l : Nat) : Nat := ((List.range l).map fun k => lens.count k).sum

theorem shorterCount_succ (lens : List Nat) (l : Nat) :
    shorterCount lens (l + 1) = shorterCount lens l + lens.count l := List.sum_range_succ _ _

theorem shorterCount_of_le_leastOf {lens : List Nat} {l : Nat} (h : l ≤ leastOf lens) :
    shorterCount lens l = 0 := by
  refine List.sum_eq_zero fun x hx => ?_
  obtain ⟨k, hk, rfl⟩ := List.mem_map.mp hx
  refine List.count_eq_zero.mpr fun hmem => ?_
  have := leastOf_le hmem
  have := List.mem_range.mp hk
  omega

/-! ## Kraft's inequality -/

/-- The lengths below `n + 1` are those below `n` and those equal to `n`. -/
theorem sum_map_filter_lt_succ (lens : List Nat) (f : Nat → Nat) (n : Nat) :
    ((lens.filter fun l => decide (l < n + 1)).map f).sum =
      ((lens.filter fun l => decide (l < n)).map f).sum + lens.count n * f n := by
  induction lens with
  | nil => simp
  | cons l lens ih =>
    rcases Nat.lt_trichotomy l n with hl | rfl | hl
    · rw [List.filter_cons_of_pos (by simpa using Nat.lt_succ_of_lt hl),
        List.filter_cons_of_pos (by simpa using hl), List.count_cons_of_ne (Nat.ne_of_lt hl),
        List.map_cons, List.map_cons, List.sum_cons, List.sum_cons, ih, Nat.add_assoc]
    · rw [List.filter_cons_of_pos (by simp), List.filter_cons_of_neg (by simp),
        List.count_cons_self, List.map_cons, List.sum_cons, ih]
      ring
    · rw [List.filter_cons_of_neg (by simpa using hl), List.filter_cons_of_neg (by simp; omega),
        List.count_cons_of_ne (Nat.ne_of_gt hl), ih]

/-- A sum over the lengths below a bound, length by length. -/
theorem sum_count_mul (lens : List Nat) (f : Nat → Nat) (n : Nat) :
    ((List.range n).map fun k => lens.count k * f k).sum =
      ((lens.filter fun l => decide (l < n)).map f).sum := by
  induction n with
  | zero => simp
  | succ n ih => rw [List.sum_range_succ, ih, sum_map_filter_lt_succ]

theorem sum_count_mul_le (lens : List Nat) (f : Nat → Nat) (n : Nat) :
    ((List.range n).map fun k => lens.count k * f k).sum ≤ (lens.map f).sum := by
  rw [sum_count_mul]
  exact (List.filter_sublist.map f).sum_le_sum fun _ _ => Nat.zero_le _

theorem shorterCount_le (lens : List Nat) (l : Nat) : shorterCount lens l ≤ lens.length := by
  simpa [shorterCount] using sum_count_mul_le lens (fun _ => 1) l

/-- In units of 20-bit codes. -/
theorem firstCode_mul (lens : List Nat) {l : Nat} : l ≤ 20 →
    firstCode lens l * 2 ^ (20 - l) =
      ((List.range l).map fun k => lens.count k * 2 ^ (20 - k)).sum := by
  induction l with
  | zero => exact fun _ => Nat.zero_mul _
  | succ l ih =>
    intro hl
    rw [firstCode_succ, List.sum_range_succ, ← ih (by omega),
      show 20 - l = 20 - (l + 1) + 1 by omega, pow_succ]
    ring

/-- Under Kraft's inequality the codes of a length fit in it. -/
theorem firstCode_add_count_le {lens : List Nat} (h : Kraft lens) {l : Nat} (hl : l ≤ 20) :
    firstCode lens l + lens.count l ≤ 2 ^ l := by
  have hsum := (sum_count_mul_le lens (fun k => 2 ^ (20 - k)) (l + 1)).trans h
  rw [List.sum_range_succ, ← firstCode_mul lens hl, ← Nat.add_mul] at hsum
  have hpow : 2 ^ 20 = 2 ^ l * 2 ^ (20 - l) := by rw [← pow_add, Nat.add_sub_cancel' hl]
  rw [hpow] at hsum
  exact Nat.le_of_mul_le_mul_right hsum (by positivity)

/-! ## The codes assigned (rule R95) -/

theorem assignCodes_fst (n : Nat) (lens : List Nat) : ∀ i vec codes,
    (assignCodes n lens i vec codes).1 = vec + lens.count n := by
  induction lens with
  | nil => exact fun _ _ _ => rfl
  | cons l lens ih =>
    intro i vec codes
    rw [assignCodes]
    by_cases h : l = n
    · rw [if_pos h, ih, h, List.count_cons_self]
      omega
    · rw [if_neg h, ih, List.count_cons_of_ne h]

/-- The symbols before number `i` keep their codes. -/
theorem assignCodes_getD_below (n : Nat) (lens : List Nat) : ∀ {i vec codes w}, w < i →
    (assignCodes n lens i vec codes).2.getD w 0 = codes.getD w 0 := by
  induction lens with
  | nil => exact fun _ => rfl
  | cons l lens ih =>
    intro i vec codes w hw
    rw [assignCodes]
    split
    · rw [ih (by omega), List.getD_eq_getElem?_getD, List.getElem?_set_ne (by omega),
        List.getD_eq_getElem?_getD]
    · exact ih (by omega)

/-- Symbols of another length keep their codes. -/
theorem assignCodes_getD_other {n l : Nat} (hl : l ≠ n) (lens : List Nat) :
    ∀ {i vec codes k}, lens[k]? = some l →
      (assignCodes n lens i vec codes).2.getD (i + k) 0 = codes.getD (i + k) 0 := by
  induction lens with
  | nil => exact fun h => nomatch h
  | cons x lens ih =>
    intro i vec codes k hk
    rw [assignCodes]
    cases k with
    | zero =>
      obtain rfl : x = l := Option.some.inj hk
      rw [if_neg hl]
      exact assignCodes_getD_below n lens (Nat.lt_succ_self i)
    | succ k =>
      rw [← Nat.add_assoc, Nat.add_right_comm]
      split
      · rw [ih hk, List.getD_eq_getElem?_getD, List.getElem?_set_ne (by omega),
          List.getD_eq_getElem?_getD]
      · exact ih hk

/-- Symbols of the length get consecutive codes. -/
theorem assignCodes_getD_same (n : Nat) (lens : List Nat) :
    ∀ {i vec codes k}, i + lens.length ≤ codes.length → lens[k]? = some n →
      (assignCodes n lens i vec codes).2.getD (i + k) 0 = vec + (lens.take k).count n := by
  induction lens with
  | nil => exact fun _ h => nomatch h
  | cons x lens ih =>
    intro i vec codes k hlen hk
    rw [List.length_cons] at hlen
    rw [assignCodes]
    cases k with
    | zero =>
      rw [if_pos (Option.some.inj hk), assignCodes_getD_below n lens (Nat.lt_succ_self (i + 0)),
        Nat.add_zero, List.getD_eq_getElem?_getD, List.getElem?_set_self (by omega)]
      rfl
    | succ k =>
      rw [← Nat.add_assoc, Nat.add_right_comm, List.take_succ_cons]
      by_cases h : x = n
      · rw [if_pos h, ih (by rw [List.length_set]; omega) hk, h, List.count_cons_self]
        omega
      · rw [if_neg h, ih (by omega) hk, List.count_cons_of_ne h]

/-- The code of the symbol numbered `v`, of length `l`: the first code of the length, and one more
for each symbol of the length before `v`. -/
def codeOf (lens : List Nat) (v l : Nat) : Nat := firstCode lens l + (lens.take v).count l

theorem codeLoop_getD {lens : List Nat} {v l : Nat} (hv : lens[v]? = some l) (count : Nat) :
    ∀ n codes, codes.length = lens.length →
      (codeLoop lens count n (firstCode lens n) codes).getD v 0 =
        if n ≤ l ∧ l < n + count then codeOf lens v l else codes.getD v 0 := by
  induction count with
  | zero =>
    intro n codes _
    rw [codeLoop, if_neg (by omega)]
  | succ count ih =>
    intro n codes hlen
    have hrest := ih (n + 1) (assignCodes n lens 0 (firstCode lens n) codes).2
      ((assignCodes_length _ _ _ _ _).trans hlen)
    rw [codeLoop, assignCodes_fst, ← firstCode_succ, hrest]
    by_cases hl : l = n
    · have := assignCodes_getD_same n lens (i := 0) (vec := firstCode lens n) (codes := codes)
        (by omega) (hl ▸ hv)
      rw [Nat.zero_add] at this
      rw [if_neg (by omega), if_pos (by omega), this, codeOf, hl]
    · have := assignCodes_getD_other hl lens (i := 0) (vec := firstCode lens n) (codes := codes) hv
      rw [Nat.zero_add] at this
      rw [this]
      exact if_congr (by omega) rfl rfl

theorem canonicalCodes_getD {lens : List Nat} {v l : Nat} (hv : lens[v]? = some l) :
    (canonicalCodes lens).getD v 0 = codeOf lens v l := by
  have hmem := List.mem_of_getElem? hv
  have hleast := leastOf_le hmem
  have hgreatest := le_greatestOf hmem
  have := codeLoop_getD hv (greatestOf lens + 1 - leastOf lens) (leastOf lens)
    (List.replicate lens.length 0) List.length_replicate
  rw [firstCode_of_le_leastOf (Nat.le_refl _), if_pos (by omega)] at this
  exact this

/-- A symbol is not counted among those before it. -/
theorem count_take_lt {lens : List Nat} {v l : Nat} (hv : lens[v]? = some l) :
    (lens.take v).count l < lens.count l := by
  obtain ⟨hlt, hget⟩ := List.getElem?_eq_some_iff.mp hv
  have hsplit : lens.count l = (lens.take v).count l + (lens.drop v).count l := by
    rw [← List.count_append, List.take_append_drop]
  rw [List.drop_eq_getElem_cons hlt, hget, List.count_cons_self] at hsplit
  omega

theorem codeOf_lt {lens : List Nat} {v l : Nat} (h : Kraft lens) (hl : l ≤ 20)
    (hv : lens[v]? = some l) : codeOf lens v l < 2 ^ l := by
  have hcount := count_take_lt hv
  have hfit := firstCode_add_count_le h hl
  unfold codeOf
  omega

/-! ## The symbols by length (rule R110) -/

theorem symbolsOf_length (l : Nat) (lens : List Nat) : ∀ i,
    (symbolsOf l i lens).length = lens.count l := by
  induction lens with
  | nil => exact fun _ => rfl
  | cons x lens ih =>
    intro i
    rw [symbolsOf]
    by_cases h : x = l
    · rw [if_pos h, List.length_cons, ih, h, List.count_cons_self]
    · rw [if_neg h, ih, List.count_cons_of_ne h]

theorem symbolsOf_getElem? {l : Nat} (lens : List Nat) : ∀ {i v : Nat}, lens[v]? = some l →
    (symbolsOf l i lens)[(lens.take v).count l]? = some (i + v) := by
  induction lens with
  | nil => exact fun h => nomatch h
  | cons x lens ih =>
    intro i v hv
    rw [symbolsOf]
    cases v with
    | zero => rw [if_pos (Option.some.inj hv)]; rfl
    | succ v =>
      rw [List.take_succ_cons, ← Nat.add_assoc, Nat.add_right_comm]
      by_cases h : x = l
      · rw [if_pos h, h, List.count_cons_self, List.getElem?_cons_succ]
        exact ih hv
      · rw [if_neg h, List.count_cons_of_ne h]
        exact ih hv

theorem symbolsOf_lt (l : Nat) (lens : List Nat) : ∀ i, ∀ v ∈ symbolsOf l i lens,
    v < i + lens.length := by
  induction lens with
  | nil => exact fun _ _ => nofun
  | cons x lens ih =>
    intro i v hv
    rw [List.length_cons]
    rw [symbolsOf] at hv
    split at hv
    · rcases List.mem_cons.mp hv with rfl | hv
      · omega
      · have := ih (i + 1) v hv
        omega
    · have := ih (i + 1) v hv
      omega

/-- No symbol has a length below the least. -/
theorem permOf_eq (lens : List Nat) :
    permOf lens = (List.range (greatestOf lens + 1)).flatMap fun l => symbolsOf l 0 lens := by
  rw [permOf]
  induction List.range (greatestOf lens + 1) with
  | nil => rfl
  | cons l ls ih =>
    rw [List.flatMap_cons, ← ih]
    by_cases h : leastOf lens ≤ l
    · rw [List.filter_cons_of_pos (by simpa using h), List.flatMap_cons]
    · have hnone : symbolsOf l 0 lens = [] := by
        rw [← List.length_eq_zero_iff, symbolsOf_length, List.count_eq_zero]
        exact fun hmem => h (leastOf_le hmem)
      rw [List.filter_cons_of_neg (by simpa using h), hnone, List.nil_append]

theorem permOf_length_le (lens : List Nat) : (permOf lens).length ≤ lens.length := by
  rw [permOf_eq, List.length_flatMap]
  simp only [symbolsOf_length]
  exact shorterCount_le lens _

theorem permOf_lt {lens : List Nat} {v : Nat} (h : v ∈ permOf lens) : v < lens.length := by
  obtain ⟨l, -, hv⟩ := List.mem_flatMap.mp h
  simpa using symbolsOf_lt l lens 0 v hv

/-- A symbol stands behind those of shorter codes and those of its length before it. -/
theorem permOf_getElem? {lens : List Nat} {v l : Nat} (hv : lens[v]? = some l) :
    (permOf lens)[shorterCount lens l + (lens.take v).count l]? = some v := by
  have hgreatest := le_greatestOf (List.mem_of_getElem? hv)
  have hsplit : List.range (greatestOf lens + 1) =
      List.range l ++ l :: (List.range (greatestOf lens - l)).map (l + 1 + ·) := by
    rw [show greatestOf lens + 1 = l + 1 + (greatestOf lens - l) by omega, List.range_add,
      List.range_succ, List.append_assoc]
    rfl
  have hbefore : ((List.range l).flatMap fun k => symbolsOf k 0 lens).length =
      shorterCount lens l := by
    rw [List.length_flatMap]
    simp only [symbolsOf_length]
    rfl
  rw [permOf_eq, hsplit, List.flatMap_append, List.flatMap_cons,
    List.getElem?_append_right (by omega), hbefore, Nat.add_sub_cancel_left,
    List.getElem?_append_left (by rw [symbolsOf_length]; exact count_take_lt hv),
    symbolsOf_getElem? lens hv, Nat.zero_add]

/-! ## `LIMIT` and `BASE` (rule R110) -/

/-- At a length in use `LIMIT` is the length's last code, and `BASE` its first code less the symbols
of shorter codes. -/
theorem limitBaseLoop_getElem? (lens : List Nat) {m : Nat} (hleast : leastOf lens ≤ m)
    (hgreatest : m ≤ greatestOf lens) (n : Nat) : ∀ l, l ≤ m → m < l + n →
    (limitBaseLoop lens n l (firstCode lens l) (shorterCount lens l))[m - l]? =
      some ((firstCode lens m + lens.count m : Int) - 1,
        (firstCode lens m : Int) - shorterCount lens m) := by
  induction n with
  | zero => intro l hlm hml; omega
  | succ n ih =>
    intro l hlm hml
    rw [limitBaseLoop]
    by_cases hl : leastOf lens ≤ l
    · rw [if_pos ⟨hl, by omega⟩]
      rcases Nat.eq_or_lt_of_le hlm with rfl | hlt
      · rw [Nat.sub_self]
        rfl
      · have := ih (l + 1) hlt (by omega)
        rw [firstCode_succ, shorterCount_succ] at this
        push_cast at this
        rw [show m - l = m - (l + 1) + 1 by omega, List.getElem?_cons_succ]
        exact this
    · have := ih (l + 1) (by omega) (by omega)
      rw [firstCode_of_le_leastOf (show l + 1 ≤ leastOf lens by omega),
        shorterCount_of_le_leastOf (show l + 1 ≤ leastOf lens by omega)] at this
      rw [if_neg (by omega), show m - l = m - (l + 1) + 1 by omega, List.getElem?_cons_succ,
        firstCode_of_le_leastOf (show l ≤ leastOf lens by omega),
        shorterCount_of_le_leastOf (show l ≤ leastOf lens by omega)]
      exact this

theorem limitBaseLoop_length (lens : List Nat) (n : Nat) : ∀ l vec cum,
    (limitBaseLoop lens n l vec cum).length = n := by
  induction n with
  | zero => exact fun _ _ _ => rfl
  | succ n ih =>
    intro l vec cum
    rw [limitBaseLoop]
    split
    · rw [List.length_cons, ih]
    · rw [List.length_cons, ih]

theorem limitBase_length (lens : List Nat) : (limitBase lens).length = 21 :=
  limitBaseLoop_length lens _ _ _ _

theorem limitBase_getElem? {lens : List Nat} {l : Nat} (hleast : leastOf lens ≤ l)
    (hgreatest : l ≤ greatestOf lens) (hl : l ≤ 20) :
    (limitBase lens)[l]? = some ((firstCode lens l + lens.count l : Int) - 1,
      (firstCode lens l : Int) - shorterCount lens l) :=
  limitBaseLoop_getElem? lens hleast hgreatest 21 0 (Nat.zero_le l) (by omega)

/-! ## A table in the decoder's memories (rules R110 and R112) -/

/-- Table `t` of the decoder is made from the code lengths `row`. -/
structure Decoder.HoldsTable (d : Decoder) (t : Nat) (row : List Nat) : Prop where
  size : row.length = d.nInUse.toNat + 2
  minLen : (d.minLen.read t).toNat = leastOf row
  limit : ∀ l, leastOf row ≤ l → l ≤ greatestOf row → l ≤ 20 →
    (d.limit.read (Config.lengthRow * t + l)).toInt = (firstCode row l + row.count l : Int) - 1
  base : ∀ l, leastOf row ≤ l → l ≤ greatestOf row → l ≤ 20 →
    (d.base.read (Config.lengthRow * t + l)).toInt = (firstCode row l : Int) - shorterCount row l
  perm : ∀ i v, (permOf row)[i]? = some v →
    (d.perm.read (Config.symbolRow * t + i)).toNat = v

section
variable {d : Decoder} {t : Nat} {row : List Nat} (h : d.HoldsTable t row) {v l : Nat}
  (hv : row[v]? = some l) (hl : l ≤ 20)
include h hv hl

/-- Probing from length `zn` on with the first `zn` bits of a code: at each shorter length they are
above the last code of that length, and at the code's own length they name the symbol. -/
theorem Decoder.HoldsTable.reads_probeSymbol (m : Nat) : ∀ {fuel zn : Nat}, m < fuel → zn + m = l →
    leastOf row ≤ zn →
    (probeSymbol d t fuel zn (codeOf row v l >>> m)).Reads (natToBits m (codeOf row v l)) v := by
  have hgreatest := le_greatestOf (List.mem_of_getElem? hv)
  have hmax : Config.maxCodeLen = 20 := rfl
  induction m with
  | zero =>
    intro fuel zn hfuel hzn hleast
    obtain ⟨fuel, rfl⟩ : ∃ n, fuel = n + 1 := ⟨fuel - 1, by omega⟩
    obtain rfl : zn = l := hzn
    have hcount := count_take_lt hv
    have hindex := permOf_getElem? hv
    have hsize := (List.getElem?_eq_some_iff.mp hindex).1.trans_le (permOf_length_le row)
    rw [h.size] at hsize
    have hidx : ((codeOf row v zn : Nat) : Int) - ((firstCode row zn : Int) - shorterCount row zn) =
        ((shorterCount row zn + (row.take v).count zn : Nat) : Int) := by
      unfold codeOf
      push_cast
      ring
    rw [Nat.shiftRight_zero]
    simp only [probeSymbol, h.limit zn hleast hgreatest hl, h.base zn hleast hgreatest hl, hidx]
    refine reads_ite_neg (by omega) (reads_ite_pos ?_ (reads_ite_neg (by omega) ?_))
    · unfold codeOf
      push_cast
      omega
    · rw [Int.toNat_natCast, h.perm _ v hindex]
      exact reads_pure v
  | succ m ih =>
    intro fuel zn hfuel hzn hleast
    obtain ⟨fuel, rfl⟩ : ∃ n, fuel = n + 1 := ⟨fuel - 1, by omega⟩
    have habove : firstCode row zn + row.count zn ≤ codeOf row v l >>> (m + 1) := by
      have := mul_le_firstCode row zn m
      rw [show zn + m + 1 = l by omega] at this
      rw [Nat.shiftRight_eq_div_pow, Nat.le_div_iff_mul_le (by positivity), Nat.mul_comm]
      exact this.trans (Nat.le_add_right _ _)
    have hnext : 2 * (codeOf row v l >>> (m + 1)) + codeOf row v l >>> m % 2 =
        codeOf row v l >>> m := by
      rw [Nat.shiftRight_succ]
      omega
    have hbit : (rd 1).Reads (natToBits 1 (codeOf row v l >>> m)) (codeOf row v l >>> m % 2) := by
      rw [← natToBits_mod, pow_one]
      exact reads_rd (by decide) (Nat.mod_lt _ (by decide))
    have hrest := ih (fuel := fuel) (zn := zn + 1) (by omega) (by omega) (by omega)
    rw [← hnext] at hrest
    rw [Nat.add_comm m 1, natToBits_add, Nat.add_comm 1 m]
    refine reads_ite_neg (by omega) (reads_ite_neg ?_ (reads_bind hbit hrest))
    rw [h.limit zn hleast (by omega) (by omega)]
    omega

/-- A symbol's canonical code is decoded to the symbol. -/
theorem Decoder.HoldsTable.reads_decSym (hcode : codeOf row v l < 2 ^ l) :
    (decSym d t).Reads (natToBits l (codeOf row v l)) v := by
  have hleast := leastOf_le (List.mem_of_getElem? hv)
  obtain ⟨m, rfl⟩ := Nat.exists_eq_add_of_le hleast
  have hfirst : codeOf row v (leastOf row + m) >>> m < 2 ^ leastOf row := by
    rw [Nat.shiftRight_eq_div_pow, Nat.div_lt_iff_lt_mul (by positivity), ← pow_add]
    exact hcode
  rw [natToBits_add, decSym, h.minLen]
  exact reads_bind (reads_rd (by omega) hfirst)
    (h.reads_probeSymbol hv hl m (by omega) rfl (Nat.le_refl _))

end

end Sys2Proof.Machine
end

section
/-! PROOF. What `ENC_EMIT` writes is read back, part 3: a table section in the decoder's memories
(46_huffman_decode.md rules R107 to R111), and the symbol stream read with it (rules R112 to
R115). -/

namespace Sys2Proof.Machine

/-! ## What `DEC_TABLES` leaves (rule R111) -/

/-- An element of a row made from the entry `t` of a list. -/
theorem Mem.read_writeRows_map {α : Type} {w stride : Nat} (m : Mem w) {entries : List α}
    (g : α → List (BitVec w)) (hsize : ∀ e ∈ entries, (g e).length ≤ stride) {t i : Nat} {entry : α}
    {a : BitVec w} (ht : entries[t]? = some entry) (hi : (g entry)[i]? = some a) :
    (m.writeRows stride 0 (entries.map g)).read (stride * t + i) = a := by
  obtain ⟨htlt, rfl⟩ := List.getElem?_eq_some_iff.mp ht
  obtain ⟨hilt, rfl⟩ := List.getElem?_eq_some_iff.mp hi
  have hrows : ∀ row ∈ entries.map g, row.length ≤ stride := by
    intro row hrow
    obtain ⟨e, he, rfl⟩ := List.mem_map.mp hrow
    exact hsize e he
  have := Mem.read_writeRows stride (entries.map g) hrows 0 m t i (by simpa using htlt)
    (by simpa using hilt)
  simpa using this

/-- The decoder's registers and memories hold the table section `x`. -/
structure Decoder.HoldsSection (d : Decoder) (x : TableSection) : Prop where
  nInUse : d.nInUse.toNat = (valuesInUse x.inUse).length
  seqToUnseq : ∀ i (h : i < (valuesInUse x.inUse).length),
    (d.seqToUnseq.read i).toNat = (valuesInUse x.inUse)[i]
  nSelectors : d.nSelectors.toNat = x.selectors.length
  selector : ∀ i (h : i < x.selectors.length), (d.selector.read i).toNat = x.selectors[i]
  tables : ∀ t row, x.lens[t]? = some row → d.HoldsTable t row

theorem valuesInUse_lt {inUse : List Bool} : ∀ u ∈ valuesInUse inUse, u < 256 :=
  fun _ hu => List.mem_range.mp (List.mem_of_mem_filter hu)

theorem valuesInUse_length_le (inUse : List Bool) : (valuesInUse inUse).length ≤ 256 :=
  (List.length_filter_le _ _).trans List.length_range.le

theorem Decoder.toNat_nInUse_setTables (d : Decoder) (x : TableSection) :
    (d.setTables x).nInUse.toNat = (valuesInUse x.inUse).length := by
  have := valuesInUse_length_le x.inUse
  rw [Decoder.setTables, BitVec.toNat_ofNat]
  omega

section
variable {x : TableSection} (hx : x.Legal) (d : Decoder) {t : Nat} {row : List Nat}
  (ht : x.lens[t]? = some row)
include hx ht

theorem TableSection.Legal.toNat_minLen_setTables :
    ((d.setTables x).minLen.read t).toNat = leastOf row := by
  obtain ⟨htlt, rfl⟩ := List.getElem?_eq_some_iff.mp ht
  have hfits : ∀ l ∈ x.lens.map leastOf, l < 2 ^ 5 := by
    intro l hl
    obtain ⟨row, hrow, rfl⟩ := List.mem_map.mp hl
    obtain ⟨hsize, hrange⟩ := hx.lengths row hrow
    have := hrange _ (leastOf_mem (List.ne_nil_of_length_pos (by omega)))
    omega
  have hlen : t < (x.lens.map leastOf).length := by simpa using htlt
  exact (d.minLen.toNat_read_writeNats hfits hlen).trans (List.getElem_map _)

theorem TableSection.Legal.toNat_perm_setTables {i v : Nat} (hi : (permOf row)[i]? = some v) :
    ((d.setTables x).perm.read (Config.symbolRow * t + i)).toNat = v := by
  have hused := valuesInUse_length_le x.inUse
  have hsize : ∀ r ∈ x.lens, ((permOf r).map (BitVec.ofNat 9)).length ≤ Config.symbolRow := by
    intro r hr
    have := permOf_length_le r
    have := (hx.lengths r hr).1
    simp only [List.length_map, Config.symbolRow]
    omega
  have hv := permOf_lt (List.mem_of_getElem? hi)
  have hlen := (hx.lengths row (List.mem_of_getElem? ht)).1
  have hread := d.perm.read_writeRows_map (fun r => (permOf r).map (BitVec.ofNat 9)) hsize ht
    (show ((permOf row).map (BitVec.ofNat 9))[i]? = some (BitVec.ofNat 9 v) by simp [hi])
  rw [Decoder.setTables, hread, BitVec.toNat_ofNat]
  omega

/-- What rule R110 computes for a length fits 22 signed bits under Kraft's inequality. -/
theorem TableSection.Legal.limitBase_fits (hkraft : Kraft row) {l : Nat} (hl : l ≤ 20) :
    ((BitVec.ofInt 22 ((firstCode row l + row.count l : Int) - 1)).toInt =
      (firstCode row l + row.count l : Int) - 1) ∧
    (BitVec.ofInt 22 ((firstCode row l : Int) - shorterCount row l)).toInt =
      (firstCode row l : Int) - shorterCount row l := by
  have hfit := (firstCode_add_count_le hkraft hl).trans (Nat.pow_le_pow_right (by decide) hl)
  have hshorter := shorterCount_le row l
  have hused := valuesInUse_length_le x.inUse
  have hlen := (hx.lengths row (List.mem_of_getElem? ht)).1
  constructor
  · exact BitVec.toInt_ofInt_eq_self (by decide) (by norm_num; omega) (by norm_num; omega)
  · exact BitVec.toInt_ofInt_eq_self (by decide) (by norm_num; omega) (by norm_num; omega)

theorem TableSection.Legal.holdsTable_setTables (hkraft : Kraft row) :
    (d.setTables x).HoldsTable t row where
  size := by
    rw [d.toNat_nInUse_setTables x]
    exact (hx.lengths row (List.mem_of_getElem? ht)).1
  minLen := hx.toNat_minLen_setTables d ht
  perm _ _ hi := hx.toNat_perm_setTables d ht hi
  limit l hleast hgreatest hl := by
    have hread := d.limit.read_writeRows_map (stride := Config.lengthRow)
      (fun r => (limitBase r).map fun p => BitVec.ofInt 22 p.1)
      (fun r _ => by simp [limitBase_length, Config.lengthRow]) ht
      (by rw [List.getElem?_map, limitBase_getElem? hleast hgreatest hl]; rfl)
    rw [Decoder.setTables, hread]
    exact (hx.limitBase_fits ht hkraft hl).1
  base l hleast hgreatest hl := by
    have hread := d.base.read_writeRows_map (stride := Config.lengthRow)
      (fun r => (limitBase r).map fun p => BitVec.ofInt 22 p.2)
      (fun r _ => by simp [limitBase_length, Config.lengthRow]) ht
      (by rw [List.getElem?_map, limitBase_getElem? hleast hgreatest hl]; rfl)
    rw [Decoder.setTables, hread]
    exact (hx.limitBase_fits ht hkraft hl).2

end

theorem TableSection.Legal.holdsSection_setTables {x : TableSection} (hx : x.Legal)
    (hkraft : ∀ row ∈ x.lens, Kraft row) (d : Decoder) : (d.setTables x).HoldsSection x where
  nInUse := d.toNat_nInUse_setTables x
  seqToUnseq _ hi := d.seqToUnseq.toNat_read_writeNats (w := 8) valuesInUse_lt hi
  nSelectors := by
    have := hx.count.2
    rw [Decoder.setTables, BitVec.toNat_ofNat]
    omega
  selector i hi := by
    have hfits : ∀ t ∈ x.selectors, t < 2 ^ 3 := by
      intro t ht
      have := hx.selectors t ht
      have := hx.groups.2.1
      omega
    exact d.selector.toNat_read_writeNats hfits hi
  tables _ row ht := hx.holdsTable_setTables d ht (hkraft row (List.mem_of_getElem? ht))

/-! ## The symbols of a block body (rules R99 and R113) -/

/-- The code of symbol `v` under table `t`. -/
def symbolBits (lens : List (List Nat)) (t v : Nat) : List Bool :=
  natToBits ((lens.getD t []).getD v 0) ((canonicalCodes (lens.getD t [])).getD v 0)

/-- The bits of a symbol stream from symbol number `i` on, each under the table that its group's
selector names. -/
def bodyBitsFrom (lens : List (List Nat)) (selectors : List Nat) : Nat → List Nat → List Bool
  | _, [] => []
  | i, v :: vs =>
    symbolBits lens (selectors.getD (i / 50) 0) v ++ bodyBitsFrom lens selectors (i + 1) vs

/-- The selector groups under way after `i` symbols. -/
def groupAt (i : Nat) : GroupPos := { started := (i + 49) / 50, left := (50 - i % 50) % 50 }

section
variable {d : Decoder} {x : TableSection} (hd : d.HoldsSection x) (hx : x.Legal)
  (hkraft : ∀ row ∈ x.lens, Kraft row)
include hd hx hkraft

theorem Decoder.HoldsSection.reads_decSym {t v : Nat} (ht : t < x.nGroups)
    (hv : v < (valuesInUse x.inUse).length + 2) : (decSym d t).Reads (symbolBits x.lens t v) v := by
  have htlt : t < x.lens.length := by rw [hx.groups.2.2]; exact ht
  have hrow := List.getElem_mem htlt
  obtain ⟨hsize, hrange⟩ := hx.lengths _ hrow
  have hvlt : v < x.lens[t].length := by rw [hsize]; exact hv
  have hl := (hrange _ (List.getElem_mem hvlt)).2
  have hget : x.lens[t][v]? = some x.lens[t][v] := List.getElem?_eq_getElem hvlt
  rw [symbolBits, List.getD_eq_getElem _ _ htlt, List.getD_eq_getElem _ _ hvlt,
    canonicalCodes_getD hget]
  exact (hd.tables t _ (List.getElem?_eq_getElem htlt)).reads_decSym hget hl
    (codeOf_lt (hkraft _ hrow) hl hget)

/-- Symbol number `i` is read under selector `i / 50`. -/
theorem Decoder.HoldsSection.reads_nextSym {i v : Nat} (hi : i < 50 * x.selectors.length)
    (hv : v < (valuesInUse x.inUse).length + 2) :
    (nextSym d (groupAt i)).Reads (symbolBits x.lens (x.selectors.getD (i / 50) 0) v)
      (v, groupAt (i + 1)) := by
  have hgroup : i / 50 < x.selectors.length := by omega
  have hselector : (d.selector.read (i / 50)).toNat = x.selectors.getD (i / 50) 0 := by
    rw [hd.selector _ hgroup, List.getD_eq_getElem _ _ hgroup]
  have hread := hd.reads_decSym hx hkraft (t := x.selectors.getD (i / 50) 0)
    (by rw [List.getD_eq_getElem _ _ hgroup]; exact hx.selectors _ (List.getElem_mem hgroup)) hv
  rw [← hselector] at hread ⊢
  by_cases hfirst : i % 50 = 0
  · have hstarted : (groupAt i).started = i / 50 := by simp only [groupAt]; omega
    have hnext : groupAt (i + 1) =
        { started := (groupAt i).started + 1, left := Config.groupSize - 1 } := by
      simp only [groupAt, Config.groupSize, GroupPos.mk.injEq]
      omega
    rw [hnext]
    refine reads_ite_pos (by simp only [groupAt]; omega) (reads_ite_neg ?_ ?_)
    · rw [hd.nSelectors, hstarted]
      omega
    · rw [hstarted]
      exact reads_bind_pure (fun s => (s, GroupPos.mk (i / 50 + 1) (Config.groupSize - 1))) hread
  · have hstarted : (groupAt i).started - 1 = i / 50 := by simp only [groupAt]; omega
    have hnext : groupAt (i + 1) = { groupAt i with left := (groupAt i).left - 1 } := by
      simp only [groupAt, GroupPos.mk.injEq]
      omega
    rw [hnext]
    refine reads_ite_neg (by simp only [groupAt]; omega) ?_
    rw [hstarted]
    exact reads_bind_pure (fun s => (s, { groupAt i with left := (groupAt i).left - 1 })) hread

/-- Symbols that expand without end or error, and one that ends the block. -/
theorem Decoder.HoldsSection.reads_expandLoop {nmax last : Nat} {y z : Expansion}
    (hlast : last < (valuesInUse x.inUse).length + 2) (hdone : y.symbol d nmax last = .done z)
    (syms : List Nat) : ∀ {fuel i : Nat} {w : Expansion}, syms.length < fuel →
    i + syms.length < 50 * x.selectors.length →
    (∀ v ∈ syms, v < (valuesInUse x.inUse).length + 2) → expandSymbols d nmax w syms = .more y →
    (expandLoop d nmax fuel (groupAt i) w).Reads
      (bodyBitsFrom x.lens x.selectors i (syms ++ [last])) z := by
  induction syms with
  | nil =>
    intro fuel i w hfuel hi _ hmore
    obtain ⟨fuel, rfl⟩ : ∃ n, fuel = n + 1 := ⟨fuel - 1, by omega⟩
    obtain rfl : w = y := ExpandStep.more.inj hmore
    refine reads_bind (hd.reads_nextSym hx hkraft (by simpa using hi) hlast) ?_
    simp only [hdone]
    exact reads_pure z
  | cons v syms ih =>
    intro fuel i w hfuel hi hsyms hmore
    rw [List.length_cons] at hfuel hi
    obtain ⟨fuel, rfl⟩ : ∃ n, fuel = n + 1 := ⟨fuel - 1, by omega⟩
    obtain ⟨hv, hrest⟩ := List.forall_mem_cons.mp hsyms
    refine reads_bind (hd.reads_nextSym hx hkraft (by omega) hv) ?_
    rw [expandSymbols] at hmore
    cases hstep : w.symbol d nmax v with
    | more w' =>
      simp only [hstep] at hmore ⊢
      exact ih (by omega) (by omega) hrest hmore
    | done w' => simp only [hstep] at hmore; contradiction
    | fail => simp only [hstep] at hmore; contradiction

end

end Sys2Proof.Machine
end

section
/-! PROOF. What `ENC_EMIT` writes is read back, part 4: the bits of a coded block
(45_huffman_encode.md rule R99), the two decoder commands on them (46_huffman_decode.md rules R111
and R115), and O49. -/

namespace Sys2Proof.Machine

/-! ## The bits of the block body (rule R99) -/

section
variable {lens : List (List Nat)} {selectors : List Nat}

theorem bodyBitsFrom_append (a b : List Nat) : ∀ i, bodyBitsFrom lens selectors i (a ++ b) =
    bodyBitsFrom lens selectors i a ++ bodyBitsFrom lens selectors (i + a.length) b := by
  induction a with
  | nil => exact fun _ => rfl
  | cons v a ih =>
    intro i
    rw [List.cons_append, bodyBitsFrom, bodyBitsFrom, ih, List.append_assoc, List.length_cons,
      Nat.add_right_comm, Nat.add_assoc]

/-- The symbols of a group stand under one selector. -/
theorem bodyBitsFrom_group (g : Nat) (group : List Nat) : ∀ k, k + group.length ≤ 50 →
    bodyBitsFrom lens selectors (50 * g + k) group =
      group.flatMap (symbolBits lens (selectors.getD g 0)) := by
  induction group with
  | nil => exact fun _ _ => rfl
  | cons v group ih =>
    intro k hk
    rw [List.length_cons] at hk
    rw [bodyBitsFrom, Nat.add_assoc, ih (k + 1) (by omega), show (50 * g + k) / 50 = g by omega,
      List.flatMap_cons]

variable {codes : List (List Nat)}

/-- Group by group, `ENC_EMIT` writes each symbol's code under its group's selector. -/
theorem fieldBits_bodyFields {a : Nat}
    (hcodes : ∀ t ∈ selectors, ∀ v < a,
      natToBits ((lens.getD t []).getD v 0) (BitVec.ofNat 32 ((codes.getD t []).getD v 0)).toNat =
        symbolBits lens t v) (fuel : Nat) :
    ∀ (g : Nat) (syms : List Nat), syms.length ≤ fuel →
      50 * g + syms.length ≤ 50 * selectors.length → (∀ v ∈ syms, v < a) →
      fieldBits (bodyFields lens codes (symbolGroups Config.groupSize fuel syms)
        (selectors.drop g)) = bodyBitsFrom lens selectors (50 * g) syms := by
  induction fuel with
  | zero =>
    intro g syms hfuel _ _
    rw [List.length_eq_zero_iff.mp (Nat.le_zero.mp hfuel)]
    rfl
  | succ fuel ih =>
    intro g syms hfuel hsyms hlt
    by_cases hne : syms = []
    · rw [hne, symbolGroups_nil]
      rfl
    have hpos := List.length_pos_iff.mpr hne
    have hg : g < selectors.length := by omega
    have hsize : Config.groupSize = 50 := rfl
    have hgroup := bodyBitsFrom_group (lens := lens) (selectors := selectors) g
      (syms.take Config.groupSize) 0 (by rw [List.length_take]; omega)
    have hrest := ih (g + 1) (syms.drop Config.groupSize) (by rw [List.length_drop]; omega)
      (by rw [List.length_drop]; omega) fun v hv => hlt v (List.mem_of_mem_drop hv)
    have hnext : bodyBitsFrom lens selectors (50 * g + (syms.take Config.groupSize).length)
        (syms.drop Config.groupSize) =
        bodyBitsFrom lens selectors (50 * (g + 1)) (syms.drop Config.groupSize) := by
      rcases Nat.lt_or_ge syms.length Config.groupSize with hshort | hlong
      · rw [List.drop_eq_nil_of_le hshort.le]
        rfl
      · rw [List.length_take_of_le hlong, hsize, Nat.mul_succ]
    have hfirst : (syms.take Config.groupSize).flatMap (fun v =>
        natToBits ((lens.getD selectors[g] []).getD v 0)
          (BitVec.ofNat 32 ((codes.getD selectors[g] []).getD v 0)).toNat) =
        (syms.take Config.groupSize).flatMap (symbolBits lens (selectors.getD g 0)) := by
      rw [List.getD_eq_getElem _ _ hg]
      exact List.flatMap_congr fun v hv =>
        hcodes _ (List.getElem_mem hg) v (hlt v (List.mem_of_mem_take hv))
    rw [symbolGroups_cons hne, List.drop_eq_getElem_cons hg, bodyFields, fieldBits_append,
      fieldBits_map, hfirst, ← hgroup, hrest, ← hnext, Nat.add_zero, ← bodyBitsFrom_append,
      List.take_append_drop]

end

/-! ## The bits of a coded block (rule R99) -/

theorem Mem.getD_readRows {w rows t : Nat} (m : Mem w) (stride n : Nat) (ht : t < rows) :
    (m.readRows stride rows n).getD t [] = m.readNats (stride * t) n := by
  rw [Mem.readRows, List.getD_eq_getElem _ _ (by rwa [List.length_map, List.length_range]),
    List.getElem_map, List.getElem_range]

/-- The table section `ENC_EMIT` writes. -/
def Encoder.tableSection (e : Encoder) : TableSection :=
  { inUse := inUseList e.inUse
    nGroups := e.nGroups.toNat
    selectors := e.selectors
    lens := (List.range e.nGroups.toNat).map e.lengths }

theorem valuesInUse_inUseList (inUse : BitVec 256) :
    valuesInUse (inUseList inUse) = (List.range 256).filter inUse.getLsbD := by
  refine List.filter_congr fun u hu => ?_
  have hlt := List.mem_range.mp hu
  rw [inUseList, List.getD_eq_getElem _ _ (by simpa using hlt), List.getElem_map,
    List.getElem_range]

theorem valuesInUse_inUseList_length (inUse : BitVec 256) :
    (valuesInUse (inUseList inUse)).length = rankOf inUse 256 := by
  rw [valuesInUse_inUseList, ← List.countP_eq_length_filter]
  rfl

/-- A byte value in use stands at its sequence number. -/
theorem valuesInUse_getElem? {inUse : BitVec 256} {u : Nat} (hu : u < 256)
    (huse : inUse.getLsbD u = true) :
    (valuesInUse (inUseList inUse))[rankOf inUse u]? = some u := by
  have hsplit : List.range 256 = List.range u ++ u :: (List.range (255 - u)).map (u + 1 + ·) := by
    rw [show 256 = u + 1 + (255 - u) by omega, List.range_add, List.range_succ, List.append_assoc]
    rfl
  have hrank : rankOf inUse u = ((List.range u).filter inUse.getLsbD).length :=
    List.countP_eq_length_filter
  rw [valuesInUse_inUseList, hsplit, List.filter_append, List.filter_cons_of_pos huse, hrank,
    List.getElem?_append_right (Nat.le_refl _), Nat.sub_self]
  rfl

theorem Encoder.selectors_length (e : Encoder) : e.selectors.length = e.nSelectors.toNat :=
  Mem.readNats_length _ _ _

/-- A block whose codes are assigned, its code lengths under Kraft's inequality. -/
structure Encoder.CodedBlock (e : Encoder) : Prop where
  block : e.HoldsBlock
  legal : e.Legal
  coded : e.estate = .coded
  lengthsLegal : e.LengthsLegal
  kraft : ∀ t < e.nGroups.toNat, Kraft (e.lengths t) ∧ ∀ l ∈ e.lengths t, 1 ≤ l

namespace Encoder.CodedBlock

variable {e : Encoder} (h : e.CodedBlock)
include h

theorem alphabet_eq : e.alphabet = rankOf e.inUse 256 + 2 :=
  congrArg (· + 2) (h.legal.stream (.inr (.inr h.coded))).1

theorem symbols_eq : e.symbols = e.symbolStream :=
  (h.legal.stream (.inr (.inr h.coded))).2.2.1

theorem nMtf_eq : e.nMtf.toNat = e.loopSymbols.length + 1 :=
  (h.legal.stream (.inr (.inr h.coded))).2.1.trans e.symbolStream_length

theorem selectors_length_eq : e.selectors.length = (e.loopSymbols.length + 50) / 50 := by
  rw [e.selectors_length, (h.legal.tables (.inr h.coded)).2.1, h.nMtf_eq]

theorem selectors_lt : ∀ t ∈ e.selectors, t < e.nGroups.toNat :=
  (h.legal.tables (.inr h.coded)).2.2

theorem symbols_lt : ∀ v ∈ e.symbols, v < e.alphabet := by
  intro v hv
  have := h.block.symbolStream_le v (h.symbols_eq ▸ hv)
  rw [h.alphabet_eq]
  omega

/-- Code lengths are 1 to 20. -/
theorem lengths_range {t : Nat} (ht : t < e.nGroups.toNat) :
    ∀ l ∈ e.lengths t, 1 ≤ l ∧ l ≤ 20 := by
  intro l hl
  obtain ⟨v, hv, rfl⟩ := List.getElem_of_mem hl
  refine ⟨(h.kraft t ht).2 _ hl, ?_⟩
  rw [e.lengths_length] at hv
  simp only [Encoder.lengths, Mem.getElem_readNats]
  exact h.lengthsLegal (.inr h.coded) t ht v hv

theorem tableSection_legal : e.tableSection.Legal where
  bitmap := (List.length_map _).trans List.length_range
  used hnone := by
    have := h.block.one_le_rankOf
    rw [← valuesInUse_inUseList_length] at this
    exact Nat.ne_of_gt this (List.length_eq_zero_iff.mpr hnone)
  groups := by
    have hcount := (h.legal.tables (.inr h.coded)).1
    refine ⟨?_, ?_, (List.length_map _).trans List.length_range⟩
    · exact (two_le_tableCount _).trans_eq hcount.symm
    · exact hcount.trans_le (tableCount_le _)
  count := by
    have hlen := h.selectors_length_eq
    have hlt := e.nSelectors.isLt
    rw [← e.selectors_length] at hlt
    exact ⟨show 1 ≤ e.selectors.length by omega, show e.selectors.length ≤ 32767 by omega⟩
  selectors := h.selectors_lt
  lengths row hrow := by
    obtain ⟨t, ht, rfl⟩ := List.mem_map.mp hrow
    refine ⟨?_, h.lengths_range (List.mem_range.mp ht)⟩
    rw [e.lengths_length, h.alphabet_eq]
    exact congrArg (· + 2) (valuesInUse_inUseList_length e.inUse).symm

theorem tableSection_kraft : ∀ row ∈ e.tableSection.lens, Kraft row := by
  intro row hrow
  obtain ⟨t, ht, rfl⟩ := List.mem_map.mp hrow
  exact (h.kraft t (List.mem_range.mp ht)).1

/-- The code field of a symbol holds its canonical code. -/
theorem codeField_bits {t v : Nat} (ht : t < e.nGroups.toNat) (hv : v < e.alphabet) :
    natToBits ((e.tableSection.lens.getD t []).getD v 0)
      (BitVec.ofNat 32 (((e.eCode.readRows Config.symbolRow e.nGroups.toNat e.alphabet).getD t
        []).getD v 0)).toNat = symbolBits e.tableSection.lens t v := by
  have hrow : e.tableSection.lens.getD t [] = e.lengths t := e.eLen.getD_readRows _ _ ht
  have hcode : ((e.eCode.readRows Config.symbolRow e.nGroups.toNat e.alphabet).getD t []).getD v 0 =
      (BitVec.ofNat 20 ((canonicalCodes (e.lengths t)).getD v 0)).toNat := by
    rw [← h.legal.codes h.coded t ht v hv, e.eCode.getD_readRows _ _ ht,
      List.getD_eq_getElem _ _ (by rwa [Mem.readNats_length]), Mem.getElem_readNats]
  have hl : (e.lengths t).getD v 0 ≤ 20 := getD_le (fun l hl => (h.lengths_range ht l hl).2) v
  rw [symbolBits, hrow, hcode, natToBits_toNat_ofNat (hl.trans (by decide)),
    natToBits_toNat_ofNat hl]

/-- The emitted bits are a table section and a body. -/
theorem emitFields_bits : fieldBits e.emitFields =
    fieldBits (tableSectionFields e.inUse e.tableSection.nGroups e.tableSection.selectors
      e.tableSection.lens) ++
      bodyBitsFrom e.tableSection.lens e.selectors 0 e.symbols := by
  have hlen : e.symbols.length = e.loopSymbols.length + 1 := by
    rw [h.symbols_eq, e.symbolStream_length]
  have hsel := h.selectors_length_eq
  have hbody := fieldBits_bodyFields
    (fun t ht v hv => h.codeField_bits (h.selectors_lt t ht) hv) e.symbols.length 0 e.symbols
    (Nat.le_refl _) (by omega) h.symbols_lt
  rw [← hbody, ← fieldBits_append]
  congr 1
  simp only [tableSectionFields, Encoder.tableSection, e.selectors_length, BitVec.ofNat_toNat]
  rfl

end Encoder.CodedBlock

/-! ## The two commands -/

theorem readCommand_ok {α : Type} {x : Reader α} {spoil : State → State}
    {k : α → BitSource → State → CmdResult} {s : State} {a : α} {q : BitSource}
    (h : x s.src = .ok a q) : readCommand x spoil k s = k a q s := by
  rw [readCommand, h]

theorem exec_decTables_ok {s : State} {x : TableSection} {q : BitSource} (herr : s.err = 0)
    (hs : s.dec.dstate = .tables) (h : readTables s.src = .ok x q) :
    exec .decTables s = .next { s with src := q, dec := s.dec.setTables x }.countCommand :=
  exec_done nofun herr ((inDState_here hs).trans (readCommand_ok h))

theorem exec_decSymbols_ok {s : State} {x : Expansion} {q : BitSource} (herr : s.err = 0)
    (hs : s.dec.dstate = .symbols) (h : readSymbols s.dec s.src = .ok x q) :
    exec .decSymbols s = .next { s with src := q, dec := s.dec.setSymbols x }.countCommand :=
  exec_done nofun herr ((inDState_here hs).trans (readCommand_ok h))

/-- The table section of a coded block tells the decoder which bytes are in use. -/
theorem Decoder.HoldsSection.seqToUnseq_rankOf {d : Decoder} {e : Encoder}
    (hd : d.HoldsSection e.tableSection) {u : Nat} (hu : u < 256)
    (huse : e.inUse.getLsbD u = true) : (d.seqToUnseq.read (rankOf e.inUse u)).toNat = u := by
  obtain ⟨hlt, hget⟩ := List.getElem?_eq_some_iff.mp (valuesInUse_getElem? hu huse)
  exact (hd.seqToUnseq _ hlt).trans hget

/-- `DEC_SYMBOLS` reads the body of a coded block as the block. -/
theorem Encoder.CodedBlock.reads_readSymbols {e : Encoder} (h : e.CodedBlock) {d : Decoder}
    (hd : d.HoldsSection e.tableSection)
    (hroom : e.blockLength ≤ Config.blockUnit * d.bs100k.toNat)
    (horig : d.origPtr.toNat < e.blockLength) :
    ∃ y, (readSymbols d).Reads (bodyBitsFrom e.tableSection.lens e.selectors 0 e.symbols) y ∧
      y.bytes.reverse = e.block.readRange 0 e.blockLength ∧ y.nblock = e.blockLength := by
  have hused := valuesInUse_inUseList_length e.inUse
  have hlen : (valuesInUse e.tableSection.inUse).length = rankOf e.inUse 256 := hused
  obtain ⟨x, y, hmore, hdone, hbytes, hnblock, -⟩ := h.block.expandSymbols_symbolStream
    (hd.nInUse.trans hused) (fun _ => hd.seqToUnseq_rankOf) hroom
  have hcount : d.nSelectors.toNat = e.selectors.length := hd.nSelectors
  have hsel := h.selectors_length_eq
  have hloop := hd.reads_expandLoop h.tableSection_legal h.tableSection_kraft
    (last := rankOf e.inUse 256 + 1) (by omega) hdone e.loopSymbols
    (fuel := Config.groupSize * d.nSelectors.toNat + 1) (i := 0)
    (by simp only [Config.groupSize]; omega) (by simp only [Encoder.tableSection]; omega)
    (fun v hv => by have := h.block.loopSymbols_le v hv; omega) hmore
  rw [← e.symbolStream_eq, ← h.symbols_eq] at hloop
  refine ⟨y, ?_, hbytes, hnblock⟩
  rw [← List.append_nil (bodyBitsFrom _ _ _ _)]
  exact reads_bind hloop (reads_ite_neg (by omega) (reads_pure y))

theorem Decoder.toNat_nBlock_setSymbols (d : Decoder) {x : Expansion} (h : x.nblock < 2 ^ 20) :
    (d.setSymbols x).nBlock.toNat = x.nblock := by
  rw [Decoder.setSymbols, BitVec.toNat_ofNat, Nat.mod_eq_of_lt h]

theorem Decoder.read_tt_setSymbols (d : Decoder) {x : Expansion} {i : Nat}
    (hi : i < x.bytes.reverse.length) :
    (d.setSymbols x).tt.read i = x.bytes.reverse[i].setWidth 32 := by
  have := Mem.read_writeRange_inside d.tt 0 (x.bytes.reverse.map fun b => b.setWidth 32) i
    (by simpa using hi)
  rw [Nat.zero_add, List.getElem_map] at this
  exact this

/-- Settles O49: the table section is read back as it was written, so every code of the body is
decoded to its symbol, and the symbols expand to the block. -/
theorem emittedBlockDecodes : Obligations.EmittedBlockDecodes := by
  unfold Obligations.EmittedBlockDecodes
  intro e s rest hinv hlegal hcoded hkraft herr hs htidy _ hroom horig hbits
  have h : e.enc.CodedBlock :=
    ⟨hinv.holdsBlock hlegal (by rw [hcoded]; nofun), hlegal, hcoded, hinv.lengthsLegal, hkraft⟩
  have hx := h.tableSection_legal
  have hd := hx.holdsSection_setTables h.tableSection_kraft s.dec
  rw [h.emitFields_bits] at hbits ⊢
  rw [List.append_assoc] at hbits
  obtain ⟨p, htables, hfirst⟩ := reads_readTables hx rfl htidy hbits
  obtain ⟨y, hreads, hbytes, hnblock⟩ := h.reads_readSymbols hd hroom horig
  obtain ⟨q, hsymbols, hthen⟩ := hreads hfirst.tidy (by rw [hfirst.stream, hbits, List.drop_left])
  have hlen : y.bytes.reverse.length = e.enc.blockLength := by rw [hbytes, Mem.readRange_length]
  refine ⟨_, _, exec_decTables_ok herr hs htables, exec_decSymbols_ok herr rfl hsymbols, herr, rfl,
    rfl, ?_, fun i hi => ?_, ?_⟩
  · have := h.block.fits
    exact (Decoder.toNat_nBlock_setSymbols _ (by omega)).trans hnblock
  · refine ((s.dec.setTables e.enc.tableSection).read_tt_setSymbols (by omega)).trans ?_
    simp [hbytes, Mem.readRange]
  · rw [List.length_append]
    exact hfirst.trans hthen

end Sys2Proof.Machine
end

section
/-! PROOF. The wire format (45_huffman_encode.md rules R97 to R103): the bit patterns of the table
section, the headers and the trailer: O38 to O40. -/

namespace Sys2Proof.Machine

/-! ## Selectors, length steps and bitmaps (rules R97 to R99) -/

theorem fieldBits_replicate (n : Nat) (f : BitField) :
    fieldBits (List.replicate n f) = (List.replicate n (natToBits f.1 f.2.toNat)).flatten := by
  rw [fieldBits, List.flatMap_replicate]

theorem lengthSteps_bits (curr l : Nat) : fieldBits (lengthSteps curr l) =
    (List.replicate (l - curr) [true, false]).flatten ++
      (List.replicate (curr - l) [true, true]).flatten ++ [false] := by
  rw [lengthSteps, fieldBits_append, fieldBits_append, fieldBits_replicate, fieldBits_replicate]
  rfl

/-- Each length is coded against the one before it in the list. -/
theorem lengthDeltas_eq_flatMap_zip (lens : List Nat) : ∀ curr,
    lengthDeltas curr lens = ((curr :: lens).zip lens).flatMap fun p => lengthSteps p.1 p.2 := by
  induction lens with
  | nil => exact fun _ => rfl
  | cons l lens ih =>
    intro curr
    rw [lengthDeltas, ih, List.zip_cons_cons, List.flatMap_cons]

theorem tableFields_bits (lens : List Nat) : fieldBits (tableFields lens) =
    natToBits 5 (lens.headD 0) ++
      ((lens.headD 0 :: lens).zip lens).flatMap fun p => fieldBits (lengthSteps p.1 p.2) := by
  rw [tableFields, fieldBits_cons, natToBits_toNat_ofNat (show 5 ≤ 32 by decide),
    lengthDeltas_eq_flatMap_zip, fieldBits_flatMap]

theorem bitmapFields_bits (inUse : BitVec 256) : fieldBits (bitmapFields inUse) =
    (List.range 16).map (groupUsed inUse) ++
      ((List.range 16).filter (groupUsed inUse)).flatMap (groupBits inUse) := by
  have hgroups : ((List.range 16).map (groupUsed inUse)).length = 16 := by
    rw [List.length_map, List.length_range]
  have hbits (i : Nat) : natToBits (bitmapField (groupBits inUse i)).1
      (bitmapField (groupBits inUse i)).2.toNat = groupBits inUse i :=
    bitmapField_bits (groupBits_length inUse i)
  rw [bitmapFields, fieldBits_cons, bitmapField_bits hgroups, fieldBits_map]
  simp only [hbits]

theorem groupUsed_eq_any (inUse : BitVec 256) :
    groupUsed inUse = fun i => (List.range 16).any fun j => inUse.getLsbD (16 * i + j) := by
  funext i
  rw [groupUsed, groupBits, List.any_map]
  rfl

/-- Settles O38: each pattern is the bits of its fields, one field after the other. -/
theorem tableSectionBitPatterns : Obligations.TableSectionBitPatterns := by
  unfold Obligations.TableSectionBitPatterns
  refine ⟨fun j hj => unaryField_bits (by omega), lengthSteps_bits,
    fun lens _ _ => tableFields_bits lens, fun inUse => ?_⟩
  rw [bitmapFields_bits, groupUsed_eq_any]
  rfl

/-! ## The headers' fields (rules R100 to R102) -/

/-- A byte of a word. -/
theorem natToBits_extractByte (v : Word) (k : Nat) :
    natToBits 8 ((v.extractLsb' k 8).setWidth 32).toNat = natToBits 8 (v.toNat >>> k) := by
  refine natToBits_congr ?_
  rw [BitVec.toNat_setWidth_of_le (by decide), BitVec.extractLsb'_toNat, Nat.mod_mod]

theorem wordFields_bits (v : Word) : fieldBits (wordFields v) = natToBits 32 v.toNat := by
  have h₁ := natToBits_add 8 24 v.toNat
  have h₂ := natToBits_add 8 16 v.toNat
  have h₃ := natToBits_add 8 8 v.toNat
  simp only [Nat.reduceAdd] at h₁ h₂ h₃
  simp only [wordFields, fieldBits_cons, fieldBits_nil, natToBits_extractByte, List.append_nil,
    Nat.shiftRight_zero, h₁, h₂, h₃]

theorem streamHeaderFields_bits (bs : BitVec 4) : fieldBits (streamHeaderFields bs) =
    natToBits 24 0x425A68 ++ natToBits 8 (0x30 + bs.toNat) := by
  have hbyte := natToBits_toNat_ofNat (show 8 ≤ 32 by decide) (0x30 + bs.toNat)
  simp only [streamHeaderFields, byteField, fieldBits_cons, fieldBits_nil, List.append_nil, hbyte]
  rfl

theorem blockHeaderFields_bits (crcValue : Word) (rand : BitVec 1) (origPtr : BitVec 24) :
    fieldBits (blockHeaderFields crcValue rand origPtr) =
      natToBits 48 0x314159265359 ++ natToBits 32 crcValue.toNat ++ natToBits 1 rand.toNat ++
        natToBits 24 origPtr.toNat := by
  have hmagic : fieldBits blockMagicFields = natToBits 48 0x314159265359 := rfl
  simp only [blockHeaderFields, fieldBits_append, hmagic, wordFields_bits, fieldBits_cons,
    fieldBits_nil, List.append_nil, List.append_assoc,
    BitVec.toNat_setWidth_of_le (show 1 ≤ 32 by decide),
    BitVec.toNat_setWidth_of_le (show 24 ≤ 32 by decide)]

theorem trailerFields_bits (combined : Word) :
    fieldBits (trailerMagicFields ++ wordFields combined) =
      natToBits 48 0x177245385090 ++ natToBits 32 combined.toNat := by
  rw [fieldBits_append, wordFields_bits]
  rfl

/-! ## `ENC_STREAM_HDR` and `ENC_BLOCK_HDR` (rules R101 and R102) -/

section
variable {s : State} (herr : s.err = 0) (hopen : s.sink.done = false)
include herr hopen

theorem exec_encStreamHdr : exec .encStreamHdr s = .next { s with
    sink := s.sink.writeAll (streamHeaderFields s.blockSize), combined := 0 }.countCommand :=
  exec_done nofun herr (by rw [commandBody, sinkCommand_open hopen])

theorem exec_encTrailer : exec .encTrailer s = .next
    { s with sink := (s.sink.writeAll
      (trailerMagicFields ++ wordFields s.combined)).finish }.countCommand :=
  exec_done nofun herr (by rw [commandBody, sinkCommand_open hopen])

end

section
variable {s : State} {rand : BitVec 1} {origPtr : BitVec 24} (hopen : s.sink.done = false)
  (hblock : s.enc.last ≠ 0xFFFFFFFF)
include hopen hblock

/-- With a block loaded and the BitSink open, only `origPtr` is left to check. -/
theorem commandBody_encBlockHdr : commandBody (.encBlockHdr rand origPtr) s =
    if s.enc.last.toInt < (origPtr.toNat : Int) then .raise .operand s
    else .done { s with
      sink := s.sink.writeAll (blockHeaderFields s.crcValue rand origPtr) } :=
  (unlessNoBlock_block (noBlock_eq_false hblock)).trans (sinkCommand_open hopen)

theorem exec_encBlockHdr (herr : s.err = 0) (horig : ¬ s.enc.last.toInt < (origPtr.toNat : Int)) :
    exec (.encBlockHdr rand origPtr) s = .next
      { s with sink := s.sink.writeAll (blockHeaderFields s.crcValue rand origPtr) }.countCommand :=
  exec_done nofun herr ((commandBody_encBlockHdr hopen hblock).trans (if_neg horig))

theorem exec_encBlockHdr_operand (herr : s.err = 0)
    (horig : s.enc.last.toInt < (origPtr.toNat : Int)) :
    exec (.encBlockHdr rand origPtr) s = .next { s with err := 0x22, cmdCnt := s.cmdCnt + 1 } :=
  exec_operandError nofun herr ((commandBody_encBlockHdr hopen hblock).trans (if_pos horig))

end

/-- Settles O39: each header appends the bits of its fields, and `origPtr` is compared with
`LAST`, which is one less than the block's length. -/
theorem encHeadersFollowWireFormat : Obligations.EncHeadersFollowWireFormat := by
  unfold Obligations.EncHeadersFollowWireFormat
  intro s rand origPtr herr hinv hopen
  have hlast := hinv.last_toInt
  refine ⟨?_, fun hblock horig => ?_, fun hblock horig => ?_⟩
  · refine ⟨_, exec_encStreamHdr herr hopen, ?_⟩
    rw [← streamHeaderFields_bits]
    exact BitSink.writeAll_appended (byteField (0x30 + s.blockSize.toNat))
      [byteField 0x42, byteField 0x5A, byteField 0x68] (streamHeaderFields_width s.blockSize)
      hinv.sinkTidy
  · refine ⟨_, exec_encBlockHdr hopen hblock herr (by omega), ?_⟩
    rw [← State.crcValue, ← blockHeaderFields_bits]
    exact BitSink.writeAll_appended (24, origPtr.setWidth 32)
      (blockMagicFields ++ wordFields s.crcValue ++ [(1, rand.setWidth 32)])
      (blockHeaderFields_width s.crcValue rand origPtr) hinv.sinkTidy
  · exact exec_encBlockHdr_operand hopen hblock herr (by omega)

/-! ## `ENC_TRAILER` (rule R103) -/

/-- Writes followed by `Finish()` (rule R65): OUT is the old bits and the new ones, padded. -/
theorem BitSink.Appended.finish {k q : BitSink} {bits : List Bool} {m : Nat}
    (h : k.Appended q bits m) :
    bytesToBits q.finish.out = padToByte (k.bits ++ bits) ∧ k.out <+: q.finish.out ∧
      q.finish.bytes = k.bytes + BitVec.ofNat 32 (q.finish.out.length - k.out.length) := by
  obtain ⟨hout, hbytes⟩ := BitSink.finish_counts h.tidy
  have hle := hout.length_le
  have hkept := h.outKept.length_le
  refine ⟨h.stream ▸ (BitSink.finish_spec h.tidy).1, h.outKept.trans hout, ?_⟩
  rw [hbytes, h.counted, BitVec.add_assoc, ← BitVec.ofNat_add]
  congr 2
  omega

/-- Settles O40: the trailer's fields are written and the stream is finished. -/
theorem encTrailerEndsTheStream : Obligations.EncTrailerEndsTheStream := by
  unfold Obligations.EncTrailerEndsTheStream
  intro s herr htidy hopen
  have written := BitSink.writeAll_appended (8, (s.combined.extractLsb' 0 8).setWidth 32)
    (trailerMagicFields ++ (wordFields s.combined).take 3) (trailerFields_width s.combined) htidy
  obtain ⟨hbits, hout, hbytes⟩ := written.finish
  obtain ⟨-, hacc, hlive, hdone⟩ := BitSink.finish_spec written.tidy
  refine ⟨_, exec_encTrailer herr hopen, ?_, hout, hbytes, hacc, hlive, hdone⟩
  rw [List.append_assoc, ← trailerFields_bits]
  exact hbits

end Sys2Proof.Machine
end

section
/-! PROOF. The canonical codes (45_huffman_encode.md rules R95 and R96): O35 and O36. -/

namespace Sys2Proof.Machine

/-! ## The codes of a table (rule R95) -/

/-- Of two symbols of one length, the later has the larger rank. -/
theorem count_take_lt_count_take {lens : List Nat} {u v l : Nat} (hu : lens[u]? = some l)
    (huv : u < v) : (lens.take u).count l < (lens.take v).count l := by
  have hget : (lens.take v)[u]? = some l := by rwa [List.getElem?_take_of_lt huv]
  have := count_take_lt hget
  rwa [List.take_take, min_eq_left huv.le] at this

theorem codeOf_ne {lens : List Nat} {u v l : Nat} (hu : lens[u]? = some l)
    (hv : lens[v]? = some l) (huv : u ≠ v) : codeOf lens v l ≠ codeOf lens u l := by
  unfold codeOf
  rcases Nat.lt_or_gt_of_ne huv with h | h
  · have := count_take_lt_count_take hu h
    omega
  · have := count_take_lt_count_take hv h
    omega

/-- A code begins with no code of a shorter length: its first bits are above them all. -/
theorem codeOf_lt_shiftRight {lens : List Nat} {u v k l : Nat} (hu : lens[u]? = some k)
    (hkl : k < l) : codeOf lens u k < codeOf lens v l >>> (l - k) := by
  obtain ⟨m, rfl⟩ := Nat.exists_eq_add_of_lt hkl
  have hcount := count_take_lt hu
  have hfirst := mul_le_firstCode lens k m
  rw [Nat.shiftRight_eq_div_pow, show k + m + 1 - k = m + 1 by omega, codeOf, codeOf]
  calc firstCode lens k + (lens.take u).count k
      < firstCode lens k + lens.count k := by omega
    _ ≤ _ := (Nat.le_div_iff_mul_le (by positivity)).mpr (by rw [Nat.mul_comm]; omega)

/-- Settles O36: under Kraft's inequality the codes of a length fit in it, they are told apart by
their ranks, and those of a longer length lie above the extensions of the shorter. -/
theorem canonicalCodesArePrefixFree : Obligations.CanonicalCodesArePrefixFree := by
  unfold Obligations.CanonicalCodesArePrefixFree
  intro lens hrange hkraft
  have hget {v : Nat} (hv : v < lens.length) : lens[v]? = some (lens.getD v 0) := by
    rw [List.getElem?_eq_getElem hv, List.getD_eq_getElem _ _ hv]
  refine ⟨canonicalCodes_length lens, fun v hv => ?_, fun u hu v hv huv hle => ?_⟩
  · rw [canonicalCodes_getD (hget hv)]
    exact codeOf_lt hkraft (hrange _ (List.mem_of_getElem? (hget hv))).2 (hget hv)
  · rw [canonicalCodes_getD (hget hu), canonicalCodes_getD (hget hv)]
    rcases hle.lt_or_eq with hlt | heq
    · exact (codeOf_lt_shiftRight (hget hu) hlt).ne'
    · rw [heq, Nat.sub_self, Nat.shiftRight_zero]
      exact codeOf_ne (heq ▸ hget hu) (hget hv) huv

/-! ## `ENC_CODES` (rule R96) -/

/-- Rows of at most `n` elements leave alone the rows they do not reach, and each row from element
`n` on. -/
theorem Mem.read_writeRows_outside {w : Nat} {stride n : Nat} (hn : n ≤ stride)
    (rows : List (List (BitVec w))) (hlen : ∀ row ∈ rows, row.length ≤ n) {i v : Nat}
    (hv : v < stride) : ∀ (t : Nat) (m : Mem w), i < t ∨ t + rows.length ≤ i ∨ n ≤ v →
      (Mem.writeRows stride t rows m).read (stride * i + v) = m.read (stride * i + v) := by
  induction rows with
  | nil => exact fun _ _ _ => rfl
  | cons row rows ih =>
    intro t m hout
    obtain ⟨hrow, hrows⟩ := List.forall_mem_cons.mp hlen
    rw [List.length_cons] at hout
    rw [Mem.writeRows, ih hrows (t + 1) _ (by omega)]
    refine Mem.read_writeRange_outside _ _ _ _ ?_
    rcases Nat.lt_trichotomy i t with hlt | rfl | hgt
    · have := Nat.mul_le_mul_left stride (Nat.succ_le_of_lt hlt)
      rw [Nat.mul_succ] at this
      exact .inl (by omega)
    · exact .inr (by omega)
    · have := Nat.mul_le_mul_left stride (Nat.succ_le_of_lt hgt)
      rw [Nat.mul_succ] at this
      exact .inr (by omega)

theorem exec_encCodes {s : State} (herr : s.err = 0) (hlast : s.enc.last ≠ 0xFFFFFFFF)
    (hs : s.enc.estate = .trained) :
    exec .encCodes s = .next { s with enc := s.enc.setCodes }.countCommand :=
  exec_done nofun herr ((unlessNoBlock_block (noBlock_eq_false hlast)).trans (encCodes_done hs))

theorem Encoder.read_eCode_setCodes_outside {e : Encoder} (hn : e.nInUse.toNat ≤ 256) {t v : Nat}
    (hv : v < Config.symbolRow) (hout : e.nGroups.toNat ≤ t ∨ e.alphabet ≤ v) :
    e.setCodes.eCode.read (Config.symbolRow * t + v) = e.eCode.read (Config.symbolRow * t + v) := by
  have hlen : ∀ row ∈ ((List.range e.nGroups.toNat).map e.lengths).map fun lens =>
      (canonicalCodes lens).map (BitVec.ofNat 20), row.length ≤ e.alphabet := by
    simp only [List.map_map, List.mem_map]
    rintro _ ⟨t, -, rfl⟩
    simp [canonicalCodes_length, Encoder.lengths_length]
  exact Mem.read_writeRows_outside (Encoder.alphabet_le_symbolRow hn) _ hlen hv 0 e.eCode
    (by simpa using hout)

/-- Settles O35: the code of a symbol is the first code of its length and its rank, cut to the
element's 20 bits. -/
theorem encCodesAssignsCanonicalCodes : Obligations.EncCodesAssignsCanonicalCodes := by
  unfold Obligations.EncCodesAssignsCanonicalCodes
  intro s herr hinv _ hs
  have hlast := hinv.last_ne (by rw [hs]; nofun)
  refine ⟨s.enc.setCodes.eCode, exec_encCodes herr hlast hs, fun t ht v hv => ?_,
    fun t v hv hout => Encoder.read_eCode_setCodes_outside hinv.inUseLegal hv hout⟩
  have hlen : v < (s.enc.lengths t).length := by rwa [Encoder.lengths_length]
  have hget : (s.enc.lengths t)[v]? = some ((s.enc.lengths t).getD v 0) := by
    rw [List.getElem?_eq_getElem hlen, List.getD_eq_getElem _ _ hlen]
  have hread := Encoder.read_eCode_setCodes hinv.inUseLegal ht hv
  rw [canonicalCodes_getD hget] at hread
  exact (congrArg BitVec.toNat hread).trans (BitVec.toNat_ofNat _ _)

end Sys2Proof.Machine
end

section
/-! PROOF. `ENC_EMIT` (45_huffman_encode.md rules R97 to R99): O37. -/

namespace Sys2Proof.Machine

/-! ## The fields of the block body -/

/-- The body of a block, symbol by symbol from symbol number `i` on. -/
theorem bodyBitsFrom_eq_flatMap (lens : List (List Nat)) (selectors syms : List Nat) : ∀ i,
    bodyBitsFrom lens selectors i syms = (List.range syms.length).flatMap fun k =>
      symbolBits lens (selectors.getD ((i + k) / 50) 0) (syms.getD k 0) := by
  induction syms with
  | nil => exact fun _ => rfl
  | cons v syms ih =>
    intro i
    rw [bodyBitsFrom, ih, List.length_cons, List.range_succ_eq_map, List.flatMap_cons,
      List.flatMap_map]
    refine congrArg₂ _ rfl (List.flatMap_congr fun k _ => ?_)
    rw [Nat.add_right_comm, Nat.add_assoc, List.getD_cons_succ]

theorem bodyBits_eq_bodyBitsFrom (lens : List (List Nat)) (selectors syms : List Nat) :
    bodyBits lens selectors syms = bodyBitsFrom lens selectors 0 syms := by
  rw [bodyBitsFrom_eq_flatMap, bodyBits]
  simp only [Nat.zero_add]
  rfl

theorem getLastD_drop {l : List Nat} {n : Nat} (h : n < l.length) :
    (l.drop n).getLastD 0 = l.getLastD 0 := by
  rw [List.getLastD_eq_getLast?, List.getLastD_eq_getLast?, List.getLast?_drop,
    if_neg (Nat.not_le.mpr h)]

theorem getLastD_mem {l : List Nat} (h : l ≠ []) : l.getLastD 0 ∈ l := by
  rw [List.getLastD_eq_getLast?, List.getLast?_eq_some_getLast h]
  exact List.getLast_mem h

theorem bodyFields_nil (lens codes : List (List Nat)) (selectors : List Nat) :
    bodyFields lens codes [] selectors = [] := rfl

/-- The last field of the body is the code of the last symbol, under the last selector. -/
theorem bodyFields_eq_append_last (lens codes : List (List Nat)) (fuel : Nat) :
    ∀ syms selectors : List Nat, syms ≠ [] → syms.length ≤ fuel →
      selectors.length = (syms.length + 49) / 50 →
      ∃ first code, bodyFields lens codes (symbolGroups Config.groupSize fuel syms) selectors =
        first ++ [((lens.getD (selectors.getLastD 0) []).getD (syms.getLastD 0) 0, code)] := by
  have hsize : Config.groupSize = 50 := rfl
  induction fuel with
  | zero =>
    intro syms selectors hne hfuel
    exact absurd (List.length_eq_zero_iff.mp (Nat.le_zero.mp hfuel)) hne
  | succ fuel ih =>
    intro syms selectors hne hfuel hcount
    have hpos := List.length_pos_iff.mpr hne
    cases selectors with
    | nil => rw [List.length_nil] at hcount; omega
    | cons t selectors =>
      rw [List.length_cons] at hcount
      rw [symbolGroups_cons hne, bodyFields]
      rcases Nat.lt_or_ge 50 syms.length with hlong | hshort
      · have hlen : (syms.drop Config.groupSize).length = syms.length - 50 := by
          rw [List.length_drop, hsize]
        obtain ⟨first, code, hrest⟩ := ih (syms.drop Config.groupSize) selectors
          (List.length_pos_iff.mp (by omega)) (by omega) (by omega)
        have hlast : (t :: selectors).getLastD 0 = selectors.getLastD 0 :=
          (getLastD_drop (l := t :: selectors) (n := 1) (by rw [List.length_cons]; omega)).symm
        rw [hrest, ← List.append_assoc, hlast, getLastD_drop (by omega)]
        exact ⟨_, code, rfl⟩
      · have hone : selectors = [] := List.length_eq_zero_iff.mp (by omega)
        have hsplit : syms = syms.dropLast ++ [syms.getLastD 0] := by
          rw [List.getLastD_eq_getLast?, List.getLast?_eq_some_getLast hne, Option.getD_some,
            List.dropLast_concat_getLast]
        rw [hone, List.take_of_length_le (by omega), List.drop_eq_nil_of_le (by omega),
          symbolGroups_nil, bodyFields_nil, List.append_nil]
        exact ⟨_, _, (congrArg (List.map _) hsplit).trans List.map_append⟩

/-! ## A block ready to be emitted -/

theorem Encoder.getD_lengths {e : Encoder} {t : Nat} (ht : t < e.nGroups.toNat) :
    ((List.range e.nGroups.toNat).map e.lengths).getD t [] = e.lengths t :=
  e.eLen.getD_readRows _ _ ht

/-- A block whose codes are assigned, as `ENC_EMIT` finds it. -/
structure Encoder.ReadyToEmit (e : Encoder) : Prop where
  block : e.HoldsBlock
  legal : e.Legal
  coded : e.estate = .coded
  lengthsLegal : e.LengthsLegal

namespace Encoder.ReadyToEmit

variable {e : Encoder} (h : e.ReadyToEmit)
include h

theorem symbols_ne_nil : e.symbols ≠ [] := by
  obtain ⟨-, -, hsyms, -⟩ := h.legal.stream (.inr (.inr h.coded))
  rw [hsyms, symbolStream_eq]
  exact List.append_ne_nil_of_right_ne_nil _ (List.cons_ne_nil _ _)

theorem symbols_lt : ∀ v ∈ e.symbols, v < e.alphabet := by
  obtain ⟨hused, -, hsyms, -⟩ := h.legal.stream (.inr (.inr h.coded))
  intro v hv
  have := h.block.symbolStream_le v (hsyms ▸ hv)
  rw [alphabet]
  omega

theorem selectors_lt : ∀ t ∈ e.selectors, t < e.nGroups.toNat :=
  (h.legal.tables (.inr h.coded)).2.2

theorem nGroups_le : e.nGroups.toNat ≤ 6 :=
  (h.legal.tables (.inr h.coded)).1.trans_le (tableCount_le _)

/-- One selector for each group of 50 symbols. -/
theorem selectors_length_eq : e.selectors.length = (e.symbols.length + 49) / 50 := by
  rw [e.selectors_length, (h.legal.tables (.inr h.coded)).2.1, symbols, Mem.readNats_length]

theorem selectors_ne_nil : e.selectors ≠ [] := by
  have := List.length_pos_iff.mpr h.symbols_ne_nil
  have := h.selectors_length_eq
  exact List.length_pos_iff.mp (by omega)

/-- The code field of a symbol holds its canonical code, whether or not the lengths fit a code. -/
theorem codeField_bits {t v : Nat} (ht : t < e.nGroups.toNat) (hv : v < e.alphabet) :
    natToBits ((((List.range e.nGroups.toNat).map e.lengths).getD t []).getD v 0)
      (BitVec.ofNat 32 (((e.eCode.readRows Config.symbolRow e.nGroups.toNat e.alphabet).getD t
        []).getD v 0)).toNat = symbolBits ((List.range e.nGroups.toNat).map e.lengths) t v := by
  have hcode : ((e.eCode.readRows Config.symbolRow e.nGroups.toNat e.alphabet).getD t []).getD v 0 =
      (BitVec.ofNat 20 ((canonicalCodes (e.lengths t)).getD v 0)).toNat := by
    rw [← h.legal.codes h.coded t ht v hv, e.eCode.getD_readRows _ _ ht,
      List.getD_eq_getElem _ _ (by rwa [Mem.readNats_length]), Mem.getElem_readNats]
  have hl : (e.lengths t).getD v 0 ≤ 20 :=
    getD_le (h.lengthsLegal.rows h.coded _ (List.mem_map_of_mem (List.mem_range.mpr ht))) v
  rw [symbolBits, getD_lengths ht, hcode, natToBits_toNat_ofNat (hl.trans (by decide)),
    natToBits_toNat_ofNat hl]

end Encoder.ReadyToEmit

/-- What `ENC_EMIT` writes is a table section and the codes of the groups. -/
theorem Encoder.emitFields_eq (e : Encoder) : e.emitFields =
    tableSectionFields e.inUse e.nGroups.toNat e.selectors
      ((List.range e.nGroups.toNat).map e.lengths) ++
    bodyFields ((List.range e.nGroups.toNat).map e.lengths)
      (e.eCode.readRows Config.symbolRow e.nGroups.toNat e.alphabet)
      (symbolGroups Config.groupSize e.symbols.length e.symbols) e.selectors := by
  rw [tableSectionFields, e.selectors_length, BitVec.ofNat_toNat, BitVec.ofNat_toNat]
  rfl

namespace Encoder.ReadyToEmit

variable {e : Encoder} (h : e.ReadyToEmit)
include h

theorem emitFields_bits : fieldBits e.emitFields =
    fieldBits (tableSectionFields e.inUse e.nGroups.toNat e.selectors
      ((List.range e.nGroups.toNat).map e.lengths)) ++
    bodyBits ((List.range e.nGroups.toNat).map e.lengths) e.selectors e.symbols := by
  have hcount := h.selectors_length_eq
  have hbody := fieldBits_bodyFields
    (fun t ht v hv => h.codeField_bits (h.selectors_lt t ht) hv) e.symbols.length 0 e.symbols
    (Nat.le_refl _) (by omega) h.symbols_lt
  rw [e.emitFields_eq, fieldBits_append, bodyBits_eq_bodyBitsFrom]
  exact congrArg _ hbody

/-- The last field written is the code of the last symbol. -/
theorem emitFields_eq_append_last : ∃ first code, e.emitFields = first ++
    [((e.lengths (e.selectors.getLastD 0)).getD (e.symbols.getLastD 0) 0, code)] := by
  obtain ⟨first, code, hbody⟩ := bodyFields_eq_append_last
    ((List.range e.nGroups.toNat).map e.lengths)
    (e.eCode.readRows Config.symbolRow e.nGroups.toNat e.alphabet) e.symbols.length e.symbols
    e.selectors h.symbols_ne_nil (Nat.le_refl _) h.selectors_length_eq
  have hlast := h.selectors_lt _ (getLastD_mem h.selectors_ne_nil)
  rw [getD_lengths hlast] at hbody
  rw [e.emitFields_eq, hbody, ← List.append_assoc]
  exact ⟨_, code, rfl⟩

/-- Everything is appended to the BitSink, the last symbol's code last. -/
theorem writeAll_emitFields {k : BitSink} (hk : k.Tidy) : k.Appended (k.writeAll e.emitFields)
    (fieldBits (tableSectionFields e.inUse e.nGroups.toNat e.selectors
        ((List.range e.nGroups.toNat).map e.lengths)) ++
      bodyBits ((List.range e.nGroups.toNat).map e.lengths) e.selectors e.symbols)
    ((e.lengths (e.selectors.getLastD 0)).getD (e.symbols.getLastD 0) 0) := by
  obtain ⟨first, code, hfields⟩ := h.emitFields_eq_append_last
  have hwidth := Encoder.emitFields_width h.lengthsLegal h.coded
  rw [← h.emitFields_bits]
  rw [hfields] at hwidth ⊢
  exact BitSink.writeAll_appended _ first hwidth hk

/-- A selector MTF value is a position in the list of tables. -/
theorem selectorMtf_lt : ∀ j ∈ selectorMtf (List.range e.nGroups.toNat) e.selectors, j < 2 ^ 3 := by
  intro j hj
  have hlt := Machine.selectorMtf_lt e.selectors
    (fun t ht => List.mem_range.mpr (h.selectors_lt t ht)) j hj
  have := h.nGroups_le
  rw [List.length_range] at hlt
  omega

end Encoder.ReadyToEmit

/-! ## The command -/

/-- `SELMTF` after `ENC_EMIT`. -/
def Encoder.emittedSelMtf (e : Encoder) : Mem 3 :=
  e.selMtf.writeNats 0 (selectorMtf (List.range e.nGroups.toNat) e.selectors)

theorem exec_encEmit {s : State} (herr : s.err = 0) (hlast : s.enc.last ≠ 0xFFFFFFFF)
    (hs : s.enc.estate = .coded) (hopen : s.sink.done = false) :
    exec .encEmit s = .next { s with
      sink := s.sink.writeAll s.enc.emitFields
      enc := { s.enc with selMtf := s.enc.emittedSelMtf }.resetBlock }.countCommand := by
  refine exec_done nofun herr ((unlessNoBlock_block (noBlock_eq_false hlast)).trans ?_)
  rw [encEmit, if_neg (not_not.mpr hs), sinkCommand_open hopen]
  rfl

/-- Settles O37: the fields written are those of the table section and the code of each symbol, and
the selectors' MTF values fit `SELMTF`. -/
theorem encEmitWritesBlockBody : Obligations.EncEmitWritesBlockBody := by
  unfold Obligations.EncEmitWritesBlockBody
  intro s herr hinv hlegal hs hopen
  have hne : s.enc.estate ≠ .empty := by rw [hs]; nofun
  have h : s.enc.ReadyToEmit := ⟨hinv.holdsBlock hlegal hne, hlegal, hs, hinv.lengthsLegal⟩
  have hlen := selectorMtf_length s.enc.selectors (List.range s.enc.nGroups.toNat)
  rw [s.enc.selectors_length] at hlen
  refine ⟨_, s.enc.emittedSelMtf, exec_encEmit herr (hinv.last_ne hne) hs hopen,
    h.writeAll_emitFields hinv.sinkTidy, fun i hi => ?_, fun a ha => ?_⟩
  · have hi' := hlen ▸ hi
    rw [List.getD_eq_getElem _ _ hi']
    exact s.enc.selMtf.toNat_read_writeNats h.selectorMtf_lt hi'
  · exact s.enc.selMtf.read_writeNats_outside (hlen.trans_le ha)

end Sys2Proof.Machine
end

section
/-! PROOF. Training (45_huffman_encode.md rules R91 and R92): the initial tables and a training
pass: O31 and O32. -/

namespace Sys2Proof.Machine

/-! ## The alphabet shared out (rule R91) -/

/-- How often the symbols below `e` occur. -/
def freqBelow (freq : List Nat) (e : Nat) : Nat := (freq.take e).sum

theorem freqBelow_succ (freq : List Nat) (e : Nat) :
    freqBelow freq (e + 1) = freqBelow freq e + freq.getD e 0 := by
  rw [freqBelow, freqBelow, List.take_add_one, List.sum_append, List.getD_eq_getElem?_getD]
  cases freq[e]? with
  | none => rfl
  | some f => simp

theorem freqBelow_mono (freq : List Nat) : Monotone (freqBelow freq) :=
  monotone_nat_of_le_succ fun e => by rw [freqBelow_succ]; omega

theorem freqBelow_length (freq : List Nat) : freqBelow freq freq.length = freq.sum := by
  rw [freqBelow, List.take_length]

theorem freqBelow_le_sum (freq : List Nat) {e : Nat} (he : e ≤ freq.length) :
    freqBelow freq e ≤ freq.sum := (freqBelow_mono freq he).trans_eq (freqBelow_length freq)

/-- The last symbol occurs, so it is needed to reach the whole count. -/
theorem freqBelow_lt_sum {freq : List Nat} (hlast : 1 ≤ freq.getLastD 0) {e : Nat}
    (he : e < freq.length) : freqBelow freq e < freq.sum := by
  obtain ⟨first, last, rfl⟩ : ∃ first last, freq = first ++ [last] :=
    ⟨_, _, (List.dropLast_concat_getLast (List.ne_nil_of_length_pos (by omega))).symm⟩
  rw [List.length_append, List.length_singleton] at he
  have hfirst := freqBelow_mono (first ++ [last]) (Nat.le_of_lt_succ he)
  have hsum : freqBelow (first ++ [last]) first.length = first.sum := by
    rw [freqBelow, List.take_left]
  rw [List.getLastD_concat] at hlast
  rw [List.sum_append, List.sum_singleton]
  omega

/-- The inner loop takes symbols in order and sums their counts; it ends at the target or at the end
of the alphabet. -/
theorem seedRange_spec (freq : List Nat) (tFreq fuel : Nat) : ∀ e aFreq, e ≤ freq.length →
    freq.length ≤ e + fuel → ∃ q, e ≤ q ∧ q ≤ freq.length ∧ (q = freq.length ∨
      tFreq + freqBelow freq e ≤ aFreq + freqBelow freq q) ∧
      seedRange freq freq.length tFreq fuel e aFreq =
        (q, aFreq + (freqBelow freq q - freqBelow freq e)) := by
  induction fuel with
  | zero =>
    intro e aFreq he hfuel
    exact ⟨e, Nat.le_refl e, he, .inl (by omega), by rw [seedRange, Nat.sub_self]; rfl⟩
  | succ fuel ih =>
    intro e aFreq he hfuel
    rw [seedRange]
    by_cases hmore : aFreq < tFreq ∧ e < freq.length
    · obtain ⟨q, hlow, hhigh, hend, hrange⟩ :=
        ih (e + 1) (aFreq + freq.getD e 0) hmore.2 (by omega)
      have hmono := freqBelow_mono freq hlow
      rw [freqBelow_succ] at hend hmono
      refine ⟨q, by omega, hhigh, by omega, ?_⟩
      rw [if_pos hmore, hrange, freqBelow_succ]
      congr 1
      omega
    · refine ⟨e, Nat.le_refl e, he, by omega, ?_⟩
      rw [if_neg hmore, Nat.sub_self]
      rfl

/-- The table that favours the symbols from `lo` to below `hi`. -/
def favouring (a lo hi : Nat) : List Nat :=
  (List.range a).map fun v => if lo ≤ v ∧ v < hi then Config.lesser else Config.greater

theorem favouring_length (a lo hi : Nat) : (favouring a lo hi).length = a := by
  rw [favouring, List.length_map, List.length_range]

theorem favouring_lengths (a lo hi : Nat) : ∀ l ∈ favouring a lo hi, l = 0 ∨ l = 15 := by
  intro l hl
  obtain ⟨v, -, rfl⟩ := List.mem_map.mp hl
  split
  · exact .inl rfl
  · exact .inr rfl

theorem favouring_getD_eq_zero_iff {a lo hi v : Nat} (hv : v < a) :
    (favouring a lo hi).getD v 15 = 0 ↔ lo ≤ v ∧ v < hi := by
  have hv' := (favouring_length a lo hi).symm ▸ hv
  have hget : (favouring a lo hi)[v] =
      if lo ≤ v ∧ v < hi then Config.lesser else Config.greater := by
    simp only [favouring, List.getElem_map, List.getElem_range]
  rw [List.getD_eq_getElem _ _ hv', hget]
  split
  · next h => exact iff_of_true rfl h
  · next h => exact iff_of_false (by decide) h

/-- One round of the outer loop: a table favours the symbols from `gs` to below some `e`, where the
next round goes on; the last round takes all that are left. -/
theorem seedTables_succ {freq : List Nat} (hlast : 1 ≤ freq.getLastD 0) (nG nPart : Nat) {gs : Nat}
    (hgs : gs ≤ freq.length) : ∃ e, gs ≤ e ∧ e ≤ freq.length ∧ (nPart = 0 → e = freq.length) ∧
      seedTables freq freq.length nG (nPart + 1) (freq.sum - freqBelow freq gs) gs =
        favouring freq.length gs e ::
          seedTables freq freq.length nG nPart (freq.sum - freqBelow freq e) e := by
  obtain ⟨q, hlow, hhigh, hend, hrange⟩ := seedRange_spec freq
    ((freq.sum - freqBelow freq gs) / (nPart + 1)) freq.length gs 0 hgs (by omega)
  have hmono := freqBelow_mono freq hlow
  have hgsSum := freqBelow_le_sum freq hgs
  rw [seedTables, hrange]
  simp only [Nat.zero_add]
  by_cases hback : gs + 1 < q ∧ nPart + 1 ≠ nG ∧ nPart + 1 ≠ 1 ∧ (nG - (nPart + 1)) % 2 = 1
  · obtain ⟨hlong, -, hmore, -⟩ := id hback
    have hprev := freqBelow_succ freq (q - 1)
    have hprevMono := freqBelow_mono freq (show gs ≤ q - 1 by omega)
    rw [Nat.sub_add_cancel (by omega)] at hprev
    refine ⟨q - 1, by omega, by omega, by omega, ?_⟩
    rw [if_pos hback, if_pos hback]
    refine congrArg₂ _ rfl (congrArg₂ _ ?_ rfl)
    omega
  · refine ⟨q, hlow, hhigh, ?_, ?_⟩
    · rintro rfl
      by_contra hne
      have := freqBelow_lt_sum hlast (lt_of_le_of_ne hhigh hne)
      rw [Nat.zero_add, Nat.div_one] at hend
      omega
    · rw [if_neg hback, if_neg hback]
      refine congrArg₂ _ rfl (congrArg₂ _ ?_ rfl)
      omega

/-- The tables favour consecutive ranges, which share out the symbols from `gs` on. -/
theorem seedTables_spec {freq : List Nat} (hlast : 1 ≤ freq.getLastD 0) (nG nPart : Nat) :
    ∀ gs ≤ freq.length, (nPart = 0 → gs = freq.length) →
      (∀ row ∈ seedTables freq freq.length nG nPart (freq.sum - freqBelow freq gs) gs,
        ∃ lo hi, row = favouring freq.length lo hi) ∧
      ∀ v < freq.length,
        ((seedTables freq freq.length nG nPart (freq.sum - freqBelow freq gs) gs).countP
          fun row => decide (row.getD v 15 = 0)) = if gs ≤ v then 1 else 0 := by
  induction nPart with
  | zero =>
    intro gs _ hgs
    refine ⟨nofun, fun v hv => ?_⟩
    rw [if_neg (by have := hgs rfl; omega)]
    rfl
  | succ nPart ih =>
    intro gs hgs _
    obtain ⟨e, hlow, hhigh, hend, htables⟩ := seedTables_succ hlast nG nPart hgs
    obtain ⟨hrows, hcount⟩ := ih e hhigh hend
    rw [htables]
    refine ⟨List.forall_mem_cons.mpr ⟨⟨gs, e, rfl⟩, hrows⟩, fun v hv => ?_⟩
    simp only [List.countP_cons, hcount v hv, decide_eq_true_eq, favouring_getD_eq_zero_iff hv]
    split_ifs <;> omega

/-- Settles O31: the tables favour ranges of symbols, one beginning where the one before ends and
the last ending with the alphabet. -/
theorem seedTablesShareOutTheAlphabet : Obligations.SeedTablesShareOutTheAlphabet := by
  unfold Obligations.SeedTablesShareOutTheAlphabet
  intro freq nG hnG _ _ hlast
  obtain ⟨hrows, hcount⟩ := seedTables_spec hlast nG nG 0 (Nat.zero_le _) (by omega)
  rw [show freq.sum - freqBelow freq 0 = freq.sum from rfl] at hrows hcount
  refine ⟨seedTables_length _ _ _ _ _ _, fun row hrow => ?_, fun v hv => hcount v hv⟩
  obtain ⟨lo, hi, rfl⟩ := hrows row hrow
  refine ⟨favouring_length _ _ _, favouring_lengths _ _ _, fun u v w huv hvw hw hu hw0 => ?_⟩
  rw [favouring_getD_eq_zero_iff (by omega)] at hu hw0 ⊢
  omega

/-! ## A training pass (rule R92) -/

/-- The table chosen for a group is the first of least cost. -/
theorem cheapest_spec {tables : List (List Nat)} (hne : tables ≠ []) (group : List Nat) :
    (∀ t < tables.length, groupCost group (tables.getD (cheapest tables group) []) ≤
      groupCost group (tables.getD t [])) ∧
    ∀ t < cheapest tables group, groupCost group (tables.getD (cheapest tables group) []) <
      groupCost group (tables.getD t []) := by
  have hchosen := cheapest_lt hne group
  have hcosts : tables.map (groupCost group) ≠ [] := by simpa using hne
  have hcost {t : Nat} (ht : t < tables.length) : groupCost group (tables.getD t []) =
      (tables.map (groupCost group))[t]'(by rwa [List.length_map]) := by
    rw [List.getD_eq_getElem _ _ ht, List.getElem_map]
  have hleast : groupCost group (tables.getD (cheapest tables group) []) =
      leastOf (tables.map (groupCost group)) :=
    (hcost hchosen).trans (List.getElem_idxOf (List.idxOf_lt_length_of_mem (leastOf_mem hcosts)))
  have hle : ∀ t < tables.length, groupCost group (tables.getD (cheapest tables group) []) ≤
      groupCost group (tables.getD t []) := by
    intro t ht
    rw [hleast, hcost ht]
    exact leastOf_le (List.getElem_mem _)
  refine ⟨hle, fun t ht => lt_of_le_of_ne (hle t (ht.trans hchosen)) ?_⟩
  rw [hleast, hcost (ht.trans hchosen)]
  intro heq
  have hfirst := List.not_of_lt_findIdx (p := (· == leastOf (tables.map (groupCost group)))) ht
  rw [← heq, beq_self_eq_true] at hfirst
  exact absurd hfirst (by decide)

theorem trainingPass_selectors_getD (a : Nat) (groups tables : List (List Nat)) {g : Nat}
    (hg : g < groups.length) :
    (trainingPass a groups tables).1.getD g 0 = cheapest tables (groups.getD g []) := by
  rw [List.getD_eq_getElem _ _ hg, trainingPass, List.getD_eq_getElem _ _ (by simpa using hg),
    List.getElem_map]

/-- Sums over the elements that satisfy a condition, position by position. -/
theorem sum_map_filter_eq_sum_range {α : Type} (l : List α) (d : α) (p : α → Prop) [DecidablePred p]
    (f : α → Nat) : ((l.filter fun x => decide (p x)).map f).sum =
      ((List.range l.length).map fun i => if p (l.getD i d) then f (l.getD i d) else 0).sum := by
  have hsum : ((l.filter fun x => decide (p x)).map f).sum =
      (l.map fun x => if p x then f x else 0).sum := by
    induction l with
    | nil => rfl
    | cons x l ih =>
      rw [List.map_cons, List.sum_cons, ← ih]
      by_cases hx : p x
      · rw [List.filter_cons_of_pos (by simpa using hx), if_pos hx, List.map_cons, List.sum_cons]
      · rw [List.filter_cons_of_neg (by simpa using hx), if_neg hx, Nat.zero_add]
  have hrange : l = (List.range l.length).map fun i => l.getD i d :=
    List.ext_getElem (by simp) fun i hi _ => by simp [hi]
  rw [hsum]
  conv_lhs => rw [hrange]
  rw [List.map_map]
  rfl

/-- The counts of the symbols over the groups that chose a table. -/
theorem chosenFreq_map (a t : Nat) (groups : List (List Nat)) (choose : List Nat → Nat) :
    chosenFreq a t groups (groups.map choose) = (List.range a).map fun v =>
      ((List.range groups.length).map fun g =>
        if choose (groups.getD g []) = t then (groups.getD g []).count v else 0).sum := by
  have hzip : groups.zip (groups.map choose) = groups.map fun g => (g, choose g) := by
    conv_lhs => enter [1]; rw [← List.map_id groups]
    exact List.zip_map'
  have hchosen : ((groups.zip (groups.map choose)).filter fun p => decide (p.2 = t)).map Prod.fst =
      groups.filter fun g => decide (choose g = t) := by
    rw [hzip, List.filter_map, List.map_map]
    exact List.map_id _
  rw [chosenFreq, hchosen]
  exact List.map_congr_left fun v _ =>
    sum_map_filter_eq_sum_range groups [] (fun g => choose g = t) fun g => g.count v

/-- Settles O32: the selectors are the cheapest tables of the groups, and the counts of a table's
groups, taken group by group, are the frequencies it is made again from. -/
theorem trainingPassPicksCheapest : Obligations.TrainingPassPicksCheapest := by
  unfold Obligations.TrainingPassPicksCheapest
  intro a groups tables hne
  refine ⟨List.length_map _, fun g hg => ?_, trainingPass_tables_length a groups tables,
    fun t ht => ?_⟩
  · rw [trainingPass_selectors_getD a groups tables hg]
    obtain ⟨hle, hfirst⟩ := cheapest_spec hne (groups.getD g [])
    exact ⟨cheapest_lt hne _, hle, hfirst⟩
  · have hselectors : ∀ v, ((List.range groups.length).map fun g =>
        if (trainingPass a groups tables).1.getD g 0 = t then (groups.getD g []).count v else 0) =
        (List.range groups.length).map fun g =>
          if cheapest tables (groups.getD g []) = t then (groups.getD g []).count v else 0 :=
      fun v => List.map_congr_left fun g hg => by
        rw [trainingPass_selectors_getD a groups tables (List.mem_range.mp hg)]
    simp only [hselectors]
    rw [← chosenFreq_map, trainingPass, List.getD_eq_getElem _ _ (by simpa using ht),
      List.getElem_map, List.getElem_range]
    rfl

end Sys2Proof.Machine
end

section
/-! PROOF. Length construction (45_huffman_encode.md rule R93), part 1: the heap. `UpHeap` and
`DownHeap` keep the nodes in it and restore its order, so `popTop` takes out a lightest node and
`push` puts one in. -/

namespace Sys2Proof.Machine

/-! ## Heap order on positions -/

/-- The positions 1..`n` in heap order: no key is below the one at half its position. -/
def HeapOrdered (key : Nat → Nat) (n : Nat) : Prop :=
  ∀ i, 2 ≤ i → i ≤ n → key (i / 2) ≤ key i

theorem HeapOrdered.top_le {key : Nat → Nat} {n : Nat} (h : HeapOrdered key n) (i : Nat) :
    1 ≤ i → i ≤ n → key 1 ≤ key i := by
  induction i using Nat.strongRecOn with
  | ind i ih =>
    intro hlow hhigh
    rcases hlow.lt_or_eq with hlt | rfl
    · exact (ih (i / 2) (by omega) (by omega) (by omega)).trans (h i hlt hhigh)
    · exact Nat.le_refl _

theorem HeapOrdered.congr {key key' : Nat → Nat} {n : Nat} (h : HeapOrdered key n)
    (hkey : ∀ i, 1 ≤ i → i ≤ n → key' i = key i) : HeapOrdered key' n := by
  intro i hlow hhigh
  rw [hkey i (by omega) hhigh, hkey (i / 2) (by omega) (by omega)]
  exact h i hlow hhigh

/-- Heap order but for position `z`, whose key may be too small for its place. -/
structure RisesFrom (key : Nat → Nat) (n z : Nat) : Prop where
  others : ∀ i, 2 ≤ i → i ≤ n → i ≠ z → key (i / 2) ≤ key i
  around : ∀ i, i ≤ n → i / 2 = z → 2 ≤ z → key (z / 2) ≤ key i

/-- Heap order but for position `z`, whose key may be too large for its place. -/
structure SinksFrom (key : Nat → Nat) (n z : Nat) : Prop where
  others : ∀ i, 2 ≤ i → i ≤ n → i / 2 ≠ z → key (i / 2) ≤ key i
  around : ∀ i, i ≤ n → i / 2 = z → 2 ≤ z → key (z / 2) ≤ key i

/-- The keys with those of positions `z` and `y` exchanged. -/
structure KeysSwapped (key key' : Nat → Nat) (z y : Nat) : Prop where
  left : key' z = key y
  right : key' y = key z
  others : ∀ i, i ≠ z → i ≠ y → key' i = key i

section
variable {key key' : Nat → Nat} {n z : Nat}

theorem RisesFrom.ordered (h : RisesFrom key n z) (hz : 2 ≤ z → key (z / 2) ≤ key z) :
    HeapOrdered key n := by
  intro i hlow hhigh
  by_cases hi : i = z
  · exact hi ▸ hz (hi ▸ hlow)
  · exact h.others i hlow hhigh hi

/-- A key smaller than its parent's changes places with it. -/
theorem RisesFrom.swap (h : RisesFrom key n z) (hz : 2 ≤ z) (hzn : z ≤ n)
    (hlt : key z < key (z / 2)) (hswap : KeysSwapped key key' z (z / 2)) :
    RisesFrom key' n (z / 2) where
  others i hlow hhigh hi := by
    by_cases hiz : i = z
    · rw [hiz, hswap.left, hswap.right]
      exact hlt.le
    rw [hswap.others i hiz hi]
    have hordered := h.others i hlow hhigh hiz
    by_cases hparent : i / 2 = z
    · rw [hparent, hswap.left]
      exact h.around i hhigh hparent hz
    by_cases hsibling : i / 2 = z / 2
    · rw [hsibling, hswap.right]
      rw [hsibling] at hordered
      exact hlt.le.trans hordered
    rw [hswap.others _ hparent hsibling]
    exact hordered
  around i hhigh hi htop := by
    have hparent := h.others (z / 2) htop (by omega) (by omega)
    rw [hswap.others _ (by omega) (by omega)]
    by_cases hiz : i = z
    · rw [hiz, hswap.left]
      exact hparent
    · have hordered := h.others i (by omega) hhigh hiz
      rw [hswap.others i hiz (by omega)]
      rw [hi] at hordered
      exact hparent.trans hordered

theorem SinksFrom.ordered (h : SinksFrom key n z)
    (hz : ∀ i, 2 ≤ i → i ≤ n → i / 2 = z → key z ≤ key i) : HeapOrdered key n := by
  intro i hlow hhigh
  by_cases hi : i / 2 = z
  · exact hi ▸ hz i hlow hhigh hi
  · exact h.others i hlow hhigh hi

/-- A key not smaller than the least of its children's changes places with it. -/
theorem SinksFrom.swap {y : Nat} (h : SinksFrom key n z) (_hz : 1 ≤ z) (hyn : y ≤ n)
    (hy : y / 2 = z) (hle : key y ≤ key z)
    (hleast : ∀ i, i ≤ n → i / 2 = z → key y ≤ key i) (hswap : KeysSwapped key key' z y) :
    SinksFrom key' n y where
  others i hlow hhigh hi := by
    by_cases hiy : i = y
    · rw [hiy, hy, hswap.left, hswap.right]
      exact hle
    by_cases hiz : i = z
    · rw [hiz, hswap.left, hswap.others _ (by omega) (by omega)]
      exact h.around y hyn hy (hiz ▸ hlow)
    rw [hswap.others i hiz hiy]
    by_cases hparent : i / 2 = z
    · rw [hparent, hswap.left]
      exact hleast i hhigh hparent
    · rw [hswap.others _ hparent hi]
      exact h.others i hlow hhigh hparent
  around i hhigh hi _ := by
    rw [hy, hswap.left, hswap.others i (by omega) (by omega), ← hi]
    exact h.others i (by omega) hhigh (by omega)

end

/-! ## The nodes at the positions -/

/-- The weight of the node at a position of the heap. -/
def keyAt (weight heap : List Nat) (i : Nat) : Nat := weight.getD (heap.getD i 0) 0

section
variable {heap : List Nat} {z y : Nat}

theorem getD_set_self (hz : z < heap.length) (x : Nat) : (heap.set z x).getD z 0 = x := by
  rw [List.getD_eq_getElem?_getD, List.getElem?_set_self hz, Option.getD_some]

theorem getD_set_ne (hzy : z ≠ y) (x : Nat) : (heap.set z x).getD y 0 = heap.getD y 0 := by
  rw [List.getD_eq_getElem?_getD, List.getElem?_set_ne hzy, List.getD_eq_getElem?_getD]

theorem set_getD_self (hz : z < heap.length) : heap.set z (heap.getD z 0) = heap := by
  rw [List.getD_eq_getElem _ _ hz, List.set_getElem_self]

theorem keysSwapped_set (weight : List Nat) (hz : z < heap.length) (hy : y < heap.length)
    (hzy : z ≠ y) (x : Nat) : KeysSwapped (keyAt weight (heap.set z x))
      (keyAt weight ((heap.set z (heap.getD y 0)).set y x)) z y where
  left := by rw [keyAt, keyAt, getD_set_ne hzy.symm, getD_set_self hz, getD_set_ne hzy]
  right := by
    rw [keyAt, keyAt, getD_set_self (by rwa [List.length_set]), getD_set_self hz]
  others i hiz hiy := by
    rw [keyAt, keyAt, getD_set_ne (Ne.symm hiy), getD_set_ne (Ne.symm hiz),
      getD_set_ne (Ne.symm hiz)]

/-- The same nodes at the positions 1..`n` in another order, and everything else in its place. -/
structure Rearranged (n : Nat) (heap heap' : List Nat) : Prop where
  perm : heap'.Perm heap
  front : heap'.take 1 = heap.take 1
  back : heap'.drop (n + 1) = heap.drop (n + 1)

theorem Rearranged.refl (n : Nat) (heap : List Nat) : Rearranged n heap heap :=
  ⟨.refl _, rfl, rfl⟩

theorem Rearranged.trans {n : Nat} {h₁ h₂ h₃ : List Nat} (h : Rearranged n h₁ h₂)
    (h' : Rearranged n h₂ h₃) : Rearranged n h₁ h₃ :=
  ⟨h'.perm.trans h.perm, h'.front.trans h.front, h'.back.trans h.back⟩

theorem Rearranged.live_perm {n : Nat} {heap heap' : List Nat} (h : Rearranged n heap heap') :
    ((heap'.drop 1).take n).Perm ((heap.drop 1).take n) := by
  have split (l : List Nat) : l.take 1 ++ ((l.drop 1).take n ++ l.drop (n + 1)) = l := by
    rw [Nat.add_comm n 1, ← List.drop_drop, List.take_append_drop, List.take_append_drop]
  have hperm := h.perm
  rw [← split heap, ← split heap', h.front, h.back, List.perm_append_left_iff,
    List.perm_append_right_iff] at hperm
  exact hperm

/-- A node moves into the hole at `z` and leaves a hole at `y`. -/
theorem rearranged_set {n : Nat} (hz : 1 ≤ z ∧ z ≤ n) (hy : 1 ≤ y ∧ y ≤ n) (hn : n < heap.length)
    (hzy : z ≠ y) (x : Nat) :
    Rearranged n (heap.set z x) ((heap.set z (heap.getD y 0)).set y x) where
  perm := by
    have hlen : (heap.set z x).length = heap.length := List.length_set
    have := List.set_set_perm (as := heap.set z x) (i := z) (j := y) (by omega) (by omega)
    rwa [List.getElem_set_self, List.getElem_set_ne hzy, List.set_set,
      ← List.getD_eq_getElem heap 0 (by omega)] at this
  front := by
    rw [List.take_set_of_le hy.1, List.take_set_of_le hz.1, List.take_set_of_le hz.1]
  back := by
    rw [List.drop_set_of_lt (by omega), List.drop_set_of_lt (by omega),
      List.drop_set_of_lt (by omega)]

end

/-! ## `UpHeap` -/

section
variable {weight : List Nat} {n : Nat}

/-- The sentinel at position 0, of weight 0, ends the loop: the node put in at `z` rises to its
place. -/
theorem upHeapLoop_spec (tmp fuel : Nat) : ∀ {z : Nat} {heap : List Nat}, 1 ≤ z → z ≤ n →
    n < heap.length → z ≤ fuel → keyAt weight heap 0 = 0 →
    Rearranged n (heap.set z tmp) (upHeapLoop weight tmp fuel z heap) ∧
      (RisesFrom (keyAt weight (heap.set z tmp)) n z →
        HeapOrdered (keyAt weight (upHeapLoop weight tmp fuel z heap)) n) := by
  induction fuel with
  | zero => intro z heap hz _ _ hfuel; omega
  | succ fuel ih =>
    intro z heap hz hzn hn hfuel hsentinel
    have hkey : keyAt weight (heap.set z tmp) z = weight.getD tmp 0 := by
      rw [keyAt, getD_set_self (by omega)]
    have hparent : keyAt weight (heap.set z tmp) (z / 2) = keyAt weight heap (z / 2) := by
      rw [keyAt, getD_set_ne (by omega), keyAt]
    rw [upHeapLoop]
    by_cases hlt : weight.getD tmp 0 < weight.getD (heap.getD (z / 2) 0) 0
    · have htwo : 2 ≤ z := by
        by_contra hone
        rw [show z / 2 = 0 by omega] at hlt
        exact Nat.not_lt_zero _ (hlt.trans_eq hsentinel)
      obtain ⟨hrest, hordered⟩ := ih (z := z / 2) (heap := heap.set z (heap.getD (z / 2) 0))
        (by omega) (by omega) (by rwa [List.length_set]) (by omega)
        (by rwa [keyAt, getD_set_ne (by omega)])
      rw [if_pos hlt]
      refine ⟨(rearranged_set ⟨hz, hzn⟩ (by omega) hn (by omega) tmp).trans hrest,
        fun h => hordered (h.swap htwo hzn ?_ ?_)⟩
      · rw [hkey, hparent]
        exact hlt
      · exact keysSwapped_set weight (by omega) (by omega) (by omega) tmp
    · rw [if_neg hlt]
      refine ⟨.refl _ _, fun h => h.ordered fun _ => ?_⟩
      rw [hkey, hparent]
      exact Nat.le_of_not_lt hlt

/-! ## `DownHeap` -/

/-- The child of position `z` that `DownHeap` compares with: a lightest. -/
def lighterChild (weight heap : List Nat) (n z : Nat) : Nat :=
  if 2 * z < n ∧ weight.getD (heap.getD (2 * z + 1) 0) 0 < weight.getD (heap.getD (2 * z) 0) 0 then
    2 * z + 1
  else 2 * z

theorem lighterChild_spec (heap : List Nat) {z : Nat} (_hz : 1 ≤ z) (hn : 2 * z ≤ n) :
    lighterChild weight heap n z / 2 = z ∧ lighterChild weight heap n z ≤ n ∧
      ∀ i, i ≤ n → i / 2 = z →
        keyAt weight heap (lighterChild weight heap n z) ≤ keyAt weight heap i := by
  have children {i : Nat} (hi : i / 2 = z) : i = 2 * z ∨ i = 2 * z + 1 := by omega
  unfold lighterChild
  split
  · next h =>
    refine ⟨by omega, by omega, fun i _ hi => ?_⟩
    rcases children hi with rfl | rfl
    · exact h.2.le
    · exact Nat.le_refl _
  · next h =>
    refine ⟨by omega, hn, fun i hin hi => ?_⟩
    rcases children hi with rfl | rfl
    · exact Nat.le_refl _
    · exact Nat.le_of_not_lt fun hlt => h ⟨by omega, hlt⟩

theorem downHeapLoop_succ (tmp fuel z : Nat) (heap : List Nat) :
    downHeapLoop weight n tmp (fuel + 1) z heap =
      if n < 2 * z then heap.set z tmp
      else if weight.getD tmp 0 < keyAt weight heap (lighterChild weight heap n z) then
        heap.set z tmp
      else downHeapLoop weight n tmp fuel (lighterChild weight heap n z)
        (heap.set z (heap.getD (lighterChild weight heap n z) 0)) := rfl

/-- The node put in at `z` sinks to its place. -/
theorem downHeapLoop_spec (tmp fuel : Nat) : ∀ {z : Nat} {heap : List Nat}, 1 ≤ z → z ≤ n →
    n < heap.length → n < z + fuel →
    Rearranged n (heap.set z tmp) (downHeapLoop weight n tmp fuel z heap) ∧
      (SinksFrom (keyAt weight (heap.set z tmp)) n z →
        HeapOrdered (keyAt weight (downHeapLoop weight n tmp fuel z heap)) n) := by
  induction fuel with
  | zero => intro z heap _ _ _ hfuel; omega
  | succ fuel ih =>
    intro z heap hz hzn hn hfuel
    rw [downHeapLoop_succ]
    by_cases hleaf : n < 2 * z
    · rw [if_pos hleaf]
      exact ⟨.refl _ _, fun h => h.ordered fun i _ hin hi => by omega⟩
    obtain ⟨hchild, hyn, hleast⟩ :=
      lighterChild_spec (weight := weight) heap hz (Nat.le_of_not_lt hleaf)
    generalize lighterChild weight heap n z = y at hchild hyn hleast
    have hkey : keyAt weight (heap.set z tmp) z = weight.getD tmp 0 := by
      rw [keyAt, getD_set_self (by omega)]
    have hbelow {i : Nat} (hi : i / 2 = z) :
        keyAt weight (heap.set z tmp) i = keyAt weight heap i := by
      rw [keyAt, getD_set_ne (by omega), keyAt]
    rw [if_neg hleaf]
    by_cases hlt : weight.getD tmp 0 < keyAt weight heap y
    · rw [if_pos hlt]
      refine ⟨.refl _ _, fun h => h.ordered fun i _ hin hi => ?_⟩
      rw [hkey, hbelow hi]
      exact hlt.le.trans (hleast i hin hi)
    · obtain ⟨hrest, hordered⟩ := ih (z := y) (heap := heap.set z (heap.getD y 0)) (by omega) hyn
        (by rwa [List.length_set]) (by omega)
      rw [if_neg hlt]
      refine ⟨(rearranged_set ⟨hz, hzn⟩ (by omega) hn (by omega) tmp).trans hrest,
        fun h => hordered (h.swap hz hyn hchild ?_ (fun i hin hi => ?_) ?_)⟩
      · rw [hkey, hbelow hchild]
        exact Nat.le_of_not_lt hlt
      · rw [hbelow hchild, hbelow hi]
        exact hleast i hin hi
      · exact keysSwapped_set weight (by omega) (by omega) (by omega) tmp

end

/-! ## `push` and `popTop` -/

/-- The nodes in the heap. -/
def LengthHeap.live (h : LengthHeap) : List Nat := (h.heap.drop 1).take h.nHeap

/-- The weight of a node. -/
def LengthHeap.weightOf (h : LengthHeap) (k : Nat) : Nat := h.weight.getD k 0

/-- A heap in order with room for the nodes in it and the sentinel 0 at position 0. -/
structure LengthHeap.Sound (h : LengthHeap) : Prop where
  room : h.nHeap < h.heap.length
  sentinel : h.heap.getD 0 0 = 0
  weightless : h.weightOf 0 = 0
  ordered : HeapOrdered (keyAt h.weight h.heap) h.nHeap

theorem getD_zero_of_take_one {l l' : List Nat} (h : l'.take 1 = l.take 1) :
    l'.getD 0 0 = l.getD 0 0 := by
  cases l <;> cases l' <;> simp_all

theorem LengthHeap.live_length {h : LengthHeap} (hroom : h.nHeap < h.heap.length) :
    h.live.length = h.nHeap := by
  rw [live, List.length_take, List.length_drop]
  omega

theorem LengthHeap.getElem?_live (h : LengthHeap) {i : Nat} (hi : i < h.nHeap) :
    h.live[i]? = h.heap[i + 1]? := by
  rw [live, List.getElem?_take_of_lt hi, List.getElem?_drop, Nat.add_comm]

theorem LengthHeap.getD_mem_live {h : LengthHeap} (hroom : h.nHeap < h.heap.length) {i : Nat}
    (hlow : 1 ≤ i) (hhigh : i ≤ h.nHeap) : h.heap.getD i 0 ∈ h.live := by
  have hget := h.getElem?_live (i := i - 1) (by omega)
  rw [Nat.sub_add_cancel hlow] at hget
  rw [List.getD_eq_getElem _ _ (by omega)]
  exact List.mem_of_getElem? (hget.trans (List.getElem?_eq_getElem (by omega)))

theorem LengthHeap.Sound.top_le {h : LengthHeap} (hs : h.Sound) :
    ∀ k ∈ h.live, h.weightOf (h.heap.getD 1 0) ≤ h.weightOf k := by
  intro k hk
  obtain ⟨i, hi, rfl⟩ := List.getElem_of_mem hk
  have hlen := LengthHeap.live_length hs.room
  have hget := h.getElem?_live (i := i) (by omega)
  rw [List.getElem?_eq_getElem hi] at hget
  have := hs.ordered.top_le (i + 1) (by omega) (by omega)
  rwa [keyAt, keyAt, List.getD_eq_getElem?_getD (i := i + 1), ← hget, Option.getD_some] at this

theorem LengthHeap.push_eq (h : LengthHeap) (node : Nat) (hroom : h.nHeap + 1 < h.heap.length) :
    h.push node = { h with
      nHeap := h.nHeap + 1
      heap := upHeapLoop h.weight node (h.nHeap + 1) (h.nHeap + 1)
        (h.heap.set (h.nHeap + 1) node) } := by
  rw [push, upHeap]
  simp only [getD_set_self hroom]

/-- A node put in the heap. -/
theorem LengthHeap.Sound.push {h : LengthHeap} (hs : h.Sound)
    (hroom : h.nHeap + 1 < h.heap.length) (node : Nat) :
    (h.push node).Sound ∧ (h.push node).live.Perm (node :: h.live) ∧
      (h.push node).heap.length = h.heap.length := by
  have hsentinel : keyAt h.weight (h.heap.set (h.nHeap + 1) node) 0 = 0 := by
    rw [keyAt, getD_set_ne (by omega), hs.sentinel]
    exact hs.weightless
  have hspec := upHeapLoop_spec (n := h.nHeap + 1) node (h.nHeap + 1) (by omega) (Nat.le_refl _)
    (by rwa [List.length_set]) (Nat.le_refl _) hsentinel
  rw [List.set_set] at hspec
  obtain ⟨hmoved, hordered⟩ := hspec
  have hold (i : Nat) (hi : i ≤ h.nHeap) :
      keyAt h.weight (h.heap.set (h.nHeap + 1) node) i = keyAt h.weight h.heap i := by
    rw [keyAt, getD_set_ne (by omega), keyAt]
  have hlen := hmoved.perm.length_eq
  rw [List.length_set] at hlen
  rw [h.push_eq node hroom]
  refine ⟨⟨by simp only [hlen]; omega, ?_, hs.weightless, hordered ⟨fun i hlow hhigh hi => ?_,
    fun i hhigh hi _ => by omega⟩⟩, ?_, hlen⟩
  · have hfront := getD_zero_of_take_one hmoved.front
    rw [getD_set_ne (by omega)] at hfront
    exact hfront.trans hs.sentinel
  · rw [hold i (by omega), hold (i / 2) (by omega)]
    exact hs.ordered i hlow (by omega)
  · refine hmoved.live_perm.trans ?_
    have hlast : (h.heap.drop 1)[h.nHeap]? = some (h.heap.getD (h.nHeap + 1) 0) := by
      rw [List.getElem?_drop, Nat.add_comm, List.getD_eq_getElem _ _ hroom,
        List.getElem?_eq_getElem hroom]
    rw [List.drop_set, if_neg (by omega), Nat.add_sub_cancel, List.take_add_one,
      List.getElem?_set_self (by rw [List.length_drop]; omega), List.take_set_of_le (Nat.le_refl _)]
    exact List.perm_append_singleton _ _

theorem LengthHeap.popTop_eq (h : LengthHeap) (hroom : 1 < h.heap.length) :
    h.popTop = { h with
      nHeap := h.nHeap - 1
      heap := downHeapLoop h.weight (h.nHeap - 1) (h.heap.getD h.nHeap 0) (h.nHeap - 1) 1
        (h.heap.set 1 (h.heap.getD h.nHeap 0)) } := by
  rw [popTop, downHeap]
  simp only [getD_set_self hroom]

/-- The only node taken out of the heap. -/
theorem LengthHeap.Sound.popTop_one {h : LengthHeap} (hs : h.Sound) (hone : h.nHeap = 1) :
    h.popTop = { h with nHeap := 0 } := by
  have hroom := hs.room
  rw [h.popTop_eq (by omega), hone, Nat.sub_self, downHeapLoop, List.set_set,
    set_getD_self (by omega)]

/-- The last node put in place of the first. -/
theorem LengthHeap.live_set_one {h : LengthHeap} (hroom : h.nHeap < h.heap.length)
    (htwo : 2 ≤ h.nHeap) : h.live.Perm (h.heap.getD 1 0 ::
      (((h.heap.set 1 (h.heap.getD h.nHeap 0)).drop 1).take (h.nHeap - 1))) := by
  obtain ⟨n, hn⟩ : ∃ n, h.nHeap = n + 2 := ⟨h.nHeap - 2, by omega⟩
  have hfirst : h.heap.drop 1 = h.heap.getD 1 0 :: h.heap.drop 2 := by
    rw [List.getD_eq_getElem _ _ (by omega)]
    exact List.drop_eq_getElem_cons (by omega)
  have hlast : (h.heap.drop 2)[n]? = some (h.heap.getD (n + 2) 0) := by
    rw [List.getElem?_drop, Nat.add_comm, List.getD_eq_getElem _ _ (by omega),
      List.getElem?_eq_getElem]
  rw [live, List.drop_set, if_neg (by omega), hn, hfirst, Nat.sub_self, List.set_cons_zero,
    List.take_succ_cons, List.take_add_one, hlast]
  exact (List.perm_append_singleton _ _).cons _

/-- The top node taken out of the heap. -/
theorem LengthHeap.Sound.popTop {h : LengthHeap} (hs : h.Sound) (hpos : 1 ≤ h.nHeap) :
    h.popTop.Sound ∧ h.live.Perm (h.heap.getD 1 0 :: h.popTop.live) ∧
      h.popTop.heap.length = h.heap.length := by
  have hroom := hs.room
  rcases hpos.eq_or_lt with hone | htwo
  · rw [hs.popTop_one hone.symm]
    refine ⟨⟨by simp only; omega, hs.sentinel, hs.weightless, fun i hlow hhigh => ?_⟩, ?_, rfl⟩
    · exact absurd (hlow.trans hhigh) (Nat.not_succ_le_zero 1)
    · have hget := List.getElem?_eq_getElem (l := h.heap) (i := 1) (by omega)
      rw [LengthHeap.live, LengthHeap.live, ← hone, List.take_one, List.head?_drop, hget,
        List.getD_eq_getElem _ _ (by omega)]
      exact .refl _
  · have hspec := downHeapLoop_spec (weight := h.weight) (n := h.nHeap - 1)
      (h.heap.getD h.nHeap 0) (h.nHeap - 1) (z := 1)
      (heap := h.heap.set 1 (h.heap.getD h.nHeap 0)) (Nat.le_refl _) (by omega)
      (by rw [List.length_set]; omega) (by omega)
    rw [List.set_set] at hspec
    obtain ⟨hmoved, hordered⟩ := hspec
    have hold (i : Nat) (hi : 2 ≤ i) :
        keyAt h.weight (h.heap.set 1 (h.heap.getD h.nHeap 0)) i = keyAt h.weight h.heap i := by
      rw [keyAt, getD_set_ne (by omega), keyAt]
    have hlen := hmoved.perm.length_eq
    rw [List.length_set] at hlen
    rw [h.popTop_eq (by omega)]
    refine ⟨⟨by simp only [hlen]; omega, ?_, hs.weightless, hordered ⟨fun i hlow hhigh hi => ?_,
      fun i _ _ htwo => absurd htwo (by decide)⟩⟩, ?_, hlen⟩
    · have hfront := getD_zero_of_take_one hmoved.front
      rw [getD_set_ne (by omega)] at hfront
      exact hfront.trans hs.sentinel
    · rw [hold i hlow, hold (i / 2) (by omega)]
      exact hs.ordered i hlow (by omega)
    · exact (LengthHeap.live_set_one hroom htwo).trans (hmoved.live_perm.symm.cons _)

end Sys2Proof.Machine
end

section
/-! PROOF. Length construction (45_huffman_encode.md rule R93), part 2: the merging loop makes a
binary tree over the leaves, the lightest two nodes merged at a time. -/

namespace Sys2Proof.Machine

/-! ## What the heap's operations leave alone -/

@[simp] theorem LengthHeap.popTop_weight (h : LengthHeap) : h.popTop.weight = h.weight := rfl
@[simp] theorem LengthHeap.popTop_parent (h : LengthHeap) : h.popTop.parent = h.parent := rfl
@[simp] theorem LengthHeap.popTop_nNodes (h : LengthHeap) : h.popTop.nNodes = h.nNodes := rfl
@[simp] theorem LengthHeap.popTop_nHeap (h : LengthHeap) : h.popTop.nHeap = h.nHeap - 1 := rfl

@[simp] theorem LengthHeap.popTop_weightOf (h : LengthHeap) (k : Nat) :
    h.popTop.weightOf k = h.weightOf k := rfl

@[simp] theorem LengthHeap.push_weight (h : LengthHeap) (node : Nat) :
    (h.push node).weight = h.weight := rfl
@[simp] theorem LengthHeap.push_parent (h : LengthHeap) (node : Nat) :
    (h.push node).parent = h.parent := rfl
@[simp] theorem LengthHeap.push_nNodes (h : LengthHeap) (node : Nat) :
    (h.push node).nNodes = h.nNodes := rfl
@[simp] theorem LengthHeap.push_nHeap (h : LengthHeap) (node : Nat) :
    (h.push node).nHeap = h.nHeap + 1 := rfl

/-! ## The leaves put on the heap -/

theorem pushLeaves_spec (count : Nat) : ∀ {i : Nat} {h : LengthHeap}, h.Sound →
    h.nHeap + count < h.heap.length →
    (pushLeaves count i h).Sound ∧
      (pushLeaves count i h).live.Perm (h.live ++ List.range' i count) ∧
      (pushLeaves count i h).nHeap = h.nHeap + count ∧
      (pushLeaves count i h).weight = h.weight ∧ (pushLeaves count i h).parent = h.parent ∧
      (pushLeaves count i h).nNodes = h.nNodes := by
  induction count with
  | zero =>
    intro i h hs _
    exact ⟨hs, by rw [List.range'_zero, List.append_nil]; rfl, rfl, rfl, rfl, rfl⟩
  | succ count ih =>
    intro i h hs hroom
    obtain ⟨hsound, hlive, hlen⟩ := hs.push (by omega) i
    obtain ⟨hrest, hperm, hheap, hweight, hparent, hnodes⟩ :=
      ih (i := i + 1) hsound (by rw [LengthHeap.push_nHeap, hlen]; omega)
    refine ⟨hrest, ?_, ?_, hweight, hparent, hnodes⟩
    · rw [List.range'_succ]
      exact hperm.trans ((hlive.append_right _).trans List.perm_middle.symm)
    · rw [pushLeaves, hheap, LengthHeap.push_nHeap]
      omega

theorem LengthHeap.sound_start (leaves : List Nat) : (LengthHeap.start leaves).Sound where
  room := by simp [start]
  sentinel := rfl
  weightless := rfl
  ordered i hlow hhigh := absurd (hlow.trans hhigh) (Nat.not_succ_le_zero 1)

/-- The heap with the leaves on it. -/
def leafHeap (leaves : List Nat) : LengthHeap := pushLeaves leaves.length 1 (.start leaves)

theorem leafHeap_spec (leaves : List Nat) : (leafHeap leaves).Sound ∧
    (leafHeap leaves).live.Perm (List.range' 1 leaves.length) ∧
    (leafHeap leaves).nHeap = leaves.length ∧
    (leafHeap leaves).weight = (LengthHeap.start leaves).weight ∧
    (leafHeap leaves).parent = (LengthHeap.start leaves).parent ∧
    (leafHeap leaves).nNodes = leaves.length := by
  obtain ⟨hs, hperm, hheap, hrest⟩ := pushLeaves_spec leaves.length (i := 1)
    (LengthHeap.sound_start leaves) (by simp [LengthHeap.start])
  exact ⟨hs, hperm, hheap.trans (Nat.zero_add _), hrest⟩

/-! ## One round of the merging loop -/

/-- A heap whose nodes are the roots of the trees made so far. -/
structure LengthHeap.Forest (h : LengthHeap) : Prop where
  sound : h.Sound
  weightRoom : h.nNodes + h.nHeap ≤ h.weight.length
  parentRoom : h.nNodes + h.nHeap ≤ h.parent.length
  nodes : ∀ k ∈ h.live, k ≤ h.nNodes
  roots : ∀ k ∈ h.live, h.parent.getD k (-1) = -1
  nodup : h.live.Nodup

theorem forest_leafHeap (leaves : List Nat) : (leafHeap leaves).Forest := by
  obtain ⟨hs, hperm, hheap, hweight, hparent, hnodes⟩ := leafHeap_spec leaves
  refine ⟨hs, ?_, ?_, fun k hk => ?_, fun k hk => ?_, hperm.nodup_iff.mpr List.nodup_range'⟩
  · rw [hheap, hweight, hnodes]
    simp only [LengthHeap.start, List.length_append, List.length_cons, List.length_replicate]
    omega
  · rw [hheap, hparent, hnodes]
    simp only [LengthHeap.start, List.length_cons, List.length_replicate]
    omega
  · have := List.mem_range'_1.mp (hperm.mem_iff.mp hk)
    omega
  · have := List.mem_range'_1.mp (hperm.mem_iff.mp hk)
    obtain ⟨i, rfl⟩ : ∃ i, k = i + 1 := ⟨k - 1, by omega⟩
    rw [hparent, LengthHeap.start, List.getD_cons_succ]
    exact List.getD_replicate _ (by omega)

/-- The lightest two nodes `n1` and `n2` of a heap and the others. -/
structure LengthHeap.TakesTwo (h : LengthHeap) (n1 n2 : Nat) (rest : List Nat) : Prop where
  live : h.live.Perm (n1 :: n2 :: rest)
  first : ∀ k ∈ n2 :: rest, h.weightOf n1 ≤ h.weightOf k
  second : ∀ k ∈ rest, h.weightOf n2 ≤ h.weightOf k

theorem LengthHeap.Sound.takesTwo {h : LengthHeap} (hs : h.Sound) (htwo : 2 ≤ h.nHeap) :
    h.TakesTwo (h.heap.getD 1 0) (h.popTop.heap.getD 1 0) h.popTop.popTop.live := by
  obtain ⟨hs1, hlive1, -⟩ := hs.popTop (by omega)
  obtain ⟨-, hlive2, -⟩ := hs1.popTop (by rw [popTop_nHeap]; omega)
  have hlive := hlive1.trans (hlive2.cons _)
  refine ⟨hlive, fun k hk => ?_, fun k hk => ?_⟩
  · exact hs.top_le k (hlive.mem_iff.mpr (List.mem_cons_of_mem _ hk))
  · exact hs1.top_le k (hlive2.mem_iff.mpr (List.mem_cons_of_mem _ hk))

/-- What a round of the merging loop does with the two nodes it takes. -/
structure LengthHeap.MergesTo (h h' : LengthHeap) (n1 n2 : Nat) (rest : List Nat) : Prop where
  taken : h.TakesTwo n1 n2 rest
  live : h'.live.Perm (h'.nNodes :: rest)
  count : h'.nHeap + 1 = h.nHeap
  nodes : h'.nNodes = h.nNodes + 1
  parent : h'.parent = ((h.parent.set n1 h'.nNodes).set n2 h'.nNodes).set h'.nNodes (-1)
  weight : h'.weight = h.weight.set h'.nNodes (mergeWeights (h.weightOf n1) (h.weightOf n2))

/-- The weight of a node to come does not show in the order. -/
theorem LengthHeap.Sound.setWeight {h : LengthHeap} (hs : h.Sound) {node : Nat} (hnode : 1 ≤ node)
    (hnew : node ∉ h.live) (w : Nat) (nodes : Nat) (parent : List Int) :
    { h with nNodes := nodes, parent := parent, weight := h.weight.set node w }.Sound where
  room := hs.room
  sentinel := hs.sentinel
  weightless := by
    have := hs.weightless
    rwa [weightOf, getD_set_ne (by omega)]
  ordered := hs.ordered.congr fun i hlow hhigh => by
    have hmem := LengthHeap.getD_mem_live hs.room hlow hhigh
    exact getD_set_ne (show node ≠ h.heap.getD i 0 from fun heq => hnew (heq ▸ hmem)) w

theorem LengthHeap.Forest.mergeTwo {h : LengthHeap} (hf : h.Forest) (htwo : 2 ≤ h.nHeap) :
    h.mergeTwo.Sound ∧
      h.MergesTo h.mergeTwo (h.heap.getD 1 0) (h.popTop.heap.getD 1 0) h.popTop.popTop.live := by
  have htaken := hf.sound.takesTwo htwo
  have hroom := hf.sound.room
  obtain ⟨hs1, -, hlen1⟩ := hf.sound.popTop (by omega)
  obtain ⟨hs2, -, hlen2⟩ := hs1.popTop (by rw [popTop_nHeap]; omega)
  have hnew : h.nNodes + 1 ∉ h.popTop.popTop.live := fun hmem => by
    have := hf.nodes _ (htaken.live.mem_iff.mpr
      (List.mem_cons_of_mem _ (List.mem_cons_of_mem _ hmem)))
    omega
  have hs := hs2.setWeight (by omega) hnew
    (mergeWeights (h.weightOf (h.heap.getD 1 0)) (h.weightOf (h.popTop.heap.getD 1 0)))
    (h.nNodes + 1) (((h.parent.set (h.heap.getD 1 0) (h.nNodes + 1 : Nat)).set
      (h.popTop.heap.getD 1 0) (h.nNodes + 1 : Nat)).set (h.nNodes + 1) (-1))
  obtain ⟨hsound, hlive, -⟩ := hs.push (by simp only [popTop_nHeap, hlen2, hlen1]; omega)
    (h.nNodes + 1)
  refine ⟨hsound, htaken, hlive, ?_, rfl, rfl, rfl⟩
  change h.nHeap - 1 - 1 + 1 + 1 = h.nHeap
  omega

section
variable {h h' : LengthHeap} {n1 n2 : Nat} {rest : List Nat} (hm : h.MergesTo h' n1 n2 rest)
include hm

theorem LengthHeap.MergesTo.weightOf_old {k : Nat} (hk : k ≤ h.nNodes) :
    h'.weightOf k = h.weightOf k := by
  have := hm.nodes
  rw [weightOf, hm.weight, getD_set_ne (by omega), weightOf]

theorem LengthHeap.MergesTo.weightOf_new (hroom : h.nNodes + 1 < h.weight.length) :
    h'.weightOf h'.nNodes = mergeWeights (h.weightOf n1) (h.weightOf n2) := by
  rw [weightOf, hm.weight, getD_set_self (hm.nodes ▸ hroom)]

/-- Only the two nodes taken and the new one change their parents. -/
theorem LengthHeap.MergesTo.parent_other {k : Nat} (h1 : k ≠ n1) (h2 : k ≠ n2)
    (hk : k ≤ h.nNodes) : h'.parent.getD k (-1) = h.parent.getD k (-1) := by
  have := hm.nodes
  rw [hm.parent, List.getD_eq_getElem?_getD, List.getElem?_set_ne (by omega),
    List.getElem?_set_ne h2.symm, List.getElem?_set_ne h1.symm, List.getD_eq_getElem?_getD]

variable (hf : h.Forest)
include hf

theorem LengthHeap.MergesTo.taken_le {k : Nat} (hk : k ∈ n1 :: n2 :: rest) : k ≤ h.nNodes :=
  hf.nodes k (hm.taken.live.mem_iff.mpr hk)

variable (htwo : 2 ≤ h.nHeap)
include htwo

theorem LengthHeap.MergesTo.parent_taken :
    h'.parent.getD n1 (-1) = h'.nNodes ∧ h'.parent.getD n2 (-1) = h'.nNodes := by
  have hle1 := hm.taken_le hf (k := n1) (by simp)
  have hle2 := hm.taken_le hf (k := n2) (by simp)
  have hroom := hf.parentRoom
  have hnodes := hm.nodes
  constructor
  · rw [hm.parent, List.getD_eq_getElem?_getD, List.getElem?_set_ne (by omega)]
    by_cases heq : n2 = n1
    · rw [heq, List.getElem?_set_self (by rw [List.length_set]; omega), Option.getD_some]
    · rw [List.getElem?_set_ne heq, List.getElem?_set_self (by omega), Option.getD_some]
  · rw [hm.parent, List.getD_eq_getElem?_getD, List.getElem?_set_ne (by omega),
      List.getElem?_set_self (by rw [List.length_set]; omega), Option.getD_some]

theorem LengthHeap.MergesTo.forest (hs : h'.Sound) : h'.Forest := by
  have hnodes := hm.nodes
  have hcount := hm.count
  have hweight := hf.weightRoom
  have hparent := hf.parentRoom
  have hnodup := hm.taken.live.nodup_iff.mp hf.nodup
  obtain ⟨hn1, hn2⟩ := List.nodup_cons.mp hnodup
  obtain ⟨hn2, hrest⟩ := List.nodup_cons.mp hn2
  have hold {k : Nat} (hk : k ∈ rest) : k ≤ h.nNodes := hm.taken_le hf (by simp [hk])
  refine ⟨hs, ?_, ?_, fun k hk => ?_, fun k hk => ?_, hm.live.nodup_iff.mpr ?_⟩
  · rw [hm.weight, List.length_set]
    omega
  · rw [hm.parent, List.length_set, List.length_set, List.length_set]
    omega
  · rcases List.mem_cons.mp (hm.live.mem_iff.mp hk) with rfl | hk
    · exact Nat.le_refl _
    · have := hold hk
      omega
  · rcases List.mem_cons.mp (hm.live.mem_iff.mp hk) with rfl | hk
    · rw [hm.parent, List.getD_eq_getElem?_getD,
        List.getElem?_set_self (by rw [List.length_set, List.length_set]; omega), Option.getD_some]
    · rw [hm.parent_other (fun heq => hn1 (by simp [← heq, hk])) (fun heq => hn2 (heq ▸ hk))
        (hold hk)]
      exact hf.roots k (hm.taken.live.mem_iff.mpr (by simp [hk]))
  · refine List.nodup_cons.mpr ⟨fun hk => ?_, hrest⟩
    have := hold hk
    omega

end

/-! ## The merging loop -/

theorem mergeAll_succ {fuel : Nat} {h : LengthHeap} (htwo : 2 ≤ h.nHeap) :
    mergeAll (fuel + 1) h = mergeAll fuel h.mergeTwo := if_pos htwo

theorem mergeAll_one (fuel : Nat) {h : LengthHeap} (hone : h.nHeap ≤ 1) : mergeAll fuel h = h := by
  cases fuel with
  | zero => rfl
  | succ fuel => exact if_neg (by omega)

/-- The merging loop keeps the weights of the nodes there are, and the parents of those that are no
roots. -/
theorem mergeAll_keeps (fuel : Nat) : ∀ {h : LengthHeap}, h.Forest → ∀ k ≤ h.nNodes,
    (mergeAll fuel h).weightOf k = h.weightOf k ∧
      (k ∉ h.live → (mergeAll fuel h).parent.getD k (-1) = h.parent.getD k (-1)) := by
  induction fuel with
  | zero => exact fun _ _ _ => ⟨rfl, fun _ => rfl⟩
  | succ fuel ih =>
    intro h hf k hk
    rcases Nat.lt_or_ge 1 h.nHeap with htwo | hone
    · obtain ⟨hs, hm⟩ := hf.mergeTwo htwo
      have hnodes := hm.nodes
      obtain ⟨hweight, hparent⟩ := ih (hm.forest hf htwo hs) k (by omega)
      rw [mergeAll_succ htwo]
      refine ⟨hweight.trans (hm.weightOf_old hk), fun hnot => ?_⟩
      rw [hm.taken.live.mem_iff, List.mem_cons, List.mem_cons, not_or, not_or] at hnot
      obtain ⟨hn1, hn2, hrest⟩ := hnot
      refine (hparent ?_).trans (hm.parent_other hn1 hn2 hk)
      rw [hm.live.mem_iff, List.mem_cons, not_or]
      exact ⟨by omega, hrest⟩
    · rw [mergeAll_one _ hone]
      exact ⟨rfl, fun _ => rfl⟩

/-- How the nodes of a list come together in one tree: two lightest nodes of the list have a common
parent, which stands for them in the rest of the tree. -/
inductive Merges (weight : List Nat) (parent : List Int) : List Nat → Prop
  | root {k : Nat} (hroot : parent.getD k (-1) = -1) : Merges weight parent [k]
  | merge {l rest : List Nat} {n1 n2 node : Nat} (hl : l.Perm (n1 :: n2 :: rest))
      (hparent : parent.getD n1 (-1) = node ∧ parent.getD n2 (-1) = node)
      (hweight : weight.getD node 0 = mergeWeights (weight.getD n1 0) (weight.getD n2 0))
      (hfirst : ∀ k ∈ n2 :: rest, weight.getD n1 0 ≤ weight.getD k 0)
      (hsecond : ∀ k ∈ rest, weight.getD n2 0 ≤ weight.getD k 0)
      (tail : Merges weight parent (node :: rest)) : Merges weight parent l

theorem Merges.perm {weight : List Nat} {parent : List Int} {l l' : List Nat}
    (h : Merges weight parent l) (hl' : l'.Perm l) : Merges weight parent l' := by
  cases h with
  | root hroot => exact List.perm_singleton.mp hl' ▸ .root hroot
  | merge hl hparent hweight hfirst hsecond tail =>
    exact .merge (hl'.trans hl) hparent hweight hfirst hsecond tail

/-- A tree over the heap after a round is one over the heap before it. -/
theorem LengthHeap.MergesTo.merges {h h' : LengthHeap} {n1 n2 : Nat} {rest : List Nat}
    (hm : h.MergesTo h' n1 n2 rest) (hf : h.Forest) (htwo : 2 ≤ h.nHeap) (hf' : h'.Forest)
    (fuel : Nat) (tail : Merges (mergeAll fuel h').weight (mergeAll fuel h').parent h'.live) :
    Merges (mergeAll fuel h').weight (mergeAll fuel h').parent h.live := by
  have hnodes := hm.nodes
  have hroom := hf.weightRoom
  have hkeep := mergeAll_keeps fuel hf'
  have hweight {k : Nat} (hk : k ∈ n1 :: n2 :: rest) :
      (mergeAll fuel h').weightOf k = h.weightOf k := by
    have hold := hm.taken_le hf hk
    exact (hkeep k (by omega)).1.trans (hm.weightOf_old hold)
  have hparent {k : Nat} (hk : k ∈ n1 :: n2 :: rest) (hrest : k ∉ rest) :
      (mergeAll fuel h').parent.getD k (-1) = h'.parent.getD k (-1) := by
    have hold := hm.taken_le hf hk
    refine (hkeep k (by omega)).2 ?_
    rw [hm.live.mem_iff, List.mem_cons, not_or]
    exact ⟨by omega, hrest⟩
  have hmem1 : n1 ∈ n1 :: n2 :: rest := List.mem_cons_self
  have hmem2 : n2 ∈ n1 :: n2 :: rest := List.mem_cons_of_mem _ List.mem_cons_self
  obtain ⟨hn1, hnodup⟩ := List.nodup_cons.mp (hm.taken.live.nodup_iff.mp hf.nodup)
  obtain ⟨hn2, -⟩ := List.nodup_cons.mp hnodup
  obtain ⟨hparent1, hparent2⟩ := hm.parent_taken hf htwo
  have hnew := (hkeep h'.nNodes (Nat.le_refl _)).1.trans (hm.weightOf_new (by omega))
  rw [← hweight hmem1, ← hweight hmem2] at hnew
  refine .merge hm.taken.live ⟨?_, ?_⟩ hnew (fun k hk => ?_) (fun k hk => ?_)
    (tail.perm hm.live.symm)
  · exact (hparent hmem1 fun hk => hn1 (List.mem_cons_of_mem _ hk)).trans hparent1
  · exact (hparent hmem2 hn2).trans hparent2
  · have hle := hm.taken.first k hk
    rwa [← hweight hmem1, ← hweight (List.mem_cons_of_mem _ hk)] at hle
  · have hle := hm.taken.second k hk
    rwa [← hweight hmem2, ← hweight (List.mem_cons_of_mem _ (List.mem_cons_of_mem _ hk))] at hle

/-- With a round for each node but one, the merging loop makes a tree of the nodes in the heap. -/
theorem mergeAll_merges (fuel : Nat) : ∀ {h : LengthHeap}, h.Forest → 1 ≤ h.nHeap →
    h.nHeap ≤ fuel + 1 → Merges (mergeAll fuel h).weight (mergeAll fuel h).parent h.live := by
  have single {fuel : Nat} {h : LengthHeap} (hf : h.Forest) (hone : h.nHeap = 1) :
      Merges (mergeAll fuel h).weight (mergeAll fuel h).parent h.live := by
    obtain ⟨k, hk⟩ := List.length_eq_one_iff.mp ((LengthHeap.live_length hf.sound.room).trans hone)
    rw [mergeAll_one _ hone.le, hk]
    exact .root (hf.roots k (by simp [hk]))
  induction fuel with
  | zero => exact fun hf hpos hle => single hf (by omega)
  | succ fuel ih =>
    intro h hf hpos hle
    rcases Nat.lt_or_ge 1 h.nHeap with htwo | hone
    · obtain ⟨hs, hm⟩ := hf.mergeTwo htwo
      have hcount := hm.count
      have hf' := hm.forest hf htwo hs
      rw [mergeAll_succ htwo]
      exact hm.merges hf htwo hf' fuel (ih hf' (by omega) (by omega))
    · exact single hf (by omega)

end Sys2Proof.Machine
end

section
/-! PROOF. Length construction (45_huffman_encode.md rule R93), part 3: the depths of the leaves and
the length limit: O33 and O34. -/

namespace Sys2Proof.Machine

/-! ## Depths -/

/-- Following the parents from node `k` takes `d` steps to the root. -/
def HasDepth (parent : List Int) (k d : Nat) : Prop := ∀ fuel, d ≤ fuel → depthOf parent fuel k = d

theorem hasDepth_root {parent : List Int} {k : Nat} (h : parent.getD k (-1) = -1) :
    HasDepth parent k 0 := by
  intro fuel _
  cases fuel with
  | zero => rfl
  | succ fuel => rw [depthOf, h]; rfl

theorem HasDepth.child {parent : List Int} {k node d : Nat} (h : HasDepth parent node d)
    (hk : parent.getD k (-1) = node) : HasDepth parent k (d + 1) := by
  intro fuel hfuel
  obtain ⟨fuel, rfl⟩ : ∃ n, fuel = n + 1 := ⟨fuel - 1, by omega⟩
  rw [depthOf, hk]
  simp only [Int.natCast_nonneg, if_true, Int.toNat_natCast, h fuel (by omega)]

section
variable {weight : List Nat} {parent : List Int} {l : List Nat} (h : Merges weight parent l)
include h

/-- Each node is less deep than there are nodes, and only the root is at depth 0. -/
theorem Merges.hasDepth : ∀ k ∈ l, ∃ d, HasDepth parent k d ∧ d < l.length ∧
    (2 ≤ l.length → 1 ≤ d) := by
  induction h with
  | root hroot =>
    intro k hk
    rw [List.mem_singleton.mp hk]
    exact ⟨0, hasDepth_root hroot, Nat.one_pos, fun htwo => absurd htwo (by simp)⟩
  | @merge l rest n1 n2 node hl hparent _ _ _ _ ih =>
    obtain ⟨d, hd, hlt, -⟩ := ih node List.mem_cons_self
    have hlen := hl.length_eq
    simp only [List.length_cons] at hlen hlt ih
    intro k hk
    rcases List.mem_cons.mp (hl.mem_iff.mp hk) with rfl | hk
    · exact ⟨d + 1, hd.child hparent.1, by omega, fun _ => by omega⟩
    rcases List.mem_cons.mp hk with rfl | hk
    · exact ⟨d + 1, hd.child hparent.2, by omega, fun _ => by omega⟩
    · obtain ⟨e, he, helt, hpos⟩ := ih k (List.mem_cons_of_mem _ hk)
      have := List.length_pos_of_mem hk
      exact ⟨e, he, by omega, fun _ => hpos (by omega)⟩

theorem Merges.depthOf_lt {fuel k : Nat} (hfuel : l.length ≤ fuel) (hk : k ∈ l) :
    depthOf parent fuel k < l.length ∧ (2 ≤ l.length → 1 ≤ depthOf parent fuel k) := by
  obtain ⟨d, hd, hlt, hpos⟩ := h.hasDepth k hk
  rw [hd fuel (by omega)]
  exact ⟨hlt, hpos⟩

/-- Kraft's equality: each merge stands two nodes at a depth for one at the depth above. -/
theorem Merges.kraft {fuel : Nat} (hfuel : l.length ≤ fuel) (b : Nat) :
    (∀ k ∈ l, depthOf parent fuel k ≤ b) →
      (l.map fun k => 2 ^ (b - depthOf parent fuel k)).sum = 2 ^ b := by
  induction h with
  | root hroot =>
    intro _
    rw [List.map_singleton, List.sum_singleton, hasDepth_root hroot fuel (Nat.zero_le _),
      Nat.sub_zero]
  | @merge l rest n1 n2 node hl hparent _ _ _ tail ih =>
    intro hb
    obtain ⟨d, hd, hlt, -⟩ := tail.hasDepth node List.mem_cons_self
    have hlen := hl.length_eq
    simp only [List.length_cons] at hlen hlt ih
    have hnode := hd fuel (by omega)
    have hn1 := hd.child hparent.1 fuel (by omega)
    have hn2 := hd.child hparent.2 fuel (by omega)
    have hdeep := hb n1 (hl.mem_iff.mpr List.mem_cons_self)
    have hrest := ih (by omega) (List.forall_mem_cons.mpr ⟨by omega, fun k hk =>
      hb k (hl.mem_iff.mpr (List.mem_cons_of_mem _ (List.mem_cons_of_mem _ hk)))⟩)
    rw [List.map_cons, List.sum_cons, hnode, show b - d = b - (d + 1) + 1 by omega,
      pow_succ] at hrest
    rw [(hl.map _).sum_eq, List.map_cons, List.map_cons, List.sum_cons, List.sum_cons, hn1, hn2,
      ← hrest]
    omega

end

/-! ## One construction of the tree -/

/-- The merging loop's result over the leaves. -/
def lengthTree (leaves : List Nat) : LengthHeap := mergeAll leaves.length (leafHeap leaves)

theorem treeDepths_eq_map_range' (leaves : List Nat) : treeDepths leaves =
    (List.range' 1 leaves.length).map (depthOf (lengthTree leaves).parent (2 * leaves.length)) := by
  rw [List.range'_eq_map_range, List.map_map]
  refine List.map_congr_left fun i _ => ?_
  rw [Function.comp_apply, Nat.add_comm 1 i]
  rfl

theorem lengthTree_merges {leaves : List Nat} (hne : 1 ≤ leaves.length) :
    Merges (lengthTree leaves).weight (lengthTree leaves).parent
      (List.range' 1 leaves.length) := by
  obtain ⟨-, hperm, hheap, -⟩ := leafHeap_spec leaves
  exact (mergeAll_merges leaves.length (forest_leafHeap leaves) (by omega) (by omega)).perm
    hperm.symm

/-- A leaf keeps its weight. -/
theorem lengthTree_weightOf {leaves : List Nat} {i : Nat} (hi : i < leaves.length) :
    (lengthTree leaves).weightOf (1 + i) = leaves[i] := by
  obtain ⟨-, -, -, hweight, -, hnodes⟩ := leafHeap_spec leaves
  have hkeep := (mergeAll_keeps leaves.length (forest_leafHeap leaves) (1 + i) (by omega)).1
  refine hkeep.trans ?_
  have hstart : (LengthHeap.start leaves).weight =
      0 :: (leaves ++ List.replicate (leaves.length + 1) 0) := rfl
  rw [LengthHeap.weightOf, hweight, hstart, Nat.add_comm 1 i, List.getD_cons_succ,
    List.getD_append _ _ _ _ hi, List.getD_eq_getElem _ _ hi]

/-- The leaves of a tree with two leaves or more are below its root. -/
theorem treeDepths_range {leaves : List Nat} (htwo : 2 ≤ leaves.length) :
    ∀ d ∈ treeDepths leaves, 1 ≤ d ∧ d < leaves.length := by
  intro d hd
  rw [treeDepths_eq_map_range'] at hd
  obtain ⟨k, hk, rfl⟩ := List.mem_map.mp hd
  have hlen : (List.range' 1 leaves.length).length = leaves.length := List.length_range'
  obtain ⟨hlt, hpos⟩ := (lengthTree_merges (by omega)).depthOf_lt
    (fuel := 2 * leaves.length) (by omega) hk
  rw [hlen] at hlt hpos
  exact ⟨hpos htwo, hlt⟩

/-- The tree is full. -/
theorem treeDepths_kraft {leaves : List Nat} (hne : 1 ≤ leaves.length) {b : Nat}
    (hb : ∀ d ∈ treeDepths leaves, d ≤ b) :
    ((treeDepths leaves).map fun d => 2 ^ (b - d)).sum = 2 ^ b := by
  rw [treeDepths_eq_map_range'] at hb ⊢
  rw [List.map_map]
  refine (lengthTree_merges hne).kraft (by rw [List.length_range']; omega) b fun k hk => ?_
  exact hb _ (List.mem_map_of_mem hk)

/-! ## The lengths returned -/

theorem one_le_limitLengths {maxLen : Nat} (hmax : 1 ≤ maxLen) (fuel : Nat) :
    ∀ leaves : List Nat, 2 ≤ leaves.length → ∀ l ∈ limitLengths maxLen fuel leaves, 1 ≤ l := by
  induction fuel with
  | zero =>
    intro leaves htwo l hl
    obtain ⟨d, hd, rfl⟩ := List.mem_map.mp hl
    exact le_min hmax (treeDepths_range htwo d hd).1
  | succ fuel ih =>
    intro leaves htwo l hl
    rw [limitLengths] at hl
    split at hl
    · exact ih _ (by rwa [List.length_map]) l hl
    · exact (treeDepths_range htwo l hl).1

theorem makeLengths_range {freq : List Nat} (htwo : 2 ≤ freq.length) :
    ∀ l ∈ makeLengths 20 freq, 1 ≤ l ∧ l ≤ 20 := fun l hl =>
  ⟨one_le_limitLengths (by decide) 32 _ (by rwa [List.length_map]) l hl,
    (makeLengths_legal freq).le l hl⟩

/-- Settles O33: the merging loop takes two roots from the heap and puts one in for them, whatever
the weights, so it makes a full binary tree. -/
theorem treeDepthsAreFullTree : Obligations.TreeDepthsAreFullTree := by
  unfold Obligations.TreeDepthsAreFullTree
  intro leaves htwo
  have hrange := treeDepths_range htwo
  exact ⟨treeDepths_length leaves, hrange,
    treeDepths_kraft (by omega) fun d hd => (hrange d hd).2.le,
    (makeLengths_legal leaves).size, makeLengths_range htwo⟩

/-! ## How deep a tree of small weights is -/

/-- The frequency of a weight, its bits [31:8]. -/
def freqOf (w : Nat) : Nat := w / 256

/-- The height of a weight's tree, its bits [7:0]. -/
def heightOf (w : Nat) : Nat := w % 256

/-- While heights fit, they grow by one in a merge and frequencies add. -/
theorem mergeWeights_parts {w1 w2 : Nat} (h1 : heightOf w1 ≤ 13) (h2 : heightOf w2 ≤ 13) :
    freqOf (mergeWeights w1 w2) = freqOf w1 + freqOf w2 ∧
      heightOf (mergeWeights w1 w2) = 1 + max (heightOf w1) (heightOf w2) := by
  unfold freqOf heightOf mergeWeights at *
  omega

/-- The frequencies of the trees under way grow with their heights like Fibonacci numbers: a tree of
height `n` has at least the frequency `fib (n + 1)`, and no tree beside it has less than `fib n`. -/
structure FibWeights (weight : List Nat) (l : List Nat) : Prop where
  own : ∀ k ∈ l, Nat.fib (heightOf (weight.getD k 0) + 1) ≤ freqOf (weight.getD k 0)
  others : ∀ j ∈ l, ∀ k ∈ l, Nat.fib (heightOf (weight.getD j 0)) ≤ freqOf (weight.getD k 0)

section
variable {weight : List Nat} {l : List Nat}

/-- A total frequency below the 15th Fibonacci number, 610, bounds the heights. -/
theorem FibWeights.height_le (h : FibWeights weight l)
    (htotal : (l.map fun k => freqOf (weight.getD k 0)).sum ≤ 516) {k : Nat} (hk : k ∈ l) :
    heightOf (weight.getD k 0) ≤ 13 := by
  have hle : freqOf (weight.getD k 0) ≤ 516 :=
    (List.single_le_sum (fun _ _ => Nat.zero_le _) _ (List.mem_map_of_mem hk)).trans htotal
  have hfib : Nat.fib 15 = 610 := by decide
  by_contra hhigh
  have hmono := Nat.fib_mono (show 15 ≤ heightOf (weight.getD k 0) + 1 by omega)
  have := h.own k hk
  omega

theorem FibWeights.perm (h : FibWeights weight l) {l' : List Nat} (hl : l.Perm l') :
    FibWeights weight l' where
  own k hk := h.own k (hl.mem_iff.mpr hk)
  others j hj k hk := h.others j (hl.mem_iff.mpr hj) k (hl.mem_iff.mpr hk)

/-- Merging the two lightest trees keeps the bound. -/
theorem FibWeights.merge {rest : List Nat} {n1 n2 node : Nat}
    (h : FibWeights weight (n1 :: n2 :: rest))
    (hfreq : freqOf (weight.getD node 0) = freqOf (weight.getD n1 0) + freqOf (weight.getD n2 0))
    (hheight : heightOf (weight.getD node 0) =
      1 + max (heightOf (weight.getD n1 0)) (heightOf (weight.getD n2 0)))
    (hfirst : ∀ k ∈ rest, freqOf (weight.getD n1 0) ≤ freqOf (weight.getD k 0))
    (hsecond : ∀ k ∈ rest, freqOf (weight.getD n2 0) ≤ freqOf (weight.getD k 0)) :
    FibWeights weight (node :: rest) := by
  have hown1 := h.own n1 (by simp)
  have hown2 := h.own n2 (by simp)
  have hother1 := h.others n1 (by simp) n2 (by simp)
  have hother2 := h.others n2 (by simp) n1 (by simp)
  have hheir : Nat.fib (heightOf (weight.getD node 0)) ≤
      max (freqOf (weight.getD n1 0)) (freqOf (weight.getD n2 0)) := by
    rw [hheight, Nat.add_comm 1]
    rcases max_choice (heightOf (weight.getD n1 0)) (heightOf (weight.getD n2 0)) with hmax | hmax
    · rw [hmax]; exact le_max_of_le_left hown1
    · rw [hmax]; exact le_max_of_le_right hown2
  have hself : Nat.fib (heightOf (weight.getD node 0) + 1) ≤ freqOf (weight.getD node 0) := by
    rw [hheight, hfreq, Nat.add_comm 1, Nat.fib_add_two]
    rcases max_choice (heightOf (weight.getD n1 0)) (heightOf (weight.getD n2 0)) with hmax | hmax
    · rw [hmax]; omega
    · rw [hmax]; omega
  have hold {k : Nat} (hk : k ∈ rest) : k ∈ n1 :: n2 :: rest := by simp [hk]
  refine ⟨List.forall_mem_cons.mpr ⟨hself, fun k hk => h.own k (hold hk)⟩,
    List.forall_mem_cons.mpr ⟨List.forall_mem_cons.mpr ⟨?_, fun k hk => ?_⟩,
      fun j hj => List.forall_mem_cons.mpr ⟨?_, fun k hk => h.others j (hold hj) k (hold hk)⟩⟩⟩
  · exact Nat.fib_le_fib_succ.trans hself
  · exact hheir.trans (max_le (hfirst k hk) (hsecond k hk))
  · have := h.others j (hold hj) n1 (by simp)
    omega

/-- In a tree made of such weights a node's depth and its height together are at most 13. -/
theorem Merges.depth_add_height_le {parent : List Int} (h : Merges weight parent l) :
    FibWeights weight l → (l.map fun k => freqOf (weight.getD k 0)).sum ≤ 516 →
      ∀ k ∈ l, ∃ d, HasDepth parent k d ∧ d + heightOf (weight.getD k 0) ≤ 13 := by
  induction h with
  | root hroot =>
    intro hfib htotal k hk
    have := hfib.height_le htotal hk
    rw [List.mem_singleton.mp hk] at this ⊢
    exact ⟨0, hasDepth_root hroot, by omega⟩
  | @merge l rest n1 n2 node hl hparent hweight hfirst hsecond _ ih =>
    intro hfib htotal
    have hmem1 : n1 ∈ l := hl.mem_iff.mpr List.mem_cons_self
    have hmem2 : n2 ∈ l := hl.mem_iff.mpr (List.mem_cons_of_mem _ List.mem_cons_self)
    obtain ⟨hfreq, hheight⟩ := mergeWeights_parts (hfib.height_le htotal hmem1)
      (hfib.height_le htotal hmem2)
    rw [← hweight] at hfreq hheight
    have hnext := (hfib.perm hl).merge hfreq hheight
      (fun k hk => Nat.div_le_div_right (hfirst k (List.mem_cons_of_mem _ hk)))
      (fun k hk => Nat.div_le_div_right (hsecond k hk))
    rw [(hl.map _).sum_eq, List.map_cons, List.map_cons, List.sum_cons, List.sum_cons] at htotal
    have hdepth := ih hnext (by rw [List.map_cons, List.sum_cons]; omega)
    obtain ⟨d, hd, hsum⟩ := hdepth node List.mem_cons_self
    intro k hk
    rcases List.mem_cons.mp (hl.mem_iff.mp hk) with rfl | hk
    · exact ⟨d + 1, hd.child hparent.1, by omega⟩
    rcases List.mem_cons.mp hk with rfl | hk
    · exact ⟨d + 1, hd.child hparent.2, by omega⟩
    · exact hdepth k (List.mem_cons_of_mem _ hk)

end

/-! ## The length limit -/

/-- Leaf weights with frequencies from 1 to `b` and height 0. -/
def LeafWeights (b : Nat) (leaves : List Nat) : Prop :=
  ∀ w ∈ leaves, heightOf w = 0 ∧ 1 ≤ freqOf w ∧ freqOf w ≤ b

section
variable {leaves : List Nat} {b : Nat} (h : LeafWeights b leaves)
include h

theorem LeafWeights.lengthTree_parts {k : Nat} (hk : k ∈ List.range' 1 leaves.length) :
    heightOf ((lengthTree leaves).weight.getD k 0) = 0 ∧
      1 ≤ freqOf ((lengthTree leaves).weight.getD k 0) ∧
      freqOf ((lengthTree leaves).weight.getD k 0) ≤ b := by
  obtain ⟨i, hi, rfl⟩ := List.mem_range'.mp hk
  have hweight := lengthTree_weightOf hi
  rw [LengthHeap.weightOf] at hweight
  rw [Nat.one_mul, hweight]
  exact h _ (List.getElem_mem hi)

theorem LeafWeights.fibWeights :
    FibWeights (lengthTree leaves).weight (List.range' 1 leaves.length) where
  own k hk := by
    obtain ⟨hheight, hpos, -⟩ := h.lengthTree_parts hk
    rw [hheight]
    exact hpos
  others j hj k _ := by
    rw [(h.lengthTree_parts hj).1]
    exact Nat.zero_le _

theorem LeafWeights.total_le : ((List.range' 1 leaves.length).map fun k =>
    freqOf ((lengthTree leaves).weight.getD k 0)).sum ≤ leaves.length * b := by
  refine (List.sum_le_card_nsmul _ b fun x hx => ?_).trans_eq ?_
  · obtain ⟨k, hk, rfl⟩ := List.mem_map.mp hx
    exact (h.lengthTree_parts hk).2.2
  · rw [List.length_map, List.length_range', smul_eq_mul]

end

/-- Over at most 258 leaves of frequencies 1 and 2 the tree is shallow. -/
theorem treeDepths_le {leaves : List Nat} (hmany : leaves.length ≤ 258)
    (h : LeafWeights 2 leaves) : ∀ d ∈ treeDepths leaves, d ≤ 13 := by
  intro d hd
  rw [treeDepths_eq_map_range'] at hd
  obtain ⟨k, hk, rfl⟩ := List.mem_map.mp hd
  have hlen := List.mem_range'_1.mp hk
  have hmerges := lengthTree_merges (leaves := leaves) (by omega)
  obtain ⟨d, hdepth, hle⟩ := hmerges.depth_add_height_le h.fibWeights
    (h.total_le.trans (by omega)) k hk
  obtain ⟨e, hdeep, hlt, -⟩ := hmerges.hasDepth k hk
  rw [List.length_range'] at hlt
  rw [hdeep _ (by omega)]
  have := (hdepth (d + e) (by omega)).symm.trans (hdeep (d + e) (by omega))
  omega

/-- A scaling halves the frequencies, but for the 1 it adds. -/
theorem LeafWeights.scale {m : Nat} {leaves : List Nat} (h : LeafWeights (1 + 2 ^ (m + 1)) leaves) :
    LeafWeights (1 + 2 ^ m) (leaves.map scaleWeight) := by
  intro w hw
  obtain ⟨v, hv, rfl⟩ := List.mem_map.mp hw
  obtain ⟨-, -, hle⟩ := h v hv
  rw [pow_succ] at hle
  unfold heightOf freqOf scaleWeight at *
  omega

/-- With more than `m` rounds left and frequencies up to `1 + 2 ^ m`, the loop ends by its
condition, so with the depths of a full tree. -/
theorem limitLengths_kraft (m : Nat) : ∀ (fuel : Nat) (leaves : List Nat), m < fuel →
    1 ≤ leaves.length → leaves.length ≤ 258 → LeafWeights (1 + 2 ^ m) leaves →
    ((limitLengths 20 fuel leaves).map fun l => 2 ^ (20 - l)).sum = 2 ^ 20 := by
  have done {leaves : List Nat} (hne : 1 ≤ leaves.length)
      (hshort : ¬ (treeDepths leaves).any (fun d => decide (20 < d)) = true) :
      ((treeDepths leaves).map fun l => 2 ^ (20 - l)).sum = 2 ^ 20 :=
    treeDepths_kraft hne fun d hd => not_lt.mp fun hlt =>
      hshort (List.any_eq_true.mpr ⟨d, hd, decide_eq_true hlt⟩)
  induction m with
  | zero =>
    intro fuel leaves hfuel hne hmany hleaves
    obtain ⟨fuel, rfl⟩ : ∃ n, fuel = n + 1 := ⟨fuel - 1, by omega⟩
    have hshort : ¬ (treeDepths leaves).any (fun d => decide (20 < d)) = true := by
      simp only [List.any_eq_true, decide_eq_true_eq, not_exists, not_and, not_lt]
      exact fun d hd => (treeDepths_le hmany hleaves d hd).trans (by decide)
    rw [limitLengths, if_neg hshort]
    exact done hne hshort
  | succ m ih =>
    intro fuel leaves hfuel hne hmany hleaves
    obtain ⟨fuel, rfl⟩ : ∃ n, fuel = n + 1 := ⟨fuel - 1, by omega⟩
    rw [limitLengths]
    split
    · exact ih fuel _ (by omega) (by rwa [List.length_map]) (by rwa [List.length_map]) hleaves.scale
    · next hshort => exact done hne hshort

/-- Settles O34: 20 scalings bring 20-bit frequencies down to 1 and 2, and the loop has 32
rounds. -/
theorem makeLengthsIsFullTree : Obligations.MakeLengthsIsFullTree := by
  unfold Obligations.MakeLengthsIsFullTree
  intro freq htwo hmany hfreq
  refine limitLengths_kraft 20 32 _ (by decide) (by rw [List.length_map]; omega)
    (by rwa [List.length_map]) fun w hw => ?_
  obtain ⟨f, hf, rfl⟩ := List.mem_map.mp hw
  have hlt := hfreq f hf
  unfold heightOf freqOf
  split <;> omega

end Sys2Proof.Machine
end

section
/-! PROOF. `ENC_TRAIN` (45_huffman_encode.md rules R90 to R94): O30. -/

namespace Sys2Proof.Machine

/-! ## The tables and selectors trained -/

theorem tableCount_thresholds (n : Nat) :
    (n < 200 → tableCount n = 2) ∧ (200 ≤ n → n < 600 → tableCount n = 3) ∧
      (600 ≤ n → n < 1200 → tableCount n = 4) ∧ (1200 ≤ n → n < 2400 → tableCount n = 5) ∧
      (2400 ≤ n → tableCount n = 6) := by
  unfold tableCount
  split_ifs <;> omega

/-- The groups are the runs of 50 symbols, one after the other. -/
theorem symbolGroups_eq_map (fuel : Nat) : ∀ syms : List Nat, syms.length ≤ fuel →
    symbolGroups Config.groupSize fuel syms =
      (List.range ((syms.length + 49) / 50)).map fun i => (syms.drop (50 * i)).take 50 := by
  induction fuel with
  | zero =>
    intro syms h
    rw [List.length_eq_zero_iff.mp (Nat.le_zero.mp h)]
    rfl
  | succ fuel ih =>
    intro syms h
    by_cases hne : syms = []
    · rw [hne, symbolGroups_nil]
      rfl
    · have hpos := List.length_pos_iff.mpr hne
      have hsize : Config.groupSize = 50 := rfl
      have hlen : (syms.drop 50).length = syms.length - 50 := List.length_drop
      rw [symbolGroups_cons hne, hsize, ← hsize, ih _ (by rw [hsize, hlen]; omega), hsize, hlen,
        show (syms.length + 49) / 50 = (syms.length - 50 + 49) / 50 + 1 by omega,
        List.range_succ_eq_map, List.map_cons, List.map_map]
      refine congrArg₂ _ rfl (List.map_congr_left fun i _ => ?_)
      rw [Function.comp_apply, List.drop_drop, Nat.mul_succ, Nat.add_comm]

/-- Four training passes, the first of them from the tables given (rule R94). -/
def fourPasses (a : Nat) (groups tables : List (List Nat)) : List Nat × List (List Nat) :=
  trainingPass a groups (trainingPass a groups (trainingPass a groups
    (trainingPass a groups tables).2).2).2

theorem train_eq_fourPasses (a : Nat) (freq syms : List Nat) : train a freq syms =
    fourPasses a ((List.range ((syms.length + 49) / 50)).map fun i => (syms.drop (50 * i)).take 50)
      (seedTables freq a (tableCount syms.length) (tableCount syms.length)
        syms.length 0).reverse := by
  rw [train, symbolGroups_eq_map _ _ (Nat.le_refl _)]
  rfl

/-- Over two symbols or more every length is at least 1. -/
theorem train_range {a : Nat} (htwo : 2 ≤ a) {freq syms row : List Nat}
    (h : row ∈ (train a freq syms).2) : ∀ l ∈ row, 1 ≤ l ∧ l ≤ 20 := by
  rw [train_eq_fourPasses] at h
  obtain ⟨t, -, rfl⟩ := List.mem_map.mp h
  exact makeLengths_range (by simpa [chosenFreq] using htwo)

/-! ## The command -/

/-- What `ENC_TRAIN` trains on the block's symbols. -/
def Encoder.trained (e : Encoder) : List Nat × List (List Nat) :=
  train e.alphabet (e.mtfFreq.readNats 0 e.alphabet) e.symbols

theorem exec_encTrain {s : State} (herr : s.err = 0) (hlast : s.enc.last ≠ 0xFFFFFFFF)
    (hs : s.enc.estate = .mtfDone) :
    exec .encTrain s = .next { s with enc := s.enc.setTrained s.enc.trained }.countCommand :=
  exec_done nofun herr ((unlessNoBlock_block (noBlock_eq_false hlast)).trans (encTrain_done hs))

theorem Encoder.trained_eq_fourPasses (e : Encoder) {n g : Nat} (hn : n = (e.nMtf.toNat + 49) / 50)
    (hg : g = tableCount e.nMtf.toNat) : e.trained = fourPasses e.alphabet
      ((List.range n).map fun i => (e.symbols.drop (50 * i)).take 50)
      (seedTables (e.mtfFreq.readNats 0 e.alphabet) e.alphabet g g e.nMtf.toNat 0).reverse := by
  have hsyms : e.symbols.length = e.nMtf.toNat := Mem.readNats_length _ _ _
  rw [trained, train_eq_fourPasses, hsyms, hn, hg]

/-- `NGROUPS` after training. -/
theorem Encoder.toNat_nGroups_setTrained (e : Encoder) (r : List Nat × List (List Nat)) :
    (e.setTrained r).nGroups.toNat = tableCount e.nMtf.toNat := by
  rw [setTrained, BitVec.toNat_ofNat, Nat.mod_eq_of_lt (tableCount_lt _)]

/-- What training gives: a selector for each group, and tables of legal lengths. -/
structure Encoder.TrainedTables (e : Encoder) (r : List Nat × List (List Nat)) : Prop where
  selectors_length : r.1.length = (e.nMtf.toNat + 49) / 50
  selectors : ∀ t ∈ r.1, t < tableCount e.nMtf.toNat
  tables_length : r.2.length = tableCount e.nMtf.toNat
  tables : ∀ row ∈ r.2, row.length = e.alphabet ∧ ∀ l ∈ row, 1 ≤ l ∧ l ≤ 20

theorem Encoder.trainedTables (e : Encoder) : e.TrainedTables e.trained := by
  have hsyms : e.symbols.length = e.nMtf.toNat := Mem.readNats_length _ _ _
  have hselectors := train_selectors e.alphabet (e.mtfFreq.readNats 0 e.alphabet) e.symbols
  have htables := train_tables_length e.alphabet (e.mtfFreq.readNats 0 e.alphabet) e.symbols
  rw [hsyms] at hselectors htables
  exact ⟨hselectors.1, hselectors.2, htables, fun row hrow =>
    ⟨(train_legal hrow).size, train_range (Nat.le_add_left 2 _) hrow⟩⟩

section
variable {e : Encoder} {r : List Nat × List (List Nat)} (h : e.TrainedTables r)
include h

/-- `NSELECTORS` after training. -/
theorem Encoder.TrainedTables.toNat_nSelectors :
    (e.setTrained r).nSelectors.toNat = r.1.length := by
  have := e.nMtf.isLt
  rw [setTrained, BitVec.toNat_ofNat, h.selectors_length]
  omega

/-- Each selector is read back from `SELECTOR`. -/
theorem Encoder.TrainedTables.toNat_read_selector {i : Nat} (hi : i < r.1.length) :
    ((e.setTrained r).selector.read i).toNat = r.1[i] :=
  e.selector.toNat_read_writeNats (fun t ht => (h.selectors t ht).trans (tableCount_lt _)) hi

variable (hn : e.nInUse.toNat ≤ 256)
include hn

/-- Each length is read back from `E_LEN`. -/
theorem Encoder.TrainedTables.toNat_read_eLen {t v : Nat} (ht : t < r.2.length)
    (hv : v < e.alphabet) :
    ((e.setTrained r).eLen.read (Config.symbolRow * t + v)).toNat = (r.2.getD t []).getD v 0 ∧
      1 ≤ (r.2.getD t []).getD v 0 ∧ (r.2.getD t []).getD v 0 ≤ 20 := by
  obtain ⟨hsize, hrange⟩ := h.tables _ (List.getElem_mem ht)
  have hv' : v < r.2[t].length := hsize ▸ hv
  have hrows : ∀ row ∈ r.2, (row.map (BitVec.ofNat 5)).length ≤ Config.symbolRow := by
    intro row hrow
    rw [List.length_map, (h.tables row hrow).1]
    exact Encoder.alphabet_le_symbolRow hn
  have hread := e.eLen.read_writeRows_map (fun row => row.map (BitVec.ofNat 5)) hrows
    (List.getElem?_eq_getElem ht) ((List.getElem?_map ..).trans
      (congrArg (Option.map _) (List.getElem?_eq_getElem hv')))
  have hl := hrange _ (List.getElem_mem hv')
  rw [List.getD_eq_getElem _ _ ht, List.getD_eq_getElem _ _ hv']
  refine ⟨(congrArg BitVec.toNat hread).trans ?_, hl⟩
  rw [BitVec.toNat_ofNat, Nat.mod_eq_of_lt (by omega)]

theorem Encoder.TrainedTables.read_eLen_outside {t v : Nat} (hv : v < Config.symbolRow)
    (hout : r.2.length ≤ t ∨ e.alphabet ≤ v) :
    (e.setTrained r).eLen.read (Config.symbolRow * t + v) =
      e.eLen.read (Config.symbolRow * t + v) := by
  refine Mem.read_writeRows_outside (Encoder.alphabet_le_symbolRow hn) _ (fun row hrow => ?_) hv 0
    e.eLen (by simpa using hout)
  obtain ⟨lens, hlens, rfl⟩ := List.mem_map.mp hrow
  rw [List.length_map, (h.tables lens hlens).1]

end

/-- Settles O30: the selectors and tables are those of four training passes, they fit the elements
they are written to, and rows of the alphabet's length leave the rest of `E_LEN` alone. -/
theorem encTrainChoosesTables : Obligations.EncTrainChoosesTables := by
  unfold Obligations.EncTrainChoosesTables
  intro s herr hinv hlegal hs
  have hne : s.enc.estate ≠ .empty := by rw [hs]; nofun
  have h := s.enc.trainedTables
  have hexec := exec_encTrain herr (hinv.last_ne hne) hs
  have hfew : s.enc.nMtf.toNat ≤ 900001 := (hlegal.stream (.inl hs)).2.1.trans_le
    (hinv.holdsBlock hlegal hne).symbolStream_length_le
  obtain ⟨h200, h600, h1200, h2400, hmost⟩ := tableCount_thresholds s.enc.nMtf.toNat
  generalize hr : s.enc.trained = r at h hexec
  have hgroups := s.enc.toNat_nGroups_setTrained r
  have hcount := h.toNat_nSelectors
  have htotal := hcount.trans h.selectors_length
  have hselector {i : Nat} (hi : i < (s.enc.setTrained r).nSelectors.toNat) :=
    h.toNat_read_selector (hcount ▸ hi)
  have hlength {t v : Nat} (ht : t < (s.enc.setTrained r).nGroups.toNat)
      (hv : v < s.enc.alphabet) :=
    h.toNat_read_eLen hinv.inUseLegal (t := t) (h.tables_length ▸ hgroups ▸ ht) hv
  refine ⟨(s.enc.setTrained r).nGroups, (s.enc.setTrained r).nSelectors,
    (s.enc.setTrained r).selector, (s.enc.setTrained r).eLen, hexec, hgroups ▸ h200,
    hgroups ▸ h600, hgroups ▸ h1200, hgroups ▸ h2400, hgroups ▸ hmost, htotal, by omega,
    fun i hi => ?_, ?_, fun a ha => ?_, fun t ht v hv => ?_, fun t v hv hout => ?_⟩
  · rw [hselector hi, hgroups]
    exact h.selectors _ (List.getElem_mem _)
  · intro a groups seeds pass1 pass2 pass3 pass4
    have hpass : pass4 = r := (hr.symm.trans (s.enc.trained_eq_fourPasses htotal hgroups)).symm
    rw [hpass]
    refine ⟨fun i hi => ?_, fun t ht v hv => (hlength ht hv).1⟩
    rw [hselector hi, List.getD_eq_getElem]
  · exact s.enc.selector.read_writeNats_outside (hcount ▸ ha)
  · have := hlength ht hv
    exact ⟨this.1 ▸ this.2.1, this.1 ▸ this.2.2⟩
  · refine h.read_eLen_outside hinv.inUseLegal hv (hout.imp_left fun ht => ?_)
    rw [h.tables_length, ← hgroups]
    exact ht

end Sys2Proof.Machine
end

section
/-! PROOF. The decoder's readings (46_huffman_decode.md), part 1: readings that raise an error and
readings that run out of bits, the commands around them, and O44. -/

namespace Sys2Proof.Machine

/-! ## Readings that raise an error (60_exceptions.md rule R124) -/

/-- Where the bits to be read begin with `bits`, the reading raises `e`, whatever follows them. -/
def Reader.Raises {α : Type} (x : Reader α) (bits : List Bool) (e : ErrCode) : Prop :=
  ∀ ⦃r : BitSource⦄ ⦃rest : List Bool⦄, r.Tidy → r.bits = bits ++ rest → x r = .raise e

section
variable {α β : Type} {x : Reader α} {f : α → Reader β} {u v : List Bool} {a : α} {e : ErrCode}

/-- A reading that succeeds leaves the rest of a sequence of readings to the bits behind it. -/
theorem Reader.Reads.bind_eq {r : BitSource} (f : α → Reader β) (hx : x.Reads u a) (hr : r.Tidy)
    (hbits : r.bits = u ++ v) :
    ∃ q, x.bind f r = f a q ∧ r.Consumed q u.length ∧ q.bits = v := by
  obtain ⟨q, hq, hcons⟩ := hx hr hbits
  exact ⟨q, by rw [Reader.bind, hq], hcons, by rw [hcons.stream, hbits, List.drop_left]⟩

/-- What follows the last bit may read no bit. -/
theorem reads_bind_last {b : β} (hx : x.Reads u a) (hf : (f a).Reads [] b) :
    (x.bind f).Reads u b := by
  simpa only [List.append_nil] using reads_bind hx hf

theorem raises_fail (e : ErrCode) : (Reader.fail (α := α) e).Raises [] e := fun _ _ _ _ => rfl

theorem Reader.Raises.append (hx : x.Raises u e) (v : List Bool) : x.Raises (u ++ v) e :=
  fun _ _ hr hbits => hx hr (hbits.trans (List.append_assoc _ _ _))

theorem raises_bind (hx : x.Reads u a) (hf : (f a).Raises v e) : (x.bind f).Raises (u ++ v) e := by
  intro r rest hr hbits
  obtain ⟨q, hq, hcons, hrest⟩ := hx.bind_eq f hr (hbits.trans (List.append_assoc _ _ _))
  rw [hq]
  exact hf hcons.tidy hrest

/-- The error may stand behind the last bit. -/
theorem raises_bind_last (hx : x.Reads u a) (hf : (f a).Raises [] e) : (x.bind f).Raises u e := by
  simpa only [List.append_nil] using raises_bind hx hf

theorem raises_bind_left (f : α → Reader β) (hx : x.Raises u e) : (x.bind f).Raises u e :=
  fun _ _ hr hbits => Reader.bind_raise.mpr (.inl (hx hr hbits))

theorem raises_ite_pos {c : Prop} {_ : Decidable c} {x y : Reader α} (hc : c) (hx : x.Raises u e) :
    (if c then x else y).Raises u e := by
  rwa [if_pos hc]

theorem raises_ite_neg {c : Prop} {_ : Decidable c} {x y : Reader α} (hc : ¬ c)
    (hy : y.Raises u e) : (if c then x else y).Raises u e := by
  rwa [if_neg hc]

end

/-! ## Readings that run out of bits (20_memory.md rule R38) -/

/-- Where `bits` are all the bits there are, the reading needs more: it raises `E_EOF` with IN
closed and holds with IN open. -/
def Reader.RunsOut {α : Type} (x : Reader α) (bits : List Bool) : Prop :=
  ∀ ⦃r : BitSource⦄, r.Tidy → r.bits = bits → x r = Reader.exhausted r

section
variable {α β : Type} {x : Reader α} {f : α → Reader β} {u v bits : List Bool} {a : α} {n : Nat}

theorem runsOut_rd (hn : n ≤ 32) (h : bits.length < n) : (rd n).RunsOut bits :=
  fun _ hr hbits => rd_short hr hn (by rwa [← BitSource.bits_length, hbits])

theorem runsOut_bind (hx : x.Reads u a) (hf : (f a).RunsOut v) : (x.bind f).RunsOut (u ++ v) := by
  intro r hr hbits
  obtain ⟨q, hq, hcons, hrest⟩ := hx.bind_eq f hr hbits
  rw [hq, hf hcons.tidy hrest, Reader.exhausted, Reader.exhausted, hcons.closedKept]

theorem runsOut_bind_left (f : α → Reader β) (hx : x.RunsOut u) : (x.bind f).RunsOut u := by
  intro r hr hbits
  rw [Reader.bind, hx hr hbits, Reader.exhausted, Reader.exhausted]
  cases r.closed <;> rfl

end

/-! ## The commands that read bits (rules R124 and R139) -/

section
variable {α : Type} {i : Instr} {s : State} {x : Reader α} {spoil : State → State}
  {k : α → BitSource → State → CmdResult} (hi : Instr.readsBits i = true) (herr : s.err = 0)
  (hbody : commandBody i s = readCommand x spoil k s)
include hi herr hbody

theorem exec_of_ok {a : α} {q : BitSource} {t : State} (hx : x s.src = .ok a q)
    (hk : k a q s = .done t) : exec i s = .next t.countCommand :=
  exec_done (Instr.ne_sysReset_of_readsBits hi) herr
    (hbody.trans ((readCommand_ok hx).trans hk))

theorem exec_of_raises {e : ErrCode} (hx : x s.src = .raise e) :
    ∃ t, exec i s = .next t ∧ t.err = e.toBits :=
  ⟨_, exec_raises (Instr.ne_sysReset_of_readsBits hi) herr
    (hbody.trans (by rw [readCommand, hx])), rfl⟩

theorem exec_of_exhausted (hx : x s.src = Reader.exhausted s.src) :
    (s.src.closed = true → ∃ t, exec i s = .next t ∧ t.err = 0x03) ∧
      (s.src.closed = false → exec i s = .next { s with held := some i }) := by
  refine ⟨fun hclosed => ?_, fun hopen => ?_⟩
  · rw [Reader.exhausted, if_pos hclosed] at hx
    exact exec_of_raises hi herr hbody hx
  · rw [Reader.exhausted, if_neg (by simp [hopen])] at hx
    exact exec_holds (Instr.ne_sysReset_of_readsBits hi) herr
      (hbody.trans (by rw [readCommand, hx]))

end

/-! ## Every table section the encoder's format writes (rules R107 to R111) -/

/-- The in-use bits of a table section as `IN_USE`, read back as a list. -/
theorem inUseList_inUseBits {x : TableSection} (h : x.inUse.length = 256) :
    inUseList x.inUseBits = x.inUse := by
  have hbits := natToBits_bitsToNat x.inUse.reverse
  rw [List.length_reverse, h] at hbits
  refine List.ext_getElem (by simp [inUseList, h]) fun u hu hux => ?_
  have hu256 : u < 256 := h ▸ hux
  have hget := natToBits_getElem 256 (bitsToNat x.inUse.reverse) (255 - u)
    (by rw [natToBits_length]; omega)
  simp only [hbits, List.getElem_reverse, h] at hget
  simp only [inUseList, List.getElem_map, List.getElem_range, TableSection.inUseBits,
    BitVec.getLsbD_ofNat, hu256, decide_true, Bool.true_and]
  simp only [show 256 - 1 - (255 - u) = u by omega] at hget
  exact hget.symm

/-- Settles O44: the encoder's bits of a legal section are read back as the section, which is what
the decoder's registers and memories are set from. -/
theorem decTablesReadsBack : Obligations.DecTablesReadsBack := by
  unfold Obligations.DecTablesReadsBack
  intro s x rest herr hs htidy hx hbits
  obtain ⟨q, hread, hcons⟩ :=
    reads_readTables hx (inUseList_inUseBits hx.bitmap).symm htidy hbits
  exact ⟨q, s.dec.setTables x, exec_decTables_ok herr hs hread, hcons, rfl, rfl⟩

end Sys2Proof.Machine
end

section
/-! PROOF. The decoder's readings (46_huffman_decode.md), part 2: stream and block headers and the
end of a block (rules R104 to R106, 47_bwt_inverse.md rule R119), O41 to O43. -/

namespace Sys2Proof.Machine

/-! ## `DEC_RESET` and `DEC_BLOCK_END` (rules R104 and R119) -/

section
variable {s : State} (hs : s.dec.dstate = .endOfBlock)
include hs

theorem commandBody_decBlockEnd_equal (hcrc : ~~~s.crc = s.dec.storedCrc) :
    commandBody .decBlockEnd s = .done { s with
      combined := foldCombined s.combined s.dec.storedCrc
      dec := { s.dec with dstate := .startBlock } } := by
  rw [commandBody, inDState_here hs]
  exact if_neg (not_not.mpr hcrc)

theorem commandBody_decBlockEnd_unequal (hcrc : ~~~s.crc ≠ s.dec.storedCrc) :
    commandBody .decBlockEnd s = .raise .blockCrc (spoilBlockEnd s) := by
  rw [commandBody, inDState_here hs]
  exact if_pos hcrc

end

/-- Settles O41: each command is its own rule's effect, and the fold's rotation is a rotation to the
left by one. -/
theorem decResetAndBlockEnd : Obligations.DecResetAndBlockEnd := by
  unfold Obligations.DecResetAndBlockEnd
  intro s herr
  refine ⟨exec_done (i := .decReset) nofun herr rfl, fun hs hcrc => ?_, fun hs hcrc => ?_⟩
  · exact exec_done (i := .decBlockEnd) nofun herr (commandBody_decBlockEnd_equal hs hcrc)
  · exact ⟨_, _, _, exec_raises (i := .decBlockEnd) nofun herr
      (commandBody_decBlockEnd_unequal hs hcrc)⟩

/-! ## Headers cut short -/

/-- Wherever `bits` are cut short, the reading runs out of bits. -/
def Reader.RunsOutWithin {α : Type} (x : Reader α) (bits : List Bool) : Prop :=
  ∀ k < bits.length, x.RunsOut (bits.take k)

section
variable {α β : Type} {x : Reader α} {u v bits : List Bool} {a : α} {n m : Nat}

theorem runsOutWithin_rd (hn : n ≤ 32) (h : bits.length ≤ n) : (rd n).RunsOutWithin bits :=
  fun k hk => runsOut_rd hn (by rw [List.length_take]; omega)

theorem runsOutWithin_bind_left (f : α → Reader β) (hx : x.RunsOutWithin u) :
    (x.bind f).RunsOutWithin u := fun k hk => runsOut_bind_left f (hx k hk)

theorem runsOutWithin_bind {f : α → Reader β} (hx : x.Reads u a) (hwithin : x.RunsOutWithin u)
    (hf : (f a).RunsOutWithin v) : (x.bind f).RunsOutWithin (u ++ v) := by
  intro k hk
  rw [List.length_append] at hk
  rw [List.take_append]
  rcases Nat.lt_or_ge k u.length with hlt | hge
  · rw [Nat.sub_eq_zero_of_le hlt.le, List.take_zero, List.append_nil]
    exact runsOut_bind_left f (hwithin k hlt)
  · rw [List.take_of_length_le hge]
    exact runsOut_bind hx (hf (k - u.length) (by omega))

/-- The first `n` bits are the number they are the bits of. -/
theorem reads_rd_take (hn : n ≤ 32) (h : n ≤ bits.length) :
    (rd n).Reads (bits.take n) (bitsToNat (bits.take n)) := by
  have hlen := List.length_take_of_le h
  have hlt := bitsToNat_lt (bits.take n)
  have hbits := natToBits_bitsToNat (bits.take n)
  rw [hlen] at hlt hbits
  have := reads_rd hn hlt
  rwa [hbits] at this

/-- A reading of `n` bits and another that needs `m` bits, whatever the first have said, need
`n + m` bits. -/
theorem runsOut_bind_rd {f : Nat → Reader β} (hn : n ≤ 32) (h : bits.length < n + m)
    (hf : ∀ v w, w.length < m → (f v).RunsOut w) : ((rd n).bind f).RunsOut bits := by
  rcases Nat.lt_or_ge bits.length n with hshort | hlong
  · exact runsOut_bind_left f (runsOut_rd hn hshort)
  · rw [← List.take_append_drop n bits]
    exact runsOut_bind (reads_rd_take hn hlong) (hf _ _ (by rw [List.length_drop]; omega))

end

/-! ## The stream header (rule R105) -/

theorem reads_expectByte {b : Nat} (hb : b < 256) : (expectByte b).Reads (natToBits 8 b) () :=
  reads_bind_last (reads_rd (by decide) hb) (reads_ite_pos rfl (reads_pure ()))

/-- A wrong byte is refused as soon as it is read. -/
theorem raises_expectByte {b c : Nat} (hb : b < 256) (hbc : b ≠ c) :
    (expectByte c).Raises (natToBits 8 b) .magic :=
  raises_bind_last (reads_rd (by decide) hb) (raises_ite_neg hbc (raises_fail _))

theorem runsOutWithin_expectByte (b : Nat) : (expectByte b).RunsOutWithin (natToBits 8 b) :=
  runsOutWithin_bind_left _ (runsOutWithin_rd (by decide) (natToBits_length 8 b).le)

/-- The digit of the stream header as a block size. -/
def readDigit : Reader Nat :=
  (rd 8).bind fun d => if d < 0x31 ∨ 0x39 < d then .fail .blockSize else .pure (d - 0x30)

/-- A stream header is three bytes and a digit. -/
theorem readStreamHdr_eq : readStreamHdr = (expectByte 0x42).bind fun _ =>
    (expectByte 0x5A).bind fun _ => (expectByte 0x68).bind fun _ => readDigit := rfl

theorem reads_readDigit {digit : Nat} (hlow : 0x31 ≤ digit) (hhigh : digit ≤ 0x39) :
    readDigit.Reads (natToBits 8 digit) (digit - 0x30) :=
  reads_bind_last (reads_rd (by decide) (by omega)) (reads_ite_neg (by omega) (reads_pure _))

theorem raises_readDigit {digit : Nat} (hbyte : digit < 256) (hout : digit < 0x31 ∨ 0x39 < digit) :
    readDigit.Raises (natToBits 8 digit) .blockSize :=
  raises_bind_last (reads_rd (by decide) hbyte) (raises_ite_pos hout (raises_fail _))

theorem runsOutWithin_readDigit (digit : Nat) : readDigit.RunsOutWithin (natToBits 8 digit) :=
  runsOutWithin_bind_left _ (runsOutWithin_rd (by decide) (natToBits_length 8 digit).le)

theorem streamMagic_bits : natToBits 24 0x425A68 =
    natToBits 8 0x42 ++ (natToBits 8 0x5A ++ natToBits 8 0x68) := rfl

section
variable {bits : List Bool} {n : Nat}

theorem reads_readStreamHdr (h : readDigit.Reads bits n) :
    readStreamHdr.Reads (natToBits 24 0x425A68 ++ bits) n := by
  rw [readStreamHdr_eq, streamMagic_bits, List.append_assoc, List.append_assoc]
  exact reads_bind (reads_expectByte (by decide)) <| reads_bind (reads_expectByte (by decide)) <|
    reads_bind (reads_expectByte (by decide)) h

theorem raises_readStreamHdr {e : ErrCode} (h : readDigit.Raises bits e) :
    readStreamHdr.Raises (natToBits 24 0x425A68 ++ bits) e := by
  rw [readStreamHdr_eq, streamMagic_bits, List.append_assoc, List.append_assoc]
  exact raises_bind (reads_expectByte (by decide)) <| raises_bind (reads_expectByte (by decide)) <|
    raises_bind (reads_expectByte (by decide)) h

theorem runsOutWithin_readStreamHdr (h : readDigit.RunsOutWithin bits) :
    readStreamHdr.RunsOutWithin (natToBits 24 0x425A68 ++ bits) := by
  have byte {b : Nat} (hb : b < 256) {f : Unit → Reader Nat} {v : List Bool}
      (hf : (f ()).RunsOutWithin v) : ((expectByte b).bind f).RunsOutWithin (natToBits 8 b ++ v) :=
    runsOutWithin_bind (reads_expectByte hb) (runsOutWithin_expectByte b) hf
  rw [readStreamHdr_eq, streamMagic_bits, List.append_assoc, List.append_assoc]
  exact byte (by decide) (byte (by decide) (byte (by decide) h))

/-- The first wrong byte is refused, behind as many right ones as there are. -/
theorem raises_readStreamHdr_wrongByte {front b : Nat} (hfront : front ≤ 2) (hb : b < 256)
    (hwrong : b ≠ [0x42, 0x5A, 0x68].getD front 0) :
    readStreamHdr.Raises ((natToBits 24 0x425A68).take (8 * front) ++ natToBits 8 b) .magic := by
  match front, hfront with
  | 0, _ => exact raises_bind_left _ (raises_expectByte hb hwrong)
  | 1, _ =>
    exact raises_bind (reads_expectByte (b := 0x42) (by decide)) <|
      raises_bind_left _ (raises_expectByte hb hwrong)
  | 2, _ =>
    exact raises_bind (u := natToBits 8 0x42) (reads_expectByte (by decide)) <|
      raises_bind (u := natToBits 8 0x5A) (reads_expectByte (by decide)) <|
        raises_bind_left _ (raises_expectByte hb hwrong)

end

/-- Settles O42: a byte is compared as soon as it is read, so a header is read to its first wrong
byte or to where it is cut short. -/
theorem decStreamHdrReadsHeader : Obligations.DecStreamHdrReadsHeader := by
  unfold Obligations.DecStreamHdrReadsHeader
  intro s digit rest herr hs htidy
  have hbody := inDState_here (f := readCommand readStreamHdr spoilStreamHdr fun bs r s =>
    .done { s with
      src := r, combined := 0
      dec := { s.dec with bs100k := BitVec.ofNat 4 bs, dstate := .startBlock } }) hs
  refine ⟨fun hlow hhigh hbits => ?_, fun hout hbyte hbits => ?_,
    fun front b hfront hb hwrong hbits => ?_, fun k hk hbits => ?_⟩
  · obtain ⟨q, hq, hcons⟩ := reads_readStreamHdr (reads_readDigit hlow hhigh) htidy hbits
    refine ⟨q, _, exec_of_ok (i := .decStreamHdr) rfl herr hbody hq rfl, hcons, ?_⟩
    rw [BitVec.toNat_ofNat]
    omega
  · exact exec_of_raises (i := .decStreamHdr) rfl herr hbody
      (raises_readStreamHdr (raises_readDigit hbyte hout) htidy hbits)
  · exact exec_of_raises (i := .decStreamHdr) rfl herr hbody
      (raises_readStreamHdr_wrongByte hfront hb hwrong htidy hbits)
  · exact exec_of_exhausted (i := .decStreamHdr) rfl herr hbody
      (runsOutWithin_readStreamHdr (runsOutWithin_readDigit digit) k hk htidy hbits)

/-! ## The block start (rule R106) -/

/-- What stands behind the block magic. -/
def readBlockHeader : Reader BlockStart :=
  (rd 32).bind fun crc => (rd 1).bind fun rand => (rd 24).bind fun origPtr =>
    .pure (.block crc rand origPtr)

/-- What stands behind the trailer magic. -/
def readTrailer (combined : Word) : Reader BlockStart :=
  (rd 32).bind fun stored =>
    if stored ≠ combined.toNat then .fail .combinedCrc else .pure .trailer

/-- The 48 bits at a block start decide what stands behind them. -/
def afterMagic (combined : Word) (m1 m2 : Nat) : Reader BlockStart :=
  if m1 = 0x314159 ∧ m2 = 0x265359 then readBlockHeader
  else if m1 = 0x177245 ∧ m2 = 0x385090 then readTrailer combined
  else .fail .magic

theorem readBlockStart_eq (combined : Word) : readBlockStart combined =
    (rd 24).bind fun m1 => (rd 24).bind fun m2 => afterMagic combined m1 m2 := rfl

theorem reads_readBlockHeader (crc : Word) (rand : BitVec 1) (origPtr : BitVec 24) :
    readBlockHeader.Reads
      (natToBits 32 crc.toNat ++ (natToBits 1 rand.toNat ++ natToBits 24 origPtr.toNat))
      (.block crc.toNat rand.toNat origPtr.toNat) :=
  reads_bind (reads_rd (by decide) crc.isLt) <| reads_bind (reads_rd (by decide) rand.isLt) <|
    reads_bind_last (reads_rd (by decide) origPtr.isLt) (reads_pure _)

theorem runsOut_readBlockHeader {cut : List Bool} (h : cut.length < 57) :
    readBlockHeader.RunsOut cut :=
  runsOut_bind_rd (m := 25) (by decide) h fun _ _ h => runsOut_bind_rd (m := 24) (by decide) h
    fun _ _ h => runsOut_bind_left _ (runsOut_rd (by decide) h)

theorem reads_readTrailer (combined : Word) :
    (readTrailer combined).Reads (natToBits 32 combined.toNat) .trailer :=
  reads_bind_last (reads_rd (by decide) combined.isLt)
    (reads_ite_neg (not_not.mpr rfl) (reads_pure _))

theorem raises_readTrailer {combined crc : Word} (h : crc ≠ combined) :
    (readTrailer combined).Raises (natToBits 32 crc.toNat) .combinedCrc :=
  raises_bind_last (reads_rd (by decide) crc.isLt)
    (raises_ite_pos (fun heq => h (BitVec.eq_of_toNat_eq heq)) (raises_fail _))

theorem runsOut_readTrailer (combined : Word) {cut : List Bool} (h : cut.length < 32) :
    (readTrailer combined).RunsOut cut := runsOut_bind_left _ (runsOut_rd (by decide) h)

theorem natToBits_48 (m : Nat) :
    natToBits 48 m = natToBits 24 (m / 2 ^ 24) ++ natToBits 24 (m % 2 ^ 24) := by
  rw [natToBits_mod, ← Nat.shiftRight_eq_div_pow]
  exact natToBits_add 24 24 m

section
variable {combined : Word} {m : Nat} (hm : m < 2 ^ 48) {v : List Bool}
include hm

theorem reads_readBlockStart {b : BlockStart}
    (h : (afterMagic combined (m / 2 ^ 24) (m % 2 ^ 24)).Reads v b) :
    (readBlockStart combined).Reads (natToBits 48 m ++ v) b := by
  rw [readBlockStart_eq, natToBits_48, List.append_assoc]
  exact reads_bind (reads_rd (by decide) (by omega)) <|
    reads_bind (reads_rd (by decide) (by omega)) h

theorem raises_readBlockStart {e : ErrCode}
    (h : (afterMagic combined (m / 2 ^ 24) (m % 2 ^ 24)).Raises v e) :
    (readBlockStart combined).Raises (natToBits 48 m ++ v) e := by
  rw [readBlockStart_eq, natToBits_48, List.append_assoc]
  exact raises_bind (reads_rd (by decide) (by omega)) <|
    raises_bind (reads_rd (by decide) (by omega)) h

theorem runsOut_readBlockStart
    (h : (afterMagic combined (m / 2 ^ 24) (m % 2 ^ 24)).RunsOut v) :
    (readBlockStart combined).RunsOut (natToBits 48 m ++ v) := by
  rw [readBlockStart_eq, natToBits_48, List.append_assoc]
  exact runsOut_bind (reads_rd (by decide) (by omega)) <|
    runsOut_bind (reads_rd (by decide) (by omega)) h

end

theorem afterMagic_block (combined : Word) :
    afterMagic combined (0x314159265359 / 2 ^ 24) (0x314159265359 % 2 ^ 24) = readBlockHeader := rfl

theorem afterMagic_trailer (combined : Word) :
    afterMagic combined (0x177245385090 / 2 ^ 24) (0x177245385090 % 2 ^ 24) =
      readTrailer combined := rfl

theorem afterMagic_other (combined : Word) {m : Nat} (hblock : m ≠ 0x314159265359)
    (htrailer : m ≠ 0x177245385090) :
    afterMagic combined (m / 2 ^ 24) (m % 2 ^ 24) = .fail .magic := by
  rw [afterMagic, if_neg (by omega), if_neg (by omega)]

theorem runsOut_readBlockStart_short (combined : Word) {cut : List Bool} (h : cut.length < 48) :
    (readBlockStart combined).RunsOut cut :=
  runsOut_bind_rd (m := 24) (by decide) h fun _ _ h =>
    runsOut_bind_left _ (runsOut_rd (by decide) h)

/-- Settles O43: the 48 bits are read whole, and what they are decides which fields are read behind
them. -/
theorem decBlockStartReadsHeader : Obligations.DecBlockStartReadsHeader := by
  unfold Obligations.DecBlockStartReadsHeader
  intro s crc rand origPtr rest herr hs htidy
  have hbody : commandBody .decBlockStart s =
      readCommand (readBlockStart s.combined) spoilBlockStart startBlock s := inDState_here hs
  refine ⟨fun hbits => ?_, fun hbits => ?_, fun hbits hcrc => ?_,
    fun m hm hblock htrailer hbits => ?_, fun hshort => ?_⟩
  · have hread := reads_readBlockStart (combined := s.combined) (m := 0x314159265359) (by decide)
      (by rw [afterMagic_block]; exact reads_readBlockHeader crc rand origPtr)
    obtain ⟨q, hq, hcons⟩ := hread htidy (by simpa only [List.append_assoc] using hbits)
    have hexec := exec_of_ok (i := .decBlockStart) rfl herr hbody hq rfl
    simp only [BitVec.ofNat_toNat, BitVec.setWidth_eq] at hexec
    exact ⟨q, hexec, by simpa using hcons⟩
  · have hread := reads_readBlockStart (combined := s.combined) (m := 0x177245385090) (by decide)
      (by rw [afterMagic_trailer]; exact reads_readTrailer s.combined)
    obtain ⟨q, hq, hcons⟩ := hread htidy hbits
    exact ⟨q, exec_of_ok (i := .decBlockStart) rfl herr hbody hq rfl, by simpa using hcons⟩
  · exact exec_of_raises (i := .decBlockStart) rfl herr hbody <|
      raises_readBlockStart (m := 0x177245385090) (by decide)
        (by rw [afterMagic_trailer]; exact raises_readTrailer hcrc) htidy hbits
  · have hraises := raises_readBlockStart (combined := s.combined) (v := []) hm
      (by rw [afterMagic_other _ hblock htrailer]; exact raises_fail .magic)
    exact exec_of_raises (i := .decBlockStart) rfl herr hbody
      (hraises htidy (by simpa using hbits))
  · refine exec_of_exhausted (i := .decBlockStart) rfl herr hbody ?_
    rcases hshort with hlen | ⟨cut, hlen, hbits⟩ | ⟨cut, hlen, hbits⟩
    · exact runsOut_readBlockStart_short _ hlen htidy rfl
    · exact runsOut_readBlockStart (m := 0x314159265359) (by decide)
        (by rw [afterMagic_block]; exact runsOut_readBlockHeader hlen) htidy hbits
    · exact runsOut_readBlockStart (m := 0x177245385090) (by decide)
        (by rw [afterMagic_trailer]; exact runsOut_readTrailer _ hlen) htidy hbits

end Sys2Proof.Machine
end

section
/-! PROOF. The decoder's readings (46_huffman_decode.md), part 3: what the registers and memories
hold after a table section (rules R107 to R110) and how its codes are decoded (rule R112), O45 and
O47. -/

namespace Sys2Proof.Machine

theorem getElem?_eq_some_getD {α : Type} {l : List α} {i : Nat} (h : i < l.length) (a : α) :
    l[i]? = some (l.getD i a) := by
  rw [List.getElem?_eq_getElem h, List.getD_eq_getElem _ _ h]

/-! ## The bytes in use (rule R107) -/

section
variable (d : Decoder) (x : TableSection)

theorem Decoder.read_inUse_setTables {u : Nat} (hu : u < x.inUse.length) :
    (d.setTables x).inUse.read u = BitVec.ofBool (x.inUse.getD u false) := by
  have := Mem.read_writeRange_inside d.inUse 0 (x.inUse.map fun b => BitVec.ofBool b) u
    (by simpa using hu)
  rw [Nat.zero_add, List.getElem_map] at this
  rw [List.getD_eq_getElem _ _ hu]
  exact this

theorem Decoder.toNat_seqToUnseq_setTables {i u : Nat} (h : (valuesInUse x.inUse)[i]? = some u) :
    ((d.setTables x).seqToUnseq.read i).toNat = u := by
  obtain ⟨hi, rfl⟩ := List.getElem?_eq_some_iff.mp h
  exact d.seqToUnseq.toNat_read_writeNats (w := 8) valuesInUse_lt hi

end

/-- A byte value in use stands behind those below it. -/
theorem valuesInUse_getElem?_countBelow {inUse : List Bool} {u : Nat} (hu : u < 256)
    (huse : inUse.getD u false = true) :
    (valuesInUse inUse)[countBelow u fun v => inUse.getD v false]? = some u := by
  have hsplit : List.range 256 = List.range u ++ u :: (List.range (255 - u)).map (u + 1 + ·) := by
    rw [show 256 = u + 1 + (255 - u) by omega, List.range_add, List.range_succ, List.append_assoc]
    rfl
  rw [valuesInUse, hsplit, List.filter_append,
    List.filter_cons_of_pos (p := fun v => inUse.getD v false) huse, countBelow,
    List.countP_eq_length_filter, List.getElem?_append_right (Nat.le_refl _), Nat.sub_self]
  rfl

/-! ## The order of the symbols and the range of the lengths (rule R110) -/

theorem shorterCount_eq_countP (lens : List Nat) (l : Nat) :
    shorterCount lens l = lens.countP fun k => decide (k < l) := by
  have := sum_count_mul lens (fun _ => 1) l
  simp only [Nat.mul_one, List.map_const', List.sum_replicate, smul_eq_mul] at this
  rw [shorterCount, this, List.countP_eq_length_filter]

theorem foldl_max_mem (l : List Nat) : ∀ a, l.foldl max a = a ∨ l.foldl max a ∈ l := by
  induction l with
  | nil => exact fun _ => .inl rfl
  | cons x l ih =>
    intro a
    rcases ih (max a x) with h | h
    · rcases max_choice a x with hmax | hmax
      · exact .inl (h.trans hmax)
      · exact .inr (List.mem_cons.mpr (.inl (h.trans hmax)))
    · exact .inr (List.mem_cons_of_mem _ h)

theorem greatestOf_mem {l : List Nat} (h : l ≠ []) : greatestOf l ∈ l := by
  rcases foldl_max_mem l 0 with hzero | hmem
  · obtain ⟨x, l, rfl⟩ := List.exists_cons_of_ne_nil h
    have := le_greatestOf (List.mem_cons_self (a := x) (l := l))
    rw [greatestOf, hzero, Nat.le_zero] at this
    rw [greatestOf, hzero, ← this]
    exact List.mem_cons_self
  · exact hmem

/-- Outside the lengths in use `LIMIT` is -1 and `BASE` is 0. -/
theorem limitBaseLoop_getElem?_outside {lens : List Nat} {m : Nat}
    (hm : m < leastOf lens ∨ greatestOf lens < m) (n : Nat) : ∀ l vec cum, l ≤ m → m < l + n →
    (limitBaseLoop lens n l vec cum)[m - l]? = some (-1, 0) := by
  induction n with
  | zero => intro l _ _ hlm hml; omega
  | succ n ih =>
    intro l vec cum hlm hml
    rcases Nat.eq_or_lt_of_le hlm with rfl | hlt
    · rw [limitBaseLoop, if_neg (by omega), Nat.sub_self]
      rfl
    · rw [limitBaseLoop, show m - l = m - (l + 1) + 1 by omega]
      split
      · exact ih _ _ _ hlt (by omega)
      · exact ih _ _ _ hlt (by omega)

theorem limitBase_getElem?_outside {lens : List Nat} {l : Nat}
    (h : l < leastOf lens ∨ greatestOf lens < l) (hl : l ≤ 20) :
    (limitBase lens)[l]? = some (-1, 0) :=
  limitBaseLoop_getElem?_outside h 21 0 0 0 (Nat.zero_le l) (by omega)

/-! ## The tables (rules R109 and R110) -/

namespace TableSection.Legal

variable {x : TableSection} (hx : x.Legal)
include hx

theorem getElem?_lens {t : Nat} (ht : t < x.nGroups) : x.lens[t]? = some (x.lens.getD t []) :=
  getElem?_eq_some_getD (by rw [hx.groups.2.2]; exact ht) []

theorem toNat_nGroups_setTables (d : Decoder) : (d.setTables x).nGroups.toNat = x.nGroups := by
  have := hx.groups.2.1
  rw [Decoder.setTables, BitVec.toNat_ofNat]
  omega

theorem toNat_nSelectors_setTables (d : Decoder) :
    (d.setTables x).nSelectors.toNat = x.selectors.length := by
  have := hx.count.2
  rw [Decoder.setTables, BitVec.toNat_ofNat]
  omega

theorem toNat_selector_setTables (d : Decoder) {i : Nat} (hi : i < x.selectors.length) :
    ((d.setTables x).selector.read i).toNat = x.selectors.getD i 0 := by
  have hfits : ∀ t ∈ x.selectors, t < 2 ^ 3 := by
    intro t ht
    have := hx.selectors t ht
    have := hx.groups.2.1
    omega
  rw [List.getD_eq_getElem _ _ hi]
  exact d.selector.toNat_read_writeNats hfits hi

variable (d : Decoder) {t : Nat} {row : List Nat} (ht : x.lens[t]? = some row)
include ht

theorem row_range : row.length = (valuesInUse x.inUse).length + 2 ∧ ∀ l ∈ row, 1 ≤ l ∧ l ≤ 20 :=
  hx.lengths row (List.mem_of_getElem? ht)

theorem row_ne_nil : row ≠ [] := by
  have := (hx.row_range ht).1
  exact List.ne_nil_of_length_pos (by omega)

theorem toNat_len_setTables {v l : Nat} (hv : row[v]? = some l) :
    ((d.setTables x).len.read (Config.symbolRow * t + v)).toNat = l := by
  have hsize : ∀ r ∈ x.lens, (r.map (BitVec.ofNat 5)).length ≤ Config.symbolRow := by
    intro r hr
    have := (hx.lengths r hr).1
    have := valuesInUse_length_le x.inUse
    simp only [List.length_map, Config.symbolRow]
    omega
  have hread := d.len.read_writeRows_map (fun r => r.map (BitVec.ofNat 5)) hsize ht
    (show (row.map (BitVec.ofNat 5))[v]? = some (BitVec.ofNat 5 l) by simp [hv])
  have := ((hx.row_range ht).2 l (List.mem_of_getElem? hv)).2
  rw [Decoder.setTables, hread, BitVec.toNat_ofNat]
  omega

omit hx in
theorem read_limit_setTables {l : Nat} {p : Int × Int} (hp : (limitBase row)[l]? = some p) :
    (d.setTables x).limit.read (Config.lengthRow * t + l) = BitVec.ofInt 22 p.1 :=
  d.limit.read_writeRows_map (fun r => (limitBase r).map fun p : Int × Int => BitVec.ofInt 22 p.1)
    (fun r _ => by simp [limitBase_length, Config.lengthRow]) ht
    (by rw [List.getElem?_map, hp]; rfl)

omit hx in
theorem read_base_setTables {l : Nat} {p : Int × Int} (hp : (limitBase row)[l]? = some p) :
    (d.setTables x).base.read (Config.lengthRow * t + l) = BitVec.ofInt 22 p.2 :=
  d.base.read_writeRows_map (fun r => (limitBase r).map fun p : Int × Int => BitVec.ofInt 22 p.2)
    (fun r _ => by simp [limitBase_length, Config.lengthRow]) ht
    (by rw [List.getElem?_map, hp]; rfl)

end TableSection.Legal

/-- Settles O45: a row of a memory is read as it was made from its table, the symbol's place in
`PERM` being the number of symbols before it in order of length and number. -/
theorem tablesHoldTheSection : Obligations.TablesHoldTheSection := by
  unfold Obligations.TablesHoldTheSection
  intro d x hx
  refine ⟨d.toNat_nInUse_setTables x, hx.toNat_nGroups_setTables d, hx.toNat_nSelectors_setTables d,
    fun u hu => d.read_inUse_setTables x (by rw [hx.bitmap]; exact hu),
    fun u hu huse => d.toNat_seqToUnseq_setTables x (valuesInUse_getElem?_countBelow hu huse),
    fun i hi => hx.toNat_selector_setTables d hi, fun t ht v hv => ?_⟩
  have hrow := hx.getElem?_lens ht
  generalize x.lens.getD t [] = row at hrow
  obtain ⟨hsize, hrange⟩ := hx.row_range hrow
  have hne := hx.row_ne_nil hrow
  have hget {w : Nat} (hw : w < row.length) : row[w]? = some (row.getD w 0) :=
    getElem?_eq_some_getD hw 0
  have hgetv := hget (hsize ▸ hv)
  have hmin := hx.toNat_minLen_setTables d hrow
  refine ⟨hx.toNat_len_setTables d hrow hgetv, fun w hw => ?_, ?_, ?_, fun l hl hout => ?_,
    fun l ⟨u, hu, hul⟩ ⟨w, hw, hlw⟩ => ?_⟩
  · rw [hmin]
    exact leastOf_le (List.mem_of_getElem? (hget hw))
  · rw [hmin]
    exact leastOf_mem hne
  · rw [← shorterCount_eq_countP]
    exact hx.toNat_perm_setTables d hrow (permOf_getElem? hgetv)
  · have hentry : (limitBase row)[l]? = some (-1, 0) := by
      refine limitBase_getElem?_outside (hout.imp (fun h => ?_) fun h => ?_) hl
      · obtain ⟨w, hw, hleast⟩ := List.getElem_of_mem (leastOf_mem hne)
        rw [← hleast, ← List.getD_eq_getElem _ 0 hw]
        exact h w hw
      · obtain ⟨w, hw, hgreatest⟩ := List.getElem_of_mem (greatestOf_mem hne)
        rw [← hgreatest, ← List.getD_eq_getElem _ 0 hw]
        exact h w hw
    exact ⟨TableSection.Legal.read_limit_setTables d hrow hentry,
      TableSection.Legal.read_base_setTables d hrow hentry⟩
  · have hentry := limitBase_getElem? ((leastOf_le hu).trans hul) (hlw.trans (le_greatestOf hw))
      (hlw.trans (hrange w hw).2)
    rw [shorterCount_eq_countP] at hentry
    exact ⟨TableSection.Legal.read_limit_setTables d hrow hentry,
      TableSection.Legal.read_base_setTables d hrow hentry⟩

/-- Settles O47: the decoder's table is made from the section's lengths, and under Kraft's
inequality the probe of rule R112 stops at a code's own length and finds its symbol. -/
theorem canonicalCodeDecodes : Obligations.CanonicalCodeDecodes := by
  unfold Obligations.CanonicalCodeDecodes
  intro d x t v r rest hx ht hkraft hv hr hbits
  have hrow := hx.getElem?_lens ht
  generalize x.lens.getD t [] = row at hrow hkraft hbits ⊢
  obtain ⟨hsize, hrange⟩ := hx.row_range hrow
  have hl := getElem?_eq_some_getD (hsize ▸ hv) 0
  have hl20 := (hrange _ (List.mem_of_getElem? hl)).2
  rw [canonicalCodes_getD hl] at hbits
  obtain ⟨q, hq, hcons⟩ := (hx.holdsTable_setTables d hrow hkraft).reads_decSym hl hl20
    (codeOf_lt hkraft hl20 hl) hr hbits
  rw [natToBits_length] at hcons
  exact ⟨q, hq, hcons⟩

end Sys2Proof.Machine
end

section
/-! PROOF. The decoder's readings (46_huffman_decode.md), part 4: the expansion of a symbol stream
and the block it leaves (rules R114 and R115). -/

namespace Sys2Proof.Machine

/-! ## The expansion under way (rule R114) -/

/-- The expansion keeps the number and the counts of the bytes decoded, which fit the block, and the
first digit of a run weighs 1. -/
structure Expansion.Sound (x : Expansion) (nmax : Nat) : Prop where
  counted : (x.withRun 0 1).BetweenRuns
  fits : x.nblock ≤ nmax
  fresh : x.run = 0 → x.weight = 1
  weightPos : 1 ≤ x.weight

theorem Expansion.BetweenRuns.sound {x : Expansion} {nmax : Nat} (h : x.BetweenRuns)
    (hfits : x.nblock ≤ nmax) : x.Sound nmax where
  counted := h.withRun_zero.symm ▸ h
  fits := hfits
  fresh _ := h.weight
  weightPos := h.weight.ge

theorem Expansion.sound_start (nmax : Nat) : Expansion.start.Sound nmax :=
  Expansion.betweenRuns_start.sound (by rw [Expansion.start_nblock]; exact Nat.zero_le _)

theorem Expansion.append_none {x : Expansion} {nmax n : Nat} (uc : Nat) (h : nmax < x.nblock + n) :
    x.append nmax uc n = none := if_pos h

/-- An MTF position appends the byte there, if the block has room for it. -/
theorem Expansion.move_eq (d : Decoder) (nmax j : Nat) (x : Expansion) :
    x.move d nmax j = if nmax < x.nblock + 1 then none
      else some ((x.moved (x.yy.getD j 0) j).appended (d.seqToUnseq.read (x.yy.getD j 0)) 1) := by
  by_cases hfull : nmax < x.nblock + 1
  · rw [if_pos hfull]
    exact Expansion.append_none (x := x.moved (x.yy.getD j 0) j) _ hfull
  · rw [if_neg hfull]
    exact Expansion.append_eq (x := x.moved (x.yy.getD j 0) j) _ (Nat.not_lt.mp hfull)

namespace Expansion.Sound

variable {x : Expansion} {nmax : Nat} (h : x.Sound nmax)
include h

theorem nblock_eq : x.nblock = x.bytes.length := h.counted.nblock

/-- The end of a run appends its copies of the front byte, if the block has room for them. -/
theorem closeRun_eq (d : Decoder) : x.closeRun d nmax = if nmax < x.nblock + x.run then none
    else some ((x.withRun 0 1).appended (x.front d) x.run) := by
  have hfits := h.fits
  by_cases hfull : nmax < x.nblock + x.run
  · rw [if_pos hfull, Expansion.closeRun, if_neg (by omega), Expansion.append_none _ hfull]
    rfl
  · rw [if_neg hfull]
    exact h.counted.closeRun_withRun h.fresh (Nat.not_lt.mp hfull)

theorem closeRun {d : Decoder} {y : Expansion} (hy : x.closeRun d nmax = some y) :
    y.BetweenRuns ∧ y.nblock ≤ nmax := by
  rw [h.closeRun_eq d] at hy
  split at hy
  · contradiction
  · obtain rfl := Option.some.inj hy
    exact ⟨h.counted.appended _ _, by simp only [Expansion.appended, Expansion.withRun]; omega⟩

/-- A digit of a run decodes no byte, and leaves a run that is not empty. -/
theorem digit {s : Nat} {y : Expansion} (hy : x.digit s = some y) : y.Sound nmax := by
  have hpos := h.weightPos
  rw [Expansion.digit] at hy
  split at hy
  · contradiction
  · obtain rfl := Option.some.inj hy
    have hrun : 1 ≤ x.run + (s + 1) * x.weight :=
      (Nat.mul_pos (Nat.succ_pos s) hpos).trans_le (Nat.le_add_left _ _)
    exact ⟨h.counted, h.fits, fun hzero => absurd hzero (Nat.ne_of_gt hrun), by simp only; omega⟩

/-- Every symbol leaves a sound expansion, or fails. -/
theorem symbol {d : Decoder} {s : Nat} {y : Expansion}
    (hy : x.symbol d nmax s = .more y ∨ x.symbol d nmax s = .done y) : y.Sound nmax := by
  unfold Expansion.symbol at hy
  extract_lets eob at hy
  by_cases hend : x.run = 0 ∧ s = eob
  · simp only [if_pos hend, reduceCtorEq, false_or, ExpandStep.done.injEq] at hy
    exact hy ▸ h
  simp only [if_neg hend] at hy
  by_cases hdigit : s ≤ 1
  · simp only [if_pos hdigit] at hy
    cases hx : x.digit s with
    | none => simp [hx] at hy
    | some z =>
      simp only [hx, reduceCtorEq, or_false, ExpandStep.more.injEq] at hy
      exact hy ▸ h.digit hx
  simp only [if_neg hdigit] at hy
  cases hx : x.closeRun d nmax with
  | none => simp [hx] at hy
  | some z =>
    obtain ⟨hbetween, hfits⟩ := h.closeRun hx
    simp only [hx] at hy
    by_cases heob : s = eob
    · simp only [if_pos heob, reduceCtorEq, false_or, ExpandStep.done.injEq] at hy
      exact hy ▸ hbetween.sound hfits
    simp only [if_neg heob, z.move_eq d nmax] at hy
    by_cases hfull : nmax < z.nblock + 1
    · simp only [if_pos hfull, reduceCtorEq, or_self] at hy
    · simp only [if_neg hfull, reduceCtorEq, or_false, ExpandStep.more.injEq] at hy
      exact hy ▸ ((hbetween.withFront _).appended _ _).sound (Nat.not_lt.mp hfull)

end Expansion.Sound

/-- A list of symbols leaves a sound expansion, or fails. -/
theorem Expansion.Sound.expandSymbols {d : Decoder} {nmax : Nat} {y : Expansion} (syms : List Nat) :
    ∀ {x : Expansion}, x.Sound nmax → expandSymbols d nmax x syms = .more y → y.Sound nmax := by
  induction syms with
  | nil => intro x h hy; exact ExpandStep.more.inj hy ▸ h
  | cons s syms ih =>
    intro x h hy
    rw [Machine.expandSymbols] at hy
    cases hs : x.symbol d nmax s with
    | more z => rw [hs] at hy; exact ih (h.symbol (.inl hs)) hy
    | done z => rw [hs] at hy; contradiction
    | fail => rw [hs] at hy; contradiction

/-! ## The block left (rule R115) -/

section
variable {d : Decoder} {x : Expansion} {nmax : Nat} (h : x.Sound nmax) (hmax : nmax ≤ 900000)
include h hmax

theorem Expansion.Sound.toNat_nBlock_setSymbols :
    (d.setSymbols x).nBlock.toNat = x.bytes.length := by
  have := h.fits
  rw [d.toNat_nBlock_setSymbols (by omega), h.nblock_eq]

theorem Expansion.Sound.toNat_unzftab_setSymbols {b : Nat} (hb : b < 256) :
    ((d.setSymbols x).unzftab.read b).toNat = x.bytes.countP fun c => decide (c.toNat = b) := by
  have hfits := h.fits
  have hlen := h.nblock_eq
  have hsize := h.counted.size
  have hcounts : ∀ a, (ha : a < x.counts.length) →
      x.counts[a] = x.bytes.countP fun c => decide (c.toNat = a) := fun a ha => by
    rw [← List.getD_eq_getElem _ 0 ha]
    exact h.counted.counts a (hsize ▸ ha)
  have hsmall : ∀ v ∈ x.counts, v < 2 ^ 20 := by
    intro v hv
    obtain ⟨a, ha, rfl⟩ := List.getElem_of_mem hv
    rw [hcounts a ha]
    have := List.countP_le_length (p := fun c : Byte => decide (c.toNat = a)) (l := x.bytes)
    omega
  have hblen : b < x.counts.length := hsize.symm ▸ hb
  rw [← hcounts b hblen]
  exact d.unzftab.toNat_read_writeNats hsmall hblen

/-- The bytes of `TT` are those of the expansion, and it has no links. -/
theorem Expansion.Sound.legal_setSymbols (hbs : 1 ≤ d.bs100k.toNat ∧ d.bs100k.toNat ≤ 9)
    (horig : d.origPtr.toNat < x.nblock) : (d.setSymbols x).Legal where
  blockSize _ := hbs
  tables := nofun
  links := by rintro (h | h) <;> cases h
  block _ := by
    have hn : (d.setSymbols x).nBlock.toNat = x.bytes.length := h.toNat_nBlock_setSymbols hmax
    have hlen := h.nblock_eq
    have hfits := h.fits
    have hread {i : Nat} (hi : i < (x.bytes.reverse).length) := d.read_tt_setSymbols hi
    refine ⟨by omega, hn ▸ hlen ▸ horig, fun i hi => ?_, fun b hb => ?_⟩
    · exact Decoder.ttLink_of_read (hread (by rw [List.length_reverse]; omega))
    · rw [h.toNat_unzftab_setSymbols hmax hb, hn]
      have hbytes := count_eq_countBelow (l := x.bytes.reverse.map BitVec.toNat)
        (f := fun i => ((d.setSymbols x).ttByte i).toNat) b fun i hi => by
          rw [List.length_map] at hi
          rw [Decoder.ttByte_of_read (hread hi), List.getElem_map]
      rw [List.length_map, List.length_reverse] at hbytes
      rw [← hbytes, List.count, List.countP_map, List.countP_reverse]
      rfl

end

end Sys2Proof.Machine
end

section
/-! PROOF. The decoder's readings (46_huffman_decode.md), part 5: what successful readings answer,
and that every step keeps what the decoder's stages leave (rules R105 to R120), O60. -/

namespace Sys2Proof.Machine

/-! ## What readings answer -/

/-- Whatever the reading answers satisfies `P`. -/
def Reader.Yields {α : Type} (x : Reader α) (P : α → Prop) : Prop :=
  ∀ ⦃r q : BitSource⦄ ⦃a : α⦄, x r = .ok a q → P a

section
variable {α β : Type} {x y : Reader α} {P Q : α → Prop} {R : β → Prop}

theorem yields_pure {a : α} (h : P a) : (Reader.pure a).Yields P :=
  fun _ _ _ heq => (ReadResult.ok.inj heq).1 ▸ h

theorem yields_fail (e : ErrCode) : (Reader.fail e).Yields P := fun _ _ _ heq => nomatch heq

theorem yields_exhausted : Reader.exhausted.Yields P := by
  intro r q a heq
  rw [Reader.exhausted] at heq
  split at heq <;> contradiction

theorem yields_bind {f : α → Reader β} (hx : x.Yields P) (hf : ∀ a, P a → (f a).Yields R) :
    (x.bind f).Yields R := by
  intro r q b heq
  obtain ⟨a, p, ha, hb⟩ := Reader.bind_ok.mp heq
  exact hf a (hx ha) hb

/-- A sequence of readings of which only the last decides. -/
theorem yields_bind_any {f : α → Reader β} (hf : ∀ a, (f a).Yields R) : (x.bind f).Yields R :=
  yields_bind (P := fun _ => True) (fun _ _ _ _ => trivial) fun a _ => hf a

theorem yields_ite {c : Prop} {_ : Decidable c} (hx : c → x.Yields P) (hy : ¬ c → y.Yields P) :
    (if c then x else y).Yields P := by
  by_cases h : c
  · rw [if_pos h]; exact hx h
  · rw [if_neg h]; exact hy h

theorem yields_times (n : Nat) (hx : x.Yields P) :
    (Reader.times n x).Yields fun as => as.length = n ∧ ∀ a ∈ as, P a := by
  induction n with
  | zero => exact yields_pure ⟨rfl, nofun⟩
  | succ n ih =>
    exact yields_bind hx fun a ha => yields_bind ih fun as ⟨hlen, has⟩ =>
      yields_pure ⟨congrArg (· + 1) hlen, List.forall_mem_cons.mpr ⟨ha, has⟩⟩

theorem yields_rd (n : Nat) : (rd n).Yields (· < 2 ^ n) := by
  intro r q a heq
  rw [rd] at heq
  split at heq
  · exact (ReadResult.ok.inj heq).1 ▸ Nat.mod_lt _ (by positivity)
  · contradiction
  · contradiction

end

/-! ## The stream header (rule R105) -/

theorem yields_readStreamHdr : readStreamHdr.Yields fun bs => 1 ≤ bs ∧ bs ≤ 9 :=
  yields_bind_any fun _ => yields_bind_any fun _ => yields_bind_any fun _ =>
    yields_bind_any fun _ => yields_ite (fun _ => yields_fail _) fun _ => yields_pure (by omega)

/-! ## The table section (rules R107 to R109) -/

theorem yields_readGroups (g k : Nat) :
    (readGroups g k).Yields fun bits => bits.length = 16 * k := by
  induction k with
  | zero => exact yields_pure rfl
  | succ k ih =>
    have hsub : (if g.testBit k then (rd 16).bind fun v => .pure (natToBits 16 v)
        else .pure (List.replicate 16 false) : Reader (List Bool)).Yields fun bits =>
          bits.length = 16 :=
      yields_ite (fun _ => yields_bind_any fun v => yields_pure (natToBits_length 16 v))
        fun _ => yields_pure List.length_replicate
    exact yields_bind hsub fun bits hbits => yields_bind ih fun rest hrest =>
      yields_pure (by rw [List.length_append, hbits, hrest]; omega)

theorem yields_readMapping : readMapping.Yields fun inUse => inUse.length = 256 :=
  yields_bind_any fun g => yields_readGroups g 16

theorem yields_readUnary (nG fuel : Nat) : ∀ j < nG, (readUnary nG fuel j).Yields (· < nG) := by
  induction fuel with
  | zero => exact fun _ _ => yields_fail _
  | succ fuel ih =>
    exact fun j hj => yields_bind_any fun _ => yields_ite
      (fun _ => yields_ite (fun _ => yields_fail _) fun h => ih _ (Nat.not_le.mp h))
      fun _ => yields_pure hj

theorem selectorUnMtf_length (js : List Nat) : ∀ pos,
    (selectorUnMtf pos js).length = js.length := by
  induction js with
  | nil => exact fun _ => rfl
  | cons j js ih => exact fun pos => congrArg (· + 1) (ih _)

/-- The inverse selector MTF takes entries of its list. -/
theorem mem_of_mem_selectorUnMtf (js : List Nat) : ∀ {pos : List Nat}, (∀ j ∈ js, j < pos.length) →
    ∀ t ∈ selectorUnMtf pos js, t ∈ pos := by
  induction js with
  | nil => exact fun _ => nofun
  | cons j js ih =>
    intro pos h
    obtain ⟨hj, hjs⟩ := List.forall_mem_cons.mp h
    have hperm : (toFront (pos.getD j 0) j pos).Perm pos := by
      rw [List.getD_eq_getElem _ _ hj]
      exact List.getElem_cons_eraseIdx_perm hj
    refine List.forall_mem_cons.mpr ⟨?_, fun t ht => hperm.mem_iff.mp (ih ?_ t ht)⟩
    · rw [List.getD_eq_getElem _ _ hj]
      exact List.getElem_mem hj
    · rw [hperm.length_eq]
      exact hjs

theorem yields_readSelectors : readSelectors.Yields fun sel =>
    (2 ≤ sel.1 ∧ sel.1 ≤ 6) ∧ (1 ≤ sel.2.length ∧ sel.2.length ≤ 32767) ∧
      ∀ t ∈ sel.2, t < sel.1 := by
  refine yields_bind_any fun nG => yields_ite (fun _ => yields_fail _) fun hnG =>
    yields_bind (yields_rd 15) fun nS hlt => yields_ite (fun _ => yields_fail _) fun hnS =>
      yields_bind (yields_times nS (yields_readUnary nG nG 0 (by omega))) fun js ⟨hlen, hjs⟩ =>
        yields_pure ⟨by omega, ?_, fun t ht => ?_⟩
  · rw [selectorUnMtf_length]
    omega
  · exact List.mem_range.mp (mem_of_mem_selectorUnMtf js (by simpa using hjs) t ht)

theorem yields_lengthLoop (fuel : Nat) : ∀ curr,
    (lengthLoop fuel curr).Yields fun l => 1 ≤ l ∧ l ≤ 20 := by
  have hmax : Config.maxCodeLen = 20 := rfl
  induction fuel with
  | zero => exact fun _ => yields_exhausted
  | succ fuel ih =>
    exact fun curr => yields_ite (fun _ => yields_fail _) fun h => yields_bind_any fun _ =>
      yields_ite (fun _ => yields_pure (by omega)) fun _ => yields_bind_any fun _ => ih _

theorem yields_readLength (curr : Nat) : (readLength curr).Yields fun l => 1 ≤ l ∧ l ≤ 20 :=
  fun _ _ _ heq => yields_lengthLoop _ curr heq

theorem yields_readDeltas (n : Nat) : ∀ curr,
    (readDeltas n curr).Yields fun row => row.length = n ∧ ∀ l ∈ row, 1 ≤ l ∧ l ≤ 20 := by
  induction n with
  | zero => exact fun _ => yields_pure ⟨rfl, nofun⟩
  | succ n ih =>
    exact fun curr => yields_bind (yields_readLength curr) fun l hl =>
      yields_bind (ih l) fun row ⟨hlen, hrow⟩ =>
        yields_pure ⟨congrArg (· + 1) hlen, List.forall_mem_cons.mpr ⟨hl, hrow⟩⟩

/-- `DEC_TABLES` accepts only legal sections. -/
theorem yields_readTables : readTables.Yields TableSection.Legal :=
  yields_bind yields_readMapping fun _ hbitmap => yields_ite (fun _ => yields_fail _) fun hused =>
    yields_bind yields_readSelectors fun _ ⟨hgroups, hcount, hselectors⟩ =>
      yields_bind (yields_times _ (yields_bind_any fun _ => yields_readDeltas _ _))
        fun _ ⟨hlen, hlens⟩ => yields_pure
          { bitmap := hbitmap
            used := fun hnone => hused (List.length_eq_zero_iff.mpr hnone)
            groups := ⟨hgroups.1, hgroups.2, hlen⟩
            count := hcount
            selectors := hselectors
            lengths := hlens }

/-! ## The symbol stream (rules R114 and R115) -/

theorem yields_expandLoop (d : Decoder) (nmax fuel : Nat) : ∀ g {x : Expansion}, x.Sound nmax →
    (expandLoop d nmax fuel g x).Yields fun y => y.Sound nmax := by
  induction fuel with
  | zero => exact fun _ _ _ => yields_fail _
  | succ fuel ih =>
    refine fun g x h => yields_bind_any fun sg => ?_
    cases hs : x.symbol d nmax sg.1 with
    | more y => exact ih sg.2 (h.symbol (.inl hs))
    | done y => exact yields_pure (h.symbol (.inr hs))
    | fail => exact yields_fail _

theorem yields_readSymbols (d : Decoder) : (readSymbols d).Yields fun y =>
    y.Sound (Config.blockUnit * d.bs100k.toNat) ∧ d.origPtr.toNat < y.nblock :=
  yields_bind (yields_expandLoop d _ _ _ (Expansion.sound_start _)) fun _ h =>
    yields_ite (fun _ => yields_fail _) fun horig => yields_pure ⟨h, Nat.not_le.mp horig⟩

/-! ## What the decoder's stages leave (rules R105 to R120) -/

/-- Between the stages only the digit of the stream header is claimed. -/
theorem Decoder.legal_between {d : Decoder}
    (hbs : d.dstate ≠ .idle → 1 ≤ d.bs100k.toNat ∧ d.bs100k.toNat ≤ 9)
    (hs : d.dstate ∈ [.idle, .startBlock, .tables, .endOfBlock, .eof]) : d.Legal where
  blockSize := hbs
  tables h := by rw [h] at hs; simp at hs
  block h := by rw [h] at hs; simp at hs
  links h := by rcases h with h | h <;> rw [h] at hs <;> simp at hs

theorem TableSection.Legal.legal_setTables {x : TableSection} (hx : x.Legal) {d : Decoder}
    (hbs : 1 ≤ d.bs100k.toNat ∧ d.bs100k.toNat ≤ 9) : (d.setTables x).Legal where
  blockSize _ := hbs
  block := nofun
  links := by rintro (h | h) <;> cases h
  tables _ := by
    have hused := List.length_pos_iff.mpr hx.used
    obtain ⟨hlow, hhigh, -⟩ := hx.groups
    rw [d.toNat_nInUse_setTables, hx.toNat_nGroups_setTables, hx.toNat_nSelectors_setTables]
    refine ⟨hused, valuesInUse_length_le _, hlow, hhigh, hx.count.1, fun g hg => ?_,
      fun t ht v hv => ?_⟩
    · rw [hx.toNat_selector_setTables d hg, List.getD_eq_getElem _ _ hg]
      exact hx.selectors _ (List.getElem_mem hg)
    · have hrow := hx.getElem?_lens ht
      obtain ⟨hsize, hrange⟩ := hx.row_range hrow
      have hl := getElem?_eq_some_getD (hsize ▸ hv) 0
      rw [hx.toNat_len_setTables d hrow hl]
      exact hrange _ (List.mem_of_getElem? hl)

/-- `DEC_IBWT` links every sorted position to a position of the block. -/
theorem Decoder.Legal.linkBlock {d : Decoder} (h : d.Legal) (hs : d.dstate = .ibwt) :
    d.linkBlock.Legal := by
  obtain ⟨-, horig, hlinks, hcounts⟩ := h.block hs
  have hunlinked : d.Unlinked := ⟨hlinks, hcounts⟩
  have hin {i : Nat} (hi : i < d.nBlock.toNat) : d.linkBlock.ttLink i < d.nBlock.toNat :=
    link_lt hunlinked.linkBlock_link hi
  have hstate : d.linkBlock.dstate = if d.rand = 1 then .randomizedWalk else .plainWalk := rfl
  refine ⟨fun _ => h.blockSize (by rw [hs]; nofun), fun hsym => ?_, fun hibwt => ?_,
    fun _ => ⟨?_, fun i hi => hin hi, ?_⟩⟩
  · rw [hstate] at hsym; split at hsym <;> contradiction
  · rw [hstate] at hibwt; split at hibwt <;> contradiction
  · rw [hunlinked.linkBlock_tPos horig]
    exact hin horig
  · rw [hstate]
    by_cases hrand : d.rand = 1
    · rw [if_pos hrand]; exact iff_of_true rfl hrand
    · rw [if_neg hrand]; exact iff_of_false nofun hrand

/-! ## Every command and every step -/

/-- Every command's own rule keeps what the decoder's stages leave; an error leaves nothing to be
kept. -/
theorem commandBody_decoderLegal {i : Instr} {s : State} (hi : i ≠ .sysReset)
    (h : s.dec.Legal) : (commandBody i s).LeadsTo i s State.DecoderLegal := by
  have same : s.DecoderLegal := fun _ => h
  have fails (e : ErrCode) (t : State) : (takeError e t).DecoderLegal :=
    fun hzero => absurd hzero e.toBits_ne_zero
  have digit {d : DState} (hs : s.dec.dstate = d) (hd : d ≠ .idle) :
      1 ≤ s.dec.bs100k.toNat ∧ s.dec.bs100k.toNat ≤ 9 := h.blockSize (hs ▸ hd)
  cases i with
  | sysReset => exact absurd rfl hi
  | nop | sinkReset | srcReset | crcReset | crcCombine | blkReset => exact same
  | crcUpdate _ | crcUpdateRun _ _ | crcFold _ => exact same
  | cfg bs =>
    exact leadsTo_ite (fun _ => fails _ _) fun _ => leadsTo_ite (fun _ => fails _ _) fun _ => same
  | sinkWrite n value =>
    rw [commandBody]
    exact leadsTo_sinkCommand (fails _ _) (leadsTo_ite (fun _ => fails _ _) fun _ => same)
  | sinkFlush | sinkFinish | encStreamHdr | encTrailer =>
    rw [commandBody]
    exact leadsTo_sinkCommand (fails _ _) same
  | encBlockHdr rand origPtr =>
    exact leadsTo_unlessNoBlock same fun _ =>
      leadsTo_sinkCommand (fails _ _) (leadsTo_ite (fun _ => fails _ _) fun _ => same)
  | srcRead n =>
    exact leadsTo_ite (fun _ => fails _ _) fun _ =>
      leadsTo_readCommand (fun _ _ _ => same) (fun _ => fails _ _) same
  | blkPut byte =>
    exact leadsTo_ite (fun _ => fails _ _) fun _ => leadsTo_ite (fun _ => fails _ _) fun _ => same
  | encMtf | encTrain | encCodes =>
    exact leadsTo_unlessNoBlock same fun _ => leadsTo_ite (fun _ => fails _ _) fun _ => same
  | encEmit =>
    exact leadsTo_unlessNoBlock same fun _ => leadsTo_ite (fun _ => fails _ _) fun _ =>
      leadsTo_sinkCommand (fails _ _) same
  | decReset => exact fun _ => Decoder.legal_between (fun hs => absurd rfl hs) (by simp)
  | decStreamHdr =>
    refine leadsTo_inDState (fails _ _) fun _ =>
      leadsTo_readCommand (fun bs _ hread _ => ?_) (fun _ => fails _ _) same
    have hbs := yields_readStreamHdr hread
    refine Decoder.legal_between (fun _ => ?_) (by simp)
    rw [countCommand_dec, BitVec.toNat_ofNat]
    omega
  | decBlockStart =>
    refine leadsTo_inDState (fails _ _) fun hs =>
      leadsTo_readCommand (fun b _ _ => ?_) (fun _ => fails _ _) same
    have hbs := digit hs nofun
    cases b with
    | block crc rand origPtr => exact fun _ => Decoder.legal_between (fun _ => hbs) (by simp)
    | trailer => exact fun _ => Decoder.legal_between (fun _ => hbs) (by simp)
  | decTables =>
    exact leadsTo_inDState (fails _ _) fun hs => leadsTo_readCommand
      (fun _ _ hread _ => (yields_readTables hread).legal_setTables (digit hs nofun))
      (fun _ => fails _ _) same
  | decSymbols =>
    refine leadsTo_inDState (fails _ _) fun hs =>
      leadsTo_readCommand (fun y _ hread _ => ?_) (fun _ => fails _ _) same
    obtain ⟨hsound, horig⟩ := yields_readSymbols s.dec hread
    have hbs := digit hs nofun
    exact hsound.legal_setSymbols (by simp only [Config.blockUnit]; omega) hbs horig
  | decIbwt => exact leadsTo_inDState (fails _ _) fun hs => leadsTo_ibwt fun _ => h.linkBlock hs
  | decWalk =>
    refine leadsTo_ite (fun _ => fails _ _) fun hs _ => ?_
    have hwalking : s.dec.dstate ≠ .idle := fun hidle => hs (by rw [hidle]; exact ⟨nofun, nofun⟩)
    exact Decoder.legal_between (fun _ => h.blockSize hwalking) (by simp)
  | decBlockEnd =>
    rw [commandBody]
    refine leadsTo_inDState (fails _ _) fun hs => leadsTo_ite (fun _ => fails _ _) fun _ _ => ?_
    exact Decoder.legal_between (fun _ => digit hs nofun) (by simp)

theorem decoderLegal_stepInvariant : StepInvariant State.DecoderLegal where
  queue _ _ h := h
  effect a s h := by rw [hostEffect_frame]; exact h
  free _ h := h
  reset _ _ _ := Decoder.legal_between (fun hs => absurd rfl hs) (by simp [Decoder.resetAt])
  count _ h := h
  error e _ _ _ hzero := absurd hzero e.toBits_ne_zero
  body _ _ hi herr _ h := commandBody_decoderLegal hi (h herr)

/-- Settles O60: a reading that succeeds answers only what its checks let pass, each stage leaves
what it was answered, and the linking command links each sorted position to a position of the
block. -/
theorem decoderLegalKeptByEveryStep : Obligations.DecoderLegalKeptByEveryStep := by
  unfold Obligations.DecoderLegalKeptByEveryStep
  exact fun _ _ _ h hstep => decoderLegal_stepInvariant.step h hstep

end Sys2Proof.Machine
end

section
/-! PROOF. The decoder's readings (46_huffman_decode.md), part 6: table sections with a bad field
(rules R107 to R109 and R111), O46. -/

namespace Sys2Proof.Machine

/-! ## Readings that may fail on their way -/

/-- Where the bits to be read begin with `bits`, the reading raises `e`, or it takes those bits and
answers something that satisfies `P`. -/
def Reader.Tries {α : Type} (x : Reader α) (bits : List Bool) (e : ErrCode) (P : α → Prop) : Prop :=
  ∀ ⦃r : BitSource⦄ ⦃rest : List Bool⦄, r.Tidy → r.bits = bits ++ rest →
    x r = .raise e ∨ ∃ a q, x r = .ok a q ∧ r.Consumed q bits.length ∧ P a

section
variable {α β γ : Type} {x : Reader α} {f : α → Reader β} {u v : List Bool} {e : ErrCode}
  {P : α → Prop} {Q : β → Prop}

theorem Reader.Reads.tries {a : α} (hx : x.Reads u a) (ha : P a) : x.Tries u e P := by
  intro r rest hr hbits
  obtain ⟨q, hq, hcons⟩ := hx hr hbits
  exact .inr ⟨a, q, hq, hcons, ha⟩

theorem Reader.Raises.tries (hx : x.Raises u e) (v : List Bool) : x.Tries (u ++ v) e P :=
  fun _ _ hr hbits => .inl (hx.append v hr hbits)

theorem tries_bind (hx : x.Tries u e P) (hf : ∀ a, P a → (f a).Tries v e Q) :
    (x.bind f).Tries (u ++ v) e Q := by
  intro r rest hr hbits
  rw [List.append_assoc] at hbits
  rcases hx hr hbits with hraise | ⟨a, p, hp, hfirst, ha⟩
  · exact .inl (Reader.bind_raise.mpr (.inl hraise))
  · rcases hf a ha hfirst.tidy (by rw [hfirst.stream, hbits, List.drop_left]) with
      hraise | ⟨b, q, hq, hthen, hb⟩
    · exact .inl (Reader.bind_raise.mpr (.inr ⟨a, p, hp, hraise⟩))
    · exact .inr ⟨b, q, Reader.bind_ok.mpr ⟨a, p, hp, hq⟩,
        by rw [List.length_append]; exact hfirst.trans hthen, hb⟩

theorem tries_bind_pure {g : α → β} (hx : x.Tries u e P) (hg : ∀ a, P a → Q (g a)) :
    (x.bind fun a => .pure (g a)).Tries u e Q := by
  have := tries_bind (f := fun a => .pure (g a)) hx fun a ha => (reads_pure (g a)).tries (hg a ha)
  rwa [List.append_nil] at this

/-- An error behind a reading that may itself raise it. -/
theorem raises_bind_tries (hx : x.Tries u e P) (hf : ∀ a, P a → (f a).Raises v e) :
    (x.bind f).Raises (u ++ v) e := by
  intro r rest hr hbits
  rw [List.append_assoc] at hbits
  rcases hx hr hbits with hraise | ⟨a, p, hp, hfirst, ha⟩
  · exact Reader.bind_raise.mpr (.inl hraise)
  · exact Reader.bind_raise.mpr (.inr ⟨a, p, hp,
      hf a ha hfirst.tidy (by rw [hfirst.stream, hbits, List.drop_left])⟩)

theorem tries_ite {c : Prop} {_ : Decidable c} {y : Reader α} (hx : c → x.Tries u e P)
    (hy : ¬ c → y.Tries u e P) : (if c then x else y).Tries u e P := by
  by_cases h : c
  · rw [if_pos h]; exact hx h
  · rw [if_neg h]; exact hy h

theorem tries_times {bits : γ → List Bool} (items : List γ)
    (h : ∀ c ∈ items, x.Tries (bits c) e fun _ => True) :
    (Reader.times items.length x).Tries (items.flatMap bits) e fun _ => True := by
  induction items with
  | nil => exact (reads_pure []).tries trivial
  | cons c items ih =>
    obtain ⟨hc, hitems⟩ := List.forall_mem_cons.mp h
    exact tries_bind hc fun a _ => tries_bind_pure (ih hitems) fun _ _ => trivial

/-- Readings in a row, one of them bad. -/
theorem raises_times {bits : γ → List Bool} (hbad : x.Raises v e) (items : List γ) :
    (∀ c ∈ items, x.Tries (bits c) e fun _ => True) → ∀ {n}, items.length < n →
      (Reader.times n x).Raises (items.flatMap bits ++ v) e := by
  induction items with
  | nil =>
    intro _ n hn
    obtain ⟨n, rfl⟩ : ∃ m, n = m + 1 := ⟨n - 1, by rw [List.length_nil] at hn; omega⟩
    exact raises_bind_left _ hbad
  | cons c items ih =>
    intro h n hn
    rw [List.length_cons] at hn
    obtain ⟨n, rfl⟩ : ∃ m, n = m + 1 := ⟨n - 1, by omega⟩
    obtain ⟨hc, hitems⟩ := List.forall_mem_cons.mp h
    rw [List.flatMap_cons, List.append_assoc]
    exact raises_bind_tries hc fun _ _ => raises_bind_left _ (ih hitems (by omega))

end

/-- The `n` bits of any number are read as its low bits. -/
theorem reads_rd_mod {n : Nat} (hn : n ≤ 32) (v : Nat) :
    (rd n).Reads (natToBits n v) (v % 2 ^ n) := by
  rw [← natToBits_mod]
  exact reads_rd hn (Nat.mod_lt _ (by positivity))

/-! ## The bitmap (rule R107) -/

theorem natToBits_succ (n v : Nat) : natToBits (n + 1) v = v.testBit n :: natToBits n v := by
  have hfirst : natToBits 1 (v >>> n) = [v.testBit n] := by
    simp [natToBits]
  rw [Nat.add_comm, natToBits_add, hfirst, List.singleton_append]

/-- Any sub-bitmaps, as many as group bits are set, are read, and no byte is lost. -/
theorem exists_reads_readGroups (g k : Nat) : ∀ {subs : List Nat},
    subs.length = (natToBits k g).count true →
    ∃ inUse, (readGroups g k).Reads (subs.flatMap (natToBits 16)) inUse ∧ inUse.length = 16 * k ∧
      inUse.count true = (subs.flatMap (natToBits 16)).count true := by
  induction k with
  | zero =>
    intro subs hlen
    obtain rfl := List.length_eq_zero_iff.mp hlen
    exact ⟨[], reads_pure [], rfl, rfl⟩
  | succ k ih =>
    intro subs hlen
    rw [natToBits_succ] at hlen
    cases hbit : g.testBit k with
    | true =>
      rw [hbit, List.count_cons_self] at hlen
      obtain ⟨v, subs, rfl⟩ := List.exists_cons_of_length_eq_add_one hlen
      obtain ⟨inUse, hread, hsize, hcount⟩ := ih (Nat.succ.inj hlen)
      refine ⟨natToBits 16 v ++ inUse, ?_,
        by rw [List.length_append, natToBits_length, hsize]; omega,
        by rw [List.flatMap_cons, List.count_append, List.count_append, hcount]⟩
      have hsub := reads_bind_pure (natToBits 16) (reads_rd_mod (show 16 ≤ 32 by decide) v)
      rw [natToBits_mod] at hsub
      exact reads_bind (reads_ite_pos hbit hsub) (reads_bind_pure _ hread)
    | false =>
      rw [hbit, List.count_cons_of_ne Bool.false_ne_true] at hlen
      obtain ⟨inUse, hread, hsize, hcount⟩ := ih hlen
      refine ⟨List.replicate 16 false ++ inUse, ?_,
        by rw [List.length_append, List.length_replicate, hsize]; omega,
        by rw [List.count_append, hcount]; simp⟩
      exact reads_bind (u := []) (reads_ite_neg (by simp [hbit]) (reads_pure _))
        (reads_bind_pure _ hread)

theorem valuesInUse_length {inUse : List Bool} (h : inUse.length = 256) :
    (valuesInUse inUse).length = inUse.count true := by
  have hmap : inUse = (List.range 256).map fun u => inUse.getD u false :=
    List.ext_getElem (by simp [h]) fun u hu _ => by simp [hu]
  rw [valuesInUse, ← List.countP_eq_length_filter]
  conv_rhs => rw [hmap, List.count, List.countP_map]
  exact List.countP_congr fun u _ => by simp

/-- A group bitmap with its sub-bitmaps, as many bytes in use as the sub-bitmaps have 1 bits. -/
theorem exists_reads_readMapping {groups : Nat} {subs : List Nat}
    (h : subs.length = (natToBits 16 groups).count true) :
    ∃ inUse, readMapping.Reads (natToBits 16 groups ++ subs.flatMap (natToBits 16)) inUse ∧
      (valuesInUse inUse).length = (subs.flatMap (natToBits 16)).count true := by
  rw [← natToBits_mod] at h
  obtain ⟨inUse, hread, hsize, hcount⟩ := exists_reads_readGroups _ 16 h
  exact ⟨inUse, reads_bind (reads_rd_mod (by decide) groups) hread,
    (valuesInUse_length hsize).trans hcount⟩

/-! ## Selectors (rule R108) -/

/-- The 1 bit that reaches the table count is refused. -/
theorem raises_readUnary {nG : Nat} (k : Nat) : ∀ {fuel j : Nat}, nG ≤ j + (k + 1) →
    (readUnary nG fuel j).Raises (List.replicate (k + 1) true) .table := by
  have always (bits : List Bool) : (Reader.fail (α := Nat) .table).Raises bits .table :=
    (raises_fail .table).append bits
  induction k with
  | zero =>
    intro fuel j hj
    cases fuel with
    | zero => exact always _
    | succ fuel =>
      exact raises_bind (u := [true]) (v := []) (reads_bit true)
        (raises_ite_pos rfl (raises_ite_pos (by omega) (raises_fail _)))
  | succ k ih =>
    intro fuel j hj
    cases fuel with
    | zero => exact always _
    | succ fuel =>
      refine raises_bind (u := [true]) (reads_bit true) (raises_ite_pos rfl ?_)
      by_cases hlast : nG ≤ j + 1
      · exact raises_ite_pos hlast (always _)
      · exact raises_ite_neg hlast (ih (by omega))

theorem raises_readUnary_count {nG : Nat} (h : 1 ≤ nG) :
    (readUnary nG nG 0).Raises (List.replicate nG true) .table := by
  obtain ⟨k, rfl⟩ : ∃ k, nG = k + 1 := ⟨nG - 1, by omega⟩
  exact raises_readUnary k (by omega)

theorem tries_readUnary {nG : Nat} (h : 1 ≤ nG) (j : Nat) :
    (readUnary nG nG 0).Tries (unaryBits j) .table fun _ => True := by
  rcases Nat.lt_or_ge j nG with hlt | hge
  · exact (reads_readUnary (nG := nG) (fuel := nG) (j := 0) j (by omega) hlt).tries trivial
  · have hsplit : unaryBits j =
        List.replicate nG true ++ (List.replicate (j - nG) true ++ [false]) := by
      rw [unaryBits, ← List.append_assoc, List.replicate_append_replicate, Nat.add_sub_cancel' hge]
    rw [hsplit]
    exact (raises_readUnary_count h).tries _

section
variable {g n : Nat} (hlow : 2 ≤ g) (hhigh : g ≤ 6)

theorem raises_readSelectors_groups (hg : g < 8) (hbad : g < 2 ∨ 6 < g) :
    readSelectors.Raises (natToBits 3 g) .table :=
  raises_bind_last (reads_rd (by decide) hg) (raises_ite_pos hbad (raises_fail _))

include hlow hhigh

theorem raises_readSelectors_none :
    readSelectors.Raises (natToBits 3 g ++ natToBits 15 0) .table :=
  raises_bind (reads_rd (by decide) (by omega)) <| raises_ite_neg (by omega) <|
    raises_bind_last (reads_rd (by decide) (by decide)) (raises_ite_pos rfl (raises_fail _))

theorem raises_readSelectors_value {before : List Nat} (hn : before.length < n) (hn15 : n < 32768) :
    readSelectors.Raises (natToBits 3 g ++ (natToBits 15 n ++
      (before.flatMap unaryBits ++ List.replicate g true))) .table :=
  raises_bind (reads_rd (by decide) (by omega)) <| raises_ite_neg (by omega) <|
    raises_bind (reads_rd (by decide) hn15) <| raises_ite_neg (by omega) <|
      raises_bind_left _ <| raises_times (raises_readUnary_count (by omega)) before
        (fun j _ => tries_readUnary (by omega) j) hn

theorem tries_readSelectors {selectors : List Nat} (hsome : 1 ≤ selectors.length)
    (hfew : selectors.length < 32768) :
    readSelectors.Tries (natToBits 3 g ++ (natToBits 15 selectors.length ++
      selectors.flatMap unaryBits)) .table fun sel => sel.1 = g := by
  have hgroups : (rd 3).Tries (natToBits 3 g) .table (· = g) :=
    (reads_rd (by decide) (by omega)).tries rfl
  have hcount : (rd 15).Tries (natToBits 15 selectors.length) .table (· = selectors.length) :=
    (reads_rd (by decide) hfew).tries rfl
  refine tries_bind hgroups ?_
  rintro _ rfl
  refine tries_ite (fun _ => by omega) fun _ => tries_bind hcount ?_
  rintro _ rfl
  exact tries_ite (fun _ => by omega) fun _ => tries_bind_pure
    (tries_times selectors fun j _ => tries_readUnary (by omega) j) fun _ _ => rfl

end

/-! ## Code lengths (rule R109) -/

/-- One step up or down. -/
theorem steppedLength_cons {curr : Nat} (h : 1 ≤ curr) (up : Bool) (steps : List Bool) :
    steppedLength curr (up :: steps) =
      steppedLength (if (!up).toNat = 0 then curr + 1 else curr - 1) steps := by
  cases up <;> simp [steppedLength] <;> omega

/-- Steps are taken from where the steps before them led. -/
theorem steppedLength_append {curr l : Nat} {a : List Bool} (h : (l : Int) = steppedLength curr a)
    (b : List Bool) : steppedLength l b = steppedLength curr (a ++ b) := by
  simp only [steppedLength, List.count_append] at h ⊢
  push_cast
  omega

theorem stepBits_cons (up : Bool) (steps : List Bool) :
    stepBits (up :: steps) = true :: (!up) :: stepBits steps := rfl

theorem stepBits_length (steps : List Bool) : (stepBits steps).length = 2 * steps.length := by
  induction steps with
  | nil => rfl
  | cons up steps ih =>
    rw [stepBits_cons, List.length_cons, List.length_cons, ih, List.length_cons]
    omega

/-- A length out of range is refused before a bit is read. -/
theorem raises_lengthLoop_range {fuel curr : Nat} (h : curr < 1 ∨ 20 < curr) :
    (lengthLoop (fuel + 1) curr).Raises [] .table := raises_ite_pos h (raises_fail _)

section
variable {fuel curr : Nat} (hcurr : ¬ (curr < 1 ∨ 20 < curr)) (up : Bool) {bits : List Bool}
include hcurr

/-- A step from a length in range. -/
theorem tries_lengthLoop_step {P : Nat → Prop}
    (h : (lengthLoop fuel (if (!up).toNat = 0 then curr + 1 else curr - 1)).Tries bits .table P) :
    (lengthLoop (fuel + 1) curr).Tries (true :: (!up) :: bits) .table P := by
  have hstep : (rd 1).Tries [!up] .table (· = (!up).toNat) := (reads_bit _).tries rfl
  have hmore : (rd 1).Tries [true] .table (· = 1) := (reads_bit true).tries rfl
  refine tries_ite (fun hbad => absurd hbad hcurr) fun _ => tries_bind (u := [true]) hmore ?_
  rintro _ rfl
  refine tries_ite nofun fun _ => tries_bind (u := [!up]) hstep ?_
  rintro _ rfl
  exact h

theorem raises_lengthLoop_step
    (h : (lengthLoop fuel (if (!up).toNat = 0 then curr + 1 else curr - 1)).Raises bits .table) :
    (lengthLoop (fuel + 1) curr).Raises (true :: (!up) :: bits) .table :=
  raises_ite_neg hcurr <| raises_bind (u := [true]) (reads_bit true) <|
    raises_ite_neg (by decide) <| raises_bind (u := [!up]) (reads_bit _) h

end

/-- The steps of a length lead out of 1..20 somewhere, or to the length they add up to. -/
theorem tries_lengthLoop (steps : List Bool) : ∀ {fuel curr : Nat}, steps.length < fuel →
    (lengthLoop fuel curr).Tries (lengthCodeBits steps) .table
      fun l => (l : Int) = steppedLength curr steps := by
  induction steps with
  | nil =>
    intro fuel curr hfuel
    obtain ⟨fuel, rfl⟩ : ∃ n, fuel = n + 1 := ⟨fuel - 1, by rw [List.length_nil] at hfuel; omega⟩
    by_cases hcurr : curr < 1 ∨ 20 < curr
    · exact (raises_lengthLoop_range hcurr).tries _
    · have hread : (lengthLoop (fuel + 1) curr).Reads [false] curr :=
        reads_ite_neg hcurr <|
          reads_bind_last (reads_bit false) (reads_ite_pos rfl (reads_pure curr))
      exact hread.tries (by simp [steppedLength])
  | cons up steps ih =>
    intro fuel curr hfuel
    rw [List.length_cons] at hfuel
    obtain ⟨fuel, rfl⟩ : ∃ n, fuel = n + 1 := ⟨fuel - 1, by omega⟩
    by_cases hcurr : curr < 1 ∨ 20 < curr
    · exact (raises_lengthLoop_range hcurr).tries _
    · rw [steppedLength_cons (by omega)]
      exact tries_lengthLoop_step hcurr up (ih (Nat.lt_of_succ_lt_succ hfuel))

/-- Steps that lead out of 1..20 are refused there. -/
theorem raises_lengthLoop (steps : List Bool) : ∀ {fuel curr : Nat}, steps.length < fuel →
    steppedLength curr steps < 1 ∨ 20 < steppedLength curr steps →
    (lengthLoop fuel curr).Raises (stepBits steps) .table := by
  induction steps with
  | nil =>
    intro fuel curr hfuel hbad
    obtain ⟨fuel, rfl⟩ : ∃ n, fuel = n + 1 := ⟨fuel - 1, by rw [List.length_nil] at hfuel; omega⟩
    exact raises_lengthLoop_range (by simp [steppedLength] at hbad; omega)
  | cons up steps ih =>
    intro fuel curr hfuel hbad
    rw [List.length_cons] at hfuel
    obtain ⟨fuel, rfl⟩ : ∃ n, fuel = n + 1 := ⟨fuel - 1, by omega⟩
    by_cases hcurr : curr < 1 ∨ 20 < curr
    · exact (raises_lengthLoop_range hcurr).append _
    · rw [steppedLength_cons (by omega)] at hbad
      exact raises_lengthLoop_step hcurr up (ih (Nat.lt_of_succ_lt_succ hfuel) hbad)

/-- There are at least as many bits to be read as a known beginning has. -/
theorem BitSource.le_available {r : BitSource} {bits rest : List Bool} (h : r.bits = bits ++ rest) :
    bits.length ≤ r.available := by
  rw [← r.bits_length, h, List.length_append]
  exact Nat.le_add_right _ _

theorem tries_readLength (curr : Nat) (steps : List Bool) :
    (readLength curr).Tries (lengthCodeBits steps) .table
      fun l => (l : Int) = steppedLength curr steps := by
  intro r rest hr hbits
  have hlen := BitSource.le_available hbits
  rw [lengthCodeBits, List.length_append, stepBits_length] at hlen
  exact tries_lengthLoop steps (by omega) hr hbits

theorem raises_readLength {curr : Nat} {steps : List Bool}
    (h : steppedLength curr steps < 1 ∨ 20 < steppedLength curr steps) :
    (readLength curr).Raises (stepBits steps) .table := by
  intro r rest hr hbits
  have hlen := BitSource.le_available hbits
  rw [stepBits_length] at hlen
  exact raises_lengthLoop steps (by omega) h hr hbits

theorem tries_readDeltas (codes : List (List Bool)) : ∀ curr,
    (readDeltas codes.length curr).Tries (codes.flatMap lengthCodeBits) .table fun _ => True := by
  induction codes with
  | nil => exact fun _ => (reads_pure []).tries trivial
  | cons c codes ih =>
    exact fun curr => tries_bind (tries_readLength curr c) fun l _ =>
      tries_bind_pure (ih l) fun _ _ => trivial

theorem raises_readDeltas {steps : List Bool} (codes : List (List Bool)) : ∀ {curr n : Nat},
    codes.length < n → steppedLength curr (codes.flatten ++ steps) < 1 ∨
      20 < steppedLength curr (codes.flatten ++ steps) →
    (readDeltas n curr).Raises (codes.flatMap lengthCodeBits ++ stepBits steps) .table := by
  induction codes with
  | nil =>
    intro curr n hn hbad
    obtain ⟨n, rfl⟩ : ∃ m, n = m + 1 := ⟨n - 1, by rw [List.length_nil] at hn; omega⟩
    exact raises_bind_left _ (raises_readLength hbad)
  | cons c codes ih =>
    intro curr n hn hbad
    rw [List.length_cons] at hn
    obtain ⟨n, rfl⟩ : ∃ m, n = m + 1 := ⟨n - 1, by omega⟩
    rw [List.flatten_cons, List.append_assoc] at hbad
    rw [List.flatMap_cons, List.append_assoc]
    refine raises_bind_tries (tries_readLength curr c) fun l hl =>
      raises_bind_left _ (ih (by omega) ?_)
    rwa [steppedLength_append hl]

theorem tries_readTable {a : Nat} (seed : Nat) {codes : List (List Bool)} (h : codes.length = a) :
    (readTable a).Tries (natToBits 5 seed ++ codes.flatMap lengthCodeBits) .table
      fun _ => True := by
  subst h
  have hseed : (rd 5).Tries (natToBits 5 seed) .table fun _ => True :=
    (reads_rd_mod (by decide) seed).tries trivial
  exact tries_bind hseed fun l _ => tries_readDeltas codes l

theorem raises_readTable {a seed : Nat} {codes : List (List Bool)} {steps : List Bool}
    (hseed : seed < 32) (ha : codes.length < a)
    (hbad : steppedLength seed (codes.flatten ++ steps) < 1 ∨
      20 < steppedLength seed (codes.flatten ++ steps)) :
    (readTable a).Raises
      (natToBits 5 seed ++ (codes.flatMap lengthCodeBits ++ stepBits steps)) .table :=
  raises_bind (reads_rd (by decide) hseed) (raises_readDeltas codes ha hbad)

/-! ## The section (rule R111) -/

section
variable {bitmap bits : List Bool} {inUse : List Bool} (hmap : readMapping.Reads bitmap inUse)
include hmap

theorem raises_readTables_unused (h : (valuesInUse inUse).length = 0) :
    readTables.Raises bitmap .table :=
  raises_bind_last hmap (raises_ite_pos h (raises_fail _))

theorem raises_readTables_selectors (h : readSelectors.Raises bits .table) :
    readTables.Raises (bitmap ++ bits) .table := by
  by_cases hused : (valuesInUse inUse).length = 0
  · exact (raises_readTables_unused hmap hused).append bits
  · exact raises_bind hmap (raises_ite_neg hused (raises_bind_left _ h))

theorem raises_readTables_lengths {g : Nat} {selectors : List Bool}
    (hsel : readSelectors.Tries selectors .table fun sel => sel.1 = g)
    (h : (Reader.times g (readTable ((valuesInUse inUse).length + 2))).Raises bits .table) :
    readTables.Raises (bitmap ++ (selectors ++ bits)) .table := by
  by_cases hused : (valuesInUse inUse).length = 0
  · exact (raises_readTables_unused hmap hused).append _
  · refine raises_bind hmap (raises_ite_neg hused (raises_bind_tries hsel ?_))
    rintro sel rfl
    exact raises_bind_left _ h

end

/-- Settles O46: the fields are checked as they are read, and a field before the bad one that is bad
itself raises the same error. -/
theorem decTablesRejectsBadSections : Obligations.DecTablesRejectsBadSections := by
  unfold Obligations.DecTablesRejectsBadSections
  intro s groups subs rest herr hs htidy hsubs bitmap used
  obtain ⟨inUse, hmap, hused⟩ : ∃ inUse, readMapping.Reads bitmap inUse ∧
    (valuesInUse inUse).length = used := exists_reads_readMapping hsubs
  have hbody := inDState_here (f := readCommand readTables spoilTables fun x r s =>
    .done { s with src := r, dec := s.dec.setTables x }) hs
  have fails {bits : List Bool} (h : readTables.Raises bits .table)
      (hbits : s.src.bits = bits ++ rest) : ∃ t, exec .decTables s = .next t ∧ t.err = 0x04 :=
    exec_of_raises (i := .decTables) rfl herr hbody (h htidy hbits)
  refine ⟨fun hnone hbits => ?_, fun g hg hbad hbits => ?_, fun g hlow hhigh hbits => ?_,
    fun g n before hlow hhigh hn hn15 hbits => ?_,
    fun g selectors before seed codes steps hlow hhigh hsome hfew hbefore hsizes hseed hcodes hbad
      hbits => ?_⟩
  · exact fails (raises_readTables_unused hmap (hused.trans hnone)) hbits
  · exact fails (raises_readTables_selectors hmap (raises_readSelectors_groups hg hbad)) hbits
  · exact fails (raises_readTables_selectors hmap (raises_readSelectors_none hlow hhigh))
      (by simpa only [List.append_assoc] using hbits)
  · exact fails (raises_readTables_selectors hmap (raises_readSelectors_value hlow hhigh hn hn15))
      (by simpa only [List.append_assoc] using hbits)
  · have htable := raises_readTable (a := (valuesInUse inUse).length + 2) hseed
      (by rw [hused]; exact hcodes) hbad
    have htables := raises_times htable before (n := g) (fun x hx => tries_readTable x.1
      (codes := x.2) (by rw [hused]; exact hsizes x hx)) hbefore
    exact fails (raises_readTables_lengths hmap (tries_readSelectors hlow hhigh hsome hfew) htables)
      (by simpa only [List.append_assoc] using hbits)

end Sys2Proof.Machine
end

section
/-! PROOF. The decoder's readings (46_huffman_decode.md), part 7: bits that begin with no code of a
table (rule R112). -/

namespace Sys2Proof.Machine

/-! ## Bits above every code -/

/-- No canonical code of the table stands at the beginning of these bits. -/
def NoCodeBegins (row : List Nat) (w : List Bool) : Prop :=
  ∀ v < row.length, ¬ natToBits (row.getD v 0) ((canonicalCodes row).getD v 0) <+: w

theorem bitsToNat_take_succ {w : List Bool} {l : Nat} (h : l < w.length) :
    bitsToNat (w.take (l + 1)) = 2 * bitsToNat (w.take l) + w[l].toNat := by
  rw [List.take_succ_eq_append_getElem h, bitsToNat_concat]

/-- Each rank among the symbols of a length is the rank of one of them. -/
theorem exists_rank {l : Nat} (lens : List Nat) : ∀ {k : Nat}, k < lens.count l →
    ∃ v : Nat, lens[v]? = some l ∧ (lens.take v).count l = k := by
  induction lens with
  | nil => exact fun h => absurd h (Nat.not_lt_zero _)
  | cons x lens ih =>
    intro k hk
    by_cases hx : x = l
    · subst hx
      cases k with
      | zero => exact ⟨0, rfl, rfl⟩
      | succ k =>
        rw [List.count_cons_self] at hk
        obtain ⟨v, hv, hrank⟩ := ih (Nat.lt_of_succ_lt_succ hk)
        exact ⟨v + 1, hv, by rw [List.take_succ_cons, List.count_cons_self, hrank]⟩
    · rw [List.count_cons_of_ne hx] at hk
      obtain ⟨v, hv, hrank⟩ := ih hk
      exact ⟨v + 1, hv, by rw [List.take_succ_cons, List.count_cons_of_ne hx, hrank]⟩

section
variable {row : List Nat} {w : List Bool} (h : NoCodeBegins row w)
include h

/-- Bits that are not below the codes of a length are above them. -/
theorem NoCodeBegins.above_of_first_le {l : Nat} (hl : l ≤ w.length)
    (hfirst : firstCode row l ≤ bitsToNat (w.take l)) :
    firstCode row l + row.count l ≤ bitsToNat (w.take l) := by
  by_contra hlt
  obtain ⟨v, hv, hrank⟩ := exists_rank row (l := l)
    (k := bitsToNat (w.take l) - firstCode row l) (by omega)
  have hcode : codeOf row v l = bitsToNat (w.take l) := by rw [codeOf, hrank]; omega
  have hbits := natToBits_bitsToNat (w.take l)
  rw [List.length_take_of_le hl] at hbits
  obtain ⟨hvlt, hget⟩ := List.getElem?_eq_some_iff.mp hv
  refine h v hvlt ?_
  rw [canonicalCodes_getD hv, List.getD_eq_getElem _ _ hvlt, hget, hcode, hbits]
  exact List.take_prefix l w

/-- The first bits are above all codes of their length: the codes of a length extend those above the
codes of the length before. -/
theorem NoCodeBegins.above {l : Nat} : l ≤ w.length →
    firstCode row l + row.count l ≤ bitsToNat (w.take l) := by
  induction l with
  | zero => exact fun hl => h.above_of_first_le hl (Nat.zero_le _)
  | succ l ih =>
    intro hl
    have hbefore := ih (by omega)
    refine h.above_of_first_le hl ?_
    rw [firstCode_succ, bitsToNat_take_succ (by omega)]
    omega

end

/-! ## Decoding a symbol from such bits -/

section
variable {d : Decoder} {t : Nat} {row : List Nat} {w : List Bool}
  (hlimit : ∀ l ≤ 20, (d.limit.read (Config.lengthRow * t + l)).toInt <
    (firstCode row l : Int) + row.count l)
  (h : NoCodeBegins row w)
include hlimit h

/-- At a length up to 20 the probe goes on. -/
theorem NoCodeBegins.probeSymbol_eq {zn : Nat} (fuel : Nat) (hzn : zn ≤ 20) (hw : zn ≤ w.length) :
    probeSymbol d t (fuel + 1) zn (bitsToNat (w.take zn)) = (rd 1).bind fun b =>
      probeSymbol d t fuel (zn + 1) (2 * bitsToNat (w.take zn) + b) := by
  have habove := h.above hw
  have hlim := hlimit zn hzn
  rw [probeSymbol, if_neg (show ¬ Config.maxCodeLen < zn from Nat.not_lt.mpr hzn),
    if_neg (by omega)]

/-- The probe of 21 bits passes length 20. -/
theorem NoCodeBegins.raises_probeSymbol (hw : w.length = 21) (fuel : Nat) : ∀ {zn : Nat}, zn ≤ 21 →
    (probeSymbol d t fuel zn (bitsToNat (w.take zn))).Raises (w.drop zn) .code := by
  induction fuel with
  | zero => exact fun _ => (raises_fail .code).append _
  | succ fuel ih =>
    intro zn hzn
    by_cases hlast : zn = 21
    · exact raises_ite_pos (by rw [hlast]; decide) ((raises_fail .code).append _)
    · have hlt : zn < w.length := by omega
      have hrest := ih (zn := zn + 1) (by omega)
      rw [bitsToNat_take_succ hlt] at hrest
      rw [h.probeSymbol_eq hlimit fuel (by omega) hlt.le, List.drop_eq_getElem_cons hlt]
      exact raises_bind (u := [w[zn]]) (reads_bit _) hrest

/-- The probe of at most 20 bits needs more. -/
theorem NoCodeBegins.runsOut_probeSymbol (hw : w.length ≤ 20) (m : Nat) : ∀ {fuel zn : Nat},
    m < fuel → zn + m = w.length →
    (probeSymbol d t fuel zn (bitsToNat (w.take zn))).RunsOut (w.drop zn) := by
  induction m with
  | zero =>
    intro fuel zn hfuel hzn
    obtain ⟨fuel, rfl⟩ : ∃ n, fuel = n + 1 := ⟨fuel - 1, by omega⟩
    rw [h.probeSymbol_eq hlimit fuel (by omega) (by omega)]
    exact runsOut_bind_left _ (runsOut_rd (by decide) (by rw [List.length_drop]; omega))
  | succ m ih =>
    intro fuel zn hfuel hzn
    obtain ⟨fuel, rfl⟩ : ∃ n, fuel = n + 1 := ⟨fuel - 1, by omega⟩
    have hlt : zn < w.length := by omega
    have hrest := ih (fuel := fuel) (zn := zn + 1) (by omega) (by omega)
    rw [bitsToNat_take_succ hlt] at hrest
    rw [h.probeSymbol_eq hlimit fuel (by omega) hlt.le, List.drop_eq_getElem_cons hlt]
    exact runsOut_bind (u := [w[zn]]) (reads_bit _) hrest

variable (hmin : (d.minLen.read t).toNat ≤ 20)
include hmin

theorem NoCodeBegins.raises_decSym (hw : w.length = 21) : (decSym d t).Raises w .code := by
  have hread := reads_rd_take (bits := w) (n := (d.minLen.read t).toNat) (by omega) (by omega)
  have := raises_bind (f := fun v => probeSymbol d t 22 (d.minLen.read t).toNat v) hread
    (h.raises_probeSymbol hlimit hw 22 (by omega))
  rwa [List.take_append_drop] at this

theorem NoCodeBegins.runsOut_decSym (hw : w.length ≤ 20) : (decSym d t).RunsOut w := by
  rcases Nat.lt_or_ge w.length (d.minLen.read t).toNat with hshort | hlong
  · exact runsOut_bind_left _ (runsOut_rd (by omega) hshort)
  · have := runsOut_bind (f := fun v => probeSymbol d t 22 (d.minLen.read t).toNat v)
      (reads_rd_take (show (d.minLen.read t).toNat ≤ 32 by omega) hlong)
      (h.runsOut_probeSymbol hlimit hw (w.length - (d.minLen.read t).toNat) (by omega) (by omega))
    rwa [List.take_append_drop] at this

end

/-- `LIMIT` is below every number above the codes of its length: the last code at a length in use,
and -1 at any other. -/
theorem TableSection.Legal.limit_lt {x : TableSection} (hx : x.Legal) (d : Decoder) {t : Nat}
    {row : List Nat} (ht : x.lens[t]? = some row) (hkraft : Kraft row) {l : Nat} (hl : l ≤ 20) :
    ((d.setTables x).limit.read (Config.lengthRow * t + l)).toInt <
      (firstCode row l : Int) + row.count l := by
  by_cases hin : leastOf row ≤ l ∧ l ≤ greatestOf row
  · rw [(hx.holdsTable_setTables d ht hkraft).limit l hin.1 hin.2 hl]
    omega
  · have hentry := limitBase_getElem?_outside (lens := row) (l := l) (by omega) hl
    rw [TableSection.Legal.read_limit_setTables d ht hentry]
    exact Int.lt_of_lt_of_le (b := 0) (by decide) (by omega)

end Sys2Proof.Machine
end

section
/-! PROOF. The decoder's readings (46_huffman_decode.md), part 8: `DEC_SYMBOLS` on a body coded
under the section's tables (rules R112 to R115), O48. -/

namespace Sys2Proof.Machine

/-! ## Symbols that end the expansion (rule R114) -/

section
variable {d : Decoder} {nmax : Nat} {y : Expansion}

/-- A digit of weight `2^21` is refused. -/
theorem Expansion.symbol_digit_fail (hn : 1 ≤ d.nInUse.toNat) {s : Nat} (hs : s ≤ 1)
    (hw : 2 ^ 21 ≤ y.weight) : y.symbol d nmax s = .fail := by
  have hdigit : y.digit s = none := if_pos hw
  simp only [Expansion.symbol]
  rw [if_neg (by omega), if_pos hs, hdigit]

/-- A run, and a byte behind it, are refused when they pass the block size. -/
theorem Expansion.Sound.symbol_fail (h : y.Sound nmax) {v : Nat} (hv : 2 ≤ v)
    (hfull : nmax < y.nblock + y.run + if v = d.nInUse.toNat + 1 then 0 else 1) :
    y.symbol d nmax v = .fail := by
  have hfits := h.fits
  have hopen : ¬ (y.run = 0 ∧ v = d.nInUse.toNat + 1) := by
    rintro ⟨hrun, hend⟩
    rw [if_pos hend] at hfull
    omega
  simp only [Expansion.symbol]
  rw [if_neg hopen, if_neg (by omega), h.closeRun_eq d]
  by_cases hrun : nmax < y.nblock + y.run
  · rw [if_pos hrun]
  · have hmove : v ≠ d.nInUse.toNat + 1 := fun hend => by
      rw [if_pos hend] at hfull
      exact hrun hfull
    rw [if_neg hmove] at hfull
    have hnblock : ((y.withRun 0 1).appended (y.front d) y.run).nblock = y.nblock + y.run := rfl
    simp only [if_neg hrun, if_neg hmove, Expansion.move_eq, hnblock, if_pos hfull]

end

/-- Digits up to weight `2^20` expand, from no run under way. -/
theorem expandSymbols_fullRun {d : Decoder} {nmax : Nat} {y : Expansion} (hy : y.Sound nmax)
    (hn : 1 ≤ d.nInUse.toNat) (hrun : y.run = 0) {digits : List Nat} (hlen : digits.length = 21)
    (hdigits : ∀ v ∈ digits, v ≤ 1) :
    ∃ z, expandSymbols d nmax y digits = .more z ∧ z.weight = 2 ^ 21 := by
  have hweight := hy.fresh hrun
  refine ⟨_, expandSymbols_digits hn digits y hdigits (by rw [hweight, hlen, Nat.one_mul]), ?_⟩
  simp only [Expansion.withRun, hweight, hlen, Nat.one_mul]

/-- The symbol that ends a list of symbols. -/
theorem symbol_of_expandSymbols_done {d : Decoder} {nmax last : Nat} {x y z : Expansion}
    {syms : List Nat} (hmore : expandSymbols d nmax x syms = .more y)
    (hdone : expandSymbols d nmax x (syms ++ [last]) = .done z) :
    y.symbol d nmax last = .done z := by
  rw [expandSymbols_append _ _ hmore, expandSymbols] at hdone
  cases hstep : y.symbol d nmax last with
  | more w => rw [hstep] at hdone; contradiction
  | done w => rw [hstep] at hdone; exact hdone
  | fail => rw [hstep] at hdone; contradiction

/-! ## The body up to a symbol (rules R113 and R114) -/

/-- The block size in bytes. -/
def Decoder.maxBlock (d : Decoder) : Nat := Config.blockUnit * d.bs100k.toNat

/-- The loop of rule R114 from symbol number `i` on. -/
def Decoder.expandFrom (d : Decoder) (fuel i : Nat) (y : Expansion) : Reader Expansion :=
  expandLoop d d.maxBlock fuel (groupAt i) y

/-- The check of `D_ORIGPTR` (rule R115). -/
def Decoder.checkOrigPtr (d : Decoder) (y : Expansion) : Reader Expansion :=
  if y.nblock ≤ d.origPtr.toNat then .fail .block else .pure y

theorem readSymbols_eq (d : Decoder) : readSymbols d =
    (d.expandFrom (50 * d.nSelectors.toNat + 1) 0 .start).bind d.checkOrigPtr := rfl

/-- Readings that answer alike are alike in a sequence of readings. -/
theorem Reader.bind_congr {α β : Type} {x y : Reader α} {r q : BitSource} (f : α → Reader β)
    (h : x r = y q) : x.bind f r = y.bind f q := by
  rw [Reader.bind, Reader.bind, h]

/-- A symbol after which more follow leaves the rest of the loop to the bits behind it. -/
theorem expandLoop_more {d : Decoder} {nmax v : Nat} {g g' : GroupPos} {w z : Expansion}
    {u rest : List Bool} {r : BitSource} (hread : (nextSym d g).Reads u (v, g'))
    (hstep : w.symbol d nmax v = .more z) (fuel : Nat) (hr : r.Tidy) (hbits : r.bits = u ++ rest) :
    ∃ q, expandLoop d nmax (fuel + 1) g w r = expandLoop d nmax fuel g' z q ∧
      r.Consumed q u.length ∧ q.bits = rest := by
  obtain ⟨q, hq, hcons⟩ := hread hr hbits
  refine ⟨q, ?_, hcons, by rw [hcons.stream, hbits, List.drop_left]⟩
  rw [expandLoop, Reader.bind, hq]
  simp only [hstep]

section
variable {d : Decoder} {x : TableSection} (hd : d.HoldsSection x)
include hd

/-- Symbol number `i` is decoded under selector `i / 50`. -/
theorem Decoder.HoldsSection.nextSym_eq {i : Nat} (hi : i < 50 * x.selectors.length) :
    nextSym d (groupAt i) = (decSym d (x.selectors.getD (i / 50) 0)).bind fun s =>
      .pure (s, groupAt (i + 1)) := by
  have hgroup : i / 50 < x.selectors.length := by omega
  have hselector : (d.selector.read (i / 50)).toNat = x.selectors.getD (i / 50) 0 := by
    rw [hd.selector _ hgroup, List.getD_eq_getElem _ _ hgroup]
  rw [nextSym, ← hselector]
  by_cases hfirst : i % 50 = 0
  · have hstarted : (groupAt i).started = i / 50 := by simp only [groupAt]; omega
    have hnext : groupAt (i + 1) = { started := i / 50 + 1, left := Config.groupSize - 1 } := by
      simp only [groupAt, Config.groupSize, GroupPos.mk.injEq]
      omega
    rw [if_pos (by simp only [groupAt]; omega), if_neg (by rw [hd.nSelectors]; omega), hstarted,
      hnext]
  · have hstarted : (groupAt i).started - 1 = i / 50 := by simp only [groupAt]; omega
    have hnext : groupAt (i + 1) = { groupAt i with left := (groupAt i).left - 1 } := by
      simp only [groupAt, GroupPos.mk.injEq]
      omega
    rw [if_neg (by simp only [groupAt]; omega), hstarted, hnext]

/-- Behind the last group no symbol is read. -/
theorem Decoder.HoldsSection.nextSym_end :
    nextSym d (groupAt (50 * x.selectors.length)) = .fail .block := by
  rw [nextSym, if_pos (by simp only [groupAt]; omega),
    if_pos (by rw [hd.nSelectors]; simp only [groupAt]; omega)]

variable (hx : x.Legal) (hkraft : ∀ row ∈ x.lens, Kraft row)
include hx hkraft

/-- Symbols that expand without end or error leave the rest of the loop to the bits behind them. -/
theorem Decoder.HoldsSection.expandLoop_eq {nmax : Nat} {y : Expansion} (fuel : Nat)
    (rest : List Bool) (syms : List Nat) : ∀ {i : Nat} {w : Expansion} {r : BitSource},
    i + syms.length ≤ 50 * x.selectors.length →
    (∀ v ∈ syms, v < (valuesInUse x.inUse).length + 2) →
    expandSymbols d nmax w syms = .more y → r.Tidy →
    r.bits = bodyBitsFrom x.lens x.selectors i syms ++ rest →
    ∃ q, expandLoop d nmax (fuel + syms.length) (groupAt i) w r =
        expandLoop d nmax fuel (groupAt (i + syms.length)) y q ∧
      r.Consumed q (bodyBitsFrom x.lens x.selectors i syms).length ∧ q.bits = rest := by
  induction syms with
  | nil =>
    intro i w r _ _ hmore hr hbits
    exact ⟨r, by rw [ExpandStep.more.inj hmore]; rfl, .zero hr, hbits⟩
  | cons v syms ih =>
    intro i w r hi hsyms hmore hr hbits
    rw [List.length_cons] at hi
    obtain ⟨hv, hrest⟩ := List.forall_mem_cons.mp hsyms
    rw [bodyBitsFrom, List.append_assoc] at hbits
    rw [expandSymbols] at hmore
    cases hstep : w.symbol d nmax v with
    | more z =>
      simp only [hstep] at hmore
      obtain ⟨p, hp, hfirst, hpbits⟩ := expandLoop_more
        (hd.reads_nextSym hx hkraft (by omega) hv) hstep (fuel + syms.length) hr hbits
      obtain ⟨q, hq, hthen, hqbits⟩ := ih (by omega) hrest hmore hfirst.tidy hpbits
      refine ⟨q, ?_, by rw [bodyBitsFrom, List.length_append]; exact hfirst.trans hthen, hqbits⟩
      rw [List.length_cons, ← Nat.add_assoc, ← Nat.add_assoc, Nat.add_right_comm i, ← hq]
      exact hp
    | done z => simp only [hstep] at hmore; contradiction
    | fail => simp only [hstep] at hmore; contradiction

variable {syms : List Nat} {y : Expansion}
  (hsyms : ∀ v ∈ syms, v < (valuesInUse x.inUse).length + 2)
  (hmore : expandSymbols d d.maxBlock .start syms = .more y)
include hsyms hmore

/-- The body up to a point leaves the rest of the reading to the loop there. -/
theorem Decoder.HoldsSection.readSymbols_after {v : List Bool} {r : BitSource}
    (hlen : syms.length ≤ 50 * x.selectors.length) (hr : r.Tidy)
    (hbits : r.bits = bodyBitsFrom x.lens x.selectors 0 syms ++ v) :
    ∃ fuel q,
      readSymbols d r = ((d.expandFrom (fuel + 1) syms.length y).bind d.checkOrigPtr) q ∧
      q.Tidy ∧ q.closed = r.closed ∧ q.bits = v := by
  obtain ⟨k, hk⟩ := Nat.exists_eq_add_of_le' hlen
  obtain ⟨q, hq, hcons, hrest⟩ := hd.expandLoop_eq hx hkraft (k + 1) v syms
    (by rwa [Nat.zero_add]) hsyms hmore hr hbits
  rw [Nat.zero_add] at hq
  refine ⟨k, q, ?_, hcons.tidy, hcons.closedKept, hrest⟩
  rw [readSymbols_eq, hd.nSelectors, hk, Nat.add_right_comm]
  exact Reader.bind_congr _ hq

theorem Decoder.HoldsSection.raises_readSymbols {v : List Bool} {e : ErrCode}
    (hlen : syms.length ≤ 50 * x.selectors.length)
    (h : ∀ fuel, (d.expandFrom (fuel + 1) syms.length y).Raises v e) :
    (readSymbols d).Raises (bodyBitsFrom x.lens x.selectors 0 syms ++ v) e := by
  intro r rest hr hbits
  rw [List.append_assoc] at hbits
  obtain ⟨fuel, q, hq, htidy, -, hqbits⟩ :=
    hd.readSymbols_after hx hkraft hsyms hmore hlen hr hbits
  rw [hq]
  exact raises_bind_left _ (h fuel) htidy hqbits

theorem Decoder.HoldsSection.runsOut_readSymbols {v : List Bool}
    (hlen : syms.length ≤ 50 * x.selectors.length)
    (h : ∀ fuel, (d.expandFrom (fuel + 1) syms.length y).RunsOut v) :
    (readSymbols d).RunsOut (bodyBitsFrom x.lens x.selectors 0 syms ++ v) := by
  intro r hr hbits
  obtain ⟨fuel, q, hq, htidy, hclosed, hqbits⟩ :=
    hd.readSymbols_after hx hkraft hsyms hmore hlen hr hbits
  rw [hq, runsOut_bind_left _ (h fuel) htidy hqbits, Reader.exhausted, Reader.exhausted, hclosed]

/-- A symbol that the expansion refuses. -/
theorem Decoder.HoldsSection.raises_readSymbols_symbol {v : Nat}
    (hlen : syms.length < 50 * x.selectors.length) (hv : v < (valuesInUse x.inUse).length + 2)
    (hfail : y.symbol d d.maxBlock v = .fail) :
    (readSymbols d).Raises (bodyBitsFrom x.lens x.selectors 0 (syms ++ [v])) .block := by
  rw [bodyBitsFrom_append, Nat.zero_add, bodyBitsFrom, bodyBitsFrom]
  refine hd.raises_readSymbols hx hkraft hsyms hmore hlen.le fun fuel =>
    raises_bind (hd.reads_nextSym hx hkraft hlen hv) ?_
  simp only [hfail]
  exact raises_fail .block

/-- All selectors' groups are used up. -/
theorem Decoder.HoldsSection.raises_readSymbols_groups
    (hlen : syms.length = 50 * x.selectors.length) :
    (readSymbols d).Raises (bodyBitsFrom x.lens x.selectors 0 syms) .block := by
  rw [← List.append_nil (bodyBitsFrom _ _ _ _)]
  refine hd.raises_readSymbols hx hkraft hsyms hmore hlen.le fun fuel => raises_bind_left _ ?_
  rw [hlen, hd.nextSym_end]
  exact raises_fail .block

/-- A run of 22 digits. -/
theorem Decoder.HoldsSection.raises_readSymbols_digits (hy : y.run = 0) {digits : List Nat}
    (hdigits : digits.length = 22) (hle : ∀ v ∈ digits, v ≤ 1)
    (hlen : (syms ++ digits).length ≤ 50 * x.selectors.length) :
    (readSymbols d).Raises (bodyBitsFrom x.lens x.selectors 0 (syms ++ digits)) .block := by
  have hn : 1 ≤ d.nInUse.toNat := by rw [hd.nInUse]; exact List.length_pos_iff.mpr hx.used
  rcases List.eq_nil_or_concat digits with rfl | ⟨run, last, rfl⟩
  · contradiction
  rw [List.concat_eq_append] at hdigits hle hlen ⊢
  rw [List.length_append, List.length_singleton] at hdigits
  rw [← List.append_assoc, List.length_append, List.length_singleton] at hlen
  obtain ⟨hrun, hlast⟩ := List.forall_mem_append.mp hle
  obtain ⟨z, hz, hweight⟩ := expandSymbols_fullRun
    ((Expansion.sound_start _).expandSymbols syms hmore) hn hy (Nat.succ.inj hdigits) hrun
  have hlast1 := hlast last (List.mem_singleton_self last)
  rw [← List.append_assoc]
  refine hd.raises_readSymbols_symbol hx hkraft (syms := syms ++ run) (y := z)
    (List.forall_mem_append.mpr ⟨hsyms, fun v hv => ?_⟩)
    ((expandSymbols_append _ _ hmore).trans hz) (by omega) (by omega)
    (Expansion.symbol_digit_fail hn hlast1 hweight.ge)
  have := hrun v hv
  omega

/-- The end of the block, behind which `D_ORIGPTR` is checked. -/
theorem Decoder.HoldsSection.reads_expandLoop_eob {z : Expansion}
    (hlen : syms.length < 50 * x.selectors.length)
    (hdone : y.symbol d d.maxBlock ((valuesInUse x.inUse).length + 1) = .done z) :
    (d.expandFrom (50 * d.nSelectors.toNat + 1) 0 .start).Reads
      (bodyBitsFrom x.lens x.selectors 0 (syms ++ [(valuesInUse x.inUse).length + 1])) z :=
  hd.reads_expandLoop hx hkraft (by omega) hdone syms (by rw [hd.nSelectors]; omega) (by omega)
    hsyms hmore

end

/-! ## The command (rule R115) -/

section
variable {s : State} {d : Decoder} {x : TableSection} (hdec : s.dec = d.setTables x) (hx : x.Legal)
  (hkraft : ∀ row ∈ x.lens, Kraft row) {i : Nat} (hi : i < 50 * x.selectors.length) {w : List Bool}
  (hno : NoCodeBegins (x.lens.getD (x.selectors.getD (i / 50) 0) []) w)
include hdec hx hkraft hi hno

/-- Bits that begin with no code, where a symbol is to be read: 21 of them are too many. -/
theorem NoCodeBegins.nextSym_setTables :
    (w.length = 21 → (nextSym s.dec (groupAt i)).Raises w .code) ∧
      (w.length ≤ 20 → (nextSym s.dec (groupAt i)).RunsOut w) := by
  have hgroup : i / 50 < x.selectors.length := by omega
  have ht : x.selectors.getD (i / 50) 0 < x.nGroups := by
    rw [List.getD_eq_getElem _ _ hgroup]
    exact hx.selectors _ (List.getElem_mem hgroup)
  have hrow := hx.getElem?_lens ht
  have hlimit := fun l (hl : l ≤ 20) =>
    hx.limit_lt d hrow (hkraft _ (List.mem_of_getElem? hrow)) hl
  have hmin : ((d.setTables x).minLen.read (x.selectors.getD (i / 50) 0)).toNat ≤ 20 := by
    rw [hx.toNat_minLen_setTables d hrow]
    exact ((hx.row_range hrow).2 _ (leastOf_mem (hx.row_ne_nil hrow))).2
  rw [hdec, (hx.holdsSection_setTables hkraft d).nextSym_eq hi]
  exact ⟨fun hw => raises_bind_left _ (hno.raises_decSym hlimit hmin hw),
    fun hw => runsOut_bind_left _ (hno.runsOut_decSym hlimit hmin hw)⟩

end

/-- What `DEC_SYMBOLS` leaves of a block. -/
theorem exec_decSymbols_block {s : State} {z : Expansion} {q : BitSource} (herr : s.err = 0)
    (hs : s.dec.dstate = .symbols) (hbs : s.dec.bs100k.toNat ≤ 9)
    (hz : z.Sound s.dec.maxBlock) (hread : readSymbols s.dec s.src = .ok z q) :
    ∃ (tt : Mem 32) (counts : Mem 20) (n : BitVec 20),
      exec .decSymbols s = .next { s with
        src := q
        dec := { s.dec with tt := tt, unzftab := counts, nBlock := n, dstate := .ibwt }
        cmdCnt := s.cmdCnt + 1 } ∧
      n.toNat = z.bytes.length ∧
      (∀ i < n.toNat, tt.read i = (z.bytes.reverse.getD i 0).setWidth 32) ∧
      (∀ a, n.toNat ≤ a → tt.read a = s.dec.tt.read a) ∧
      ∀ b < 256, (counts.read b).toNat = z.bytes.countP fun c => decide (c.toNat = b) := by
  have hmax : s.dec.maxBlock ≤ 900000 := by
    simp only [Decoder.maxBlock, Config.blockUnit]
    omega
  have hn := hz.toNat_nBlock_setSymbols (d := s.dec) hmax
  refine ⟨_, _, _, exec_decSymbols_ok herr hs hread, hn, fun i hi => ?_, fun a ha => ?_,
    fun b hb => hz.toNat_unzftab_setSymbols hmax hb⟩
  · have hlt : i < z.bytes.reverse.length := by rw [List.length_reverse, ← hn]; exact hi
    rw [List.getD_eq_getElem _ _ hlt]
    exact s.dec.read_tt_setSymbols hlt
  · refine Mem.read_writeRange_outside _ _ _ _ (.inr ?_)
    rw [List.length_map, List.length_reverse, Nat.zero_add, ← hn]
    exact ha

/-- Settles O48: the symbols before a point are read under their selectors' tables, so the command
ends as the symbol or the bits there say. -/
theorem decSymbolsReadsBody : Obligations.DecSymbolsReadsBody := by
  unfold Obligations.DecSymbolsReadsBody
  intro s d x syms y rest herr hdec htidy hx hkraft hbs hsyms hmore eob row noCode
  have hs : s.dec.dstate = .symbols := by rw [hdec]; rfl
  have hd : s.dec.HoldsSection x := hdec ▸ hx.holdsSection_setTables hkraft d
  have hsound := (Expansion.sound_start _).expandSymbols syms hmore
  have hbody : commandBody .decSymbols s = readCommand (readSymbols s.dec) spoilSymbols
      (fun x r s => .done { s with src := r, dec := s.dec.setSymbols x }) s := inDState_here hs
  simp only [bodyBits_eq_bodyBitsFrom]
  have raises {bits more : List Bool} {e : ErrCode} (h : (readSymbols s.dec).Raises bits e)
      (hbits : s.src.bits = bits ++ more) : ∃ t, exec .decSymbols s = .next t ∧ t.err = e.toBits :=
    exec_of_raises (i := .decSymbols) rfl herr hbody (h htidy hbits)
  refine ⟨fun z hlen hend hbits => ?_, fun w hlen hno => ⟨fun hw hbits => ?_, fun hw hbits => ?_⟩,
    fun hlen hbits => ?_, fun digits hrun hdigits hle hlen hbits => ?_,
    fun v hlow hhigh hlen hfull hbits => ?_⟩
  · have hdone : y.symbol s.dec s.dec.maxBlock eob = .done z :=
      symbol_of_expandSymbols_done hmore hend
    have hz := hsound.symbol (.inr hdone)
    have hloop := hd.reads_expandLoop_eob hx hkraft hsyms hmore hlen hdone
    rw [← hz.nblock_eq]
    refine ⟨fun horig => ?_, fun horig => ?_⟩
    · have hread : (readSymbols s.dec).Reads _ z :=
        reads_bind_last hloop (reads_ite_neg (Nat.not_le.mpr horig) (reads_pure z))
      obtain ⟨q, hq, hcons⟩ := hread htidy hbits
      obtain ⟨tt, counts, n, hexec, hleft⟩ := exec_decSymbols_block herr hs hbs hz hq
      rw [← hz.nblock_eq] at hleft
      exact ⟨q, tt, counts, n, hexec, hcons, hleft⟩
    · exact raises (raises_bind_last hloop (raises_ite_pos horig (raises_fail .block))) hbits
  · have hnext := (NoCodeBegins.nextSym_setTables hdec hx hkraft hlen hno).1 hw
    exact raises (hd.raises_readSymbols hx hkraft hsyms hmore hlen.le fun _ =>
      raises_bind_left _ hnext) hbits
  · have hnext := (NoCodeBegins.nextSym_setTables hdec hx hkraft hlen hno).2 hw
    exact exec_of_exhausted (i := .decSymbols) rfl herr hbody
      (hd.runsOut_readSymbols hx hkraft hsyms hmore hlen.le (fun _ => runsOut_bind_left _ hnext)
        htidy hbits)
  · exact raises (hd.raises_readSymbols_groups hx hkraft hsyms hmore hlen) hbits
  · exact raises (hd.raises_readSymbols_digits hx hkraft hsyms hmore hrun hdigits hle hlen) hbits
  · have hfail := hsound.symbol_fail (d := s.dec) hlow (by rwa [hsound.nblock_eq, hd.nInUse])
    exact raises (hd.raises_readSymbols_symbol hx hkraft hsyms hmore hlen (by omega) hfail) hbits

end Sys2Proof.Machine
end

section
/-! PROOF. The inverse Burrows-Wheeler transform, part 4: what `DEC_IBWT` leaves of a block (rule
R116), and the randomised walk (rules R117 and R118). O50 and O51. -/

namespace Sys2Proof.Machine

/-! ## `DEC_IBWT` (rule R116) -/

/-- Linking writes positions of the block only. -/
theorem Decoder.Unlinked.linkedTt_outside {d : Decoder} (h : d.Unlinked) {a : Nat}
    (ha : d.nBlock.toNat ≤ a) : d.linkedTt.read a = d.tt.read a := by
  obtain ⟨_, hl⟩ := h.linkedTo.linkLoop (Nat.zero_add _)
  exact hl.kept a fun j hj => ((sortedPos_lt hj).trans_le ha).ne

/-- Settles O50: the link loop visits each position once, and puts its link where the stable sort
puts its byte. -/
theorem decIbwtLinksSortedPositions : Obligations.DecIbwtLinksSortedPositions := by
  unfold Obligations.DecIbwtLinksSortedPositions
  intro s herr hlegal hs
  obtain ⟨-, horig, hlinks, hcounts⟩ := hlegal.block hs
  have hu : s.dec.Unlinked := ⟨hlinks, hcounts⟩
  exact ⟨s.dec.linkedTt, s.dec.linkBlock.tPos, exec_decIbwt herr hs, hu.linkedTt_link,
    fun i _ => hu.linkedTt_byte i, fun _ => hu.linkedTt_outside, hu.linkBlock_tPos horig⟩

/-! ## The walk as a list (rule R117) -/

/-- The de-randomisation counters after `k` bytes. -/
def RandPos.after (rnums : Nat → Nat) : Nat → RandPos → RandPos
  | 0, c => c
  | k + 1, c => RandPos.after rnums k (c.step rnums).2

theorem RandPos.after_succ (rnums : Nat → Nat) (k : Nat) : ∀ c : RandPos,
    RandPos.after rnums (k + 1) c = ((RandPos.after rnums k c).step rnums).2 := by
  induction k with
  | zero => exact fun _ => rfl
  | succ k ih => exact fun c => ih (c.step rnums).2

/-- A byte of the block, its bit 0 flipped or not. -/
def flipIf (flip : Bool) (b : Byte) : Byte := if flip then b ^^^ 1 else b

/-- A walk ends at the position the links lead to, and lists the bytes at the positions it passes,
flipped as its counters say there. -/
theorem walk_spec {d : Decoder} (hlink : ∀ p < d.nBlock.toNat, d.ttLink p < d.nBlock.toNat)
    (rnums : Nat → Nat) (randomised : Bool) (n : Nat) :
    ∀ (pos : BitVec 20) (c : RandPos), pos.toNat < d.nBlock.toNat →
      (walk rnums randomised d.tt n pos c).1.toNat = d.walkPos pos.toNat n ∧
      (walk rnums randomised d.tt n pos c).2 = (List.range n).map fun k =>
        flipIf (randomised && ((c.after rnums k).step rnums).1)
          (d.ttByte (d.walkPos pos.toNat k)) := by
  induction n with
  | zero => exact fun _ _ _ => ⟨rfl, rfl⟩
  | succ n ih =>
    intro pos c hpos
    have next := d.toNat_link pos.toNat ((hlink _ hpos).trans d.nBlock.isLt)
    obtain ⟨hend, hbytes⟩ := ih ((d.tt.read pos.toNat >>> 8).setWidth 20) (c.step rnums).2
      (by rw [next]; exact hlink _ hpos)
    rw [walk, hend, hbytes, next, List.range_succ_eq_map, List.map_cons, List.map_map]
    exact ⟨rfl, rfl⟩

/-! ## The stretches of the de-randomisation (rule R117) -/

/-- Where the first `m` stretches end. -/
def stretchEnd (rnums : Nat → Nat) (m : Nat) : Nat :=
  ((List.range m).map fun j => rnums (j % 512)).sum

theorem stretchEnd_succ (rnums : Nat → Nat) (m : Nat) :
    stretchEnd rnums (m + 1) = stretchEnd rnums m + rnums (m % 512) := by
  simp [stretchEnd, List.range_succ]

/-- Before byte `k`, `m` stretches have begun, the last of which ends `c.toGo` bytes on. -/
structure RandPos.InStretch (rnums : Nat → Nat) (k m : Nat) (c : RandPos) : Prop where
  next : c.pos = m % 512
  ends : stretchEnd rnums m = k + c.toGo
  begun : ∀ j < m, stretchEnd rnums j ≤ k

/-- A stretch begins when the one before is at its end. -/
def RandPos.refill (rnums : Nat → Nat) (c : RandPos) : RandPos :=
  if c.toGo = 0 then { toGo := rnums c.pos, pos := (c.pos + 1) % 512 } else c

theorem RandPos.step_eq (rnums : Nat → Nat) (c : RandPos) : c.step rnums =
    (decide ((c.refill rnums).toGo - 1 = 1),
      { c.refill rnums with toGo := (c.refill rnums).toGo - 1 }) := rfl

section
variable {rnums : Nat → Nat} (hlong : ∀ j, 50 ≤ rnums j) {k m : Nat} {c : RandPos}
include hlong

theorem stretchEnd_lt {m n : Nat} (h : m < n) : stretchEnd rnums m + 50 ≤ stretchEnd rnums n := by
  induction n with
  | zero => omega
  | succ n ih =>
    have := hlong (n % 512)
    rw [stretchEnd_succ]
    rcases Nat.lt_succ_iff_lt_or_eq.mp h with hlt | rfl
    · have := ih hlt
      omega
    · omega

theorem RandPos.InStretch.refill (h : c.InStretch rnums k m) :
    ∃ m', (c.refill rnums).InStretch rnums k m' ∧ 1 ≤ (c.refill rnums).toGo := by
  by_cases hgo : c.toGo = 0
  · have hends : stretchEnd rnums m = k := by rw [h.ends, hgo, Nat.add_zero]
    rw [RandPos.refill, if_pos hgo, h.next]
    refine ⟨m + 1, ⟨by simp, by rw [stretchEnd_succ, hends], fun j hj => ?_⟩,
      le_trans (by decide) (hlong _)⟩
    rcases Nat.lt_succ_iff_lt_or_eq.mp hj with hj | rfl
    · exact h.begun j hj
    · exact hends.le
  · rw [RandPos.refill, if_neg hgo]
    exact ⟨m, h, Nat.one_le_iff_ne_zero.mpr hgo⟩

theorem RandPos.InStretch.step (h : c.InStretch rnums k m) :
    ∃ m', (c.step rnums).2.InStretch rnums (k + 1) m' := by
  obtain ⟨m', h', hgo⟩ := h.refill hlong
  refine ⟨m', h'.next, ?_, fun j hj => (h'.begun j hj).trans (Nat.le_succ k)⟩
  rw [h'.ends, RandPos.step_eq]
  dsimp only
  omega

/-- Stretches are long, so no end but that of the stretch under way is two bytes on. -/
theorem RandPos.InStretch.flips_iff (h : c.InStretch rnums k m) :
    (c.step rnums).1 = true ↔ Flipped rnums k := by
  obtain ⟨m', h', hgo⟩ := h.refill hlong
  have hends := h'.ends
  rw [RandPos.step_eq, decide_eq_true_eq]
  constructor
  · intro hflip
    cases m' with
    | zero => rw [show stretchEnd rnums 0 = 0 from rfl] at hends; omega
    | succ j => exact ⟨j, show k + 2 = stretchEnd rnums (j + 1) by omega⟩
  · rintro ⟨j, hj⟩
    change k + 2 = stretchEnd rnums (j + 1) at hj
    rcases lt_trichotomy (j + 1) m' with hlt | heq | hgt
    · have := h'.begun _ hlt
      omega
    · rw [heq] at hj
      omega
    · have := stretchEnd_lt hlong hgt
      omega

theorem RandPos.inStretch_after (k : Nat) :
    ∃ m, (RandPos.after rnums k { toGo := 0, pos := 0 }).InStretch rnums k m := by
  induction k with
  | zero => exact ⟨0, rfl, rfl, nofun⟩
  | succ k ih =>
    obtain ⟨m, h⟩ := ih
    rw [RandPos.after_succ]
    exact h.step hlong

theorem RandPos.after_flips_iff (k : Nat) :
    ((RandPos.after rnums k { toGo := 0, pos := 0 }).step rnums).1 = true ↔ Flipped rnums k := by
  obtain ⟨m, h⟩ := RandPos.inStretch_after hlong k
  exact h.flips_iff hlong

end

/-! ## `DEC_WALK` (rule R118) -/

theorem rnums_long (k : Nat) : 50 ≤ Config.rnums k := Nat.le_add_right _ _

theorem exec_decWalk {s : State} (herr : s.err = 0)
    (hs : s.dec.dstate = .plainWalk ∨ s.dec.dstate = .randomizedWalk) :
    let r := walk Config.rnums (s.dec.dstate = .randomizedWalk) s.dec.tt s.dec.nBlock.toNat
      s.dec.tPos { toGo := 0, pos := 0 }
    exec .decWalk s = .next { s with
      dout := s.dout ++ r.2
      dec := { s.dec with tPos := r.1, dstate := .endOfBlock } }.countCommand :=
  exec_done (i := .decWalk) nofun herr (if_neg fun ⟨hplain, hrand⟩ => hs.elim hplain hrand)

/-- Settles O51: the walk lists the bytes along the links, and its counters are two bytes before the
end of a stretch exactly where rule R117 flips. -/
theorem decWalkFollowsLinks : Obligations.DecWalkFollowsLinks := by
  unfold Obligations.DecWalkFollowsLinks
  intro s herr hlegal hs
  obtain ⟨hpos, hlink, -⟩ := hlegal.links hs
  obtain ⟨hend, hbytes⟩ := walk_spec hlink Config.rnums (s.dec.dstate = .randomizedWalk)
    s.dec.nBlock.toNat s.dec.tPos { toGo := 0, pos := 0 } hpos
  refine ⟨_, _, exec_decWalk herr hs, ?_, hend, fun k hk => ?_⟩
  · rw [hbytes, List.length_map, List.length_range]
  · have flips : (decide (s.dec.dstate = .randomizedWalk) && _) = true ↔ _ :=
      (Bool.and_eq_true _ _).to_iff.trans
        (and_congr decide_eq_true_iff (RandPos.after_flips_iff rnums_long k))
    rw [hbytes, List.getD_eq_getElem _ _ (by simpa using hk), List.getElem_map,
      List.getElem_range]
    exact ⟨fun h => if_pos (flips.mpr h), fun h => if_neg (mt flips.mp h)⟩

end Sys2Proof.Machine
end

section
/-! PROOF. Holds and resets (70_reset_and_hazards.md), part 1: what a reset leaves, and a held
command at the port. O8, O13 and O14. -/

namespace Sys2Proof.Machine

/-! ## Both resets (rules R134 to R136) -/

theorem State.atReset_resetBlock (s : State) : s.resetBlock.AtReset where
  control := ⟨rfl, rfl, rfl, rfl⟩
  sink := rfl
  source := rfl
  crc := ⟨rfl, rfl⟩
  encoder := ⟨rfl, rfl, rfl, rfl, rfl, rfl, rfl⟩
  decoder := ⟨rfl, rfl, rfl, rfl, rfl, rfl, rfl, rfl, rfl, rfl⟩
  ports := ⟨rfl, rfl⟩
  encoderMemories := ⟨rfl, rfl, rfl, rfl, rfl, rfl, rfl⟩
  decoderMemories := ⟨rfl, rfl, rfl, rfl, rfl, rfl, rfl, rfl, rfl, rfl⟩

/-- The reset input is performed whether or not a command holds (rule R134). -/
theorem step_reset {s : State} {rest : List HostAction} (hq : s.hostQueue = .reset :: rest) :
    step s = .next { s with hostQueue := rest }.resetBlock := by
  rw [step, hostStep, hq]
  rfl

/-- Settles O13: both resets leave the same state, whatever the state before. -/
theorem resetRestoresEveryRegister : Obligations.ResetRestoresEveryRegister := by
  unfold Obligations.ResetRestoresEveryRegister
  exact fun s => ⟨s.resetBlock, exec_sysReset s, s.atReset_resetBlock, rfl, rfl,
    (by decide : ~~~Config.crcSeed = 0), rfl, rfl, rfl, rfl, rfl, fun _ => step_reset⟩

/-- At power-on the memories have other free values than after a reset; the rest is the same. -/
theorem State.atReset_reset : State.reset.AtReset := { State.reset.atReset_resetBlock with }

theorem State.inv_reset : State.reset.Inv :=
  { State.reset.inv_resetBlock with
    lengthsLegal := nofun
    memories := ⟨Encoder.memoriesCanonical_resetAt 0, Decoder.memoriesCanonical_resetAt 0⟩ }

/-- Settles O14: the state at power-on is one that a reset leaves, but for the free values of its
memories. -/
theorem startsAtReset : Obligations.StartsAtReset := by
  unfold Obligations.StartsAtReset
  have decoder : State.reset.DecoderLegal := fun _ =>
    Decoder.legal_between (fun hs => absurd rfl hs) (by simp [State.reset, Decoder.resetAt])
  exact ⟨State.atReset_reset, State.inv_reset, Encoder.legal_of_empty rfl rfl, decoder, rfl⟩

/-! ## A command that holds (rules R139 and R140) -/

section
variable {s : State} {i : Instr} {rest : List HostAction} (hheld : s.held = some i)
include hheld

/-- A command word is not accepted while a command holds (20_memory.md rule R42). -/
theorem step_cmd_of_held {w : Command} (hq : s.hostQueue = .cmd w :: rest) : step s = .next s := by
  simp only [step, hostStep, hq, performAction, hheld]

/-- Any other host action is performed, and then the held command is run again. -/
theorem step_eq_exec_of_hostEffect {t : State} {a : HostAction} (hq : s.hostQueue = a :: rest)
    (heffect : hostEffect a { s with hostQueue := rest } = t)
    (hcmd : ∀ w, a ≠ .cmd w := by nofun) (hreset : a ≠ .reset := by nofun) :
    step s = exec i { t with held := none } := by
  subst heffect
  rw [step_eq_retryHeld hq hcmd hreset, retryHeld, hostEffect_held, hheld]

end

/-- Settles O8: a step with a command held is the host action, by its own equation, and then the
held command from its start. -/
theorem heldCommandRetried : Obligations.HeldCommandRetried := by
  unfold Obligations.HeldCommandRetried
  intro s i rest hheld
  refine ⟨fun w hq => step_cmd_of_held hheld hq, fun b hq hopen => ?_, fun b hq hclosed => ?_,
    fun hq => ?_, fun b out hq hout => ?_, fun b out hq hout => ?_, fun hq hempty => ?_,
    fun hq hempty => ?_, fun a hq => ?_, fun hq => ?_⟩
  · exact step_eq_exec_of_hostEffect hheld hq (pushIn_open hopen)
  · exact step_eq_exec_of_hostEffect hheld hq (pushIn_closed hclosed)
  · exact step_eq_exec_of_hostEffect hheld hq rfl
  · exact step_eq_exec_of_hostEffect hheld hq (popOut_cons hout)
  · exact step_eq_exec_of_hostEffect hheld hq (popDout_cons hout)
  · exact ⟨_, _, step_eq_exec_of_hostEffect hheld hq (popOut_nil hempty)⟩
  · exact ⟨_, _, step_eq_exec_of_hostEffect hheld hq (popDout_nil hempty)⟩
  · exact step_eq_exec_of_hostEffect hheld hq rfl
  · exact ⟨_, step_reset hq, State.atReset_resetBlock _, rfl⟩

end Sys2Proof.Machine
end

section
/-! PROOF. Errors (60_exceptions.md), part 1: a block with an error recorded ignores every command
word but that of `SYS_RESET` (rule R123), so `IRQ` stays up (rule R125). O11 and O12. -/

namespace Sys2Proof.Machine

/-! ## While an error is recorded (rule R123) -/

/-- `SYS_RESET` has one command word. -/
theorem eq_of_decode_sysReset {w : Command} (h : decode w = .ok .sysReset) :
    w = 0x0100000000000000 := by
  obtain ⟨_, -, -, -, hencode⟩ := row_of_decode_eq_ok h
  rw [← hencode]
  decide

section
variable {s : State} (herr : s.err ≠ 0)
include herr

theorem exec_poisoned {i : Instr} (hi : i ≠ .sysReset) : exec i s = .next s.countCommand := by
  rw [exec_eq_runCommand hi, runCommand_poisoned herr]

theorem rejectWord_poisoned (e : DecodeError) : rejectWord e s = s.countCommand := if_neg herr

theorem step_poisoned {w : Command} {rest : List HostAction} (hheld : s.held = none)
    (hq : s.hostQueue = .cmd w :: rest) (hw : w ≠ 0x0100000000000000) :
    step s = .next { s with hostQueue := rest }.countCommand := by
  cases hdecode : decode w with
  | ok i =>
    have hi : i ≠ .sysReset := by
      rintro rfl
      exact hw (eq_of_decode_sysReset hdecode)
    exact (step_of_decode_ok hheld hq hdecode).trans (exec_poisoned (by exact herr) hi)
  | error e =>
    exact (step_of_decode_error hheld hq hdecode).trans
      (congrArg _ (rejectWord_poisoned (by exact herr) e))

end

/-- Settles O11: a word that decodes to a command other than `SYS_RESET` is ignored by the common
dispatch, and one that decodes to none by its rejection. -/
theorem poisonedBlockIgnoresCommands : Obligations.PoisonedBlockIgnoresCommands := by
  unfold Obligations.PoisonedBlockIgnoresCommands
  exact fun _ _ _ hheld hq herr hw => step_poisoned herr hheld hq hw

/-! ## The interrupt line (rule R125) -/

theorem State.irq_iff {s : State} : s.irq = true ↔ s.err ≠ 0 := decide_eq_true_iff

/-- No command holds while an error is recorded. -/
theorem State.Inv.held_eq_none {s : State} (h : s.Inv) (herr : s.err ≠ 0) : s.held = none := by
  cases hheld : s.held with
  | none => rfl
  | some i => exact absurd (h.heldReads i hheld).2 herr

theorem hostEffect_err (a : HostAction) (s : State) : (hostEffect a s).err = s.err := by
  rw [hostEffect_frame]

/-- With an error recorded, a step keeps the error, or the host action was one of the two resets. -/
theorem step_err_of_poisoned {s t : State} (hheld : s.held = none) (herr : s.err ≠ 0)
    (h : step s = .next t) : t.err = s.err ∨ t.err = 0 ∧
      (s.hostQueue.head? = some .reset ∨ s.hostQueue.head? = some (.cmd 0x0100000000000000)) := by
  have next {u : State} (hu : step s = .next u) : u = t := Host.Outcome.next.inj (hu.symm.trans h)
  cases hq : s.hostQueue with
  | nil =>
    have waits : step s = .next s := by rw [step, hostStep, hq]
    exact .inl (next waits ▸ rfl)
  | cons a rest =>
    cases a with
    | cmd w =>
      by_cases hw : w = 0x0100000000000000
      · subst hw
        have resets := step_of_decode_ok hheld hq (decode_encode .sysReset)
        exact .inr ⟨next (resets.trans (exec_sysReset _)) ▸ rfl, .inr rfl⟩
      · exact .inl (next (step_poisoned herr hheld hq hw) ▸ rfl)
    | reset => exact .inr ⟨next (step_reset hq) ▸ rfl, .inl rfl⟩
    | pushIn _ | closeIn | popOut | popDout | read _ =>
      exact .inl (next (step_eq_of_hostEffect hheld hq rfl) ▸ hostEffect_err _ _)

/-- Settles O12: with an error recorded no command holds, so a step that is no reset counts a
command word or moves bytes, and keeps `ERR`. -/
theorem irqStaysUntilReset : Obligations.IrqStaysUntilReset := by
  unfold Obligations.IrqStaysUntilReset
  refine fun s t => ⟨State.irq_iff, fun hinv h hirq => ?_⟩
  have herr := State.irq_iff.mp hirq
  rcases step_err_of_poisoned (hinv.held_eq_none herr) herr h with hkept | ⟨hzero, hreset⟩
  · exact .inl ⟨State.irq_iff.mpr (hkept ▸ herr), hkept⟩
  · exact .inr ⟨by rw [State.irq, hzero]; decide, hreset⟩

end Sys2Proof.Machine
end

section
/-! PROOF. Errors (60_exceptions.md), part 2: a reading raises no usage error (rules R121 and
R122). -/

namespace Sys2Proof.Machine

/-- Whatever a reading raises is no usage error (rule R122). -/
def Reader.StreamErrors {α : Type} (x : Reader α) : Prop :=
  ∀ ⦃r : BitSource⦄ ⦃e : ErrCode⦄, x r = .raise e → e.errClass ≠ .usage

/-! ## What readings are made of -/

theorem streamErrors_pure {α : Type} (a : α) : (Reader.pure a).StreamErrors := nofun

theorem streamErrors_fail {α : Type} {e : ErrCode} (he : e.errClass ≠ .usage := by decide) :
    (Reader.fail (α := α) e).StreamErrors := fun _ _ h => ReadResult.raise.inj h ▸ he

theorem streamErrors_exhausted {α : Type} : (Reader.exhausted (α := α)).StreamErrors := by
  intro r e h
  unfold Reader.exhausted at h
  split at h
  · exact ReadResult.raise.inj h ▸ nofun
  · contradiction

theorem streamErrors_bind {α β : Type} {x : Reader α} {f : α → Reader β} (hx : x.StreamErrors)
    (hf : ∀ a, (f a).StreamErrors) : (x.bind f).StreamErrors := by
  intro r e h
  rcases Reader.bind_raise.mp h with h | ⟨a, p, -, h⟩
  · exact hx h
  · exact hf a h

theorem streamErrors_ite {α : Type} {c : Prop} {_ : Decidable c} {x y : Reader α}
    (hx : x.StreamErrors) (hy : y.StreamErrors) : (if c then x else y).StreamErrors := by
  by_cases h : c
  · rw [if_pos h]; exact hx
  · rw [if_neg h]; exact hy

theorem streamErrors_times {α : Type} (n : Nat) {x : Reader α} (hx : x.StreamErrors) :
    (Reader.times n x).StreamErrors := by
  induction n with
  | zero => exact streamErrors_pure []
  | succ n ih =>
    exact streamErrors_bind hx fun _ => streamErrors_bind ih fun _ => streamErrors_pure _

theorem streamErrors_take : Reader.StreamErrors BitSource.take := by
  intro r e h
  unfold BitSource.take at h
  split at h
  · contradiction
  · exact streamErrors_exhausted (α := Byte) h

theorem streamErrors_refillLoop (fuel n : Nat) :
    Reader.StreamErrors (BitSource.refillLoop fuel n) := by
  induction fuel with
  | zero => exact streamErrors_pure ()
  | succ fuel ih =>
    intro r e h
    by_cases hlive : r.live.toNat < n
    · rw [BitSource.refillLoop_succ fuel hlive] at h
      exact streamErrors_bind streamErrors_take (fun b q _ h => ih (r := q.shiftIn b) h) h
    · rw [BitSource.refillLoop_enough _ hlive] at h
      contradiction

theorem streamErrors_rd (n : Nat) : (rd n).StreamErrors := by
  rw [rd_eq_bind]
  exact streamErrors_bind (streamErrors_refillLoop 4 n) fun _ => nofun

/-! ## Stream and block headers (46_huffman_decode.md rules R105 and R106) -/

theorem streamErrors_expectByte (b : Nat) : (expectByte b).StreamErrors :=
  streamErrors_bind (streamErrors_rd 8) fun _ =>
    streamErrors_ite (streamErrors_pure _) streamErrors_fail

theorem streamErrors_readStreamHdr : readStreamHdr.StreamErrors :=
  streamErrors_bind (streamErrors_expectByte _) fun _ =>
    streamErrors_bind (streamErrors_expectByte _) fun _ =>
      streamErrors_bind (streamErrors_expectByte _) fun _ =>
        streamErrors_bind (streamErrors_rd 8) fun _ =>
          streamErrors_ite streamErrors_fail (streamErrors_pure _)

theorem streamErrors_readBlockStart (combined : Word) :
    (readBlockStart combined).StreamErrors := by
  refine streamErrors_bind (streamErrors_rd 24) fun _ => streamErrors_bind (streamErrors_rd 24)
    fun _ => streamErrors_ite ?block <| streamErrors_ite ?trailer streamErrors_fail
  case block =>
    exact streamErrors_bind (streamErrors_rd 32) fun _ => streamErrors_bind (streamErrors_rd 1)
      fun _ => streamErrors_bind (streamErrors_rd 24) fun _ => streamErrors_pure _
  case trailer =>
    exact streamErrors_bind (streamErrors_rd 32) fun _ =>
      streamErrors_ite streamErrors_fail (streamErrors_pure _)

/-! ## Table section (rules R107 to R111) -/

theorem streamErrors_readGroups (g k : Nat) : (readGroups g k).StreamErrors := by
  induction k with
  | zero => exact streamErrors_pure []
  | succ k ih =>
    have subBitmap := streamErrors_bind (streamErrors_rd 16) fun v =>
      streamErrors_pure (natToBits 16 v)
    exact streamErrors_bind (streamErrors_ite subBitmap (streamErrors_pure _)) fun _ =>
      streamErrors_bind ih fun _ => streamErrors_pure _

theorem streamErrors_readUnary (nG fuel : Nat) : ∀ j, (readUnary nG fuel j).StreamErrors := by
  induction fuel with
  | zero => exact fun _ => streamErrors_fail
  | succ fuel ih =>
    exact fun j => streamErrors_bind (streamErrors_rd 1) fun _ =>
      streamErrors_ite (streamErrors_ite streamErrors_fail (ih _)) (streamErrors_pure _)

theorem streamErrors_readSelectors : readSelectors.StreamErrors :=
  streamErrors_bind (streamErrors_rd 3) fun _ => streamErrors_ite streamErrors_fail <|
    streamErrors_bind (streamErrors_rd 15) fun _ => streamErrors_ite streamErrors_fail <|
      streamErrors_bind (streamErrors_times _ (streamErrors_readUnary _ _ _)) fun _ =>
        streamErrors_pure _

theorem streamErrors_lengthLoop (fuel : Nat) : ∀ curr, (lengthLoop fuel curr).StreamErrors := by
  induction fuel with
  | zero => exact fun _ => streamErrors_exhausted
  | succ fuel ih =>
    exact fun curr => streamErrors_ite streamErrors_fail <|
      streamErrors_bind (streamErrors_rd 1) fun _ => streamErrors_ite (streamErrors_pure _) <|
        streamErrors_bind (streamErrors_rd 1) fun _ => ih _

theorem streamErrors_readDeltas (n : Nat) : ∀ curr, (readDeltas n curr).StreamErrors := by
  induction n with
  | zero => exact fun _ => streamErrors_pure []
  | succ n ih =>
    have length (curr : Nat) : (readLength curr).StreamErrors :=
      fun _ _ h => streamErrors_lengthLoop _ curr h
    exact fun curr => streamErrors_bind (length curr) fun l =>
      streamErrors_bind (ih l) fun _ => streamErrors_pure _

theorem streamErrors_readTable (a : Nat) : (readTable a).StreamErrors :=
  streamErrors_bind (streamErrors_rd 5) fun _ => streamErrors_readDeltas _ _

theorem streamErrors_readTables : readTables.StreamErrors := by
  have mapping : readMapping.StreamErrors :=
    streamErrors_bind (streamErrors_rd 16) fun _ => streamErrors_readGroups _ _
  exact streamErrors_bind mapping fun _ => streamErrors_ite streamErrors_fail <|
    streamErrors_bind streamErrors_readSelectors fun _ =>
      streamErrors_bind (streamErrors_times _ (streamErrors_readTable _)) fun _ =>
        streamErrors_pure _

/-! ## Symbol stream (rules R112 to R115) -/

theorem streamErrors_probeSymbol (d : Decoder) (t fuel : Nat) :
    ∀ zn zvec, (probeSymbol d t fuel zn zvec).StreamErrors := by
  induction fuel with
  | zero => exact fun _ _ => streamErrors_fail
  | succ fuel ih =>
    exact fun zn zvec => streamErrors_ite streamErrors_fail <|
      streamErrors_ite (streamErrors_ite streamErrors_fail (streamErrors_pure _)) <|
        streamErrors_bind (streamErrors_rd 1) fun _ => ih _ _

theorem streamErrors_nextSym (d : Decoder) (g : GroupPos) : (nextSym d g).StreamErrors := by
  have symbol (t : Nat) : (decSym d t).StreamErrors :=
    streamErrors_bind (streamErrors_rd _) fun _ => streamErrors_probeSymbol d t _ _ _
  exact streamErrors_ite
    (streamErrors_ite streamErrors_fail <|
      streamErrors_bind (symbol _) fun _ => streamErrors_pure _)
    (streamErrors_bind (symbol _) fun _ => streamErrors_pure _)

theorem streamErrors_expandLoop (d : Decoder) (nmax fuel : Nat) :
    ∀ g x, (expandLoop d nmax fuel g x).StreamErrors := by
  induction fuel with
  | zero => exact fun _ _ => streamErrors_fail
  | succ fuel ih =>
    refine fun g x => streamErrors_bind (streamErrors_nextSym d g) fun sg => ?_
    cases x.symbol d nmax sg.1 with
    | more y => exact ih sg.2 y
    | done y => exact streamErrors_pure y
    | fail => exact streamErrors_fail

theorem streamErrors_readSymbols (d : Decoder) : (readSymbols d).StreamErrors :=
  streamErrors_bind (streamErrors_expandLoop d _ _ _ _) fun _ =>
    streamErrors_ite streamErrors_fail (streamErrors_pure _)

end Sys2Proof.Machine
end

section
/-! PROOF. Errors (60_exceptions.md), part 3: how every command's own rule can end, and what it then
leaves (rules R126, R128 and R139). O9 and O55. -/

namespace Sys2Proof.Machine

/-! ## How a command ends -/

/-- What each command that can raise a malformed-stream or data-integrity error leaves after one
(rule R128 (b)). -/
def Instr.spoil? : Instr → Option (State → State)
  | .srcRead _ => some spoilSrcRead
  | .decStreamHdr => some spoilStreamHdr
  | .decBlockStart => some spoilBlockStart
  | .decTables => some spoilTables
  | .decSymbols => some spoilSymbols
  | .decBlockEnd => some spoilBlockEnd
  | _ => none

/-- How command `i` can end in state `s`: it completes without touching `ERR` or the port; a usage
error leaves the state; any other error leaves the command's writes unspecified; and only a reading
command holds, with IN open. -/
def CmdResult.EndsFor (i : Instr) (s : State) : CmdResult → Prop
  | .done t => t.err = s.err ∧ t.held = s.held
  | .raise e t => e.errClass = .usage ∧ t = s ∨
      e.errClass ≠ .usage ∧ ∃ spoil, Instr.spoil? i = some spoil ∧ t = spoil s
  | .hold => Instr.readsBits i = true ∧ s.src.closed = false

section
variable {i : Instr} {s : State} {f : State → CmdResult}

theorem endsFor_usage {e : ErrCode} (he : e.errClass = .usage := by rfl) :
    (CmdResult.raise e s).EndsFor i s := .inl ⟨he, rfl⟩

theorem endsFor_ite {c : Prop} {_ : Decidable c} {a b : CmdResult} (ha : a.EndsFor i s)
    (hb : b.EndsFor i s) : (if c then a else b).EndsFor i s := by
  by_cases h : c
  · rw [if_pos h]; exact ha
  · rw [if_neg h]; exact hb

theorem endsFor_unlessNoBlock (hf : (f s).EndsFor i s) : (unlessNoBlock f s).EndsFor i s :=
  endsFor_ite ⟨rfl, rfl⟩ hf

theorem endsFor_sinkCommand (hf : (f s).EndsFor i s) : (sinkCommand f s).EndsFor i s :=
  endsFor_ite endsFor_usage hf

theorem endsFor_inDState {d : DState} (hf : (f s).EndsFor i s) : (inDState d f s).EndsFor i s :=
  endsFor_ite endsFor_usage hf

/-- A reading holds only while IN is open. -/
theorem Reader.Lazy.open_of_hold {α : Type} {x : Reader α} (hx : x.Lazy) {r : BitSource}
    (h : x r = .hold) : r.closed = false := by
  have hx := hx r []
  rw [h] at hx
  cases hx with
  | hold opened => exact opened

theorem endsFor_readCommand {α : Type} {x : Reader α} {spoil : State → State}
    {k : α → BitSource → State → CmdResult} (hi : Instr.readsBits i = true)
    (hspoil : Instr.spoil? i = some spoil) (hlazy : x.Lazy) (herrors : x.StreamErrors)
    (hk : ∀ a r, (k a r s).EndsFor i s) : (readCommand x spoil k s).EndsFor i s := by
  rcases readCommand_cases x spoil k s with ⟨a, r, -, h⟩ | ⟨e, hx, h⟩ | ⟨hx, h⟩
  · rw [h]; exact hk a r
  · rw [h]; exact .inr ⟨herrors hx, spoil, hspoil, rfl⟩
  · rw [h]; exact ⟨hi, hlazy.open_of_hold hx⟩

end

theorem commandBody_endsFor {i : Instr} (hi : i ≠ .sysReset) (s : State) :
    (commandBody i s).EndsFor i s := by
  have completes : s.err = s.err ∧ s.held = s.held := ⟨rfl, rfl⟩
  cases i with
  | sysReset => exact absurd rfl hi
  | nop | sinkReset | srcReset | crcReset | crcCombine | blkReset | decReset => exact completes
  | crcUpdate _ | crcUpdateRun _ _ | crcFold _ => exact completes
  | cfg bs => exact endsFor_ite endsFor_usage (endsFor_ite endsFor_usage completes)
  | sinkWrite n value =>
    rw [commandBody]
    exact endsFor_sinkCommand (endsFor_ite endsFor_usage completes)
  | sinkFlush | sinkFinish | encStreamHdr | encTrailer =>
    rw [commandBody]
    exact endsFor_sinkCommand completes
  | encBlockHdr rand origPtr =>
    exact endsFor_unlessNoBlock (endsFor_sinkCommand (endsFor_ite endsFor_usage completes))
  | blkPut byte => exact endsFor_ite endsFor_usage (endsFor_ite endsFor_usage completes)
  | encMtf | encTrain | encCodes =>
    exact endsFor_unlessNoBlock (endsFor_ite endsFor_usage completes)
  | encEmit =>
    exact endsFor_unlessNoBlock (endsFor_ite endsFor_usage (endsFor_sinkCommand completes))
  | srcRead n =>
    exact endsFor_ite endsFor_usage <|
      endsFor_readCommand rfl rfl (lazy_rd _) (streamErrors_rd _) fun _ _ => completes
  | decStreamHdr =>
    exact endsFor_inDState <| endsFor_readCommand rfl rfl lazy_readStreamHdr
      streamErrors_readStreamHdr fun _ _ => completes
  | decBlockStart =>
    refine endsFor_inDState <| endsFor_readCommand rfl rfl (lazy_readBlockStart _)
      (streamErrors_readBlockStart _) fun start _ => ?_
    cases start with
    | block crc rand origPtr => exact completes
    | trailer => exact completes
  | decTables =>
    exact endsFor_inDState <| endsFor_readCommand rfl rfl lazy_readTables
      streamErrors_readTables fun _ _ => completes
  | decSymbols =>
    exact endsFor_inDState <| endsFor_readCommand rfl rfl (lazy_readSymbols _)
      (streamErrors_readSymbols _) fun _ _ => completes
  | decIbwt => exact endsFor_inDState completes
  | decWalk => exact endsFor_ite endsFor_usage completes
  | decBlockEnd =>
    rw [commandBody]
    exact endsFor_inDState (endsFor_ite (.inr ⟨nofun, _, rfl, rfl⟩) completes)

/-- A failed command leaves everything but the registers and memories of its writes. -/
theorem spoil_frame {i : Instr} {spoil : State → State} (h : Instr.spoil? i = some spoil)
    (s : State) : spoil s = { s with
      freeTick := (spoil s).freeTick, src := (spoil s).src, dec := (spoil s).dec
      res := (spoil s).res, crc := (spoil s).crc, combined := (spoil s).combined } := by
  cases i with
  | srcRead _ | decStreamHdr | decBlockStart | decTables | decSymbols | decBlockEnd =>
    exact Option.some.inj h ▸ rfl
  | _ => contradiction

/-- Everything a command can answer (rules R59, R123, R128 and R139): a reset; a state with `ERR` and
the port as they were, when it completes or is ignored; an error; or a hold. -/
inductive ExecEnds (i : Instr) (s : State) : State → Prop
  | reset : i = .sysReset → ExecEnds i s s.resetBlock
  | proceeds {t : State} : t.err = s.err → t.held = s.held → ExecEnds i s t
  | usage {e : ErrCode} : e.errClass = .usage → ExecEnds i s (takeError e s)
  | fails {e : ErrCode} {spoil : State → State} : e.errClass ≠ .usage →
      Instr.spoil? i = some spoil → ExecEnds i s (takeError e (spoil s))
  | holds : Instr.readsBits i = true → s.err = 0 → s.src.closed = false →
      ExecEnds i s { s with held := some i }

theorem exec_ends {i : Instr} {s t : State} (h : exec i s = .next t) : ExecEnds i s t := by
  rcases exec_cases h with ⟨hi, rfl⟩ | ⟨-, -, rfl⟩ | ⟨hi, -, u, hu, rfl⟩ | ⟨hi, -, e, u, hu, rfl⟩ |
    ⟨hi, herr, hu, rfl⟩
  · exact .reset hi
  · exact .proceeds rfl rfl
  all_goals
    have ends := commandBody_endsFor hi s
    rw [hu] at ends
  · exact .proceeds ends.1 ends.2
  · rcases ends with ⟨he, rfl⟩ | ⟨he, spoil, hspoil, rfl⟩
    · exact .usage he
    · exact .fails he hspoil
  · exact .holds ends.1 herr ends.2

/-! ## Holds (70_reset_and_hazards.md rule R139) -/

/-- Settles O9: of all ways a command can end, only a hold leaves a command at the port. -/
theorem holdHasNoEffect : Obligations.HoldHasNoEffect := by
  unfold Obligations.HoldHasNoEffect
  intro i s t hfree h hheld
  cases exec_ends h with
  | reset => contradiction
  | proceeds _ hkept => exact absurd (hkept.trans hfree) hheld
  | usage => exact absurd hfree hheld
  | fails _ hspoil =>
    rw [spoil_frame hspoil] at hheld
    exact absurd hfree hheld
  | holds hreads herr hopen => exact ⟨rfl, hreads, herr, hopen⟩

/-! ## Errors (60_exceptions.md rules R126 and R128) -/

/-- The usage errors are those from 0x20 on (rules R121 and R122). -/
theorem ErrCode.usage_iff (e : ErrCode) : e.errClass = .usage ↔ 0x20 ≤ e.toBits.toNat := by
  cases e <;> decide

/-- An error is a usage error and leaves the state, or of another class and leaves the command's
writes unspecified. -/
theorem exec_error_cases {i : Instr} {s t : State} (herr : s.err = 0) (h : exec i s = .next t)
    (hterr : t.err ≠ 0) :
    (∃ e : ErrCode, e.errClass = .usage ∧ t = takeError e s) ∨
    ∃ (e : ErrCode) (spoil : State → State), e.errClass ≠ .usage ∧ Instr.spoil? i = some spoil ∧
      t = takeError e (spoil s) := by
  cases exec_ends h with
  | reset => contradiction
  | proceeds hkept => exact absurd (hkept.trans herr) hterr
  | usage he => exact .inl ⟨_, he, rfl⟩
  | fails he hspoil => exact .inr ⟨_, _, he, hspoil, rfl⟩
  | holds => exact absurd herr hterr

/-- Settles O55: an error is raised before anything is written, or by a reading or the CRC check of
`DEC_BLOCK_END`, after which the command's writes alone are unspecified. -/
theorem errorsLeaveTheRestAlone : Obligations.ErrorsLeaveTheRestAlone := by
  unfold Obligations.ErrorsLeaveTheRestAlone
  intro s t i herr h hterr
  rcases exec_error_cases herr h hterr with ⟨e, he, rfl⟩ | ⟨e, spoil, he, hspoil, rfl⟩
  · exact ⟨rfl, fun _ => rfl, fun hlow => absurd (e.usage_iff.mp he) (Nat.not_le.mpr hlow)⟩
  · have hframe := congrArg (takeError e) (spoil_frame hspoil s)
    refine ⟨congrArg State.cmdCnt hframe, fun hhigh => absurd (e.usage_iff.mpr hhigh) he,
      fun _ => ?_⟩
    cases i with
    | srcRead n =>
      obtain rfl := Option.some.inj hspoil
      exact ⟨.inl rfl, hframe, rfl, ⟨_, rfl⟩, fun _ => ⟨rfl, rfl, rfl⟩, nofun, nofun, nofun, nofun,
        nofun⟩
    | decStreamHdr =>
      obtain rfl := Option.some.inj hspoil
      exact ⟨.inl rfl, hframe, rfl, ⟨_, rfl⟩, nofun, fun _ => ⟨rfl, rfl, rfl⟩, nofun, nofun, nofun,
        nofun⟩
    | decBlockStart =>
      obtain rfl := Option.some.inj hspoil
      exact ⟨.inl rfl, hframe, rfl, ⟨_, rfl⟩, nofun, nofun, fun _ => ⟨rfl, rfl, rfl⟩, nofun, nofun,
        nofun⟩
    | decTables =>
      obtain rfl := Option.some.inj hspoil
      exact ⟨.inl rfl, hframe, rfl, ⟨_, rfl⟩, nofun, nofun, nofun, fun _ => ⟨rfl, rfl, rfl, rfl⟩,
        nofun, nofun⟩
    | decSymbols =>
      obtain rfl := Option.some.inj hspoil
      exact ⟨.inl rfl, hframe, rfl, ⟨_, rfl⟩, nofun, nofun, nofun, nofun,
        fun _ => ⟨rfl, rfl, rfl, rfl⟩, nofun⟩
    | decBlockEnd =>
      obtain rfl := Option.some.inj hspoil
      exact ⟨.inr rfl, hframe, rfl, ⟨0, rfl⟩, nofun, nofun, nofun, nofun, nofun,
        fun _ => ⟨rfl, rfl, rfl, rfl⟩⟩
    | _ => contradiction

end Sys2Proof.Machine
end

section
/-! PROOF. The decoder's state machine (47_bwt_inverse.md rule R120). O54. -/

namespace Sys2Proof.Machine

/-- If the command that led from `s` to `t` completed, `DSTATE` moved along the diagram. -/
def MovedAlongDiagram (i : Instr) (s t : State) : Prop :=
  t.err = 0 → t.held = none → decoderMove i s.dec.dstate t.dec.dstate s.dec.rand = true

theorem commandBody_movedAlongDiagram {i : Instr} (hi : i ≠ .sysReset) (s : State) :
    (commandBody i s).LeadsTo i s (MovedAlongDiagram i s) := by
  have fails (e : ErrCode) (t : State) : MovedAlongDiagram i s (takeError e t) :=
    fun herr => absurd herr e.toBits_ne_zero
  have holds : MovedAlongDiagram i s (holdCommand i s) := fun _ => nofun
  have same : decide (s.dec.dstate = s.dec.dstate) = true := decide_eq_true rfl
  cases i with
  | sysReset => exact absurd rfl hi
  | nop | sinkReset | srcReset | crcReset | crcCombine | blkReset => exact fun _ _ => same
  | crcUpdate _ | crcUpdateRun _ _ | crcFold _ => exact fun _ _ => same
  | cfg bs =>
    exact leadsTo_ite (fun _ => fails _ _) fun _ =>
      leadsTo_ite (fun _ => fails _ _) fun _ _ _ => same
  | sinkWrite n value =>
    rw [commandBody]
    exact leadsTo_sinkCommand (fails _ _) (leadsTo_ite (fun _ => fails _ _) fun _ _ _ => same)
  | sinkFlush | sinkFinish | encStreamHdr | encTrailer =>
    rw [commandBody]
    exact leadsTo_sinkCommand (fails _ _) fun _ _ => same
  | encBlockHdr rand origPtr =>
    exact leadsTo_unlessNoBlock (fun _ _ => same) fun _ =>
      leadsTo_sinkCommand (fails _ _) (leadsTo_ite (fun _ => fails _ _) fun _ _ _ => same)
  | srcRead n =>
    exact leadsTo_ite (fun _ => fails _ _) fun _ =>
      leadsTo_readCommand (fun _ _ _ _ _ => same) (fun _ => fails _ _) holds
  | blkPut byte =>
    exact leadsTo_ite (fun _ => fails _ _) fun _ =>
      leadsTo_ite (fun _ => fails _ _) fun _ _ _ => same
  | encMtf | encTrain | encCodes =>
    exact leadsTo_unlessNoBlock (fun _ _ => same) fun _ =>
      leadsTo_ite (fun _ => fails _ _) fun _ _ _ => same
  | encEmit =>
    exact leadsTo_unlessNoBlock (fun _ _ => same) fun _ => leadsTo_ite (fun _ => fails _ _) fun _ =>
      leadsTo_sinkCommand (fails _ _) fun _ _ => same
  | decReset => exact fun _ _ => rfl
  | decStreamHdr | decTables | decSymbols =>
    exact leadsTo_inDState (fails _ _) fun hs => leadsTo_readCommand
      (fun _ _ _ _ _ => decide_eq_true ⟨hs, rfl⟩) (fun _ => fails _ _) holds
  | decBlockStart =>
    refine leadsTo_inDState (fails _ _) fun hs =>
      leadsTo_readCommand (fun start _ _ => ?_) (fun _ => fails _ _) holds
    cases start with
    | block crc rand origPtr => exact fun _ _ => decide_eq_true ⟨hs, .inl rfl⟩
    | trailer => exact fun _ _ => decide_eq_true ⟨hs, .inr rfl⟩
  | decIbwt =>
    exact leadsTo_inDState (fails _ _) fun hs => leadsTo_ibwt fun _ _ => decide_eq_true ⟨hs, rfl⟩
  | decWalk =>
    exact leadsTo_ite (fun _ => fails _ _) fun hs _ _ =>
      decide_eq_true ⟨or_iff_not_and_not.mpr hs, rfl⟩
  | decBlockEnd =>
    rw [commandBody]
    exact leadsTo_inDState (fails _ _) fun hs => leadsTo_ite (fun _ => fails _ _) fun _ _ _ =>
      decide_eq_true ⟨hs, rfl⟩

/-- Settles O54: each decoder command checks that it is at its place in the diagram and then writes
the next state, and no other command but `SYS_RESET` writes `DSTATE`. -/
theorem decoderMovesFollowDiagram : Obligations.DecoderMovesFollowDiagram := by
  unfold Obligations.DecoderMovesFollowDiagram
  intro s t i herr _ h
  by_cases hi : i = .sysReset
  · subst hi
    exact Host.Outcome.next.inj h ▸ fun _ _ => rfl
  · exact exec_leadsTo hi herr (commandBody_movedAlongDiagram hi s) h

end Sys2Proof.Machine
end
